-- ==== Sys2Proof/Word.lean ====
section
/-!
DEFINITION. The word types of the 2480: what the manual treats as bits.
-/
namespace Sys2Proof

/-- A byte of host memory or of a record. -/
abbrev Byte := BitVec 8

/-- A 64-bit time value, host address, operand, tag or register. -/
abbrev U64 := BitVec 64

/-- The contents of one 64-byte posting slot, byte 0 in the least significant eight bits (R186). -/
abbrev PostSlot := BitVec 512

/-- One 32-byte report record as written, byte 0 in the least significant eight bits (R186). -/
abbrev ReportSlot := BitVec 256

end Sys2Proof
end

