-- ==== Sys2Proof/Config.lean ====
section
/-!
DEFINITION. The numbers the manual fixes for the 2480. No value is left free here: what the manual leaves to the
interconnect, the host or the supplies comes in as an operand of a command (log entries 5, 6, 9).
-/
namespace Sys2Proof.Config

/-- Timers are numbered 0 to 4095 (00, Numbering). -/
abbrev numTimers : Nat := 4096

/-- Regions are numbered 0 to 63 (00, Numbering). -/
abbrev numRegions : Nat := 64

/-- Event lines are numbered 0 to 7 (R115). -/
abbrev numLines : Nat := 8

/-- Rings of each kind are numbered 0 to 8 (00, Numbering). -/
abbrev numRings : Nat := 9

/-- The Action Engine has four action slots (R58). -/
abbrev numActionSlots : Nat := 4

/-- The hold list never holds more than 32 entries (R152, R158). -/
abbrev holdCapacity : Nat := 32

/-- A gap is 64 internal-oscillator periods with no REFCLK edge (R84). -/
abbrev gapPeriods : Nat := 64

/-- REFCLK is qualified by 1024 edges (R85). -/
abbrev qualifyEdges : Nat := 1024

/-- A pending switch times out at its 65,536th tick (R86). -/
abbrev qualifyTicks : Nat := 65536

/-- The trim window has 2^20 positions (R90). -/
abbrev trimWindow : Nat := 1048576

/-- The largest trim (R91). -/
abbrev maxTrim : Nat := 1023

/-- Divisors are 1 to 65536 (R79). -/
abbrev maxDivisor : Nat := 65536

/-- The internal divisor after a cold reset (04, state table). -/
abbrev coldInternalDivisor : Nat := 32

/-- The external divisor after a cold reset (04, state table). -/
abbrev coldExternalDivisor : Nat := 10

/-- The longest period, 2^40 ticks (R14). -/
abbrev maxPeriod : Nat := 1099511627776

/-- The widest pulse and the longest coalesce time, 2^24 ticks (R15, R166). -/
abbrev maxPulse : Nat := 16777216

/-- The longest run of HIGH takes while a NORMAL ring is eligible (R135). -/
abbrev maxHighRun : Nat := 8

/-- The lost count and the skipped count saturate at 65535 (R37, R160). -/
abbrev maxCount16 : Nat := 65535

/-- 2^64: host addresses and times lie below it. -/
abbrev space64 : Nat := 18446744073709551616

/-- 2^32. -/
abbrev space32 : Nat := 4294967296

/-- The IDENT register: family 0x00D2, part 0x2480, revision 0x01 (R178; 10, Register bit layout). -/
def ident : U64 := 0x01248000D2#64

end Sys2Proof.Config
end

