-- ==== Sys2Proof/Syntax.lean ====
section
/-!
DEFINITION. The commands of the 2480: one constructor for each row of spec/opcode_table.json. An operand is what comes
from outside the block with the command: the data of an answer, the value of a register write, the level of a supply.
A request taken by its owner has no operand: its record came in with the intake's read answers and is held in the
record in progress (log entry 7).
-/
namespace Sys2Proof

/-- The interconnect's answer to a read of one 64-byte posting slot (R137). -/
inductive SlotRead where
  | ok (bytes : PostSlot)
  | error
  deriving DecidableEq, Repr

/-- The interconnect's answer to a read of an action's target: the bytes read, little-endian (R60). -/
inductive WordRead where
  | ok (value : U64)
  | error
  deriving DecidableEq, Repr

/-- The interconnect's answer to a write. An ERROR does not tell which bytes the write reached (R70, R163): bit n of
`landed` says whether byte n of the write did. -/
inductive WriteAnswer where
  | ok
  | error (landed : BitVec 32)
  deriving DecidableEq, Repr

/-- The operation a report write's answer names (R167: "Each answer of the system port names the operation it answers"):
the write in flight of a ring, or one of the writes left outstanding by the deletion of a ring. -/
inductive ReportWrite where
  | ring (n : Nat)
  | deleted (k : Nat)
  deriving DecidableEq, Repr

/-- One command of the 2480, in the order of spec/opcode_table.json. -/
inductive Instr where
  -- requests taken by the Timer Store
  | arm
  | cancel
  | retime
  | query
  -- requests taken by the Region Table
  | setRegion
  | clearRegion
  -- requests taken by the Time Base
  | configureTimebase
  | setTrim
  | setTime
  | setMarks
  | readTime
  -- the request taken by the Line Unit
  | setLineRest
  -- requests taken by the Posting Unit and the Report Unit
  | createPostRing
  | deletePostRing
  | resumePostRing
  | createReportRing
  | deleteReportRing
  -- the intake
  | intakeChoice
  | intakeReadAnswer (answer : SlotRead)
  -- doorbells
  | postingTailDoorbell (ring : BitVec 4) (value : BitVec 16)
  | reportConsumerDoorbell (ring : BitVec 4) (value : BitVec 16)
  | doorbellNoRing (ring : BitVec 4) (kind : BitVec 2) (value : BitVec 16)
  -- enabling, resets and supplies
  | enable
  | functionReset (enableBit : Bool)
  | resetAssert
  | resetRelease
  | abandonedAnswer (index : Nat) (answeredOk : Bool) (landed : BitVec 32)
  | mainSupplyLoss (landed : List (BitVec 32))
  | mainSupplyReturn
  | coldReset (keepAlive : Bool)
  -- other register writes
  | adminPostBaseWrite (value : U64)
  | adminReportBaseWrite (value : U64)
  | adminSizesWrite (value : U64)
  | doorbellErrorClear (value : U64)
  | intrPendingClear (value : U64)
  | intrMaskWrite (value : U64)
  | registerWriteOther (offset : BitVec 7) (size : Nat) (value : U64)
  -- the clock
  | tick
  | sourceQualified
  | sourceSwitch
  | qualificationTimeout
  | refclkGap
  | alignEdge
  | alignTimeout
  | pulseEnd (line : Nat)
  | coalesceTimeExpiry (ring : Nat)
  -- dispatch and actions
  | dispatchWalk
  | dispatchClaim
  | heldActionBegin (slot : Nat)
  | actionReadAnswer (slot : Nat) (answer : WordRead)
  | actionWriteAnswer (slot : Nat) (answer : WriteAnswer)
  | lineRequest (slot : Nat)
  | lineAnswer (slot : Nat)
  | completionReturn
  | reportWriteAnswer (write : ReportWrite) (answer : WriteAnswer)
  | refclkEdge
  | keepAliveSupplyLoss
  deriving DecidableEq, Repr

end Sys2Proof
end

