-- ==== Sys2Proof/Decode.lean ====
section
/-!
DEFINITION. No row of spec/opcode_table.json gives bits, so no word spells a command by the table. A write to the register
window does spell one, by the offsets and bit positions of the Register Window and Record Formats chapters:
`decodeWindowWrite` says which.
-/
namespace Sys2Proof

/-- The command a word spells by the table's bits: no row gives bits. -/
def decodeTableWord (_nbits _w : Nat) : Option Instr := none

/-- A DOORBELL write: value in bits 0 to 15, ring in bits 32 to 35, kind in bits 40 to 41 (R184; 10, Register bit
layout). -/
def decodeDoorbell (value : U64) : Instr :=
  let v : BitVec 16 := value.extractLsb' 0 16
  let ring : BitVec 4 := value.extractLsb' 32 4
  let kind : BitVec 2 := value.extractLsb' 40 2
  if 8 < ring.toNat then .doorbellNoRing ring kind v
  else if kind = 0 then .postingTailDoorbell ring v
  else if kind = 1 then .reportConsumerDoorbell ring v
  else .doorbellNoRing ring kind v

/-- A CONTROL write: FUNCTION_RESET in bit 1, ENABLE in bit 0 (R179). -/
def decodeControl (size : Nat) (value : U64) : Instr :=
  if value.getLsbD 1 then .functionReset (value.getLsbD 0)
  else if value.getLsbD 0 then .enable
  else .registerWriteOther 0x08 size value

/-- The command that a write of `size` bytes of `value` at an offset of the register window is (R177 to R185): one of 8
bytes at a register's offset acts on that register; every other write is ignored. -/
def decodeWindowWrite (offset : BitVec 7) (size : Nat) (value : U64) : Instr :=
  if size ≠ 8 then .registerWriteOther offset size value
  else if offset = 0x08 then decodeControl size value
  else if offset = 0x10 then
    if value.getLsbD 16 then .doorbellErrorClear value else .registerWriteOther offset size value
  else if offset = 0x18 then .adminPostBaseWrite value
  else if offset = 0x20 then .adminReportBaseWrite value
  else if offset = 0x28 then .adminSizesWrite value
  else if offset = 0x30 then decodeDoorbell value
  else if offset = 0x38 then .intrPendingClear value
  else if offset = 0x40 then .intrMaskWrite value
  else .registerWriteOther offset size value

end Sys2Proof
end

