-- ==== Sys2Proof/Machine/State.lean ====
section
/-!
DEFINITION. The state of the 2480: one structure for each block, holding what the manual gives that block, and the queue
of commands. Plain data throughout. Numbered records (timers, regions, lines, rings, action slots) are kept as sorted
lists of (number, record) that list only the records differing from their reset value (Maps.lean).
-/
namespace Sys2Proof.Machine

/-! ### Timer Store -/

/-- The time a deadline is expressed in. -/
inductive Scale where
  | pt
  | mt
  deriving DecidableEq, Repr

/-- Where a timer slot stands (R1). -/
inductive SlotState where
  | free
  | armed
  | firing
  deriving DecidableEq, Repr

/-- Which of a timer's two actions is next, or in flight. -/
inductive Phase where
  | main
  | follow
  deriving DecidableEq, Repr

/-- How missed periods are treated (R36, R37). -/
inductive PeriodPolicy where
  | catchup
  | skip
  deriving DecidableEq, Repr

/-- Which firings are reported (R45). -/
inductive ReportPolicy where
  | all
  | final
  | errorsAndFinal
  | none
  deriving DecidableEq, Repr

/-- The action kinds (10, Action block). -/
inductive ActionKind where
  | note
  | load
  | store
  | setBits
  | clearBits
  | swapIfEqual
  | countDown
  | linePulse
  | lineSet
  deriving DecidableEq, Repr

/-- The follow conditions (R39). -/
inductive Condition where
  | always
  | ifMatch
  | ifNoMatch
  | ifZero
  | ifNonzero
  deriving DecidableEq, Repr

/-- An accepted action: `target` is a region number for a memory kind, a line number for a line kind (R13). -/
structure Action where
  kind   : ActionKind
  width  : Nat
  target : Nat
  offset : BitVec 32
  opA    : U64
  opB    : U64
  deriving DecidableEq, Repr

/-- The period of a periodic arming with its policy (R13: "present with a period"). -/
structure Period where
  ticks  : U64
  policy : PeriodPolicy
  deriving DecidableEq, Repr

/-- The follow part of an arming (R13). -/
structure FollowPart where
  condition : Condition
  delay     : BitVec 32
  action    : Action
  deriving DecidableEq, Repr

/-- One of the 4096 slot records (01, table of slot records). -/
structure TimerSlot where
  state           : SlotState
  generation      : BitVec 8
  phase           : Phase
  scale           : Scale
  deadline        : U64
  seq             : U64
  stepped         : Bool
  period          : Option Period
  countLimit      : BitVec 32
  fireCount       : BitVec 32
  stopAtZero      : Bool
  mainAction      : Action
  follow          : Option FollowPart
  reportRing      : Option Nat
  reportPolicy    : ReportPolicy
  tag             : U64
  cancelRequested : Bool
  deriving DecidableEq, Repr

/-- The action of a slot at reset: NOTE (R28). -/
def Action.reset : Action := ⟨.note, 0, 0, 0, 0, 0⟩

/-- A slot record after a cold or function reset (R28; the fields R28 does not list: log entry 15). -/
def TimerSlot.reset : TimerSlot where
  state := .free
  generation := 0
  phase := .main
  scale := .pt
  deadline := 0
  seq := 0
  stepped := false
  period := none
  countLimit := 0
  fireCount := 0
  stopAtZero := false
  mainAction := Action.reset
  follow := none
  reportRing := none
  reportPolicy := .none
  tag := 0
  cancelRequested := false

/-- The Timer Store: slot records, the two expiry queues in order, and the insertion sequence counter. -/
structure TimerStore where
  slots   : List (Nat × TimerSlot)
  ptQueue : List Nat
  mtQueue : List Nat
  nextSeq : U64
  deriving DecidableEq, Repr

/-- The Timer Store after a cold or function reset (R28). -/
def TimerStore.reset : TimerStore := ⟨[], [], [], 0⟩

/-! ### Dispatcher -/

/-- What the conflict test compares (R52): an aligned host word, by its address, or an event line. -/
inductive Target where
  | word (addr : U64)
  | line (n : Nat)
  deriving DecidableEq, Repr

/-- An entry of the offered set (R51). -/
structure Offer where
  timer    : Nat
  scale    : Scale
  deadline : U64
  seq      : U64
  target   : Option Target
  deriving DecidableEq, Repr

/-- The Dispatcher: the offered set and the claim outstanding (R51). -/
structure Dispatcher where
  offered : List Offer
  claim   : Option Nat
  deriving DecidableEq, Repr

/-- The Dispatcher after a reset (R51). -/
def Dispatcher.reset : Dispatcher := ⟨[], none⟩

/-! ### Action Engine -/

/-- The stages of an action slot (R58). -/
inductive Stage where
  | empty
  | held
  | reading
  | writing
  | line
  deriving DecidableEq, Repr

/-- How an action ended (R58). -/
inductive ActionStatus where
  | ok
  | readError
  | writeError
  deriving DecidableEq, Repr

/-- The states of an event line (R115). -/
inductive LineState where
  | rest
  | held
  | pulsing
  deriving DecidableEq, Repr

/-- An action slot's record (R58). `addr` is the host address of a memory kind; `answer` the Line Unit's answer when it
has been sent and has not yet arrived. -/
structure ActionSlot where
  stage      : Stage
  timer      : Nat
  generation : BitVec 8
  phase      : Phase
  scale      : Scale
  deadline   : U64
  tag        : U64
  stepped    : Bool
  action     : Action
  addr       : U64
  target     : Option Target
  lateness   : BitVec 32
  old        : Option U64
  result     : U64
  matchFlag  : Bool
  zeroFlag   : Bool
  status     : ActionStatus
  answer     : Option LineState
  deriving DecidableEq, Repr

/-- An EMPTY action slot: its fields other than stage have no effect (R58). -/
def ActionSlot.reset : ActionSlot where
  stage := .empty
  timer := 0
  generation := 0
  phase := .main
  scale := .pt
  deadline := 0
  tag := 0
  stepped := false
  action := Action.reset
  addr := 0
  target := none
  lateness := 0
  old := none
  result := 0
  matchFlag := false
  zeroFlag := false
  status := .ok
  answer := none

/-- What the Action Engine hands the store at completion: the completion return (R10) with the draft FIRED report
(R73). -/
structure Completion where
  timer      : Nat
  generation : BitVec 8
  tag        : U64
  scale      : Scale
  lateness   : BitVec 32
  status     : ActionStatus
  result     : U64
  matchFlag  : Bool
  zeroFlag   : Bool
  stepped    : Bool
  deriving DecidableEq, Repr

/-- The Action Engine: the action slots, the occupied ones in the order of their dispatch (R57), and the completion
returns on their way to the store, first completed first (R10). -/
structure ActionEngine where
  slots   : List (Nat × ActionSlot)
  order   : List Nat
  returns : List Completion
  deriving DecidableEq, Repr

/-- The Action Engine after a reset (R58, R75). -/
def ActionEngine.reset : ActionEngine := ⟨[], [], []⟩

/-! ### Region Table -/

/-- The access of a region (R107). -/
inductive Access where
  | read
  | write
  | readWrite
  deriving DecidableEq, Repr

/-- A region record (05, table of region records). -/
structure Region where
  valid  : Bool
  base   : U64
  length : Nat
  access : Access
  refs   : Nat
  deriving DecidableEq, Repr

/-- A region after a reset (R114). -/
def Region.reset : Region := ⟨false, 0, 0, .read, 0⟩

/-! ### Line Unit -/

/-- A rest level (R115), also the level an output drives. -/
inductive Level where
  | low
  | high
  deriving DecidableEq, Repr

/-- A line record (06, table of line records). -/
structure LineRec where
  state    : LineState
  pulseEnd : Option U64
  rest     : Level
  deriving DecidableEq, Repr

/-- A line after a cold reset (R123). -/
def LineRec.reset : LineRec := ⟨.rest, none, .low⟩

/-! ### Posting Unit -/

/-- The states of a posting ring (R125). -/
inductive PostRingState where
  | absent
  | active
  | stalled
  deriving DecidableEq, Repr

/-- A posting ring's class (07, table of posting ring records). -/
inductive RingClass where
  | administration
  | high
  | normal
  deriving DecidableEq, Repr

/-- A posting ring record. -/
structure PostRing where
  state    : PostRingState
  base     : U64
  size     : Nat
  head     : Nat
  tail     : Nat
  headNeed : Nat
  ringClass : RingClass
  bound    : Nat
  deriving DecidableEq, Repr

/-- An ABSENT posting ring (R148; its fields other than the state: log entry 25). -/
def PostRing.reset : PostRing := ⟨.absent, 0, 0, 0, 0, 0, .administration, 0⟩

/-- The stages of the record in progress (R133). -/
inductive IntakeStage where
  | fetching
  | decoding
  | atOwner
  deriving DecidableEq, Repr

/-- The record in progress (R133). `bound` is the report ring that holds its reservation, `normalEligible` whether a
NORMAL ring was eligible when its ring was chosen (R135, log entry 24). -/
structure IntakeRecord where
  ring           : Nat
  bound          : Nat
  first          : Nat
  stage          : IntakeStage
  length         : Option Nat
  slot1          : Option PostSlot
  slot2          : Option PostSlot
  newHead        : Nat
  normalEligible : Bool
  deriving DecidableEq, Repr

/-- The Posting Unit: its rings, the record in progress, and the arbiter's positions and run. -/
structure PostingUnit where
  rings      : List (Nat × PostRing)
  inProgress : Option IntakeRecord
  lastHigh   : Option Nat
  lastNormal : Option Nat
  highRun    : Nat
  deriving DecidableEq, Repr

/-- The Posting Unit after a reset (R148). -/
def PostingUnit.reset : PostingUnit := ⟨[], none, none, none, 0⟩

/-! ### Time Base -/

/-- The source states (R83). -/
inductive SourceState where
  | internal
  | qualifying
  | external
  | fallback
  deriving DecidableEq, Repr

/-- The mode of a time step (R93). -/
inductive StepMode where
  | absolute
  | relative
  deriving DecidableEq, Repr

/-- What an owner keeps to hand in a deferred acknowledgment (R140). -/
structure AckHead where
  ring    : Nat
  bound   : Nat
  opcode  : Byte
  first   : Nat
  newHead : Nat
  deriving DecidableEq, Repr

/-- The pending step (R94). -/
structure PendingStep where
  mode   : StepMode
  value  : U64
  expiry : U64
  ack    : AckHead
  deriving DecidableEq, Repr

/-- The pending switch (R85). `toFallback` records the return state: FALLBACK when set, else INTERNAL. -/
structure PendingSwitch where
  toFallback : Bool
  edges      : Nat
  ticks      : Nat
  ack        : AckHead
  deriving DecidableEq, Repr

/-- The Time Base (04, state table). `offset` is OFFSET modulo 2^64; `windowPos` the position the next tick takes (log
entry 11); `gapCount` the gap detector's count (R84). -/
structure TimeBase where
  mt            : U64
  offset        : U64
  trim          : Int
  windowPos     : Nat
  source        : SourceState
  intDivisor    : Nat
  extDivisor    : Nat
  divInUse      : Nat
  prescaler     : Nat
  gapCount      : Nat
  pendingStep   : Option PendingStep
  pendingSwitch : Option PendingSwitch
  marks         : Bool
  deriving DecidableEq, Repr

/-- The Time Base after a cold reset (R101; the gap detector's count: log entry 22). -/
def TimeBase.cold : TimeBase where
  mt := 0
  offset := 0
  trim := 0
  windowPos := 0
  source := .internal
  intDivisor := Config.coldInternalDivisor
  extDivisor := Config.coldExternalDivisor
  divInUse := Config.coldInternalDivisor
  prescaler := 0
  gapCount := 0
  pendingStep := none
  pendingSwitch := none
  marks := false

/-! ### Reports -/

/-- The status codes of acknowledgments (10, Status codes). -/
inductive Status where
  | ok
  | cancelledAfterFire
  | badOpcode
  | badFormat
  | wrongRing
  | fetchError
  | badTimer
  | conflictingOptions
  | noReportRing
  | badAction
  | noRegion
  | regionDenied
  | outOfRegion
  | misaligned
  | alreadyArmed
  | busyFiring
  | deadlinePassed
  | notArmed
  | staleGeneration
  | badRegion
  | inUse
  | badTrim
  | stepPending
  | switchPending
  | replaced
  | alignTimeout
  | sourceNotReady
  | lineBusy
  | ringExists
  | noRing
  | badRingParams
  | notStalled
  deriving DecidableEq, Repr

/-- The states of a report ring (R149). -/
inductive ReportRingState where
  | absent
  | active
  | lossy
  | faulted
  deriving DecidableEq, Repr

/-- The request results of an acknowledgment (10, ACK). -/
inductive AckResults where
  | none
  | timerDeadline (timer : BitVec 16) (generation : BitVec 8) (deadline : U64)
  | timerOnly (timer : BitVec 16) (generation : BitVec 8)
  | snapshot (timer : BitVec 16) (generation : BitVec 8) (state : SlotState) (phase : Phase) (scale : Scale)
      (deadline : U64) (fireCount : BitVec 32)
  | region (number : Byte) (valid : Bool) (access : Option Access) (refs : Nat) (base : U64) (length : Nat)
  | timebase (source : SourceState) (intDivisor extDivisor : Nat)
  | trim (before after : Int)
  | step (before after : U64)
  | marks (before : Bool)
  | time (source : SourceState) (stepPending switchPending marks : Bool) (trim : Int) (mt pt : U64)
  | lines (before after : BitVec 8) (states : List LineState)
  | postRing (number : Byte) (state : PostRingState) (head tail discarded : Nat)
  | reportRing (number : Byte) (state : ReportRingState) (producer consumer refs lost discarded : Nat)
  deriving DecidableEq, Repr

/-- The FIRED record's contents (R190). -/
structure Fired where
  timer         : Nat
  generation    : BitVec 8
  tag           : U64
  scale         : Scale
  lateness      : BitVec 32
  status        : ActionStatus
  result        : U64
  matchFlag     : Bool
  zeroFlag      : Bool
  stepped       : Bool
  final         : Bool
  cancelled     : Bool
  followSkipped : Bool
  phaseFollow   : Bool
  fireCount     : BitVec 32
  skipped       : Nat
  deriving DecidableEq, Repr

/-- The EVENT records (10, EVENT). -/
inductive Event where
  | sourceLost (mt pt : U64)
  | timeMark (stepApplied : Bool) (mt pt : U64)
  | reportRingFault (ring slot : Nat) (mt pt : U64)
  deriving DecidableEq, Repr

/-- A report record before it is written; its phase bit is the ring's at the write (R151). -/
inductive Report where
  | ack (head : AckHead) (status : Status) (results : AckResults)
  | fired (f : Fired)
  | loss (count : Nat) (mt : U64)
  | event (e : Event)
  deriving DecidableEq, Repr

/-! ### The system port -/

/-- A write issued on the system port: `len` bytes of `data` (the low byte first) at `addr`. -/
structure PortWrite where
  addr : U64
  len  : Nat
  data : ReportSlot
  deriving DecidableEq, Repr

/-- An operation abandoned by a reset whose answer is still awaited (R173, R174). -/
inductive PortOp where
  | read (addr : U64) (len : Nat)
  | write (w : PortWrite)
  deriving DecidableEq, Repr

/-! ### Report Unit -/

/-- A report ring record (08, table of report ring records). The head of a non-empty write queue is the write in flight
(R151, log entry 18). -/
structure ReportRing where
  state         : ReportRingState
  base          : U64
  size          : Nat
  producer      : Nat
  phase         : Bool
  consumer      : Nat
  queue         : List Report
  reserved      : Nat
  lost          : Nat
  intEnable     : Bool
  coalesceCount : Nat
  coalesceTime  : Nat
  unsignalled   : Nat
  oldest        : Option U64
  refs          : Nat
  deriving DecidableEq, Repr

/-- An ABSENT report ring, every field 0 (R172). -/
def ReportRing.reset : ReportRing where
  state := .absent
  base := 0
  size := 0
  producer := 0
  phase := false
  consumer := 0
  queue := []
  reserved := 0
  lost := 0
  intEnable := false
  coalesceCount := 0
  coalesceTime := 0
  unsignalled := 0
  oldest := none
  refs := 0

/-- An entry of the hold list (R158). -/
structure HoldEntry where
  ring   : Nat
  report : Report
  deriving DecidableEq, Repr

/-- The Report Unit: its rings, the hold list, the writes of deleted rings still outstanding (R167), and the interrupt
pending register (R171). -/
structure ReportUnit where
  rings         : List (Nat × ReportRing)
  hold          : List HoldEntry
  deletedWrites : List PortWrite
  intrPending   : BitVec 9
  deriving DecidableEq, Repr

/-- The Report Unit after a reset (R172). -/
def ReportUnit.reset : ReportUnit := ⟨[], [], [], 0⟩

/-! ### Register Window -/

/-- The cause of the latest reset taken (R175). -/
inductive ResetCause where
  | cold
  | pin
  | control
  | powerReturn
  deriving DecidableEq, Repr

/-- The cause of the administration fault (R182). -/
inductive AdminFault where
  | enableRefused
  | postRingFetch
  | reportRingWrite
  deriving DecidableEq, Repr

/-- The doorbell error record while it is set (R183). -/
structure DoorbellError where
  ring     : BitVec 4
  kind     : BitVec 2
  multiple : Bool
  deriving DecidableEq, Repr

/-- The Register Window's own state (09, state table), with the operations abandoned by a reset whose answers it awaits
(R174). -/
structure Window where
  enabled         : Bool
  ready           : Bool
  resetCause      : ResetCause
  adminFault      : Option AdminFault
  doorbellError   : Option DoorbellError
  adminPostBase   : U64
  adminReportBase : U64
  adminPostSize   : BitVec 16
  adminReportSize : BitVec 16
  intrMask        : BitVec 9
  resetInProgress : Bool
  awaited         : List PortOp
  deriving DecidableEq, Repr

/-- The Register Window once a cold reset has ended (R176). -/
def Window.cold : Window where
  enabled := false
  ready := true
  resetCause := .cold
  adminFault := none
  doorbellError := none
  adminPostBase := 0
  adminReportBase := 0
  adminPostSize := 0
  adminReportSize := 0
  intrMask := BitVec.allOnes 9
  resetInProgress := false
  awaited := []

/-- The supplies and the RESET input (R100, R174). -/
structure Inputs where
  mainSupply      : Bool
  keepAliveSupply : Bool
  resetPin        : Bool
  deriving DecidableEq, Repr

/-! ### The machine -/

/-- The whole state. `mem` holds the host memory bytes that the controller's own writes have left (log entry 8);
`pending` the commands waiting, first in first out. -/
structure State where
  tb      : TimeBase
  store   : TimerStore
  disp    : Dispatcher
  engine  : ActionEngine
  regions : List (Nat × Region)
  lines   : List (Nat × LineRec)
  posting : PostingUnit
  report  : ReportUnit
  window  : Window
  inputs  : Inputs
  mem     : List Host.Cell
  pending : List Instr
  deriving DecidableEq, Repr

/-- The machine once a cold reset has ended: R28, R51, R58, R76, R101, R114, R123, R148, R172, R176. Both supplies are
present and the RESET input is not asserted (log entry 13); no command waits. -/
def State.reset : State where
  tb := TimeBase.cold
  store := TimerStore.reset
  disp := Dispatcher.reset
  engine := ActionEngine.reset
  regions := []
  lines := []
  posting := PostingUnit.reset
  report := ReportUnit.reset
  window := Window.cold
  inputs := ⟨true, true, false⟩
  mem := []
  pending := []

/-- Why a step could stop with a fault. The 2480 has none: the spec describes every trouble as state (a stalled or
faulted ring, the administration fault, the doorbell error record, a status), so the type has no constructor and no
command raises one (log entry 20). Safe: nothing stops. -/
inductive Fault where
  deriving DecidableEq, Repr

/-- Why a command could be refused. -/
inductive Refusal where
  /-- A command with no meaning yet, rejected by name in exec's arm. None is left. Safe: the machine stops there. -/
  | notModelled (mnemonic : String)
  deriving DecidableEq, Repr

/-! ### One update for each field of State -/

/-- Replace the Time Base. -/
def State.setTb (s : State) (x : TimeBase) : State := { s with tb := x }
/-- Replace the Timer Store. -/
def State.setStore (s : State) (x : TimerStore) : State := { s with store := x }
/-- Replace the Dispatcher. -/
def State.setDisp (s : State) (x : Dispatcher) : State := { s with disp := x }
/-- Replace the Action Engine. -/
def State.setEngine (s : State) (x : ActionEngine) : State := { s with engine := x }
/-- Replace the Region Table. -/
def State.setRegions (s : State) (x : List (Nat × Region)) : State := { s with regions := x }
/-- Replace the line records. -/
def State.setLines (s : State) (x : List (Nat × LineRec)) : State := { s with lines := x }
/-- Replace the Posting Unit. -/
def State.setPosting (s : State) (x : PostingUnit) : State := { s with posting := x }
/-- Replace the Report Unit. -/
def State.setReport (s : State) (x : ReportUnit) : State := { s with report := x }
/-- Replace the Register Window. -/
def State.setWindow (s : State) (x : Window) : State := { s with window := x }
/-- Replace the inputs. -/
def State.setInputs (s : State) (x : Inputs) : State := { s with inputs := x }
/-- Replace the bytes the controller has written. -/
def State.setMem (s : State) (x : List Host.Cell) : State := { s with mem := x }
/-- Replace the queue of commands. -/
def State.setPending (s : State) (x : List Instr) : State := { s with pending := x }

end Sys2Proof.Machine
end

