-- ==== Sys2Proof/Machine/Codes.lean ====
section
/-!
DEFINITION. The numeric codes of the Record Formats and Codes chapter (R186 to R190): request opcodes, the codes of fields
and of results.
-/
namespace Sys2Proof.Machine

/-- The request kinds and the extension record (10, Opcodes). -/
inductive Opcode where
  | arm
  | cancel
  | retime
  | query
  | setRegion
  | clearRegion
  | configureTimebase
  | setTrim
  | setTime
  | setMarks
  | readTime
  | setLineRest
  | createPostRing
  | deletePostRing
  | resumePostRing
  | createReportRing
  | deleteReportRing
  | extension
  deriving DecidableEq, Repr

/-- The opcode a byte stands for; none for every value the table does not list. -/
def Opcode.ofCode (b : Byte) : Option Opcode :=
  if b = 0x01 then some .arm
  else if b = 0x02 then some .cancel
  else if b = 0x03 then some .retime
  else if b = 0x04 then some .query
  else if b = 0x10 then some .setRegion
  else if b = 0x11 then some .clearRegion
  else if b = 0x20 then some .configureTimebase
  else if b = 0x21 then some .setTrim
  else if b = 0x22 then some .setTime
  else if b = 0x23 then some .setMarks
  else if b = 0x24 then some .readTime
  else if b = 0x30 then some .setLineRest
  else if b = 0x40 then some .createPostRing
  else if b = 0x41 then some .deletePostRing
  else if b = 0x42 then some .resumePostRing
  else if b = 0x48 then some .createReportRing
  else if b = 0x49 then some .deleteReportRing
  else if b = 0x7F then some .extension
  else none

/-- The timer requests, which the Timer Store owns (R139). -/
def Opcode.isTimer : Opcode → Bool
  | .arm | .cancel | .retime | .query => true
  | _ => false

/-- The administration requests, taken only from ring 0 (R138). -/
def Opcode.isAdministration (o : Opcode) : Bool := !o.isTimer && decide (o ≠ .extension)

/-- The action kinds (10, Action block). -/
def ActionKind.ofCode (b : Byte) : Option ActionKind :=
  if b = 0x01 then some .note
  else if b = 0x02 then some .load
  else if b = 0x03 then some .store
  else if b = 0x04 then some .setBits
  else if b = 0x05 then some .clearBits
  else if b = 0x06 then some .swapIfEqual
  else if b = 0x07 then some .countDown
  else if b = 0x10 then some .linePulse
  else if b = 0x11 then some .lineSet
  else none

/-- The memory kinds (R13). -/
def ActionKind.isMemory : ActionKind → Bool
  | .load | .store | .setBits | .clearBits | .swapIfEqual | .countDown => true
  | .note | .linePulse | .lineSet => false

/-- The line kinds (R13). -/
def ActionKind.isLine : ActionKind → Bool
  | .linePulse | .lineSet => true
  | _ => false

/-- The follow conditions (10, ARM extension record). -/
def Condition.ofCode (b : Byte) : Option Condition :=
  if b = 0 then some .always
  else if b = 1 then some .ifMatch
  else if b = 2 then some .ifNoMatch
  else if b = 3 then some .ifZero
  else if b = 4 then some .ifNonzero
  else none

/-- The report policies (10, ARM). -/
def ReportPolicy.ofCode (b : Byte) : Option ReportPolicy :=
  if b = 0 then some .all
  else if b = 1 then some .final
  else if b = 2 then some .errorsAndFinal
  else if b = 3 then some .none
  else Option.none

/-- The period policies (10, ARM). -/
def PeriodPolicy.ofCode (b : Byte) : Option PeriodPolicy :=
  if b = 0 then some .catchup
  else if b = 1 then some .skip
  else none

/-- The values of LINE_SET's operand A (10, Action block). -/
inductive LineValue where
  | active
  | rest
  | toggle
  deriving DecidableEq, Repr

/-- LINE_SET's operand A as a value. -/
def LineValue.ofOperand (a : U64) : Option LineValue :=
  if a = 1 then some .active
  else if a = 2 then some .rest
  else if a = 3 then some .toggle
  else none

/-- Region access (10, Administration records). -/
def Access.ofCode (b : Byte) : Option Access :=
  if b = 1 then some .read
  else if b = 2 then some .write
  else if b = 3 then some .readWrite
  else none

/-- The source choices of CONFIGURE_TIMEBASE. -/
inductive SourceChoice where
  | keep
  | internal
  | external
  deriving DecidableEq, Repr

/-- The source choice a byte stands for. -/
def SourceChoice.ofCode (b : Byte) : Option SourceChoice :=
  if b = 0 then some .keep
  else if b = 1 then some .internal
  else if b = 2 then some .external
  else none

/-- The mode of SET_TIME. -/
def StepMode.ofCode (b : Byte) : Option StepMode :=
  if b = 0 then some .absolute
  else if b = 1 then some .relative
  else none

/-- A field that is 0 or 1: the timing of SET_TIME (IMMEDIATE, AT_ALIGN), the value of SET_MARKS, an interrupt enable. -/
def onOffOfCode (b : Byte) : Option Bool :=
  if b = 0 then some false
  else if b = 1 then some true
  else none

/-- The class of CREATE_POST_RING. -/
def RingClass.ofCode (b : Byte) : Option RingClass :=
  if b = 1 then some .high
  else if b = 2 then some .normal
  else none

/-! ### Codes of results -/

/-- Slot state code. -/
def SlotState.code : SlotState → Nat
  | .free => 0
  | .armed => 1
  | .firing => 2

/-- Phase code. -/
def Phase.code : Phase → Nat
  | .main => 0
  | .follow => 1

/-- Scale code. -/
def Scale.code : Scale → Nat
  | .pt => 0
  | .mt => 1

/-- Access code. -/
def Access.code : Access → Nat
  | .read => 1
  | .write => 2
  | .readWrite => 3

/-- Source state code. -/
def SourceState.code : SourceState → Nat
  | .internal => 0
  | .qualifying => 1
  | .external => 2
  | .fallback => 3

/-- Posting ring state code. -/
def PostRingState.code : PostRingState → Nat
  | .absent => 0
  | .active => 1
  | .stalled => 2

/-- Report ring state code. -/
def ReportRingState.code : ReportRingState → Nat
  | .absent => 0
  | .active => 1
  | .lossy => 2
  | .faulted => 3

/-- Line state code. -/
def LineState.code : LineState → Nat
  | .rest => 0
  | .held => 1
  | .pulsing => 2

/-- Rest level code. -/
def Level.code : Level → Nat
  | .low => 0
  | .high => 1

/-- Firing status code: the status codes OK, READ_ERROR and WRITE_ERROR. -/
def ActionStatus.code : ActionStatus → Nat
  | .ok => 0
  | .readError => 1
  | .writeError => 2

/-- Reset cause code (STATUS bits 4 to 5). -/
def ResetCause.code : ResetCause → Nat
  | .cold => 0
  | .pin => 1
  | .control => 2
  | .powerReturn => 3

/-- Administration fault cause code (STATUS bits 9 to 10). -/
def AdminFault.code : AdminFault → Nat
  | .enableRefused => 1
  | .postRingFetch => 2
  | .reportRingWrite => 3

/-- Status code of an acknowledgment (10, Status codes). -/
def Status.code : Status → Nat
  | .ok => 0x00
  | .cancelledAfterFire => 0x03
  | .badOpcode => 0x10
  | .badFormat => 0x11
  | .wrongRing => 0x12
  | .fetchError => 0x13
  | .badTimer => 0x20
  | .conflictingOptions => 0x21
  | .noReportRing => 0x22
  | .badAction => 0x23
  | .noRegion => 0x24
  | .regionDenied => 0x25
  | .outOfRegion => 0x26
  | .misaligned => 0x27
  | .alreadyArmed => 0x28
  | .busyFiring => 0x29
  | .deadlinePassed => 0x2A
  | .notArmed => 0x2B
  | .staleGeneration => 0x2C
  | .badRegion => 0x30
  | .inUse => 0x31
  | .badTrim => 0x38
  | .stepPending => 0x39
  | .switchPending => 0x3A
  | .replaced => 0x3B
  | .alignTimeout => 0x3C
  | .sourceNotReady => 0x3D
  | .lineBusy => 0x40
  | .ringExists => 0x48
  | .noRing => 0x49
  | .badRingParams => 0x4A
  | .notStalled => 0x4B

end Sys2Proof.Machine
end

