-- ==== Sys2Proof/Machine/Flags.lean ====
section
/-!
DEFINITION. The values of the action kinds: widths, what is written, the result, and the MATCH and ZERO flags
(R60 to R67), and the tests made on them (R39).
-/
namespace Sys2Proof.Machine

/-- A value taken to a width in bytes: its low bytes, extended with zeros (R61). -/
def toWidth (width : Nat) (v : U64) : U64 := v &&& BitVec.ofNat 64 (2 ^ (8 * width) - 1)

/-- Does the kind begin with a read (R59)? -/
def ActionKind.reads : ActionKind → Bool
  | .load | .setBits | .clearBits | .swapIfEqual | .countDown => true
  | .note | .store | .linePulse | .lineSet => false

/-- The result of a memory kind from the value read (R63 to R67); STORE's is operand A. -/
def Action.resultOf (a : Action) (old : U64) : U64 :=
  match a.kind with
  | .load | .setBits | .clearBits | .swapIfEqual => toWidth a.width old
  | .countDown => if toWidth a.width old = 0 then 0 else toWidth a.width old - 1
  | .store => toWidth a.width a.opA
  | .note | .linePulse | .lineSet => 0

/-- MATCH: set only by a SWAP_IF_EQUAL that found the compared value (R61, R66). -/
def Action.matchOf (a : Action) (old : U64) : Bool :=
  match a.kind with
  | .swapIfEqual => decide (toWidth a.width old = toWidth a.width a.opA)
  | _ => false

/-- ZERO: the result is 0, for the memory kinds and NOTE (R62 to R67); clear for the line kinds (R71). For the
read-modify-write kinds but COUNT_DOWN the result is the old value, so this is "old is 0". -/
def Action.zeroOf (a : Action) (old : U64) : Bool :=
  match a.kind with
  | .linePulse | .lineSet => false
  | _ => decide (Action.resultOf a old = 0)

/-- Does the kind issue a write once its read is answered OK (R63, R65 to R67)? -/
def Action.writesAfter (a : Action) (old : U64) : Bool :=
  match a.kind with
  | .setBits | .clearBits => true
  | .swapIfEqual => decide (toWidth a.width old = toWidth a.width a.opA)
  | .countDown => decide (toWidth a.width old ≠ 0)
  | .load | .store | .note | .linePulse | .lineSet => false

/-- The value the kind writes (R64 to R67). -/
def Action.valueWritten (a : Action) (old : U64) : U64 :=
  match a.kind with
  | .store => toWidth a.width a.opA
  | .setBits => toWidth a.width (old ||| a.opA)
  | .clearBits => toWidth a.width (old &&& ~~~a.opA)
  | .swapIfEqual => toWidth a.width a.opB
  | .countDown => toWidth a.width old - 1
  | .load | .note | .linePulse | .lineSet => 0

/-- Does a follow condition hold on the main firing's flags (R39)? -/
def Condition.holds (c : Condition) (matchFlag zeroFlag : Bool) : Bool :=
  match c with
  | .always => true
  | .ifMatch => matchFlag
  | .ifNoMatch => !matchFlag
  | .ifZero => zeroFlag
  | .ifNonzero => !zeroFlag

/-- Does the report policy let a firing's report through (R45)? -/
def ReportPolicy.lets (p : ReportPolicy) (status : ActionStatus) (final : Bool) : Bool :=
  match p with
  | .all => true
  | .final => final
  | .errorsAndFinal => decide (status ≠ .ok) || final
  | .none => false

end Sys2Proof.Machine
end

