-- ==== Sys2Proof/Machine/Maps.lean ====
section
/-!
DEFINITION. Numbered records as lists of (number, record) in one canonical form: numbers strictly rising, and no record
listed that equals the record an unlisted number has. And the bytes of host memory the controller has written, in the
same form (an unlisted byte has no value: log entry 8).
-/
namespace Sys2Proof.Machine

/-- The record listed under a number, if one is. -/
def Map.find {α : Type} : List (Nat × α) → Nat → Option α
  | [], _ => none
  | (k, v) :: m, n => if n = k then some v else Map.find m n

/-- The record of a number: `d` where none is listed. -/
def Map.get {α : Type} (d : α) (m : List (Nat × α)) (n : Nat) : α :=
  (Map.find m n).getD d

/-- List a record under a number, at its place. -/
def Map.insert {α : Type} : List (Nat × α) → Nat → α → List (Nat × α)
  | [], n, v => [(n, v)]
  | (k, w) :: m, n, v =>
    if n < k then (n, v) :: (k, w) :: m
    else if n = k then (n, v) :: m
    else (k, w) :: Map.insert m n v

/-- Take a number off the list. -/
def Map.erase {α : Type} : List (Nat × α) → Nat → List (Nat × α)
  | [], _ => []
  | (k, w) :: m, n => if n = k then Map.erase m n else (k, w) :: Map.erase m n

/-- Set the record of a number; the record an unlisted number has is not listed. -/
def Map.set {α : Type} [DecidableEq α] (d : α) (m : List (Nat × α)) (n : Nat) (v : α) : List (Nat × α) :=
  if v = d then Map.erase m n else Map.insert m n v

/-- The numbers of a list rise strictly, from above `lo` on. -/
def Map.sortedFrom {α : Type} : Nat → List (Nat × α) → Bool
  | _, [] => true
  | lo, (k, _) :: m => decide (lo ≤ k) && Map.sortedFrom (k + 1) m

/-- The numbers of a list rise strictly. -/
def Map.sorted {α : Type} (m : List (Nat × α)) : Bool := Map.sortedFrom 0 m

/-- The canonical form of numbered records: numbers rising, no record equal to `d`, which an unlisted number has. -/
def Map.wf {α : Type} [DecidableEq α] (d : α) (m : List (Nat × α)) : Bool :=
  Map.sorted m && m.all (fun p => decide (p.2 ≠ d))

/-! ### Host memory as the controller has written it -/

/-- The byte the controller last wrote at an address; none where it has written none. -/
def Memory.read (m : List Host.Cell) (a : Nat) : Option Byte := Map.find m a

/-- One byte written. -/
def Memory.write (m : List Host.Cell) (a : Nat) (b : Byte) : List Host.Cell := Map.insert m a b

/-- The canonical form: addresses rising, all below 2^64. -/
def Memory.wf (m : List Host.Cell) : Bool :=
  Map.sorted m && m.all (fun p => decide (p.1 < Config.space64))

/-- Byte `i` of a write's data. -/
def PortWrite.byte (w : PortWrite) (i : Nat) : Byte := w.data.extractLsb' (8 * i) 8

/-- The address of byte `i` of a write, modulo 2^64. -/
def PortWrite.addrOf (w : PortWrite) (i : Nat) : Nat := (w.addr + BitVec.ofNat 64 i).toNat

/-- The first `n` bytes of a write, those whose bit is set in `landed`, put into host memory. -/
def Memory.landUpTo (w : PortWrite) (landed : BitVec 32) : Nat → List Host.Cell → List Host.Cell
  | 0, m => m
  | n + 1, m =>
    let m := Memory.landUpTo w landed n m
    if landed.getLsbD n then Memory.write m (w.addrOf n) (w.byte n) else m

/-- A write settled with some of its bytes landed: each target byte holds its earlier value or the value written, and no
other byte changes (R60, R70, R75). -/
def Memory.land (w : PortWrite) (landed : BitVec 32) (m : List Host.Cell) : List Host.Cell :=
  Memory.landUpTo w landed w.len m

/-- A write answered: all its bytes on OK, those the interconnect let through on ERROR. -/
def Memory.settle (w : PortWrite) (a : WriteAnswer) (m : List Host.Cell) : List Host.Cell :=
  match a with
  | .ok => Memory.land w (BitVec.allOnes 32) m
  | .error landed => Memory.land w landed m

/-- Writes settled together, each with its own landed bytes; a write with none given lands nothing. -/
def Memory.landAll : List PortWrite → List (BitVec 32) → List Host.Cell → List Host.Cell
  | [], _, m => m
  | w :: ws, [], m => Memory.landAll ws [] (Memory.land w 0 m)
  | w :: ws, l :: ls, m => Memory.landAll ws ls (Memory.land w l m)

end Sys2Proof.Machine
end

