-- ==== Sys2Proof/Machine/Operands.lean ====
section
/-!
DEFINITION. The operand forms of the request records: where each field stands in a posting slot, which bits are reserved
(R186, R187; 10, Request records), and each request as its owner reads it.
-/
namespace Sys2Proof.Machine

/-! ### Fields of a posting slot -/

/-- Byte `k` of a slot. -/
def PostSlot.byte (r : PostSlot) (k : Nat) : Byte := r.extractLsb' (8 * k) 8

/-- The 16-bit field at byte `k`. -/
def PostSlot.u16 (r : PostSlot) (k : Nat) : BitVec 16 := r.extractLsb' (8 * k) 16

/-- The 32-bit field at byte `k`. -/
def PostSlot.u32 (r : PostSlot) (k : Nat) : BitVec 32 := r.extractLsb' (8 * k) 32

/-- The 64-bit field at byte `k`. -/
def PostSlot.u64 (r : PostSlot) (k : Nat) : U64 := r.extractLsb' (8 * k) 64

/-- Bit `b` of byte `k`. -/
def PostSlot.bit (r : PostSlot) (k b : Nat) : Bool := r.getLsbD (8 * k + b)

/-- The opcode in byte 0. -/
def PostSlot.opcode (r : PostSlot) : Option Opcode := Opcode.ofCode (PostSlot.byte r 0)

/-! ### Reserved bits -/

/-- The bits of bytes `a` to `b` as (lowest bit, number of bits). -/
def bytes (a b : Nat) : Nat × Nat := (8 * a, 8 * (b + 1 - a))

/-- Some bits of byte `k`: `n` of them from bit `b` up. -/
def bits (k b n : Nat) : Nat × Nat := (8 * k + b, n)

/-- A slot with the given runs of bits cleared. -/
def PostSlot.without (r : PostSlot) : List (Nat × Nat) → PostSlot
  | [] => r
  | (lo, n) :: rest => PostSlot.without (r &&& ~~~(BitVec.ofNat 512 ((2 ^ n - 1) * 2 ^ lo))) rest

/-- Every bit outside the given runs, the record's fields, is zero (R187). -/
def PostSlot.reservedZero (r : PostSlot) (fields : List (Nat × Nat)) : Bool :=
  decide (PostSlot.without r fields = 0)

/-- The fields of an ARM record (10, ARM; byte 3 of the action block is reserved). -/
def armFields : List (Nat × Nat) :=
  [bytes 0 0, bits 1 0 7, bytes 2 6, bytes 8 27, bytes 32 42, bytes 44 63]

/-- The fields of an extension record (10, ARM extension record). -/
def extensionFields : List (Nat × Nat) :=
  [bytes 0 1, bytes 4 7, bytes 40 42, bytes 44 63]

/-- The fields of each one-slot request (10, CANCEL, RETIME and QUERY; Administration records). -/
def requestFields : Opcode → List (Nat × Nat)
  | .arm => armFields
  | .extension => extensionFields
  | .cancel => [bytes 0 0, bits 1 0 1, bytes 2 4]
  | .retime => [bytes 0 0, bits 1 1 2, bytes 2 4, bytes 8 15]
  | .query => [bytes 0 0, bytes 2 3]
  | .setRegion => [bytes 0 0, bytes 2 3, bytes 8 23]
  | .clearRegion => [bytes 0 0, bytes 2 2]
  | .configureTimebase => [bytes 0 0, bytes 2 2, bytes 4 11]
  | .setTrim => [bytes 0 0, bytes 4 7]
  | .setTime => [bytes 0 0, bits 1 0 1, bytes 2 15]
  | .setMarks => [bytes 0 0, bytes 2 2]
  | .readTime => [bytes 0 0]
  | .setLineRest => [bytes 0 0, bytes 2 2, bytes 4 4]
  | .createPostRing => [bytes 0 0, bytes 2 4, bytes 8 19]
  | .deletePostRing => [bytes 0 0, bytes 2 2]
  | .resumePostRing => [bytes 0 0, bytes 2 2]
  | .createReportRing => [bytes 0 0, bytes 2 4, bytes 8 23]
  | .deleteReportRing => [bytes 0 0, bytes 2 2]

/-! ### Timer requests -/

/-- An action block as written (10, Action block): its codes are not yet checked. -/
structure ActionBlock where
  kind   : Byte
  width  : Byte
  target : Byte
  offset : BitVec 32
  opA    : U64
  opB    : U64
  deriving DecidableEq, Repr

/-- The action block at bytes 40 to 63. -/
def PostSlot.actionBlock (r : PostSlot) : ActionBlock where
  kind := PostSlot.byte r 40
  width := PostSlot.byte r 41
  target := PostSlot.byte r 42
  offset := PostSlot.u32 r 44
  opA := PostSlot.u64 r 48
  opB := PostSlot.u64 r 56

/-- The extension record's fields (10, ARM extension record). -/
structure Extension where
  condition : Byte
  delay     : BitVec 32
  action    : ActionBlock
  deriving DecidableEq, Repr

/-- An extension record read. -/
def PostSlot.extension (r : PostSlot) : Extension where
  condition := PostSlot.byte r 1
  delay := PostSlot.u32 r 4
  action := PostSlot.actionBlock r

/-- An ARM as the store reads it (R13; 10, ARM). -/
structure ArmRequest where
  replace      : Bool
  absolute     : Bool
  refusePast   : Bool
  periodic     : Bool
  stopAtZero   : Bool
  scale        : Scale
  timer        : BitVec 16
  reportRing   : Byte
  policy       : Byte
  periodPolicy : Byte
  deadline     : U64
  period       : U64
  countLimit   : BitVec 32
  tag          : U64
  action       : ActionBlock
  ext          : Option Extension
  deriving DecidableEq, Repr

/-- The FOLLOW option of an ARM record: byte 1 bit 4 (R130). -/
def PostSlot.followBit (r : PostSlot) : Bool := PostSlot.bit r 1 4

/-- The scale bit of an ARM record: byte 1 bit 6, 0 PT, 1 MT. -/
def PostSlot.scale (r : PostSlot) : Scale := if PostSlot.bit r 1 6 then .mt else .pt

/-- An ARM record read, with its extension record when FOLLOW is set. -/
def ArmRequest.read (r : PostSlot) (second : Option PostSlot) : ArmRequest where
  replace := PostSlot.bit r 1 0
  absolute := PostSlot.bit r 1 1
  refusePast := PostSlot.bit r 1 2
  periodic := PostSlot.bit r 1 3
  stopAtZero := PostSlot.bit r 1 5
  scale := PostSlot.scale r
  timer := PostSlot.u16 r 2
  reportRing := PostSlot.byte r 4
  policy := PostSlot.byte r 5
  periodPolicy := PostSlot.byte r 6
  deadline := PostSlot.u64 r 8
  period := PostSlot.u64 r 16
  countLimit := PostSlot.u32 r 24
  tag := PostSlot.u64 r 32
  action := PostSlot.actionBlock r
  ext := if PostSlot.followBit r then some (PostSlot.extension (second.getD 0)) else none

/-- A CANCEL as the store reads it. -/
structure CancelRequest where
  anyGeneration : Bool
  timer         : BitVec 16
  generation    : BitVec 8
  deriving DecidableEq, Repr

/-- A CANCEL record read. -/
def CancelRequest.read (r : PostSlot) : CancelRequest where
  anyGeneration := PostSlot.bit r 1 0
  timer := PostSlot.u16 r 2
  generation := PostSlot.byte r 4

/-- A RETIME as the store reads it. -/
structure RetimeRequest where
  absolute   : Bool
  refusePast : Bool
  timer      : BitVec 16
  generation : BitVec 8
  deadline   : U64
  deriving DecidableEq, Repr

/-- A RETIME record read. -/
def RetimeRequest.read (r : PostSlot) : RetimeRequest where
  absolute := PostSlot.bit r 1 1
  refusePast := PostSlot.bit r 1 2
  timer := PostSlot.u16 r 2
  generation := PostSlot.byte r 4
  deadline := PostSlot.u64 r 8

/-! ### Administration requests -/

/-- A SET_REGION read. -/
structure SetRegionRequest where
  number : Byte
  access : Byte
  base   : U64
  length : U64
  deriving DecidableEq, Repr

/-- A SET_REGION record read. -/
def SetRegionRequest.read (r : PostSlot) : SetRegionRequest where
  number := PostSlot.byte r 2
  access := PostSlot.byte r 3
  base := PostSlot.u64 r 8
  length := PostSlot.u64 r 16

/-- The number in byte 2: a region number, a ring number. -/
def PostSlot.number (r : PostSlot) : Byte := PostSlot.byte r 2

/-- A CONFIGURE_TIMEBASE read. -/
structure ConfigureRequest where
  choice     : Byte
  intDivisor : BitVec 32
  extDivisor : BitVec 32
  deriving DecidableEq, Repr

/-- A CONFIGURE_TIMEBASE record read. -/
def ConfigureRequest.read (r : PostSlot) : ConfigureRequest where
  choice := PostSlot.byte r 2
  intDivisor := PostSlot.u32 r 4
  extDivisor := PostSlot.u32 r 8

/-- The trim of a SET_TRIM: bytes 4 to 7, signed. -/
def PostSlot.trim (r : PostSlot) : Int := (PostSlot.u32 r 4).toInt

/-- A SET_TIME read. -/
structure SetTimeRequest where
  replace : Bool
  mode    : Byte
  timing  : Byte
  timeout : BitVec 32
  value   : U64
  deriving DecidableEq, Repr

/-- A SET_TIME record read. -/
def SetTimeRequest.read (r : PostSlot) : SetTimeRequest where
  replace := PostSlot.bit r 1 0
  mode := PostSlot.byte r 2
  timing := PostSlot.byte r 3
  timeout := PostSlot.u32 r 4
  value := PostSlot.u64 r 8

/-- A SET_LINE_REST read: mask and levels, bit n for line n. -/
structure LineRestRequest where
  mask   : Byte
  levels : Byte
  deriving DecidableEq, Repr

/-- A SET_LINE_REST record read. -/
def LineRestRequest.read (r : PostSlot) : LineRestRequest where
  mask := PostSlot.byte r 2
  levels := PostSlot.byte r 4

/-- A CREATE_POST_RING read. -/
structure CreatePostRequest where
  number     : Byte
  ringClass  : Byte
  reportRing : Byte
  base       : U64
  size       : BitVec 32
  deriving DecidableEq, Repr

/-- A CREATE_POST_RING record read. -/
def CreatePostRequest.read (r : PostSlot) : CreatePostRequest where
  number := PostSlot.byte r 2
  ringClass := PostSlot.byte r 3
  reportRing := PostSlot.byte r 4
  base := PostSlot.u64 r 8
  size := PostSlot.u32 r 16

/-- A CREATE_REPORT_RING read. -/
structure CreateReportRequest where
  number        : Byte
  intEnable     : Byte
  coalesceCount : Byte
  base          : U64
  size          : BitVec 32
  coalesceTime  : BitVec 32
  deriving DecidableEq, Repr

/-- A CREATE_REPORT_RING record read. -/
def CreateReportRequest.read (r : PostSlot) : CreateReportRequest where
  number := PostSlot.byte r 2
  intEnable := PostSlot.byte r 3
  coalesceCount := PostSlot.byte r 4
  base := PostSlot.u64 r 8
  size := PostSlot.u32 r 16
  coalesceTime := PostSlot.u32 r 20

end Sys2Proof.Machine
end

