-- ==== Sys2Proof/Machine/Records.lean ====
section
/-!
DEFINITION. The 32 bytes of each report record (R189, R190; 10, Report records): every byte no field claims is 0.
-/
namespace Sys2Proof.Machine

/-- A field of `w` bits placed at byte `k` of a record. -/
def putField (k w v : Nat) : ReportSlot := BitVec.ofNat 256 ((v % 2 ^ w) * 2 ^ (8 * k))

/-- A one-byte field. -/
def put8 (k v : Nat) : ReportSlot := putField k 8 v
/-- A two-byte field. -/
def put16 (k v : Nat) : ReportSlot := putField k 16 v
/-- A four-byte field. -/
def put32 (k v : Nat) : ReportSlot := putField k 32 v
/-- An eight-byte field. -/
def put64 (k : Nat) (v : U64) : ReportSlot := putField k 64 v.toNat

/-- A bit of a byte, as a number. -/
def bitAt (b : Nat) (x : Bool) : Nat := if x then 2 ^ b else 0

/-- A signed 16-bit field's value, two's complement (R186). -/
def signed16 (x : Int) : Nat := (BitVec.ofInt 16 x).toNat

/-- Line state codes, byte 12 + n for line n (10, ACK). -/
def encodeLineStates : Nat → List LineState → ReportSlot
  | _, [] => 0
  | k, x :: xs => put8 k x.code ||| encodeLineStates (k + 1) xs

/-- The results of an acknowledgment, bytes 10 to 31 (10, ACK). -/
def AckResults.encode : AckResults → ReportSlot
  | .none => 0
  | .timerDeadline timer generation deadline =>
    put16 10 timer.toNat ||| put8 12 generation.toNat ||| put64 16 deadline
  | .timerOnly timer generation =>
    put16 10 timer.toNat ||| put8 12 generation.toNat
  | .snapshot timer generation state phase scale deadline fireCount =>
    put16 10 timer.toNat ||| put8 12 generation.toNat ||| put8 13 state.code ||| put8 14 phase.code |||
      put8 15 scale.code ||| put64 16 deadline ||| put32 24 fireCount.toNat
  | .region number valid access refs base length =>
    put8 10 number.toNat ||| put8 11 (bitAt 0 valid) ||| put8 12 ((access.map Access.code).getD 0) |||
      put16 14 refs ||| put64 16 base ||| putField 24 64 length
  | .timebase source intDivisor extDivisor =>
    put8 10 source.code ||| put32 14 intDivisor ||| put32 18 extDivisor
  | .trim before after => put16 10 (signed16 before) ||| put16 12 (signed16 after)
  | .step before after => put64 16 before ||| put64 24 after
  | .marks before => put8 10 (bitAt 0 before)
  | .time source stepPending switchPending marking trimNow mt pt =>
    put8 10 source.code ||| put8 11 (bitAt 0 stepPending + bitAt 1 switchPending + bitAt 2 marking) |||
      put16 12 (signed16 trimNow) ||| put64 16 mt ||| put64 24 pt
  | .lines before after states =>
    put8 10 before.toNat ||| put8 11 after.toNat ||| encodeLineStates 12 states
  | .postRing number state head tail discarded =>
    put8 10 number.toNat ||| put8 11 state.code ||| put16 12 head ||| put16 14 tail ||| put16 16 discarded
  | .reportRing number state producer consumer refs lost discarded =>
    put8 10 number.toNat ||| put8 11 state.code ||| put16 12 producer ||| put16 14 consumer ||| put16 16 refs |||
      put16 18 lost ||| put16 20 discarded

/-- The flags byte of a FIRED record (10, FIRED). -/
def Fired.flags (f : Fired) : Nat :=
  bitAt 0 f.stepped + bitAt 1 f.final + bitAt 2 f.matchFlag + bitAt 3 f.zeroFlag + bitAt 4 f.followSkipped +
    bitAt 5 f.cancelled + bitAt 6 f.phaseFollow

/-- A FIRED record's fields but kind and phase. -/
def Fired.encode (f : Fired) : ReportSlot :=
  put8 1 (f.status.code * 2 + f.scale.code * 8) ||| put16 2 f.timer ||| put8 4 f.generation.toNat ||| put8 5 f.flags |||
    put16 6 f.skipped ||| put32 8 f.fireCount.toNat ||| put32 12 f.lateness.toNat ||| put64 16 f.result |||
    put64 24 f.tag

/-- An EVENT record's fields but kind and phase (10, EVENT). -/
def Event.encode : Event → ReportSlot
  | .sourceLost mt pt => put8 2 1 ||| put64 8 mt ||| put64 16 pt
  | .timeMark stepApplied mt pt => put8 2 2 ||| put8 3 (bitAt 0 stepApplied) ||| put64 8 mt ||| put64 16 pt
  | .reportRingFault ring slot mt pt => put8 2 3 ||| put8 4 ring ||| put16 6 slot ||| put64 8 mt ||| put64 16 pt

/-- The 32 bytes written for a record under a phase bit (R151; 10, Report records). -/
def Report.encode (phase : Bool) (r : Report) : ReportSlot :=
  put8 1 (bitAt 0 phase) |||
  match r with
  | .ack head status results =>
    put8 0 1 ||| put8 2 head.ring ||| put8 3 head.opcode.toNat ||| put8 4 status.code ||| put16 6 head.first |||
      put16 8 head.newHead ||| results.encode
  | .fired f => put8 0 2 ||| f.encode
  | .loss count mt => put8 0 3 ||| put16 2 count ||| put64 8 mt
  | .event e => put8 0 4 ||| e.encode

end Sys2Proof.Machine
end

