-- ==== Sys2Proof/Machine/Ops.lean ====
section
/-!
DEFINITION. The operations that several commands share: each block's records by number, the Report Unit's taking of
acknowledgments, reports and returned space, the Timer Store's queues and references, offers, and the acknowledgment of a
request.
-/
namespace Sys2Proof.Machine

/-! ### Time -/

/-- PT equals MT plus OFFSET modulo 2^64 (R81). -/
def TimeBase.pt (t : TimeBase) : U64 := t.mt + t.offset

/-- Now in a scale. -/
def TimeBase.now (t : TimeBase) : Scale → U64
  | .pt => t.pt
  | .mt => t.mt

/-- The keep-alive domain is powered while either supply is present (R100). -/
def Inputs.domainPowered (i : Inputs) : Bool := i.mainSupply || i.keepAliveSupply

/-! ### Resets in progress -/

/-- A cold reset is in progress: its cause stays COLD while it waits for the RESET input (R176). -/
def Window.coldInProgress (w : Window) : Bool := w.resetInProgress && decide (w.resetCause = .cold)

/-- The internal oscillator's periods count: the keep-alive domain is powered and no cold reset is in progress, whose first
tick comes one internal divisor of periods after its end (R100, R101). -/
def State.oscillatorCounts (s : State) : Bool := s.inputs.domainPowered && !s.window.coldInProgress

/-- The end of a reset, once no abandoned answer is awaited and the RESET input is not held (R174, R176). -/
def State.endReset (s : State) : State :=
  if s.window.resetInProgress = true ∧ s.window.awaited = [] ∧ s.inputs.resetPin = false then
    s.setWindow { s.window with ready := true, resetInProgress := false }
  else s

/-- A function reset found nothing outstanding and is not held: READY, still 0, becomes 1 in the step after the taking
(R174). -/
def State.resetEndsNext (s : State) : Bool :=
  !s.window.ready && s.window.resetInProgress && s.window.awaited.isEmpty && !s.inputs.resetPin

/-- The step after the taking of such a reset: it ends (R174). Whatever command comes next takes this end first (log entry 12): a
meaning that can act in a controller just reset begins with it, one whose event cannot occur there (log entry 3) falls back on
it. -/
def State.afterReset (s : State) : State := if s.resetEndsNext then s.endReset else s

/-! ### Records by number -/

/-- The slot record of a timer. -/
def TimerStore.slot (t : TimerStore) (n : Nat) : TimerSlot := Map.get TimerSlot.reset t.slots n

/-- Set the slot record of a timer. -/
def TimerStore.setSlot (t : TimerStore) (n : Nat) (x : TimerSlot) : TimerStore :=
  { t with slots := Map.set TimerSlot.reset t.slots n x }

/-- An action slot's record. -/
def ActionEngine.slot (e : ActionEngine) (i : Nat) : ActionSlot := Map.get ActionSlot.reset e.slots i

/-- Set an action slot's record. -/
def ActionEngine.setSlot (e : ActionEngine) (i : Nat) (x : ActionSlot) : ActionEngine :=
  { e with slots := Map.set ActionSlot.reset e.slots i x }

/-- The record of a region; a number above 63 names none and reads as an INVALID region (R106). -/
def State.region (s : State) (n : Nat) : Region := Map.get Region.reset s.regions n

/-- Set the record of a region. -/
def State.setRegion (s : State) (n : Nat) (x : Region) : State :=
  s.setRegions (Map.set Region.reset s.regions n x)

/-- A line's record. -/
def State.line (s : State) (n : Nat) : LineRec := Map.get LineRec.reset s.lines n

/-- Set a line's record. -/
def State.setLine (s : State) (n : Nat) (x : LineRec) : State :=
  s.setLines (Map.set LineRec.reset s.lines n x)

/-- A posting ring's record. -/
def PostingUnit.ring (p : PostingUnit) (n : Nat) : PostRing := Map.get PostRing.reset p.rings n

/-- Set a posting ring's record. -/
def PostingUnit.setRing (p : PostingUnit) (n : Nat) (x : PostRing) : PostingUnit :=
  { p with rings := Map.set PostRing.reset p.rings n x }

/-- A report ring's record. -/
def ReportUnit.ring (r : ReportUnit) (n : Nat) : ReportRing := Map.get ReportRing.reset r.rings n

/-- Set a report ring's record. -/
def ReportUnit.setRing (r : ReportUnit) (n : Nat) (x : ReportRing) : ReportUnit :=
  { r with rings := Map.set ReportRing.reset r.rings n x }

/-! ### Posting rings -/

/-- The slots present: from the head up to the tail, modulo the size (R127). -/
def PostRing.present (r : PostRing) : Nat := (r.tail + r.size - r.head) % r.size

/-- The host address of slot `k`: base plus 64 times the index (R137). -/
def PostRing.slotAddr (r : PostRing) (k : Nat) : U64 := r.base + BitVec.ofNat 64 (64 * k)

/-! ### Report rings (R152) -/

/-- Records written and not yet released: (producer - consumer) modulo size. -/
def ReportRing.written (r : ReportRing) : Nat := (r.producer + r.size - r.consumer) % r.size

/-- Occupied: written plus queued. -/
def ReportRing.occupied (r : ReportRing) : Nat := r.written + r.queue.length

/-- Free for reports: size - 1 - occupied - reserved. -/
def ReportRing.free (r : ReportRing) : Nat := r.size - 1 - r.occupied - r.reserved

/-- ACTIVE or LOSSY: the ring writes records and grants reservations (R149). -/
def ReportRing.running (r : ReportRing) : Bool := decide (r.state = .active) || decide (r.state = .lossy)

/-- A record placed at the end of the write queue. -/
def ReportRing.place (r : ReportRing) (x : Report) : ReportRing := { r with queue := r.queue ++ [x] }

/-- The host address of slot `k`: base plus 32 times the index (R151). -/
def ReportRing.slotAddr (r : ReportRing) (k : Nat) : U64 := r.base + BitVec.ofNat 64 (32 * k)

/-- The write in flight of a ring: the oldest record of its queue, at the producer, under the current phase (R151). -/
def ReportRing.inFlight (r : ReportRing) : Option PortWrite :=
  match r.queue with
  | [] => none
  | x :: _ => some ⟨r.slotAddr r.producer, 32, x.encode r.phase⟩

/-- The ring's entries of the hold list. -/
def ReportUnit.heldOf (r : ReportUnit) (n : Nat) : List Report :=
  (r.hold.filter (fun e => decide (e.ring = n))).map HoldEntry.report

/-- The hold list without the `k` oldest entries of a ring (R158: "its entries leave the list oldest first"). -/
def dropHeld (n : Nat) : Nat → List HoldEntry → List HoldEntry
  | 0, es => es
  | _ + 1, [] => []
  | k + 1, e :: es => if e.ring = n then dropHeld n k es else e :: dropHeld n (k + 1) es

/-- The first step of the return of space: held entries moved into the write queue, oldest first, one for each free slot
(R159). -/
def ReportUnit.moveHeld (r : ReportUnit) (n : Nat) : ReportUnit :=
  let ring := r.ring n
  let k := min ring.free (r.heldOf n).length
  { r.setRing n { ring with queue := ring.queue ++ (r.heldOf n).take k } with hold := dropHeld n k r.hold }

/-- The second step of the return of space: the LOSS record of a LOSSY ring with no held entries and free space
(R161). -/
def ReportUnit.placeLoss (r : ReportUnit) (n : Nat) (mt : U64) : ReportUnit :=
  let ring := r.ring n
  if ring.state = .lossy ∧ r.heldOf n = [] ∧ 1 ≤ ring.free then
    r.setRing n { ring.place (.loss ring.lost mt) with lost := 0, state := .active }
  else r

/-- The return of space of a ring that is ACTIVE or LOSSY (R159). Its third step, telling the intake arbiter, has no state
of its own: eligibility is assessed at each choice (R132). -/
def ReportUnit.returnSpace (r : ReportUnit) (n : Nat) (mt : U64) : ReportUnit :=
  if (r.ring n).running then (r.moveHeld n).placeLoss n mt else r

/-- A reservation claim (R155): granted with the reserved count raised, or refused. -/
def ReportUnit.reserve (r : ReportUnit) (n : Nat) : Option ReportUnit :=
  let ring := r.ring n
  if ring.running ∧ 1 ≤ ring.free then
    some (r.setRing n { ring with reserved := ring.reserved + 1 })
  else none

/-- A reservation handed back (R155). -/
def ReportUnit.handBack (r : ReportUnit) (n : Nat) (mt : U64) : ReportUnit :=
  let ring := r.ring n
  (r.setRing n { ring with reserved := ring.reserved - 1 }).returnSpace n mt

/-- An acknowledgment handed in (R156): its reservation is used; the record is placed, or dropped in FAULTED. -/
def ReportUnit.handIn (r : ReportUnit) (n : Nat) (x : Report) : ReportUnit :=
  let ring := r.ring n
  let ring := { ring with reserved := ring.reserved - 1 }
  if ring.running then r.setRing n (ring.place x)
  else if ring.state = .faulted then r.setRing n ring
  else r

/-- The arrival of a FIRED report or an EVENT record (R157, R160). -/
def ReportUnit.take (r : ReportUnit) (n : Nat) (x : Report) : ReportUnit :=
  let ring := r.ring n
  match ring.state with
  | .absent => r
  | .faulted => r
  | .lossy => r.setRing n { ring with lost := min (ring.lost + 1) Config.maxCount16 }
  | .active =>
    if 1 ≤ ring.free ∧ r.heldOf n = [] then r.setRing n (ring.place x)
    else if r.hold.length < Config.holdCapacity then { r with hold := r.hold ++ [⟨n, x⟩] }
    else r.setRing n { ring with lost := 1, state := .lossy }

/-- A pending bit raised; a bit already set stays set (R169). -/
def ReportUnit.raise (r : ReportUnit) (n : Nat) : ReportUnit :=
  { r with intrPending := r.intrPending ||| BitVec.ofNat 9 (2 ^ n) }

/-- A reference added to a ring (R165). -/
def ReportUnit.addRef (r : ReportUnit) (n : Nat) : ReportUnit :=
  let ring := r.ring n
  r.setRing n { ring with refs := ring.refs + 1 }

/-- A reference to a ring released (R165). -/
def ReportUnit.releaseRef (r : ReportUnit) (n : Nat) : ReportUnit :=
  let ring := r.ring n
  r.setRing n { ring with refs := ring.refs - 1 }

/-! ### Interrupt counting (R169, R170) -/

/-- The time condition of R170: Tc not 0, records unsignalled, and MT at least Tc past the oldest. -/
def ReportRing.timeReached (r : ReportRing) (mt : U64) : Bool :=
  match r.oldest with
  | none => false
  | some o => decide (r.coalesceTime ≠ 0) && decide (0 < r.unsignalled) && decide (r.coalesceTime ≤ (mt - o).toNat)

/-- A record written, counted toward the ring's interrupt (R169). -/
def ReportRing.countWritten (r : ReportRing) (mt : U64) : ReportRing :=
  if r.intEnable then
    { r with unsignalled := r.unsignalled + 1,
             oldest := if r.unsignalled = 0 then some mt else r.oldest }
  else r

/-- Must the ring's pending bit be raised, by count or by time? -/
def ReportRing.mustSignal (r : ReportRing) (mt : U64) : Bool :=
  r.intEnable && (decide (r.coalesceCount ≤ r.unsignalled) || r.timeReached mt)

/-- The ring once its pending bit has been raised. -/
def ReportRing.signalled (r : ReportRing) : ReportRing := { r with unsignalled := 0, oldest := none }

/-! ### The Timer Store's queues (R4, R6, R7) -/

/-- Queue order: by deadline, then by insertion sequence (R6). -/
def TimerSlot.before (a b : TimerSlot) : Bool :=
  decide (a.deadline < b.deadline) || (decide (a.deadline = b.deadline) && decide (a.seq < b.seq))

/-- A timer put at its place in a queue: before the first timer that stands after it. -/
def TimerStore.place (t : TimerStore) (n : Nat) : List Nat → List Nat
  | [] => [n]
  | m :: q => if (t.slot n).before (t.slot m) then n :: m :: q else m :: TimerStore.place t n q

/-- The queue of a scale. -/
def TimerStore.queue (t : TimerStore) : Scale → List Nat
  | .pt => t.ptQueue
  | .mt => t.mtQueue

/-- Replace the queue of a scale. -/
def TimerStore.setQueue (t : TimerStore) : Scale → List Nat → TimerStore
  | .pt, q => { t with ptQueue := q }
  | .mt, q => { t with mtQueue := q }

/-- A slot, given with its new record, joins the queue of its scale with a new insertion sequence (R4, R7). -/
def TimerStore.join (t : TimerStore) (n : Nat) (x : TimerSlot) : TimerStore :=
  let t := { t.setSlot n { x with seq := t.nextSeq } with nextSeq := t.nextSeq + 1 }
  t.setQueue x.scale (t.place n (t.queue x.scale))

/-- A slot leaves its queue (R7). -/
def TimerStore.leave (t : TimerStore) (n : Nat) : TimerStore :=
  { t with ptQueue := t.ptQueue.filter (fun m => decide (m ≠ n)),
           mtQueue := t.mtQueue.filter (fun m => decide (m ≠ n)) }

/-- A slot goes FREE: off its queue, cancel-requested and the stepped mark cleared (R3). Its references are released by
`State.releaseRefs`. -/
def TimerStore.goFree (t : TimerStore) (n : Nat) : TimerStore :=
  (t.leave n).setSlot n { t.slot n with state := .free, cancelRequested := false, stepped := false }

/-- Is a slot due: ARMED with now at or past its deadline (R8)? -/
def TimerSlot.due (x : TimerSlot) (tb : TimeBase) : Bool :=
  decide (x.state = .armed) && decide (x.deadline ≤ tb.now x.scale)

/-- The head run of a queue: from the head up to the first slot not due (R8). -/
def TimerStore.headRun (t : TimerStore) (tb : TimeBase) (sc : Scale) : List Nat :=
  (t.queue sc).takeWhile (fun n => decide ((t.slot n).deadline ≤ tb.now sc))

/-- The action of the slot's current phase (R9). -/
def TimerSlot.current (x : TimerSlot) : Action :=
  match x.phase, x.follow with
  | .follow, some f => f.action
  | _, _ => x.mainAction

/-- The stepped marking claim on one slot: ARMED on the PT queue with p0 < d ≤ p1 (R5). -/
def TimerSlot.markStep (p0 p1 : U64) (x : TimerSlot) : TimerSlot :=
  if x.state = .armed ∧ x.scale = .pt ∧ p0 < x.deadline ∧ x.deadline ≤ p1 then { x with stepped := true } else x

/-- The stepped marking claim, one step over all slots at once (R5). An unlisted slot is FREE and is never marked. -/
def TimerStore.markStep (t : TimerStore) (p0 p1 : U64) : TimerStore :=
  { t with slots := t.slots.map (fun p => (p.1, TimerSlot.markStep p0 p1 p.2)) }

/-! ### Targets and offers (R8, R51, R52) -/

/-- The host address of a memory action: its region's base plus its offset (R108). -/
def State.hostAddr (s : State) (a : Action) : U64 := (s.region a.target).base + a.offset.setWidth 64

/-- The aligned 8-byte span that contains an address (R52). -/
def hostWord (addr : U64) : U64 := addr &&& ~~~7#64

/-- The target of an action (R52). -/
def State.targetOf (s : State) (a : Action) : Option Target :=
  if a.kind.isMemory then some (.word (hostWord (s.hostAddr a)))
  else if a.kind.isLine then some (.line a.target)
  else none

/-- The entry of a due slot in an offer (R51). -/
def State.offerOf (s : State) (n : Nat) : Offer :=
  let x := s.store.slot n
  ⟨n, x.scale, x.deadline, x.seq, s.targetOf x.current⟩

/-- The store reassesses its head runs and offers them: the whole offered set is replaced (R8, R51). -/
def State.offer (s : State) : State :=
  let run := s.store.headRun s.tb .pt ++ s.store.headRun s.tb .mt
  s.setDisp { s.disp with offered := run.map s.offerOf }

/-! ### References (R21, R105, R165) -/

/-- The regions an arming references, one entry for each memory action. -/
def TimerSlot.regionRefs (x : TimerSlot) : List Nat :=
  (if x.mainAction.kind.isMemory then [x.mainAction.target] else []) ++
    match x.follow with
    | some f => if f.action.kind.isMemory then [f.action.target] else []
    | none => []

/-- One reference added to a region. -/
def State.addRegionRef (s : State) (n : Nat) : State :=
  s.setRegion n { s.region n with refs := (s.region n).refs + 1 }

/-- One reference to a region released (R112). -/
def State.releaseRegionRef (s : State) (n : Nat) : State :=
  s.setRegion n { s.region n with refs := (s.region n).refs - 1 }

/-- The reference to the report ring an arming names, if it names one. -/
def State.addRingRef (s : State) : Option Nat → State
  | none => s
  | some n => s.setReport (s.report.addRef n)

/-- The reference to the report ring an arming names released, if it names one. -/
def State.releaseRingRef (s : State) : Option Nat → State
  | none => s
  | some n => s.setReport (s.report.releaseRef n)

/-- The references of an arming added (R21). -/
def State.addRefs (s : State) (x : TimerSlot) : State :=
  (x.regionRefs.foldl State.addRegionRef s).addRingRef x.reportRing

/-- The references of an arming released (R21). -/
def State.releaseRefs (s : State) (x : TimerSlot) : State :=
  (x.regionRefs.foldl State.releaseRegionRef s).releaseRingRef x.reportRing

/-! ### Requests at their owner (R139, R140) -/

/-- The record in progress, if it is at its owner with the given opcode: its first slot's contents beside it. -/
def State.atOwner (s : State) (op : Opcode) : Option (IntakeRecord × PostSlot) :=
  match s.posting.inProgress with
  | none => none
  | some r =>
    match r.slot1 with
    | none => none
    | some w => if r.stage = .atOwner ∧ PostSlot.opcode w = some op then some (r, w) else none

/-- The fields every acknowledgment of a record carries (R140). -/
def IntakeRecord.ackHead (r : IntakeRecord) (opcode : Byte) : AckHead :=
  ⟨r.ring, r.bound, opcode, r.first, r.newHead⟩

/-- An acknowledgment handed in to the report ring that holds its reservation. -/
def State.handIn (s : State) (h : AckHead) (st : Status) (res : AckResults) : State :=
  s.setReport (s.report.handIn h.bound (.ack h st res))

/-- The record in progress ends. -/
def State.endRecord (s : State) : State := s.setPosting { s.posting with inProgress := none }

/-- A request answered at once: its acknowledgment is handed in and the record in progress ends (R140). -/
def State.answer (s : State) (r : IntakeRecord) (w : PostSlot) (st : Status) (res : AckResults) : State :=
  (s.handIn (r.ackHead (PostSlot.byte w 0)) st res).endRecord

/-! ### The administration fault and the doorbell error record (R182, R183) -/

/-- The administration fault set; a fault already set keeps its cause (R182). -/
def State.setAdminFault (s : State) (f : AdminFault) : State :=
  s.setWindow { s.window with adminFault := some (s.window.adminFault.getD f) }

/-- A doorbell error taken (R183). -/
def State.doorbellError (s : State) (ring : BitVec 4) (kind : BitVec 2) : State :=
  s.setWindow { s.window with doorbellError :=
    match s.window.doorbellError with
    | none => some ⟨ring, kind, false⟩
    | some e => some { e with multiple := true } }

/-! ### Time steps (R92) -/

/-- OFFSET after a step. -/
def TimeBase.stepped (t : TimeBase) (mode : StepMode) (value : U64) : TimeBase :=
  match mode with
  | .absolute => { t with offset := value - t.mt }
  | .relative => { t with offset := t.offset + value }

/-- A step applied: OFFSET changes, the stepped marking claim is taken, and the store reassesses (R92, R5, R8). -/
def State.applyStep (s : State) (mode : StepMode) (value : U64) : State :=
  let p0 := s.tb.pt
  let tb := s.tb.stepped mode value
  ((s.setTb tb).setStore (s.store.markStep p0 tb.pt)).offer

end Sys2Proof.Machine
end

