-- ==== Sys2Proof/Machine/Actions.lean ====
section
/-!
DEFINITION. Dispatch, the Action Engine and the Line Unit's line requests (chapters 3 and 6): the commands DISPATCH_WALK,
DISPATCH_CLAIM, HELD_ACTION_BEGIN, ACTION_READ_ANSWER, ACTION_WRITE_ANSWER, LINE_REQUEST and LINE_ANSWER.
-/
namespace Sys2Proof.Machine

/-- The action slot numbers. -/
def actionSlotNumbers : List Nat := List.range Config.numActionSlots

/-- An EMPTY action slot: the lowest-numbered (log entry 10). -/
def ActionEngine.emptySlot (e : ActionEngine) : Option Nat :=
  actionSlotNumbers.find? (fun i => decide ((e.slot i).stage = .empty))

/-- Does some action slot of a list hold an action on a target, in whatever stage (R55)? -/
def ActionEngine.holdsTarget (e : ActionEngine) (slots : List Nat) (t : Target) : Bool :=
  slots.any (fun i => decide ((e.slot i).stage ≠ .empty) && decide ((e.slot i).target = some t))

/-- The conflict test: an entry with no target always passes (R55). -/
def ActionEngine.passes (e : ActionEngine) (t : Option Target) : Bool :=
  match t with
  | none => true
  | some t => !(e.holdsTarget actionSlotNumbers t)

/-! ### The walk (R53, R54) -/

/-- An entry's lateness: now in its scale minus its deadline (R53). -/
def Offer.lateness (o : Offer) (tb : TimeBase) : U64 := tb.now o.scale - o.deadline

/-- Does an entry stand before another in the ranking (R53): larger lateness, then PT before MT, then the smaller insertion
sequence? -/
def Offer.ranksBefore (tb : TimeBase) (a b : Offer) : Bool :=
  if a.lateness tb ≠ b.lateness tb then decide (b.lateness tb < a.lateness tb)
  else if a.scale ≠ b.scale then decide (a.scale = .pt)
  else decide (a.seq < b.seq)

/-- The first entry in the ranking among those of a list. -/
def firstRanked (tb : TimeBase) : List Offer → Option Offer
  | [] => none
  | o :: os =>
    match firstRanked tb os with
    | none => some o
    | some p => if p.ranksBefore tb o then some p else some o

/-- The entry a walk claims: the first in the ranking that passes the conflict test (R54). -/
def State.walkChoice (s : State) : Option Offer :=
  firstRanked s.tb (s.disp.offered.filter (fun o => s.engine.passes o.target))

/-- DISPATCH_WALK (R54): with an action slot EMPTY, the offered set not empty and no claim outstanding, the Dispatcher
claims the first ranked entry that passes the conflict test. -/
def execDispatchWalk (s : State) : Host.Outcome State Fault Refusal :=
  .next (match s.engine.emptySlot, s.disp.claim, s.walkChoice with
    | some _, none, some o => s.setDisp { s.disp with claim := some o.timer }
    | _, _, _ => s.afterReset)

/-! ### Actions begin and complete (R59, R62, R72, R73) -/

/-- An action's completion: the completion return and draft FIRED report are formed and the slot becomes EMPTY (R72,
R73). -/
def ActionEngine.complete (e : ActionEngine) (i : Nat) (x : ActionSlot) : ActionEngine :=
  let c : Completion :=
    ⟨x.timer, x.generation, x.tag, x.scale, x.lateness, x.status, x.result, x.matchFlag, x.zeroFlag, x.stepped⟩
  { (e.setSlot i ActionSlot.reset) with
    order := e.order.filter (fun j => decide (j ≠ i)), returns := e.returns ++ [c] }

/-- An action begins: a NOTE completes at once, the other kinds issue their first operation (R59, R62). -/
def ActionEngine.begin (e : ActionEngine) (i : Nat) (x : ActionSlot) : ActionEngine :=
  match x.action.kind with
  | .note => e.complete i { x with result := 0, zeroFlag := true }
  | .load | .setBits | .clearBits | .swapIfEqual | .countDown => e.setSlot i { x with stage := .reading }
  | .store => e.setSlot i { x with stage := .writing }
  | .linePulse | .lineSet => e.setSlot i { x with stage := .line }

/-- Lateness as a firing reports it: saturated at 2^32 - 1 (R59). -/
def saturate32 (x : U64) : BitVec 32 := if Config.space32 ≤ x.toNat then BitVec.allOnes 32 else x.setWidth 32

/-- The record of an action slot at placement, its stage not yet set (R59): the fields the store hands over, the host
address or line, the lateness; status OK, old value absent, result and flags cleared. -/
def State.handed (s : State) (n : Nat) : ActionSlot :=
  let x := s.store.slot n
  { stage := .held
    timer := n
    generation := x.generation
    phase := x.phase
    scale := x.scale
    deadline := x.deadline
    tag := x.tag
    stepped := x.stepped
    action := x.current
    addr := if x.current.kind.isMemory then s.hostAddr x.current else 0
    target := s.targetOf x.current
    lateness := saturate32 (s.tb.now x.scale - x.deadline)
    old := none
    result := 0
    matchFlag := false
    zeroFlag := false
    status := .ok
    answer := none }

/-- The handed action placed in an EMPTY action slot: HELD while its target is occupied by another, else begun (R57,
R59). -/
def ActionEngine.placeAction (e : ActionEngine) (i : Nat) (x : ActionSlot) : ActionEngine :=
  let placed := { e.setSlot i x with order := e.order ++ [i] }
  if e.passes x.target then placed.begin i x else placed

/-- The Dispatcher takes the answer to its claim: the entry leaves the offered set and no claim is outstanding (R56). -/
def Dispatcher.answered (d : Dispatcher) (n : Nat) : Dispatcher :=
  ⟨d.offered.filter (fun o => decide (o.timer ≠ n)), none⟩

/-- The store's accepting of a claim: the slot leaves its queue, becomes FIRING and loses its stepped mark (R9). -/
def TimerStore.fire (t : TimerStore) (n : Nat) : TimerStore :=
  (t.leave n).setSlot n { t.slot n with state := .firing, stepped := false }

/-- DISPATCH_CLAIM (R9, R56): the store takes the claim outstanding. A due slot is dispatched into an EMPTY action slot; a
slot that is FREE, FIRING or not due is left as it is. While no action slot is EMPTY the Dispatcher makes no claim (R56), so
a claim finds one; were there none it would wait (log entry 19). -/
def execDispatchClaim (s : State) : Host.Outcome State Fault Refusal :=
  .next (match s.disp.claim with
    | none => s.afterReset
    | some n =>
      if (s.store.slot n).due s.tb then
        match s.engine.emptySlot with
        | none => s
        | some i =>
          ((s.setEngine (s.engine.placeAction i (s.handed n))).setStore (s.store.fire n)).setDisp (s.disp.answered n)
      else s.setDisp (s.disp.answered n))

/-- The action slots dispatched before slot `i`. -/
def dispatchedBefore (i : Nat) (order : List Nat) : List Nat := order.takeWhile (fun j => decide (j ≠ i))

/-- May a HELD action begin: has every action dispatched before it on its target left its action slot (R57)? -/
def ActionEngine.mayBegin (e : ActionEngine) (i : Nat) : Bool :=
  match (e.slot i).target with
  | none => true
  | some t => !(e.holdsTarget (dispatchedBefore i e.order) t)

/-- HELD_ACTION_BEGIN (R57): a HELD action begins once every earlier action on its target has left its slot. -/
def execHeldActionBegin (slot : Nat) (s : State) : Host.Outcome State Fault Refusal :=
  .next (if (s.engine.slot slot).stage = .held then
    if s.engine.mayBegin slot then s.setEngine (s.engine.begin slot (s.engine.slot slot)) else s
  else s.afterReset)

/-! ### Memory operations (R60 to R70) -/

/-- The write an action slot in WRITING has outstanding: width bytes of the kind's value at the host address (R60, R64 to
R67). -/
def ActionSlot.portWrite (x : ActionSlot) : PortWrite :=
  ⟨x.addr, x.action.width, (x.action.valueWritten (x.old.getD 0)).setWidth 256⟩

/-- A slot with the result and flags its kind computes from a value read (R63 to R67). -/
def ActionSlot.computed (x : ActionSlot) (old : U64) : ActionSlot :=
  { x with result := x.action.resultOf old, matchFlag := x.action.matchOf old, zeroFlag := x.action.zeroOf old }

/-- A read answered OK with a value (R63, R65 to R67): the action issues its write or completes. -/
def ActionEngine.readOk (e : ActionEngine) (i : Nat) (value : U64) : ActionEngine :=
  let x := e.slot i
  let old := toWidth x.action.width value
  let x := { x.computed old with old := some old }
  if x.action.writesAfter old then e.setSlot i { x with stage := .writing } else e.complete i x

/-- A read answered ERROR (R69). -/
def ActionEngine.readFailed (e : ActionEngine) (i : Nat) : ActionEngine :=
  e.complete i { e.slot i with status := .readError, result := 0, matchFlag := false, zeroFlag := false }

/-- ACTION_READ_ANSWER (R60): the answer to an action's read arrives. -/
def execActionReadAnswer (slot : Nat) (answer : WordRead) (s : State) : Host.Outcome State Fault Refusal :=
  .next (if (s.engine.slot slot).stage = .reading then
    match answer with
    | .ok value => s.setEngine (s.engine.readOk slot value)
    | .error => s.setEngine (s.engine.readFailed slot)
  else s.afterReset)

/-- How an answer to a write ends the action (R64 to R67, R70). -/
def statusOfWrite : WriteAnswer → ActionStatus
  | .ok => .ok
  | .error _ => .writeError

/-- The write of a slot answered: the action completes with the result and flags its kind computed (R64, R70). -/
def ActionEngine.writeAnswered (e : ActionEngine) (i : Nat) (answer : WriteAnswer) : ActionEngine :=
  let x := e.slot i
  e.complete i { x.computed (x.old.getD 0) with status := statusOfWrite answer }

/-- ACTION_WRITE_ANSWER (R60, R70): the answer to an action's write arrives; the write has changed the target bytes, those
that landed when the answer is ERROR. -/
def execActionWriteAnswer (slot : Nat) (answer : WriteAnswer) (s : State) : Host.Outcome State Fault Refusal :=
  .next (if (s.engine.slot slot).stage = .writing then
    (s.setMem (Memory.settle (s.engine.slot slot).portWrite answer s.mem)).setEngine (s.engine.writeAnswered slot answer)
  else s.afterReset)

/-! ### Line requests (R71, R116 to R118) -/

/-- A LINE_PULSE request of width `w` at MT (R117). On a pulse with one tick remaining a width of 1 leaves its end where it is,
and the next tick ends the pulse (log entry 28). -/
def LineRec.pulse (l : LineRec) (mt w : U64) : LineRec :=
  match l.state with
  | .rest => { l with state := .pulsing, pulseEnd := some (mt + w) }
  | .pulsing =>
    let remaining := (l.pulseEnd.getD mt) - mt
    { l with pulseEnd := some (mt + if remaining < w then w else remaining) }
  | .held => l

/-- A LINE_SET request (R118). -/
def LineRec.setTo (l : LineRec) (v : LineValue) : LineRec :=
  match v with
  | .active => { l with state := .held, pulseEnd := none }
  | .rest => { l with state := .rest, pulseEnd := none }
  | .toggle => { l with state := if l.state = .held then .rest else .held, pulseEnd := none }

/-- A line action's request applied to its line (R116). -/
def LineRec.request (l : LineRec) (a : Action) (mt : U64) : LineRec :=
  match a.kind with
  | .linePulse => l.pulse mt a.opA
  | .lineSet =>
    match LineValue.ofOperand a.opA with
    | some v => l.setTo v
    | none => l
  | _ => l

/-- LINE_REQUEST (R116): the Line Unit takes the request of an action slot, applies it and answers with the line's state
after the step; the answer is in transit until LINE_ANSWER. -/
def execLineRequest (slot : Nat) (s : State) : Host.Outcome State Fault Refusal :=
  let x := s.engine.slot slot
  .next (if x.stage = .line ∧ x.answer = none then
    let l := (s.line x.action.target).request x.action s.tb.mt
    (s.setLine x.action.target l).setEngine (s.engine.setSlot slot { x with answer := some l.state })
  else s.afterReset)

/-- LINE_ANSWER (R71): the Line Unit's answer arrives and the line action completes with status OK and the state's code as
its result. -/
def execLineAnswer (slot : Nat) (s : State) : Host.Outcome State Fault Refusal :=
  let x := s.engine.slot slot
  .next (match x.stage, x.answer with
    | .line, some st =>
      s.setEngine (s.engine.complete slot { x with result := BitVec.ofNat 64 st.code, matchFlag := false, zeroFlag := false })
    | _, _ => s.afterReset)

end Sys2Proof.Machine
end

