-- ==== Sys2Proof/Machine/Clock.lean ====
section
/-!
DEFINITION. The clock (chapter 4): ticks with everything the rules place at a tick, oscillator periods, REFCLK and ALIGN
edges, the fall back, and the commands TICK, SOURCE_QUALIFIED, SOURCE_SWITCH, QUALIFICATION_TIMEOUT, REFCLK_GAP, ALIGN_EDGE,
ALIGN_TIMEOUT, PULSE_END, COALESCE_TIME_EXPIRY and REFCLK_EDGE.
-/
namespace Sys2Proof.Machine

/-! ### What a tick does to the Time Base -/

/-- Is the tick at a window position adjusted under a trim: one of the positions 0, s, 2s, ..., |T| of them (R90)? -/
def adjustedTick (trim : Int) (pos : Nat) : Bool :=
  let n := trim.natAbs
  decide (n ≠ 0) && decide (pos % (Config.trimWindow / n) = 0) && decide (pos / (Config.trimWindow / n) < n)

/-- How much a tick changes OFFSET (R90). -/
def trimStep (trim : Int) (pos : Nat) : U64 :=
  if adjustedTick trim pos then (if 0 < trim then 1 else -1) else 0

/-- The divisor configured for the source driving ticks (R78, R79). -/
def TimeBase.drivingDivisor (t : TimeBase) : Nat :=
  if t.source = .external then t.extDivisor else t.intDivisor

/-- MT advances by one, trim may change OFFSET, the window position advances (R80, R81, R90). -/
def TimeBase.advance (t : TimeBase) : TimeBase :=
  { t with mt := t.mt + 1,
           offset := t.offset + trimStep t.trim t.windowPos,
           windowPos := (t.windowPos + 1) % Config.trimWindow }

/-- The count that begins now runs to the configured divisor of the driving source (R79). -/
def TimeBase.newCount (t : TimeBase) : TimeBase := { t with prescaler := 0, divInUse := t.drivingDivisor }

/-- The state a pending switch returns to (R85). -/
def PendingSwitch.returnState (p : PendingSwitch) : SourceState := if p.toFallback then .fallback else .internal

/-- The Time Base's results in the acknowledgment of a CONFIGURE_TIMEBASE (10, ACK). -/
def TimeBase.configResults (t : TimeBase) : AckResults := .timebase t.source t.intDivisor t.extDivisor

/-- The pending switch at a tick: made once qualified (R85), timed out at its 65,536th tick (R86), or counted. -/
def State.switchAtTick (s : State) : State :=
  match s.tb.pendingSwitch with
  | none => s
  | some p =>
    if Config.qualifyEdges ≤ p.edges then
      let tb := { s.tb with source := .external, pendingSwitch := none }
      (s.setTb tb).handIn p.ack .ok tb.configResults
    else if Config.qualifyTicks ≤ p.ticks + 1 then
      let tb := { s.tb with source := p.returnState, pendingSwitch := none }
      (s.setTb tb).handIn p.ack .sourceNotReady tb.configResults
    else s.setTb { s.tb with pendingSwitch := some { p with ticks := p.ticks + 1 } }

/-- The pending step at a tick: removed unapplied at the tick that brings MT to its expiry (R96). -/
def State.alignAtTick (s : State) : State :=
  match s.tb.pendingStep with
  | none => s
  | some p =>
    if s.tb.mt = p.expiry then
      (s.setTb { s.tb with pendingStep := none }).handIn p.ack .alignTimeout (.step s.tb.pt s.tb.pt)
    else s

/-! ### What a tick does to the lines and the report rings -/

/-- A line at a tick: REST when MT is at its pulse end (R119). -/
def LineRec.atTick (l : LineRec) (mt : U64) : LineRec :=
  if l.state = .pulsing ∧ l.pulseEnd = some mt then { l with state := .rest, pulseEnd := none } else l

/-- Every line of a list of line numbers at a tick. -/
def State.linesAtTick (s : State) : List Nat → State
  | [] => s
  | n :: ns => State.linesAtTick (s.setLine n ((s.line n).atTick s.tb.mt)) ns

/-- A report ring at a tick: its bit raised when its coalesce time is reached (R170), in whatever state the ring is: a FAULTED
ring's time expires too, though R149 has it keep its fields (log entry 30). -/
def ReportUnit.ringAtTick (r : ReportUnit) (mt : U64) (n : Nat) : ReportUnit :=
  if (r.ring n).intEnable ∧ (r.ring n).timeReached mt then (r.setRing n (r.ring n).signalled).raise n else r

/-- The report rings at a tick. -/
def State.ringsAtTick (s : State) : State :=
  s.setReport ((List.range Config.numRings).foldl (fun r n => r.ringAtTick s.tb.mt n) s.report)

/-- One tick, whole: MT advances and trim may adjust OFFSET; the pending switch and the pending step take it; the next
count begins; pulses end; coalescing times expire; the store offers its head runs (R78 to R80, R85, R86, R90, R96, R119,
R170, R8). `alignFirst` says whether the pending step takes the tick before the pending switch, which the spec leaves
open (log entry 5). -/
def State.tick (s : State) (alignFirst : Bool) : State :=
  let s := s.setTb s.tb.advance
  let s := if alignFirst then s.alignAtTick.switchAtTick else s.switchAtTick.alignAtTick
  let s := s.setTb s.tb.newCount
  ((s.linesAtTick (List.range Config.numLines)).ringsAtTick).offer

/-! ### Oscillator periods and REFCLK edges -/

/-- One more edge counted, up to 1024 (R85: edges after the 1024th "are counted no further"). -/
def PendingSwitch.countEdge (p : PendingSwitch) : PendingSwitch :=
  { p with edges := min (p.edges + 1) Config.qualifyEdges }

/-- The edge count back at 0, the tick count unchanged (R85). -/
def PendingSwitch.restart (p : PendingSwitch) : PendingSwitch := { p with edges := 0 }

/-- The fall back (R87): the internal oscillator drives ticks from a fresh count, and a SOURCE_LOST event goes to report
ring 0. -/
def State.fallBack (s : State) : State :=
  let tb := { s.tb with source := .fallback }.newCount
  (s.setTb tb).setReport (s.report.take 0 (.event (.sourceLost tb.mt tb.pt)))

/-- A gap detected: in QUALIFYING the edge count returns to 0 (R85), in EXTERNAL the Time Base falls back (R87), in the
other states it is not acted on (R84). -/
def State.gap (s : State) : State :=
  match s.tb.source with
  | .qualifying =>
    s.setTb { s.tb with pendingSwitch := s.tb.pendingSwitch.map PendingSwitch.restart }
  | .external => s.fallBack
  | .internal | .fallback => s

/-- The prescaler advanced by one period of the driving source: a tick when that brings it to the divisor in use
(R78). -/
def State.prescale (s : State) (alignFirst : Bool) : State :=
  if s.tb.divInUse ≤ s.tb.prescaler + 1 then s.tick alignFirst
  else s.setTb { s.tb with prescaler := s.tb.prescaler + 1 }

/-- The gap detector's count after one more internal period (R84). -/
def TimeBase.countGap (t : TimeBase) : TimeBase := { t with gapCount := min (t.gapCount + 1) Config.gapPeriods }

/-- One period of the internal oscillator: it times the gap detector (R84) and, unless REFCLK drives ticks, advances the
prescaler (R78). While a cold reset is in progress neither counts (R101). Where both a gap and a tick fall on it, `tickFirst`
says which is taken first (log entry 6). -/
def State.oscillatorPeriod (s : State) (tickFirst alignFirst : Bool) : State :=
  if s.oscillatorCounts then
    let gapNow := decide (s.tb.gapCount + 1 = Config.gapPeriods)
    let drives := decide (s.tb.source ≠ .external)
    let s := s.setTb s.tb.countGap
    if tickFirst then
      let s := if drives then s.prescale alignFirst else s
      if gapNow then s.gap else s
    else
      let s := if gapNow then s.gap else s
      if drives then s.prescale alignFirst else s
  else s

/-- One rising REFCLK edge: the gap detector's count returns to 0 (R84); in QUALIFYING it counts toward qualification
until 1024 (R85), in EXTERNAL it advances the prescaler (R78), in the other states it is ignored (R83). Edges are not taken
while the main supply is absent (R100, R124). -/
def State.refclkEdge (s : State) (alignFirst : Bool) : State :=
  if s.inputs.mainSupply then
    let s := s.setTb { s.tb with gapCount := 0 }
    match s.tb.source with
    | .qualifying =>
      s.setTb { s.tb with pendingSwitch := s.tb.pendingSwitch.map PendingSwitch.countEdge }
    | .external => s.prescale alignFirst
    | .internal | .fallback => s
  else s

/-! ### The commands -/

/-- The next period of the driving source completes a tick (R78). -/
def State.tickDue (s : State) : Bool :=
  decide (s.tb.divInUse ≤ s.tb.prescaler + 1) &&
    (if s.tb.source = .external then s.inputs.mainSupply else s.oscillatorCounts)

/-- The period or edge of the driving source that completes a tick. -/
def State.completeTick (s : State) (alignFirst : Bool) : State :=
  if s.tb.source = .external then s.refclkEdge alignFirst else s.oscillatorPeriod true alignFirst

/-- TICK: the prescaler wraps and produces a tick (R78). While the count has periods to run there is no wrap (log
entry 3). -/
def execTick (s : State) : Host.Outcome State Fault Refusal :=
  let s := s.afterReset
  .next (if s.tickDue then s.completeTick false else s)

/-- The pending switch takes its 1024th edge next (R85). -/
def State.qualifiesNext (s : State) : Bool :=
  decide (s.tb.source = .qualifying) &&
    match s.tb.pendingSwitch with
    | some p => decide (p.edges + 1 = Config.qualifyEdges)
    | none => false

/-- SOURCE_QUALIFIED: the edge that brings the edge count to 1024 (R85). -/
def execSourceQualified (s : State) : Host.Outcome State Fault Refusal :=
  let s := s.afterReset
  .next (if s.qualifiesNext then s.refclkEdge false else s)

/-- The next tick makes the switch (R85). -/
def State.switchesNext (s : State) : Bool :=
  match s.tb.pendingSwitch with
  | some p => decide (Config.qualifyEdges ≤ p.edges)
  | none => false

/-- SOURCE_SWITCH: the tick after qualification, at which REFCLK begins to drive ticks (R85). -/
def execSourceSwitch (s : State) : Host.Outcome State Fault Refusal :=
  let s := s.afterReset
  .next (if s.tickDue ∧ s.switchesNext then s.completeTick false else s)

/-- The next tick brings the pending switch's tick count to 65,536 unqualified (R86). -/
def State.timesOutNext (s : State) : Bool :=
  match s.tb.pendingSwitch with
  | some p => decide (p.edges < Config.qualifyEdges) && decide (Config.qualifyTicks ≤ p.ticks + 1)
  | none => false

/-- QUALIFICATION_TIMEOUT: the tick that brings the tick count of a pending switch to 65,536 without qualification
(R86). -/
def execQualificationTimeout (s : State) : Host.Outcome State Fault Refusal :=
  let s := s.afterReset
  .next (if s.tickDue ∧ s.timesOutNext then s.completeTick false else s)

/-- The next internal period is the 64th with no REFCLK edge, and the detector acts (R84). -/
def State.gapNext (s : State) : Bool :=
  decide (s.tb.gapCount + 1 = Config.gapPeriods) &&
    (decide (s.tb.source = .qualifying) || decide (s.tb.source = .external))

/-- REFCLK_GAP: 64 internal periods have passed with no REFCLK edge (R84, R85, R87). -/
def execRefclkGap (s : State) : Host.Outcome State Fault Refusal :=
  let s := s.afterReset
  .next (if s.gapNext then s.oscillatorPeriod false false else s)

/-- The pending step applied by an edge, with its deferred acknowledgment (R95). -/
def State.applyPending (s : State) (p : PendingStep) : State :=
  let p0 := s.tb.pt
  let s := (s.setTb { s.tb with pendingStep := none }).applyStep p.mode p.value
  s.handIn p.ack .ok (.step p0 s.tb.pt)

/-- A TIME_MARK while marks are enabled (R98). -/
def State.timeMark (s : State) (applied : Bool) : State :=
  if s.tb.marks then s.setReport (s.report.take 0 (.event (.timeMark applied s.tb.mt s.tb.pt))) else s

/-- ALIGN_EDGE: a rising ALIGN edge applies a pending step, its acknowledgment first, and produces a TIME_MARK while marks
are enabled (R95, R98). Edges are not taken while the main supply is absent (R100, R124). -/
def execAlignEdge (s : State) : Host.Outcome State Fault Refusal :=
  let s := s.afterReset
  .next (if s.inputs.mainSupply then
    match s.tb.pendingStep with
    | some p => (s.applyPending p).timeMark true
    | none => s.timeMark false
  else s)

/-- The next tick brings MT to the pending step's expiry (R96). -/
def State.alignExpiresNext (s : State) : Bool :=
  match s.tb.pendingStep with
  | some p => decide (s.tb.mt + 1 = p.expiry)
  | none => false

/-- ALIGN_TIMEOUT: the tick that brings MT to a pending step's expiry MT (R96). -/
def execAlignTimeout (s : State) : Host.Outcome State Fault Refusal :=
  let s := s.afterReset
  .next (if s.tickDue ∧ s.alignExpiresNext then s.completeTick true else s)

/-- The next tick brings MT to the line's pulse end (R119). -/
def State.pulseEndsNext (s : State) (line : Nat) : Bool :=
  decide (line < Config.numLines) && decide ((s.line line).state = .pulsing) &&
    decide ((s.line line).pulseEnd = some (s.tb.mt + 1))

/-- PULSE_END: the tick that brings MT to a PULSING line's pulse end (R119). -/
def execPulseEnd (line : Nat) (s : State) : Host.Outcome State Fault Refusal :=
  let s := s.afterReset
  .next (if s.tickDue ∧ s.pulseEndsNext line then s.completeTick false else s)

/-- The next tick brings the ring's coalesce time (R170). -/
def State.coalescesNext (s : State) (ring : Nat) : Bool :=
  decide (ring < Config.numRings) && (s.report.ring ring).intEnable && (s.report.ring ring).timeReached (s.tb.mt + 1)

/-- COALESCE_TIME_EXPIRY: the tick at which Tc ticks have passed since a ring's oldest unsignalled record (R170). -/
def execCoalesceTimeExpiry (ring : Nat) (s : State) : Host.Outcome State Fault Refusal :=
  let s := s.afterReset
  .next (if s.tickDue ∧ s.coalescesNext ring then s.completeTick false else s)

/-- REFCLK_EDGE: a rising REFCLK edge (R83 to R85, R78). An edge that completes a tick produces it (log entry 26). -/
def execRefclkEdge (s : State) : Host.Outcome State Fault Refusal :=
  let s := s.afterReset
  .next (s.refclkEdge false)

end Sys2Proof.Machine
end

