-- ==== Sys2Proof/Machine/AdminRequests.lean ====
section
/-!
DEFINITION. The administration requests of the Region Table (chapter 5), the Time Base (chapter 4) and the Line Unit
(chapter 6): SET_REGION, CLEAR_REGION, CONFIGURE_TIMEBASE, SET_TRIM, SET_TIME, SET_MARKS, READ_TIME, SET_LINE_REST.
-/
namespace Sys2Proof.Machine

/-! ### Regions -/

/-- The results of a region request (R111). -/
def State.regionResults (s : State) (number : Byte) : AckResults :=
  if Config.numRegions ≤ number.toNat then .region number false none 0 0 0
  else
    let x := s.region number.toNat
    .region number x.valid (some x.access) x.refs x.base x.length

/-- The checks of a SET_REGION (R109). -/
def SetRegionRequest.check (q : SetRegionRequest) (w : PostSlot) (s : State) : Status :=
  if !(PostSlot.reservedZero w (requestFields .setRegion)) ∨ (Access.ofCode q.access).isNone then .badFormat
  else if Config.numRegions ≤ q.number.toNat ∨ q.base.toNat % 8 ≠ 0 ∨ q.length.toNat < 8 ∨
      Config.space32 < q.length.toNat ∨ q.length.toNat % 8 ≠ 0 ∨ Config.space64 < q.base.toNat + q.length.toNat then
    .badRegion
  else if (s.region q.number.toNat).refs ≠ 0 then .inUse
  else .ok

/-- The region an accepted SET_REGION makes (R109). -/
def SetRegionRequest.region (q : SetRegionRequest) : Region :=
  ⟨true, q.base, q.length.toNat, (Access.ofCode q.access).getD .read, 0⟩

/-- SET_REGION as the table takes it (R109, R111). -/
def State.takeSetRegion (s : State) (r : IntakeRecord) (w : PostSlot) : State :=
  let q := SetRegionRequest.read w
  let st := q.check w s
  let s := if st = .ok then s.setRegion q.number.toNat q.region else s
  s.answer r w st (s.regionResults q.number)

/-- SET_REGION (R109): the Region Table takes a SET_REGION request. -/
def execSetRegion (s : State) : Host.Outcome State Fault Refusal :=
  .next (match s.atOwner .setRegion with
    | some (r, w) => s.takeSetRegion r w
    | none => s.afterReset)

/-- The checks of a CLEAR_REGION (R110). -/
def State.clearRegionCheck (s : State) (w : PostSlot) : Status :=
  let number := PostSlot.number w
  let x := s.region number.toNat
  if !(PostSlot.reservedZero w (requestFields .clearRegion)) then .badFormat
  else if Config.numRegions ≤ number.toNat then .badRegion
  else if x.valid = true ∧ x.refs ≠ 0 then .inUse
  else .ok

/-- CLEAR_REGION as the table takes it (R110, R111): a VALID region becomes INVALID, an INVALID one is unchanged. -/
def State.takeClearRegion (s : State) (r : IntakeRecord) (w : PostSlot) : State :=
  let number := PostSlot.number w
  let st := s.clearRegionCheck w
  let s := if st = .ok ∧ (s.region number.toNat).valid = true then s.setRegion number.toNat Region.reset else s
  s.answer r w st (s.regionResults number)

/-- CLEAR_REGION (R110): the Region Table takes a CLEAR_REGION request. -/
def execClearRegion (s : State) : Host.Outcome State Fault Refusal :=
  .next (match s.atOwner .clearRegion with
    | some (r, w) => s.takeClearRegion r w
    | none => s.afterReset)

/-! ### CONFIGURE_TIMEBASE -/

/-- The checks of a CONFIGURE_TIMEBASE (R88). -/
def ConfigureRequest.check (q : ConfigureRequest) (w : PostSlot) (t : TimeBase) : Status :=
  if !(PostSlot.reservedZero w (requestFields .configureTimebase)) ∨ (SourceChoice.ofCode q.choice).isNone ∨
      Config.maxDivisor < q.intDivisor.toNat ∨ Config.maxDivisor < q.extDivisor.toNat then .badFormat
  else if t.source = .qualifying ∧ SourceChoice.ofCode q.choice ≠ some .keep then .switchPending
  else .ok

/-- The configured divisors after an accepted request: a field of 0 leaves its divisor (R88). The divisor in use is not
changed (R79). -/
def TimeBase.setDivisors (t : TimeBase) (q : ConfigureRequest) : TimeBase :=
  { t with intDivisor := if q.intDivisor = 0 then t.intDivisor else q.intDivisor.toNat,
           extDivisor := if q.extDivisor = 0 then t.extDivisor else q.extDivisor.toNat }

/-- Qualification begun: the state becomes QUALIFYING, the gap detector's count 0, and the switch is pending with its
acknowledgment (R84, R85). -/
def TimeBase.beginQualifying (t : TimeBase) (h : AckHead) : TimeBase :=
  { t with source := .qualifying,
           gapCount := 0,
           pendingSwitch := some ⟨decide (t.source = .fallback), 0, 0, h⟩ }

/-- CONFIGURE_TIMEBASE as the Time Base takes it (R88, R89): the divisors first, then the source choice. -/
def State.takeConfigure (s : State) (r : IntakeRecord) (w : PostSlot) : State :=
  let q := ConfigureRequest.read w
  let st := q.check w s.tb
  if st ≠ .ok then s.answer r w st s.tb.configResults
  else
    let tb := s.tb.setDivisors q
    match SourceChoice.ofCode q.choice, tb.source with
    | some .internal, .external =>
      let tb := { tb with source := .internal }.newCount
      (s.setTb tb).answer r w .ok tb.configResults
    | some .internal, .fallback =>
      let tb := { tb with source := .internal }
      (s.setTb tb).answer r w .ok tb.configResults
    | some .external, .internal => (s.setTb (tb.beginQualifying (r.ackHead (PostSlot.byte w 0)))).endRecord
    | some .external, .fallback => (s.setTb (tb.beginQualifying (r.ackHead (PostSlot.byte w 0)))).endRecord
    | _, _ => (s.setTb tb).answer r w .ok tb.configResults

/-- CONFIGURE_TIMEBASE (R88): the Time Base takes a CONFIGURE_TIMEBASE request. -/
def execConfigureTimebase (s : State) : Host.Outcome State Fault Refusal :=
  .next (match s.atOwner .configureTimebase with
    | some (r, w) => s.takeConfigure r w
    | none => s.afterReset)

/-! ### SET_TRIM -/

/-- The checks of a SET_TRIM (R91). -/
def trimCheck (w : PostSlot) : Status :=
  if !(PostSlot.reservedZero w (requestFields .setTrim)) then .badFormat
  else if Config.maxTrim < (PostSlot.trim w).natAbs then .badTrim
  else .ok

/-- SET_TRIM as the Time Base takes it: the trim is set and the window restarts (R91); a refusal carries the trim in force
twice (R189). -/
def State.takeSetTrim (s : State) (r : IntakeRecord) (w : PostSlot) : State :=
  let st := trimCheck w
  if st = .ok then
    (s.setTb { s.tb with trim := PostSlot.trim w, windowPos := 0 }).answer r w .ok (.trim s.tb.trim (PostSlot.trim w))
  else s.answer r w st (.trim s.tb.trim s.tb.trim)

/-- SET_TRIM (R91): the Time Base takes a SET_TRIM request. -/
def execSetTrim (s : State) : Host.Outcome State Fault Refusal :=
  .next (match s.atOwner .setTrim with
    | some (r, w) => s.takeSetTrim r w
    | none => s.afterReset)

/-! ### SET_TIME -/

/-- The checks of a SET_TIME (R93). -/
def SetTimeRequest.check (q : SetTimeRequest) (w : PostSlot) (t : TimeBase) : Status :=
  if !(PostSlot.reservedZero w (requestFields .setTime)) ∨ (StepMode.ofCode q.mode).isNone ∨
      (onOffOfCode q.timing).isNone ∨ (onOffOfCode q.timing = some true ∧ q.timeout = 0) then .badFormat
  else if t.pendingStep.isSome ∧ q.replace = false then .stepPending
  else .ok

/-- The pending step ended unapplied by a request with REPLACE, its acknowledgment REPLACED (R97). -/
def State.endReplaced (s : State) : State :=
  match s.tb.pendingStep with
  | none => s
  | some p => (s.setTb { s.tb with pendingStep := none }).handIn p.ack .replaced (.step 0 0)

/-- An accepted SET_TIME once no step is pending: an IMMEDIATE step is applied and acknowledged; an AT_ALIGN step becomes
pending, its acknowledgment deferred (R93, R94). -/
def State.setTime (s : State) (q : SetTimeRequest) (mode : StepMode) (r : IntakeRecord) (w : PostSlot) : State :=
  if onOffOfCode q.timing = some true then
    let p : PendingStep := ⟨mode, q.value, s.tb.mt + q.timeout.setWidth 64, r.ackHead (PostSlot.byte w 0)⟩
    (s.setTb { s.tb with pendingStep := some p }).endRecord
  else
    let p0 := s.tb.pt
    let s := s.applyStep mode q.value
    s.answer r w .ok (.step p0 s.tb.pt)

/-- SET_TIME as the Time Base takes it (R93, R94, R97). -/
def State.takeSetTime (s : State) (r : IntakeRecord) (w : PostSlot) : State :=
  let q := SetTimeRequest.read w
  let st := q.check w s.tb
  if st = .ok then s.endReplaced.setTime q ((StepMode.ofCode q.mode).getD .absolute) r w
  else s.answer r w st (.step 0 0)

/-- SET_TIME (R93): the Time Base takes a SET_TIME request. -/
def execSetTime (s : State) : Host.Outcome State Fault Refusal :=
  .next (match s.atOwner .setTime with
    | some (r, w) => s.takeSetTime r w
    | none => s.afterReset)

/-! ### SET_MARKS and READ_TIME -/

/-- SET_MARKS as the Time Base takes it (R98); a refusal carries the setting in force (R189). -/
def State.takeSetMarks (s : State) (r : IntakeRecord) (w : PostSlot) : State :=
  match PostSlot.reservedZero w (requestFields .setMarks), onOffOfCode (PostSlot.byte w 2) with
  | true, some v => (s.setTb { s.tb with marks := v }).answer r w .ok (.marks s.tb.marks)
  | _, _ => s.answer r w .badFormat (.marks s.tb.marks)

/-- SET_MARKS (R98): the Time Base takes a SET_MARKS request. -/
def execSetMarks (s : State) : Host.Outcome State Fault Refusal :=
  .next (match s.atOwner .setMarks with
    | some (r, w) => s.takeSetMarks r w
    | none => s.afterReset)

/-- The snapshot of a READ_TIME (R99). -/
def TimeBase.snapshot (t : TimeBase) : AckResults :=
  .time t.source t.pendingStep.isSome t.pendingSwitch.isSome t.marks t.trim t.mt t.pt

/-- READ_TIME as the Time Base takes it (R99); a refusal carries 0 in every result (R189). -/
def State.takeReadTime (s : State) (r : IntakeRecord) (w : PostSlot) : State :=
  if PostSlot.reservedZero w (requestFields .readTime) then s.answer r w .ok s.tb.snapshot
  else s.answer r w .badFormat .none

/-- READ_TIME (R99): the Time Base takes a READ_TIME request. -/
def execReadTime (s : State) : Host.Outcome State Fault Refusal :=
  .next (match s.atOwner .readTime with
    | some (r, w) => s.takeReadTime r w
    | none => s.afterReset)

/-! ### SET_LINE_REST -/

/-- The line numbers. -/
def lineNumbers : List Nat := List.range Config.numLines

/-- The eight rest levels as a byte, bit n for line n, 1 HIGH (10, ACK). -/
def State.restLevels (s : State) : BitVec 8 :=
  lineNumbers.foldl (fun b n => if (s.line n).rest = .high then b ||| BitVec.ofNat 8 (2 ^ n) else b) 0

/-- The states of the eight lines (R120). -/
def State.lineStates (s : State) : List LineState := lineNumbers.map (fun n => (s.line n).state)

/-- Some line in the mask is HELD or PULSING (R120). -/
def State.lineBusy (s : State) (mask : Byte) : Bool :=
  lineNumbers.any (fun n => mask.getLsbD n && decide ((s.line n).state ≠ .rest))

/-- The checks of a SET_LINE_REST (R120). -/
def State.lineRestCheck (s : State) (w : PostSlot) : Status :=
  if !(PostSlot.reservedZero w (requestFields .setLineRest)) then .badFormat
  else if s.lineBusy (LineRestRequest.read w).mask then .lineBusy
  else .ok

/-- The level a bit of the level set gives. -/
def levelOf (b : Bool) : Level := if b then .high else .low

/-- The rest levels of the masked lines set (R120). -/
def State.setRest (s : State) (q : LineRestRequest) : List Nat → State
  | [] => s
  | n :: ns =>
    State.setRest
      (if q.mask.getLsbD n then s.setLine n { s.line n with rest := levelOf (q.levels.getLsbD n) } else s) q ns

/-- SET_LINE_REST as the Line Unit takes it (R120). -/
def State.takeSetLineRest (s : State) (r : IntakeRecord) (w : PostSlot) : State :=
  let st := s.lineRestCheck w
  let after := if st = .ok then s.setRest (LineRestRequest.read w) lineNumbers else s
  after.answer r w st (.lines s.restLevels after.restLevels s.lineStates)

/-- SET_LINE_REST (R120): the Line Unit takes a SET_LINE_REST request. -/
def execSetLineRest (s : State) : Host.Outcome State Fault Refusal :=
  .next (match s.atOwner .setLineRest with
    | some (r, w) => s.takeSetLineRest r w
    | none => s.afterReset)

end Sys2Proof.Machine
end

