-- ==== Sys2Proof/Machine/Completion.lean ====
section
/-!
DEFINITION. The completion return (chapter 2): the command COMPLETION_RETURN.
-/
namespace Sys2Proof.Machine

/-- The outcome of a completion return (R31). -/
inductive ReturnOutcome where
  | ends (followSkipped : Bool)
  | nextPeriod (deadline : U64) (skipped : Nat)
  | followPhase (deadline : U64)
  deriving DecidableEq, Repr

/-- How many periods a SKIP timer advances: the whole periods in now - previous deadline, plus one; 1 when now is before
the previous deadline (R37). -/
def skipPeriods (now previous period : U64) : Nat :=
  if previous ≤ now then (now.toNat - previous.toNat) / period.toNat + 1 else 1

/-- The next period of a slot that does not end (R36, R37): CATCHUP one period on, SKIP the first lattice point ahead. -/
def Period.next (p : Period) (now previous : U64) : ReturnOutcome :=
  match p.policy with
  | .catchup => .nextPeriod (previous + p.ticks) 0
  | .skip =>
    let k := skipPeriods now previous p.ticks
    .nextPeriod (previous + BitVec.ofNat 64 k * p.ticks) (min (k - 1) Config.maxCount16)

/-- The fire count after a completion return: one more in phase MAIN, modulo 2^32 (R32). -/
def TimerSlot.counted (x : TimerSlot) : BitVec 32 := if x.phase = .main then x.fireCount + 1 else x.fireCount

/-- The outcome, by the first case of R31 that applies; `x` is the slot before its fire count rises, `now` the time in its
scale. -/
def TimerSlot.outcome (x : TimerSlot) (c : Completion) (now : U64) : ReturnOutcome :=
  if c.status ≠ .ok then .ends false
  else if x.cancelRequested then .ends false
  else
    match x.phase, x.period, x.follow with
    | .main, some p, _ =>
      if (x.countLimit ≠ 0 ∧ x.counted = x.countLimit) ∨ (x.stopAtZero = true ∧ c.zeroFlag = true) then .ends false
      else p.next now x.deadline
    | .main, none, some f =>
      if f.condition.holds c.matchFlag c.zeroFlag then .followPhase (now + f.delay.setWidth 64) else .ends true
    | .main, none, none => .ends false
    | .follow, _, _ => .ends false

/-- Does the outcome end the timer? -/
def ReturnOutcome.isFinal : ReturnOutcome → Bool
  | .ends _ => true
  | _ => false

/-- The FIRED report completed with the fields that depend on the outcome (R44). -/
def TimerSlot.report (x : TimerSlot) (c : Completion) (o : ReturnOutcome) : Fired where
  timer := c.timer
  generation := c.generation
  tag := c.tag
  scale := c.scale
  lateness := c.lateness
  status := c.status
  result := c.result
  matchFlag := c.matchFlag
  zeroFlag := c.zeroFlag
  stepped := c.stepped
  final := o.isFinal
  cancelled := x.cancelRequested
  followSkipped := match o with
    | .ends b => b
    | _ => false
  phaseFollow := decide (x.phase = .follow)
  fireCount := x.counted
  skipped := match o with
    | .nextPeriod _ k => k
    | _ => 0

/-- The report handed to the Report Unit when the report policy lets it through (R45, R46). -/
def State.handReport (s : State) (x : TimerSlot) (f : Fired) : State :=
  match x.reportRing with
  | none => s
  | some ring => if x.reportPolicy.lets f.status f.final then s.setReport (s.report.take ring (.fired f)) else s

/-- What becomes of the slot (R38, R40, R3): it ends, or joins its queue for the next period or the follow phase. `x` is
the slot with its fire count raised. -/
def State.settleSlot (s : State) (n : Nat) (x : TimerSlot) (o : ReturnOutcome) : State :=
  match o with
  | .ends _ => ((s.setStore ((s.store.setSlot n x).goFree n)).releaseRefs x)
  | .nextPeriod deadline _ =>
    (s.setStore (s.store.join n { x with state := .armed, phase := .main, deadline := deadline })).offer
  | .followPhase deadline =>
    (s.setStore (s.store.join n { x with state := .armed, phase := .follow, deadline := deadline })).offer

/-- A completion return taken by the store, whole (R31, R32, R44 to R46): the report first, then the slot. -/
def State.takeReturn (s : State) (c : Completion) : State :=
  let x := s.store.slot c.timer
  let o := x.outcome c (s.tb.now x.scale)
  (s.handReport x (x.report c o)).settleSlot c.timer { x with fireCount := x.counted } o

/-- COMPLETION_RETURN (R31): the store takes the completion return first handed in. Its slot is FIRING, because nothing but
the return ends FIRING other than a reset (R10); a return for a slot in another state would be discarded (log entry 19). -/
def execCompletionReturn (s : State) : Host.Outcome State Fault Refusal :=
  .next (match s.engine.returns with
    | [] => s.afterReset
    | c :: cs =>
      let s := s.setEngine { s.engine with returns := cs }
      if (s.store.slot c.timer).state = .firing then s.takeReturn c else s)

end Sys2Proof.Machine
end

