-- ==== Sys2Proof/Machine/Intake.lean ====
section
/-!
DEFINITION. The intake (chapter 7): eligibility, the arbiter, and the commands INTAKE_CHOICE and INTAKE_READ_ANSWER.
-/
namespace Sys2Proof.Machine

/-! ### Eligibility and choice (R132 to R136) -/

/-- Is a posting ring eligible (R132)? -/
def State.eligible (s : State) (n : Nat) : Bool :=
  let p := s.posting.ring n
  decide (p.state = .active) && decide (p.headNeed ≤ p.present) &&
    (s.report.ring p.bound).running && decide (1 ≤ (s.report.ring p.bound).free) &&
    (decide (n ≠ 0) || s.window.adminFault.isNone)

/-- Is a ring an eligible ring of a class? Rings 1 to 8 only (R134). -/
def State.eligibleOf (s : State) (c : RingClass) (n : Nat) : Bool :=
  s.eligible n && decide ((s.posting.ring n).ringClass = c)

/-- The order in which rings 1 to 8 are searched after the last one taken: from the number after it up through 8, then on
from 1; from 1 when there is none (R134). -/
def searchOrder (last : Option Nat) : List Nat :=
  let start := last.getD 8
  (List.range 8).map (fun k => (start + k) % 8 + 1)

/-- The first eligible ring of a class in its search order. -/
def State.search (s : State) (c : RingClass) (last : Option Nat) : Option Nat :=
  (searchOrder last).find? (fun n => s.eligibleOf c n)

/-- Is some NORMAL ring eligible (R135)? -/
def State.normalEligible (s : State) : Bool :=
  [1, 2, 3, 4, 5, 6, 7, 8].any (fun n => s.eligibleOf .normal n)

/-- The ring the arbiter chooses (R134, R135): ring 0 first; then a HIGH ring, unless the run is 8 and a NORMAL ring is
eligible; then a NORMAL ring. -/
def State.choice (s : State) : Option Nat :=
  if s.eligible 0 then some 0
  else if Config.maxHighRun ≤ s.posting.highRun ∧ s.normalEligible = true then s.search .normal s.posting.lastNormal
  else
    match s.search .high s.posting.lastHigh with
    | some n => some n
    | none => s.search .normal s.posting.lastNormal

/-- A take begun on a ring, its reservation granted: the record is in progress in stage FETCHING (R137). -/
def State.beginTake (s : State) (n : Nat) (report : ReportUnit) : State :=
  let p := s.posting.ring n
  let r : IntakeRecord := ⟨n, p.bound, p.head, .fetching, none, none, none, p.head, s.normalEligible⟩
  (s.setReport report).setPosting { s.posting with inProgress := some r }

/-- INTAKE_CHOICE (R133, R136): with no record in progress and some posting ring eligible, a ring is chosen, an
acknowledgment slot reserved and the first slot's read issued. -/
def execIntakeChoice (s : State) : Host.Outcome State Fault Refusal :=
  .next (match s.posting.inProgress, s.choice with
    | none, some n =>
      match s.report.reserve (s.posting.ring n).bound with
      | some report => s.beginTake n report
      | none => s
    | _, _ => s.afterReset)

/-! ### Taking a record (R130, R131, R137 to R142) -/

/-- The arbiter's positions and run after a take that is not withdrawn (R134, R135). -/
def PostingUnit.noteTake (p : PostingUnit) (n : Nat) (normalEligible : Bool) : PostingUnit :=
  match (p.ring n).ringClass with
  | .administration => p
  | .high => { p with lastHigh := some n,
                      highRun := if normalEligible then min (p.highRun + 1) Config.maxHighRun else 0 }
  | .normal => { p with lastNormal := some n, highRun := 0 }

/-- The length of a record, from its first slot (R130). -/
def PostSlot.length (w : PostSlot) : Nat :=
  if PostSlot.opcode w = some .arm ∧ PostSlot.followBit w = true then 2 else 1

/-- The intake's own checks (R138): `second` is the second slot of a two-slot record. -/
def intakeCheck (ring : Nat) (w : PostSlot) (second : Option PostSlot) : Status :=
  match PostSlot.opcode w with
  | none => .badOpcode
  | some op =>
    if op = .extension then .badOpcode
    else if second.isSome ∧ PostSlot.opcode (second.getD 0) ≠ some .extension then .badFormat
    else if op.isAdministration ∧ ring ≠ 0 then .wrongRing
    else .ok

/-- A record's slots have been read (stage DECODING): the head advances past it, the arbiter's positions follow, and it is
answered by the Posting Unit or goes to its owner (R138, R139, R140). -/
def State.decodeRecord (s : State) (r : IntakeRecord) (w : PostSlot) (second : Option PostSlot) : State :=
  let p := s.posting.ring r.ring
  let len := if second.isSome then 2 else 1
  let head := (p.head + len) % p.size
  let r := { r with stage := .decoding, length := some len, slot1 := some w, slot2 := second, newHead := head }
  let posting := (s.posting.setRing r.ring { p with head := head, headNeed := 1 }).noteTake r.ring r.normalEligible
  let s := s.setPosting posting
  let st := intakeCheck r.ring w second
  if st = .ok then s.setPosting { s.posting with inProgress := some { r with stage := .atOwner } }
  else s.answer r w st .none

/-- A take withdrawn: the reservation is handed back and the head need becomes 2 (R131). -/
def State.withdraw (s : State) (r : IntakeRecord) : State :=
  let p := s.posting.ring r.ring
  ((s.setPosting (s.posting.setRing r.ring { p with headNeed := 2 })).setReport
    (s.report.handBack r.bound s.tb.mt)).endRecord

/-- A fetch error (R141, R142): the ring stalls, a FETCH_ERROR acknowledgment is handed in, and on ring 0 the
administration fault is set. -/
def State.fetchError (s : State) (r : IntakeRecord) : State :=
  let p := s.posting.ring r.ring
  let opcode : Byte := match r.slot1 with
    | some w => PostSlot.byte w 0
    | none => 0
  let posting := (s.posting.setRing r.ring { p with state := .stalled }).noteTake r.ring r.normalEligible
  let h : AckHead := ⟨r.ring, r.bound, opcode, p.head, p.head⟩
  let s := ((s.setPosting posting).handIn h .fetchError .none).endRecord
  if r.ring = 0 then s.setAdminFault .postRingFetch else s

/-- The first slot read (R130, R131, R137): a one-slot record is decoded; of a two-slot record the second slot is read if it
is present, else the take is withdrawn, also where a doorbell has meanwhile left no slot present (log entry 29). -/
def State.firstSlotRead (s : State) (r : IntakeRecord) (w : PostSlot) : State :=
  if PostSlot.length w = 1 then s.decodeRecord r w none
  else if 2 ≤ (s.posting.ring r.ring).present then
    s.setPosting { s.posting with inProgress := some { r with length := some 2, slot1 := some w } }
  else s.withdraw r

/-- INTAKE_READ_ANSWER (R137): the system port answers an intake read. -/
def execIntakeReadAnswer (answer : SlotRead) (s : State) : Host.Outcome State Fault Refusal :=
  .next (match s.posting.inProgress with
    | none => s.afterReset
    | some r =>
      if r.stage ≠ .fetching then s
      else
        match answer, r.slot1 with
        | .error, _ => s.fetchError r
        | .ok w, none => s.firstSlotRead r w
        | .ok w2, some w => s.decodeRecord r w (some w2))

end Sys2Proof.Machine
end

