-- ==== Sys2Proof/Machine/ReportWrites.lean ====
section
/-!
DEFINITION. The answers to report writes (R151, R163, R164, R167, R169, R170): the command REPORT_WRITE_ANSWER.
-/
namespace Sys2Proof.Machine

/-- The producer and phase after a record is written: the phase toggles when the producer wraps to 0 (R151). -/
def ReportRing.advance (r : ReportRing) : ReportRing :=
  let p := (r.producer + 1) % r.size
  { r with producer := p, phase := if p = 0 then !r.phase else r.phase }

/-- A ring's write answered OK (R151, R169, R170): the record leaves the queue, the producer advances, and the write counts
toward the interrupt. The next record of the queue is then the write in flight. -/
def ReportUnit.written (r : ReportUnit) (n : Nat) (mt : U64) : ReportUnit :=
  let ring := ({ r.ring n with queue := (r.ring n).queue.tail }.advance).countWritten mt
  if ring.mustSignal mt then (r.setRing n ring.signalled).raise n else r.setRing n ring

/-- A ring FAULTED (R163): its write queue and its held entries are discarded, its other fields keep their values. -/
def ReportUnit.faultRing (r : ReportUnit) (n : Nat) : ReportUnit :=
  let r' := r.setRing n { r.ring n with state := .faulted, queue := [] }
  { r' with hold := r.hold.filter (fun e => decide (e.ring ≠ n)) }

/-- A ring's write answered ERROR (R163, R164): the ring faults; for rings 1 to 8 a REPORT_RING_FAULT event goes to report
ring 0, for ring 0 the administration fault is set. -/
def State.ringFault (s : State) (n : Nat) : State :=
  let faulted := s.report.faultRing n
  if n = 0 then (s.setReport faulted).setAdminFault .reportRingWrite
  else
    s.setReport (faulted.take 0
      (.event (.reportRingFault n (s.report.ring n).producer s.tb.mt s.tb.pt)))

/-- The answer to a ring's own write in flight (R151, R163): the record lands in host memory, whole when answered OK. -/
def State.ringWriteAnswered (s : State) (n : Nat) (w : PortWrite) (answer : WriteAnswer) : State :=
  let s := s.setMem (Memory.settle w answer s.mem)
  match answer with
  | .ok => s.setReport (s.report.written n s.tb.mt)
  | .error _ => s.ringFault n

/-- The answer to a write left outstanding by a ring's deletion: the write has landed or not, and the answer is discarded
and changes no ring (R167). -/
def State.deletedWriteAnswered (s : State) (k : Nat) (w : PortWrite) (answer : WriteAnswer) : State :=
  (s.setMem (Memory.settle w answer s.mem)).setReport
    { s.report with deletedWrites := s.report.deletedWrites.eraseIdx k }

/-- REPORT_WRITE_ANSWER (R151): the answer to a report ring write arrives. -/
def execReportWriteAnswer (write : ReportWrite) (answer : WriteAnswer) (s : State) :
    Host.Outcome State Fault Refusal :=
  .next (match write with
    | .ring n =>
      match (s.report.ring n).inFlight with
      | some w => if (s.report.ring n).running then s.ringWriteAnswered n w answer else s
      | none => s.afterReset
    | .deleted k =>
      match s.report.deletedWrites[k]? with
      | some w => s.deletedWriteAnswered k w answer
      | none => s.afterReset)

end Sys2Proof.Machine
end

