-- ==== Sys2Proof/Machine/Resets.lean ====
section
/-!
DEFINITION. Resets and supplies (R100 to R103, R173 to R176 and each block's own rule): the commands FUNCTION_RESET,
RESET_ASSERT, RESET_RELEASE, ABANDONED_ANSWER, MAIN_SUPPLY_LOSS, MAIN_SUPPLY_RETURN, COLD_RESET and KEEP_ALIVE_SUPPLY_LOSS.
-/
namespace Sys2Proof.Machine

/-! ### Operations outstanding on the system port (R173) -/

/-- The intake's read outstanding: of the first slot, or of the second once the first has been read (R137). -/
def State.intakeRead (s : State) : List PortOp :=
  match s.posting.inProgress with
  | none => []
  | some r =>
    let p := s.posting.ring r.ring
    if r.stage ≠ .fetching then []
    else if r.slot1.isNone then [.read (p.slotAddr r.first) 64]
    else [.read (p.slotAddr ((r.first + 1) % p.size)) 64]

/-- The write in flight of each report ring. -/
def State.ringWrites (s : State) : List PortWrite :=
  (List.range Config.numRings).filterMap (fun n => (s.report.ring n).inFlight)

/-- The operation an action slot has outstanding on the system port. -/
def ActionSlot.outstanding (x : ActionSlot) : Option PortOp :=
  match x.stage with
  | .reading => some (.read x.addr x.action.width)
  | .writing => some (.write x.portWrite)
  | .empty | .held | .line => none

/-- The operations of the action slots. -/
def State.actionOps (s : State) : List PortOp :=
  actionSlotNumbers.filterMap (fun i => (s.engine.slot i).outstanding)

/-- Every operation outstanding: the intake's read, the report rings' writes, the writes of deleted rings and the action
slots' operations (R173). -/
def State.outstanding (s : State) : List PortOp :=
  s.intakeRead ++ (s.ringWrites ++ s.report.deletedWrites).map PortOp.write ++ s.actionOps

/-- The write of an operation, if it is one. -/
def PortOp.asWrite : PortOp → Option PortWrite
  | .read _ _ => none
  | .write w => some w

/-! ### What a reset does to each block -/

/-- The Time Base at a function reset (R102): a pending step is abandoned, a pending switch returns to its return state,
marks are off; everything else goes on. -/
def TimeBase.functionReset (t : TimeBase) : TimeBase :=
  { t with source := match t.pendingSwitch with
             | some p => p.returnState
             | none => t.source,
           pendingStep := none,
           pendingSwitch := none,
           marks := false }

/-- The Time Base at the loss of the main supply, the keep-alive supply present (R103). -/
def TimeBase.mainLoss (t : TimeBase) : TimeBase :=
  let t := t.functionReset
  if t.source = .external then { t with source := .fallback }.newCount else t

/-- A line at a function reset: REST with no pulse end, its rest level kept (R122). -/
def LineRec.functionReset (l : LineRec) : LineRec := ⟨.rest, none, l.rest⟩

/-- The lines of a list of line numbers at a function reset. -/
def State.resetLines (s : State) : List Nat → State
  | [] => s
  | n :: ns => State.resetLines (s.setLine n (s.line n).functionReset) ns

/-- The main-domain blocks but the Register Window in their reset state (R28, R51, R75, R114, R122, R148, R172). -/
def State.resetBlocks (s : State) : State :=
  ((((((s.setStore TimerStore.reset).setDisp Dispatcher.reset).setEngine ActionEngine.reset).setRegions []).setPosting
    PostingUnit.reset).setReport ReportUnit.reset).resetLines (List.range Config.numLines)

/-- The Register Window at the taking of a function reset: the administration ring registers are kept (R173, R176). -/
def Window.functionReset (w : Window) (cause : ResetCause) (awaited : List PortOp) : Window :=
  { w with enabled := false, ready := false, resetCause := cause, adminFault := none, doorbellError := none,
           intrMask := BitVec.allOnes 9, resetInProgress := true, awaited := w.awaited ++ awaited }

/-- The taking of a function reset (R173): every block takes its reset state and what is outstanding is abandoned. -/
def State.takeReset (s : State) (cause : ResetCause) : State :=
  let w := s.window.functionReset cause s.outstanding
  (s.resetBlocks.setTb s.tb.functionReset).setWindow w

/-! ### The commands -/

/-- FUNCTION_RESET (R173, R175, R179): a CONTROL write of FUNCTION_RESET 1 while READY is 1; the ENABLE bit written beside
it is not acted on. With nothing outstanding and the RESET input not held, the reset ends in the step after (R174,
`State.afterReset`). -/
def execFunctionReset (_enableBit : Bool) (s : State) : Host.Outcome State Fault Refusal :=
  let s := s.afterReset
  .next (if s.window.ready then s.takeReset .control else s)

/-- The RESET input's level. -/
def State.setPin (s : State) (level : Bool) : State := s.setInputs { s.inputs with resetPin := level }

/-- RESET_ASSERT (R175): the assertion of the RESET input takes a function reset with cause PIN, which is held while the
input stays asserted. While the main supply is absent there is nothing to reset and the level is kept for the supply's
return; an input already asserted is not asserted again. -/
def execResetAssert (s : State) : Host.Outcome State Fault Refusal :=
  .next (if s.inputs.resetPin then s
    else if s.inputs.mainSupply = true ∧ s.window.coldInProgress = false then (s.setPin true).takeReset .pin
    else s.setPin true)

/-- RESET_RELEASE (R174, R175): a reset in progress may end. -/
def execResetRelease (s : State) : Host.Outcome State Fault Refusal :=
  .next (s.setPin false).endReset

/-- The bytes of a write settled by the answer to an abandoned operation; a read changes no memory. -/
def State.landOp (s : State) (op : PortOp) (landed : BitVec 32) : State :=
  match op.asWrite with
  | some w => s.setMem (Memory.land w landed s.mem)
  | none => s

/-- ABANDONED_ANSWER (R174, R75, R172): the answer to the awaited operation `index`, OK or ERROR, is taken and discarded; of
a write, the bytes of `landed` have reached memory. With the last answer the reset may end. -/
def execAbandonedAnswer (index : Nat) (_answeredOk : Bool) (landed : BitVec 32) (s : State) :
    Host.Outcome State Fault Refusal :=
  .next (match s.window.awaited[index]? with
    | none => s.afterReset
    | some op =>
      let s := s.landOp op landed
      (s.setWindow { s.window with awaited := s.window.awaited.eraseIdx index }).endReset)

/-- The Register Window unpowered: its registers read as they will after the supply's return (R176). -/
def Window.unpowered : Window := { Window.cold with ready := false }

/-- The keep-alive domain without power: the Time Base and the rest levels are lost (R100); they are held at their cold
values until the cold reset (log entry 14). -/
def State.loseKeepAlive (s : State) : State := (s.setTb TimeBase.cold).setLines []

/-- MAIN_SUPPLY_LOSS (R76, R103, R114, R123, R148, R172): main-domain state is lost; every write outstanding or awaited has
landed in the bytes `landed` gives it, in the order of `State.outstanding` after those awaited. The Time Base goes on from
the internal oscillator, or is lost with the domain when the keep-alive supply is absent too (R100). -/
def execMainSupplyLoss (landed : List (BitVec 32)) (s : State) : Host.Outcome State Fault Refusal :=
  .next (if s.inputs.mainSupply then
    let writes := (s.window.awaited ++ s.outstanding).filterMap PortOp.asWrite
    let mem := Memory.landAll writes landed s.mem
    let tb := s.tb.mainLoss
    let s := (((s.resetBlocks.setTb tb).setWindow Window.unpowered).setMem mem).setInputs { s.inputs with mainSupply := false }
    if s.inputs.keepAliveSupply then s else s.loseKeepAlive
  else s)

/-- MAIN_SUPPLY_RETURN (R175, R176): with the keep-alive domain kept powered, the return of the main supply is a function
reset with cause POWER_RETURN, or PIN while the RESET input is asserted; the administration ring registers are 0. Nothing is
outstanding, so that with the input released it ends in the step after (R174). After both supplies were absent the power-on
is a cold reset instead (COLD_RESET). -/
def execMainSupplyReturn (s : State) : Host.Outcome State Fault Refusal :=
  .next (if s.inputs.mainSupply = false ∧ s.inputs.keepAliveSupply = true then
    let s := (s.setInputs { s.inputs with mainSupply := true }).setWindow Window.unpowered
    s.takeReset (if s.inputs.resetPin then .pin else .powerReturn)
  else s.afterReset)

/-- The Register Window at the beginning of a cold reset (R176). -/
def Window.coldBegun : Window := { Window.cold with ready := false, resetInProgress := true }

/-- COLD_RESET (R101, R123, R176): the power-on after both supplies were absent gives every block, the Time Base and the rest
levels included, its cold values; it ends in the same command (log entry 12) unless the RESET input is asserted, for whose
release it waits. -/
def execColdReset (keepAlive : Bool) (s : State) : Host.Outcome State Fault Refusal :=
  .next (if s.inputs.mainSupply = false ∧ s.inputs.keepAliveSupply = false then
    let s := s.resetBlocks.loseKeepAlive
    ((s.setWindow Window.coldBegun).setInputs ⟨true, keepAlive, s.inputs.resetPin⟩).endReset
  else s.afterReset)

/-- KEEP_ALIVE_SUPPLY_LOSS (R100): while the main supply is absent the keep-alive domain loses its state; while it is present
the domain takes its power from it and nothing else changes. No rule and no row tells of the supply's return: it stays absent
until a cold reset, whether the main supply is present or not (log entry 13). -/
def execKeepAliveSupplyLoss (s : State) : Host.Outcome State Fault Refusal :=
  let s := s.afterReset
  .next (
    let s' := s.setInputs { s.inputs with keepAliveSupply := false }
    if s.inputs.mainSupply then s' else s'.loseKeepAlive)

end Sys2Proof.Machine
end

