-- ==== Sys2Proof/Machine/RingRequests.lean ====
section
/-!
DEFINITION. The requests that make and end rings: CREATE_POST_RING, DELETE_POST_RING, RESUME_POST_RING (chapter 7),
CREATE_REPORT_RING, DELETE_REPORT_RING (chapter 8).
-/
namespace Sys2Proof.Machine

/-- A ring number that requests may name: 1 to 8. -/
def ringNumberOk (b : Byte) : Bool := decide (1 ≤ b.toNat) && decide (b.toNat ≤ 8)

/-! ### Posting rings -/

/-- The results of a posting ring request on a ring record, with a discarded count (R146). An ABSENT ring's head and tail are 0
(log entry 25). -/
def PostRing.results (x : PostRing) (number : Byte) (discarded : Nat) : AckResults :=
  if ringNumberOk number then
    if x.state = .absent then .postRing number .absent 0 0 0
    else .postRing number x.state x.head x.tail discarded
  else .postRing number .absent 0 0 0

/-- The checks of a CREATE_POST_RING (R143). -/
def CreatePostRequest.check (q : CreatePostRequest) (w : PostSlot) (s : State) : Status :=
  if !(PostSlot.reservedZero w (requestFields .createPostRing)) ∨ (RingClass.ofCode q.ringClass).isNone then .badFormat
  else if !(ringNumberOk q.number) ∨ q.base.toNat % 64 ≠ 0 ∨ q.size.toNat < 4 ∨ 4096 < q.size.toNat ∨
      Config.space64 < q.base.toNat + 64 * q.size.toNat ∨ !(ringNumberOk q.reportRing) then .badRingParams
  else if (s.posting.ring q.number.toNat).state ≠ .absent then .ringExists
  else if !(s.report.ring q.reportRing.toNat).running then .noRing
  else .ok

/-- The ring an accepted CREATE_POST_RING makes (R143). -/
def CreatePostRequest.ring (q : CreatePostRequest) : PostRing :=
  ⟨.active, q.base, q.size.toNat, 0, 0, 1, (RingClass.ofCode q.ringClass).getD .normal, q.reportRing.toNat⟩

/-- CREATE_POST_RING as the Posting Unit takes it (R143, R146): the ring becomes ACTIVE and its report ring gains a
reference. -/
def State.takeCreatePost (s : State) (r : IntakeRecord) (w : PostSlot) : State :=
  let q := CreatePostRequest.read w
  let st := q.check w s
  let s :=
    if st = .ok then
      (s.setPosting (s.posting.setRing q.number.toNat q.ring)).setReport (s.report.addRef q.reportRing.toNat)
    else s
  s.answer r w st ((s.posting.ring q.number.toNat).results q.number 0)

/-- CREATE_POST_RING (R143): the Posting Unit takes a CREATE_POST_RING request. -/
def execCreatePostRing (s : State) : Host.Outcome State Fault Refusal :=
  .next (match s.atOwner .createPostRing with
    | some (r, w) => s.takeCreatePost r w
    | none => s.afterReset)

/-- The checks of a DELETE_POST_RING (R144). -/
def State.deletePostCheck (s : State) (w : PostSlot) : Status :=
  if !(PostSlot.reservedZero w (requestFields .deletePostRing)) then .badFormat
  else if !(ringNumberOk (PostSlot.number w)) then .badRingParams
  else if (s.posting.ring (PostSlot.number w).toNat).state = .absent then .noRing
  else .ok

/-- DELETE_POST_RING as the Posting Unit takes it (R144, R146): the slots present are discarded, the ring becomes ABSENT
and its reference is released. The results are the ring's before the deletion. -/
def State.takeDeletePost (s : State) (r : IntakeRecord) (w : PostSlot) : State :=
  let number := PostSlot.number w
  let x := s.posting.ring number.toNat
  let st := s.deletePostCheck w
  if st = .ok then
    ((s.setPosting (s.posting.setRing number.toNat PostRing.reset)).setReport (s.report.releaseRef x.bound)).answer r w st
      (x.results number x.present)
  else s.answer r w st (x.results number 0)

/-- DELETE_POST_RING (R144): the Posting Unit takes a DELETE_POST_RING request. -/
def execDeletePostRing (s : State) : Host.Outcome State Fault Refusal :=
  .next (match s.atOwner .deletePostRing with
    | some (r, w) => s.takeDeletePost r w
    | none => s.afterReset)

/-- The checks of a RESUME_POST_RING (R145). -/
def State.resumePostCheck (s : State) (w : PostSlot) : Status :=
  if !(PostSlot.reservedZero w (requestFields .resumePostRing)) then .badFormat
  else if !(ringNumberOk (PostSlot.number w)) then .badRingParams
  else if (s.posting.ring (PostSlot.number w).toNat).state = .absent then .noRing
  else if (s.posting.ring (PostSlot.number w).toNat).state = .active then .notStalled
  else .ok

/-- RESUME_POST_RING as the Posting Unit takes it (R145, R146): the ring becomes ACTIVE with head need 1. -/
def State.takeResumePost (s : State) (r : IntakeRecord) (w : PostSlot) : State :=
  let number := PostSlot.number w
  let x := s.posting.ring number.toNat
  let st := s.resumePostCheck w
  let s :=
    if st = .ok then s.setPosting (s.posting.setRing number.toNat { x with state := .active, headNeed := 1 }) else s
  s.answer r w st ((s.posting.ring number.toNat).results number 0)

/-- RESUME_POST_RING (R145): the Posting Unit takes a RESUME_POST_RING request. -/
def execResumePostRing (s : State) : Host.Outcome State Fault Refusal :=
  .next (match s.atOwner .resumePostRing with
    | some (r, w) => s.takeResumePost r w
    | none => s.afterReset)

/-! ### Report rings -/

/-- The results of a report ring request on a ring record, with a discarded count (R168). -/
def ReportRing.results (x : ReportRing) (number : Byte) (discarded : Nat) : AckResults :=
  if ringNumberOk number then .reportRing number x.state x.producer x.consumer x.refs x.lost discarded
  else .reportRing number .absent 0 0 0 0 0

/-- The checks of a CREATE_REPORT_RING (R166). -/
def CreateReportRequest.check (q : CreateReportRequest) (w : PostSlot) (s : State) : Status :=
  if !(PostSlot.reservedZero w (requestFields .createReportRing)) ∨ (onOffOfCode q.intEnable).isNone then .badFormat
  else if !(ringNumberOk q.number) ∨ q.base.toNat % 32 ≠ 0 ∨ q.size.toNat < 4 ∨ 4096 < q.size.toNat ∨
      Config.space64 < q.base.toNat + 32 * q.size.toNat ∨ q.coalesceCount.toNat < 1 ∨ 64 < q.coalesceCount.toNat ∨
      Config.maxPulse < q.coalesceTime.toNat then .badRingParams
  else if (s.report.ring q.number.toNat).state ≠ .absent then .ringExists
  else .ok

/-- A report ring newly ACTIVE (R150, R166): producer, consumer and counts 0, phase 1, an empty write queue. -/
def ReportRing.fresh (base : U64) (size : Nat) (intEnable : Bool) (count time refs : Nat) : ReportRing :=
  { ReportRing.reset with
    state := .active, base := base, size := size, phase := true, intEnable := intEnable,
    coalesceCount := count, coalesceTime := time, refs := refs }

/-- The ring an accepted CREATE_REPORT_RING makes (R166). -/
def CreateReportRequest.ring (q : CreateReportRequest) : ReportRing :=
  ReportRing.fresh q.base q.size.toNat ((onOffOfCode q.intEnable).getD false) q.coalesceCount.toNat
    q.coalesceTime.toNat 0

/-- The lost count in the results of a CREATE_REPORT_RING is 0 (R168). -/
def AckResults.noLost : AckResults → AckResults
  | .reportRing number state producer consumer refs _ discarded =>
    .reportRing number state producer consumer refs 0 discarded
  | r => r

/-- CREATE_REPORT_RING as the Report Unit takes it (R166, R168). -/
def State.takeCreateReport (s : State) (r : IntakeRecord) (w : PostSlot) : State :=
  let q := CreateReportRequest.read w
  let st := q.check w s
  let s := if st = .ok then s.setReport (s.report.setRing q.number.toNat q.ring) else s
  s.answer r w st ((s.report.ring q.number.toNat).results q.number 0).noLost

/-- CREATE_REPORT_RING (R166): the Report Unit takes a CREATE_REPORT_RING request. -/
def execCreateReportRing (s : State) : Host.Outcome State Fault Refusal :=
  .next (match s.atOwner .createReportRing with
    | some (r, w) => s.takeCreateReport r w
    | none => s.afterReset)

/-- The checks of a DELETE_REPORT_RING (R167). -/
def State.deleteReportCheck (s : State) (w : PostSlot) : Status :=
  let x := s.report.ring (PostSlot.number w).toNat
  if !(PostSlot.reservedZero w (requestFields .deleteReportRing)) then .badFormat
  else if !(ringNumberOk (PostSlot.number w)) then .badRingParams
  else if x.state = .absent then .noRing
  else if x.refs ≠ 0 then .inUse
  else .ok

/-- The discarded count of a deletion: held entries and queued records whose writes have not been issued (R167). -/
def ReportUnit.discarded (r : ReportUnit) (n : Nat) : Nat :=
  (r.heldOf n).length + ((r.ring n).queue.length - 1)

/-- A report ring deleted (R167): its held entries and unissued records are discarded, the ring is ABSENT, and its write in
flight stays outstanding, no longer the ring's. The ABSENT ring's other fields are 0 (log entry 25). -/
def ReportUnit.deleteRing (r : ReportUnit) (n : Nat) : ReportUnit :=
  let r' := r.setRing n ReportRing.reset
  { r' with hold := r.hold.filter (fun e => decide (e.ring ≠ n)),
            deletedWrites := r.deletedWrites ++ (r.ring n).inFlight.toList }

/-- DELETE_REPORT_RING as the Report Unit takes it (R167, R168). -/
def State.takeDeleteReport (s : State) (r : IntakeRecord) (w : PostSlot) : State :=
  let number := PostSlot.number w
  let x := s.report.ring number.toNat
  let st := s.deleteReportCheck w
  if st = .ok then
    (s.setReport (s.report.deleteRing number.toNat)).answer r w st (x.results number (s.report.discarded number.toNat))
  else s.answer r w st (x.results number 0)

/-- DELETE_REPORT_RING (R167): the Report Unit takes a DELETE_REPORT_RING request. -/
def execDeleteReportRing (s : State) : Host.Outcome State Fault Refusal :=
  .next (match s.atOwner .deleteReportRing with
    | some (r, w) => s.takeDeleteReport r w
    | none => s.afterReset)

end Sys2Proof.Machine
end

