-- ==== Sys2Proof/Machine/TimerRequests.lean ====
section
/-!
DEFINITION. The four timer requests (chapter 1): ARM, CANCEL, RETIME and QUERY, each taken by the Timer Store as one step.
A check that fails gives the status; `.ok` stands for "every check passes".
-/
namespace Sys2Proof.Machine

/-! ### Checks (R12 to R17) -/

/-- The checks that come first for every timer request (R12). `wellFormed` is check 2, made by each request on its own
record. -/
def timerChecks (ring : Nat) (wellFormed : Bool) (timer : BitVec 16) : Status :=
  if ring = 0 then .wrongRing
  else if !wellFormed then .badFormat
  else if Config.numTimers ≤ timer.toNat then .badTimer
  else .ok

/-- The generation an acknowledgment carries: the slot's, and 0 for a number above 4095 (R11). -/
def State.ackGeneration (s : State) (timer : BitVec 16) : BitVec 8 :=
  if Config.numTimers ≤ timer.toNat then 0 else (s.store.slot timer.toNat).generation

/-- Check 2 of an ARM: reserved bits of both records, the report policy, and the period policy when PERIODIC is set (R12,
R187). -/
def ArmRequest.wellFormed (q : ArmRequest) (first : PostSlot) (second : Option PostSlot) : Bool :=
  PostSlot.reservedZero first armFields &&
    (q.ext.isNone || PostSlot.reservedZero (second.getD 0) extensionFields) &&
    (ReportPolicy.ofCode q.policy).isSome &&
    (!q.periodic || (PeriodPolicy.ofCode q.periodPolicy).isSome)

/-- Check 4: options that conflict (R14). -/
def ArmRequest.conflicting (q : ArmRequest) : Bool :=
  (q.periodic && q.ext.isSome) ||
    (q.periodic && (decide (q.period = 0) || decide (Config.maxPeriod < q.period.toNat))) ||
    (!q.periodic && decide (q.countLimit ≠ 0)) ||
    (q.stopAtZero && decide (ActionKind.ofCode q.action.kind ≠ some .countDown))

/-- The policy an ARM names; its code has passed check 2. -/
def ArmRequest.reportPolicy (q : ArmRequest) : ReportPolicy := (ReportPolicy.ofCode q.policy).getD .none

/-- Check 5: a report ring is needed and the one named is not 1 to 8, ABSENT or FAULTED (R14). -/
def ArmRequest.lacksReportRing (q : ArmRequest) (s : State) : Bool :=
  decide (q.reportPolicy ≠ .none) &&
    (decide (q.reportRing = 0) || decide (8 < q.reportRing.toNat) ||
      !(s.report.ring q.reportRing.toNat).running)

/-- An action block that passes check 6, as an action (R15). -/
def ActionBlock.action (b : ActionBlock) : Option Action :=
  match ActionKind.ofCode b.kind with
  | none => none
  | some k =>
    let a : Action := ⟨k, b.width.toNat, b.target.toNat, b.offset, b.opA, b.opB⟩
    match k with
    | .note => some a
    | .load | .store | .setBits | .clearBits | .swapIfEqual | .countDown =>
      if b.width = 1 ∨ b.width = 2 ∨ b.width = 4 ∨ b.width = 8 then some a else none
    | .linePulse =>
      if b.target.toNat < Config.numLines ∧ b.opA ≠ 0 ∧ b.opA.toNat ≤ Config.maxPulse then some a else none
    | .lineSet =>
      if b.target.toNat < Config.numLines ∧ (LineValue.ofOperand b.opA).isSome then some a else none

/-- An extension record that passes check 6, as a follow part (R15). -/
def Extension.followPart (e : Extension) : Option FollowPart :=
  match e.action.action, Condition.ofCode e.condition with
  | some a, some c => some ⟨c, e.delay, a⟩
  | _, _ => none

/-- Check 6: the main action, the follow action or the condition is not valid (R15). -/
def ArmRequest.badAction (q : ArmRequest) : Bool :=
  q.action.action.isNone ||
    match q.ext with
    | none => false
    | some e => e.followPart.isNone

/-- Does an access grant the right a kind needs (R107)? -/
def Access.grants (acc : Access) (k : ActionKind) : Bool :=
  match k with
  | .load => decide (acc ≠ .write)
  | .store => decide (acc ≠ .read)
  | .setBits | .clearBits | .swapIfEqual | .countDown => decide (acc = .readWrite)
  | .note | .linePulse | .lineSet => true

/-- The region checks of one action (R16); a region number above 63 is answered as an INVALID region (R106). -/
def State.regionCheck (s : State) (a : Action) : Status :=
  let r := s.region a.target
  if !a.kind.isMemory then .ok
  else if Config.numRegions ≤ a.target ∨ r.valid = false then .noRegion
  else if !r.access.grants a.kind then .regionDenied
  else if r.length < a.offset.toNat + a.width then .outOfRegion
  else if a.offset.toNat % a.width ≠ 0 then .misaligned
  else .ok

/-- Check 7 of an ARM: the main action's region, then the follow action's (R16). -/
def ArmRequest.regionChecks (q : ArmRequest) (s : State) : Status :=
  let main := (q.action.action.map s.regionCheck).getD .ok
  if main ≠ .ok then main
  else
    match q.ext with
    | none => .ok
    | some e => (e.followPart.map (fun f => s.regionCheck f.action)).getD .ok

/-- The deadline a request computes: the value as written, or now in the timer's scale plus the delay (R17). -/
def State.deadlineOf (s : State) (absolute : Bool) (sc : Scale) (value : U64) : U64 :=
  if absolute then value else s.tb.now sc + value

/-- Check 8: the slot's state (R14). -/
def ArmRequest.stateCheck (q : ArmRequest) (x : TimerSlot) : Status :=
  match x.state with
  | .free => .ok
  | .armed => if q.replace then .ok else .alreadyArmed
  | .firing => .busyFiring

/-- All checks of an ARM in their order (R12, R14). -/
def ArmRequest.check (q : ArmRequest) (ring : Nat) (first : PostSlot) (second : Option PostSlot) (s : State) : Status :=
  let c3 := timerChecks ring (q.wellFormed first second) q.timer
  if c3 ≠ .ok then c3
  else if q.conflicting then .conflictingOptions
  else if q.lacksReportRing s then .noReportRing
  else if q.badAction then .badAction
  else
    let c7 := q.regionChecks s
    if c7 ≠ .ok then c7
    else
      let c8 := q.stateCheck (s.store.slot q.timer.toNat)
      if c8 ≠ .ok then c8
      else if q.refusePast ∧ s.deadlineOf q.absolute q.scale q.deadline ≤ s.tb.now q.scale then .deadlinePassed
      else .ok

/-! ### ARM -/

/-- The record of a slot newly armed by an accepted request, but for its insertion sequence, which joining its queue
gives (R18). -/
def ArmRequest.arming (q : ArmRequest) (old : TimerSlot) (deadline : U64) : TimerSlot where
  state := .armed
  generation := old.generation + 1
  phase := .main
  scale := q.scale
  deadline := deadline
  seq := old.seq
  stepped := false
  period := if q.periodic then some ⟨q.period, (PeriodPolicy.ofCode q.periodPolicy).getD .catchup⟩ else none
  countLimit := q.countLimit
  fireCount := 0
  stopAtZero := q.stopAtZero
  mainAction := q.action.action.getD Action.reset
  follow := q.ext.bind Extension.followPart
  reportRing := if q.reportPolicy = .none then none else some q.reportRing.toNat
  reportPolicy := q.reportPolicy
  tag := q.tag
  cancelRequested := false

/-- The old arming of an ARMED slot removed: off its queue, its references released (R19). A FREE slot has none. -/
def State.removeArming (s : State) (n : Nat) : State :=
  if (s.store.slot n).state = .armed then
    (s.setStore (s.store.leave n)).releaseRefs (s.store.slot n)
  else s

/-- An accepted ARM (R18, R19): the old arming, if any, is removed, the references are added, and the slot joins the queue
of its scale; the store reassesses (R8). -/
def State.armSlot (s : State) (n : Nat) (x : TimerSlot) : State :=
  let s := (s.removeArming n).addRefs x
  (s.setStore (s.store.join n x)).offer

/-- The deadline in the acknowledgment of a refused ARM or RETIME: 0, or the computed one with DEADLINE_PASSED (R11). -/
def refusedDeadline (st : Status) (deadline : U64) : U64 := if st = .deadlinePassed then deadline else 0

/-- ARM as the store takes it (R11 to R21). -/
def State.takeArm (s : State) (r : IntakeRecord) (w : PostSlot) : State :=
  let q := ArmRequest.read w r.slot2
  let deadline := s.deadlineOf q.absolute q.scale q.deadline
  let st := q.check r.ring w r.slot2 s
  if st = .ok then
    let x := q.arming (s.store.slot q.timer.toNat) deadline
    (s.armSlot q.timer.toNat x).answer r w .ok (.timerDeadline q.timer x.generation deadline)
  else
    s.answer r w st (.timerDeadline q.timer (s.ackGeneration q.timer) (refusedDeadline st deadline))

/-- ARM (R18): the Timer Store takes an ARM request. -/
def execArm (s : State) : Host.Outcome State Fault Refusal :=
  .next (match s.atOwner .arm with
    | some (r, w) => s.takeArm r w
    | none => s.afterReset)

/-! ### CANCEL -/

/-- The status of a CANCEL (R12, R22). -/
def CancelRequest.check (q : CancelRequest) (ring : Nat) (w : PostSlot) (x : TimerSlot) : Status :=
  let c3 := timerChecks ring (PostSlot.reservedZero w (requestFields .cancel)) q.timer
  if c3 ≠ .ok then c3
  else
    match x.state with
    | .free => .notArmed
    | .armed => if q.anyGeneration ∨ q.generation = x.generation then .ok else .staleGeneration
    | .firing => if q.anyGeneration ∨ q.generation = x.generation then .cancelledAfterFire else .staleGeneration

/-- An ARMED slot cancelled: it goes FREE and its references are released (R3, R22). -/
def State.freeSlot (s : State) (n : Nat) : State :=
  (s.setStore (s.store.goFree n)).releaseRefs (s.store.slot n)

/-- A FIRING slot cancelled: cancel-requested is set (R23). -/
def TimerStore.requestCancel (t : TimerStore) (n : Nat) : TimerStore :=
  t.setSlot n { t.slot n with cancelRequested := true }

/-- CANCEL as the store takes it (R22, R23). -/
def State.takeCancel (s : State) (r : IntakeRecord) (w : PostSlot) : State :=
  let q := CancelRequest.read w
  let n := q.timer.toNat
  let st := q.check r.ring w (s.store.slot n)
  let res := AckResults.timerOnly q.timer (s.ackGeneration q.timer)
  match st with
  | .ok => (s.freeSlot n).answer r w st res
  | .cancelledAfterFire => (s.setStore (s.store.requestCancel n)).answer r w st res
  | _ => s.answer r w st res

/-- CANCEL (R22): the Timer Store takes a CANCEL request. -/
def execCancel (s : State) : Host.Outcome State Fault Refusal :=
  .next (match s.atOwner .cancel with
    | some (r, w) => s.takeCancel r w
    | none => s.afterReset)

/-! ### RETIME -/

/-- The status of a RETIME whose new deadline is `deadline` (R12, R24). -/
def RetimeRequest.check (q : RetimeRequest) (ring : Nat) (w : PostSlot) (x : TimerSlot) (deadline now : U64) : Status :=
  let c3 := timerChecks ring (PostSlot.reservedZero w (requestFields .retime)) q.timer
  if c3 ≠ .ok then c3
  else if x.state = .free then .notArmed
  else if q.generation ≠ x.generation then .staleGeneration
  else if x.state = .firing then .busyFiring
  else if q.refusePast ∧ deadline ≤ now then .deadlinePassed
  else .ok

/-- An accepted RETIME: the slot leaves its queue and joins it again with the new deadline, its mark cleared; the store
reassesses (R25, R8). -/
def State.retimeSlot (s : State) (n : Nat) (deadline : U64) : State :=
  let x := { s.store.slot n with deadline := deadline, stepped := false }
  (s.setStore ((s.store.leave n).join n x)).offer

/-- RETIME as the store takes it (R24, R25). -/
def State.takeRetime (s : State) (r : IntakeRecord) (w : PostSlot) : State :=
  let q := RetimeRequest.read w
  let n := q.timer.toNat
  let x := s.store.slot n
  let deadline := s.deadlineOf q.absolute x.scale q.deadline
  let st := q.check r.ring w x deadline (s.tb.now x.scale)
  let gen := s.ackGeneration q.timer
  if st = .ok then (s.retimeSlot n deadline).answer r w .ok (.timerDeadline q.timer gen deadline)
  else s.answer r w st (.timerDeadline q.timer gen (refusedDeadline st deadline))

/-- RETIME (R24): the Timer Store takes a RETIME request. -/
def execRetime (s : State) : Host.Outcome State Fault Refusal :=
  .next (match s.atOwner .retime with
    | some (r, w) => s.takeRetime r w
    | none => s.afterReset)

/-! ### QUERY -/

/-- The deadline a QUERY shows: 0 unless the slot is ARMED (R27). -/
def TimerSlot.shownDeadline (x : TimerSlot) : U64 := if x.state = .armed then x.deadline else 0

/-- QUERY as the store takes it (R26, R27; a refused one carries zeros, R189). -/
def State.takeQuery (s : State) (r : IntakeRecord) (w : PostSlot) : State :=
  let timer := PostSlot.u16 w 2
  let x := s.store.slot timer.toNat
  let st := timerChecks r.ring (PostSlot.reservedZero w (requestFields .query)) timer
  let gen := s.ackGeneration timer
  if st = .ok then
    s.answer r w .ok (.snapshot timer gen x.state x.phase x.scale x.shownDeadline x.fireCount)
  else s.answer r w st (.snapshot timer gen .free .main .pt 0 0)

/-- QUERY (R26): the Timer Store takes a QUERY request. -/
def execQuery (s : State) : Host.Outcome State Fault Refusal :=
  .next (match s.atOwner .query with
    | some (r, w) => s.takeQuery r w
    | none => s.afterReset)

end Sys2Proof.Machine
end

