-- ==== Sys2Proof/Machine/Window.lean ====
section
/-!
DEFINITION. The register window (chapter 9): the register writes ENABLE, ADMIN_POST_BASE_WRITE, ADMIN_REPORT_BASE_WRITE,
ADMIN_SIZES_WRITE, POSTING_TAIL_DOORBELL, REPORT_CONSUMER_DOORBELL, DOORBELL_NO_RING, DOORBELL_ERROR_CLEAR,
INTR_PENDING_CLEAR, INTR_MASK_WRITE and REGISTER_WRITE_OTHER; what a read returns; the INT output and the line outputs.
-/
namespace Sys2Proof.Machine

/-! ### Enabling (R179, R180) -/

/-- The checks of an enable (R180). -/
def Window.enablePasses (w : Window) : Bool :=
  decide (w.adminPostBase.toNat % 64 = 0) &&
    decide (w.adminPostBase.toNat + 64 * w.adminPostSize.toNat ≤ Config.space64) &&
    decide (w.adminReportBase.toNat % 32 = 0) &&
    decide (w.adminReportBase.toNat + 32 * w.adminReportSize.toNat ≤ Config.space64) &&
    decide (4 ≤ w.adminPostSize.toNat) && decide (w.adminPostSize.toNat ≤ 256) &&
    decide (4 ≤ w.adminReportSize.toNat) && decide (w.adminReportSize.toNat ≤ 256)

/-- Posting ring 0 as the enable makes it (R126). -/
def Window.postRing0 (w : Window) : PostRing :=
  ⟨.active, w.adminPostBase, w.adminPostSize.toNat, 0, 0, 1, .administration, 0⟩

/-- Report ring 0 as the enable makes it (R150). -/
def Window.reportRing0 (w : Window) : ReportRing :=
  ReportRing.fresh w.adminReportBase w.adminReportSize.toNat true 1 0 1

/-- The administration fault after an enable that passes: a refused enable's is cleared (R180). -/
def Window.faultAfterEnable (w : Window) : Option AdminFault :=
  if w.adminFault = some .enableRefused then none else w.adminFault

/-- An enable that passes its checks (R180, R126, R150). -/
def State.enabled (s : State) : State :=
  let w := s.window
  ((s.setWindow { w with enabled := true, adminFault := w.faultAfterEnable }).setPosting
    (s.posting.setRing 0 w.postRing0)).setReport (s.report.setRing 0 w.reportRing0)

/-- ENABLE (R179, R180): a CONTROL write of ENABLE 1 and FUNCTION_RESET 0. It is ignored while READY is 0 (R177) and has no
effect while enabled (R179). -/
def execEnable (s : State) : Host.Outcome State Fault Refusal :=
  let s := s.afterReset
  .next (if s.window.ready = true ∧ s.window.enabled = false then
    if s.window.enablePasses then s.enabled else s.setAdminFault .enableRefused
  else s)

/-! ### The administration ring registers (R181) -/

/-- A write to an administration ring register is taken while READY is 1 and the controller is not enabled (R177,
R181). -/
def Window.adminWritable (w : Window) : Bool := w.ready && !w.enabled

/-- ADMIN_POST_BASE_WRITE (R181): held as written. -/
def execAdminPostBaseWrite (value : U64) (s : State) : Host.Outcome State Fault Refusal :=
  let s := s.afterReset
  .next (if s.window.adminWritable then s.setWindow { s.window with adminPostBase := value } else s)

/-- ADMIN_REPORT_BASE_WRITE (R181): held as written. -/
def execAdminReportBaseWrite (value : U64) (s : State) : Host.Outcome State Fault Refusal :=
  let s := s.afterReset
  .next (if s.window.adminWritable then s.setWindow { s.window with adminReportBase := value } else s)

/-- ADMIN_SIZES_WRITE (R181): the two size fields are held as written; the other bits have no effect (R177). -/
def execAdminSizesWrite (value : U64) (s : State) : Host.Outcome State Fault Refusal :=
  let s := s.afterReset
  .next (if s.window.adminWritable then
    s.setWindow { s.window with adminPostSize := value.extractLsb' 0 16, adminReportSize := value.extractLsb' 32 16 }
  else s)

/-! ### Doorbells (R184) -/

/-- The kind codes of DOORBELL (10, Register bit layout). -/
def kindPostingTail : BitVec 2 := 0
/-- Report consumer. -/
def kindReportConsumer : BitVec 2 := 1

/-- A doorbell is taken while READY is 1 and the controller is enabled (R184). -/
def Window.takesDoorbells (w : Window) : Bool := w.ready && w.enabled

/-- A tail doorbell at the Posting Unit (R128). -/
def State.tailDoorbell (s : State) (ring : BitVec 4) (value : BitVec 16) : State :=
  let p := s.posting.ring ring.toNat
  if p.state ≠ .absent ∧ value.toNat < p.size then
    s.setPosting (s.posting.setRing ring.toNat { p with tail := value.toNat })
  else s.doorbellError ring kindPostingTail

/-- POSTING_TAIL_DOORBELL (R128, R184). A ring number above 8 names no ring. -/
def execPostingTailDoorbell (ring : BitVec 4) (value : BitVec 16) (s : State) : Host.Outcome State Fault Refusal :=
  let s := s.afterReset
  .next (if s.window.takesDoorbells then
    if 8 < ring.toNat then s.doorbellError ring kindPostingTail else s.tailDoorbell ring value
  else s)

/-- How many records a consumer value releases: (v - consumer) modulo size (R153). -/
def ReportRing.releases (r : ReportRing) (v : Nat) : Nat := (v + r.size - r.consumer) % r.size

/-- Is a consumer value accepted: below the size and in the span up to the producer (R153)? -/
def ReportRing.acceptsConsumer (r : ReportRing) (v : Nat) : Bool :=
  decide (r.state ≠ .absent) && decide (v < r.size) && decide (r.releases v ≤ r.written)

/-- A consumer doorbell at the Report Unit (R153). -/
def State.consumerDoorbell (s : State) (ring : BitVec 4) (value : BitVec 16) : State :=
  let n := ring.toNat
  let x := s.report.ring n
  if x.acceptsConsumer value.toNat then
    let report := s.report.setRing n { x with consumer := value.toNat }
    s.setReport (if x.releases value.toNat = 0 then report else report.returnSpace n s.tb.mt)
  else s.doorbellError ring kindReportConsumer

/-- REPORT_CONSUMER_DOORBELL (R153, R184). A ring number above 8 names no ring. -/
def execReportConsumerDoorbell (ring : BitVec 4) (value : BitVec 16) (s : State) : Host.Outcome State Fault Refusal :=
  let s := s.afterReset
  .next (if s.window.takesDoorbells then
    if 8 < ring.toNat then s.doorbellError ring kindReportConsumer else s.consumerDoorbell ring value
  else s)

/-- DOORBELL_NO_RING (R184): a DOORBELL write naming no ring or no kind; the value is not looked at. A word that names both
is not this command (log entry 3). -/
def execDoorbellNoRing (ring : BitVec 4) (kind : BitVec 2) (_value : BitVec 16) (s : State) :
    Host.Outcome State Fault Refusal :=
  let s := s.afterReset
  .next (if s.window.takesDoorbells = true ∧ (8 < ring.toNat ∨ (kind ≠ kindPostingTail ∧ kind ≠ kindReportConsumer)) then
    s.doorbellError ring kind
  else s)

/-! ### STATUS and interrupt registers (R183, R185, R171) -/

/-- DOORBELL_ERROR_CLEAR (R183): a write to STATUS; the DOORBELL_ERROR field, bit 16, written 1 clears the record. -/
def execDoorbellErrorClear (value : U64) (s : State) : Host.Outcome State Fault Refusal :=
  let s := s.afterReset
  .next (if s.window.ready = true ∧ value.getLsbD 16 = true then s.setWindow { s.window with doorbellError := none } else s)

/-- INTR_PENDING_CLEAR (R185): each pending bit written 1 is cleared. -/
def execIntrPendingClear (value : U64) (s : State) : Host.Outcome State Fault Refusal :=
  let s := s.afterReset
  .next (if s.window.ready then
    s.setReport { s.report with intrPending := s.report.intrPending &&& ~~~(value.setWidth 9) }
  else s)

/-- INTR_MASK_WRITE (R185): all nine mask bits are set to the values written. -/
def execIntrMaskWrite (value : U64) (s : State) : Host.Outcome State Fault Refusal :=
  let s := s.afterReset
  .next (if s.window.ready then s.setWindow { s.window with intrMask := value.setWidth 9 } else s)

/-- REGISTER_WRITE_OTHER (R177, R178): every other write to the window is ignored. -/
def execRegisterWriteOther (_offset : BitVec 7) (_size : Nat) (_value : U64) (s : State) :
    Host.Outcome State Fault Refusal :=
  .next s.afterReset

/-! ### What a read returns (R176 to R179, R182, R185) -/

/-- A field of a register placed at its lowest bit. -/
def regField (lo v : Nat) : U64 := BitVec.ofNat 64 (v * 2 ^ lo)

/-- STATUS (R182; 10, Register bit layout). -/
def State.statusRegister (s : State) : U64 :=
  regField 0 (bitAt 0 s.window.ready) ||| regField 1 (bitAt 0 s.window.enabled) |||
    regField 4 s.window.resetCause.code ||| regField 8 (bitAt 0 s.window.adminFault.isSome) |||
    regField 9 ((s.window.adminFault.map AdminFault.code).getD 0) |||
    (match s.window.doorbellError with
      | none => 0
      | some e => regField 16 1 ||| regField 17 (bitAt 0 e.multiple) ||| regField 20 e.ring.toNat |||
          regField 24 e.kind.toNat) |||
    regField 32 s.tb.source.code

/-- The register at an offset, 0 where there is none (R177). -/
def State.registerAt (s : State) (offset : Nat) : U64 :=
  if offset = 0x00 then Config.ident
  else if offset = 0x08 then regField 0 (bitAt 0 s.window.enabled)
  else if offset = 0x10 then s.statusRegister
  else if offset = 0x18 then s.window.adminPostBase
  else if offset = 0x20 then s.window.adminReportBase
  else if offset = 0x28 then regField 0 s.window.adminPostSize.toNat ||| regField 32 s.window.adminReportSize.toNat
  else if offset = 0x30 then 0
  else if offset = 0x38 then s.report.intrPending.setWidth 64
  else if offset = 0x40 then s.window.intrMask.setWidth 64
  else 0

/-- What a read of `size` bytes at an offset returns (R177): the addressed bytes of one register, and 0 for any other
read; none while the main supply is absent, when the controller answers no access. A read changes nothing. -/
def State.readRegister (s : State) (offset size : Nat) : Option U64 :=
  if s.inputs.mainSupply then
    if size = 1 ∨ size = 2 ∨ size = 4 ∨ size = 8 then
      if offset % 8 + size ≤ 8 then
        some ((s.registerAt (offset / 8 * 8) >>> (8 * (offset % 8))) &&& BitVec.ofNat 64 (2 ^ (8 * size) - 1))
      else some 0
    else some 0
  else none

/-- The INT output (R171): asserted while a pending bit is set whose mask bit is 0; none while the main supply is absent and
INT is not driven (R172). -/
def State.intOutput (s : State) : Option Bool :=
  if s.inputs.mainSupply then some (decide (s.report.intrPending &&& ~~~s.window.intrMask ≠ 0)) else none

/-- The opposite level. -/
def Level.opposite : Level → Level
  | .low => .high
  | .high => .low

/-- The level a line drives (R115): its rest level in REST, the opposite in HELD and PULSING. -/
def LineRec.level (l : LineRec) : Level := if l.state = .rest then l.rest else l.rest.opposite

/-- The output of a line: none, high impedance, while the main supply is absent (R123). -/
def State.outputLevel (s : State) (n : Nat) : Option Level :=
  if s.inputs.mainSupply then some (s.line n).level else none

end Sys2Proof.Machine
end

