-- ==== Sys2Proof/Machine/Dispatch.lean ====
section
/-!
DEFINITION. What each command does to everything but the queue: one arm for each row of spec/opcode_table.json.
-/
namespace Sys2Proof.Machine

def exec (i : Instr) (s : State) : Host.Outcome State Fault Refusal :=
  match i with
  | .arm => Sys2Proof.Machine.execArm s
  | .cancel => Sys2Proof.Machine.execCancel s
  | .retime => Sys2Proof.Machine.execRetime s
  | .query => Sys2Proof.Machine.execQuery s
  | .setRegion => Sys2Proof.Machine.execSetRegion s
  | .clearRegion => Sys2Proof.Machine.execClearRegion s
  | .configureTimebase => Sys2Proof.Machine.execConfigureTimebase s
  | .setTrim => Sys2Proof.Machine.execSetTrim s
  | .setTime => Sys2Proof.Machine.execSetTime s
  | .setMarks => Sys2Proof.Machine.execSetMarks s
  | .readTime => Sys2Proof.Machine.execReadTime s
  | .setLineRest => Sys2Proof.Machine.execSetLineRest s
  | .createPostRing => Sys2Proof.Machine.execCreatePostRing s
  | .deletePostRing => Sys2Proof.Machine.execDeletePostRing s
  | .resumePostRing => Sys2Proof.Machine.execResumePostRing s
  | .createReportRing => Sys2Proof.Machine.execCreateReportRing s
  | .deleteReportRing => Sys2Proof.Machine.execDeleteReportRing s
  | .intakeChoice => Sys2Proof.Machine.execIntakeChoice s
  | .intakeReadAnswer answer => Sys2Proof.Machine.execIntakeReadAnswer answer s
  | .postingTailDoorbell ring value => Sys2Proof.Machine.execPostingTailDoorbell ring value s
  | .reportConsumerDoorbell ring value => Sys2Proof.Machine.execReportConsumerDoorbell ring value s
  | .doorbellNoRing ring kind value => Sys2Proof.Machine.execDoorbellNoRing ring kind value s
  | .enable => Sys2Proof.Machine.execEnable s
  | .functionReset enableBit => Sys2Proof.Machine.execFunctionReset enableBit s
  | .resetAssert => Sys2Proof.Machine.execResetAssert s
  | .resetRelease => Sys2Proof.Machine.execResetRelease s
  | .abandonedAnswer index answeredOk landed => Sys2Proof.Machine.execAbandonedAnswer index answeredOk landed s
  | .mainSupplyLoss landed => Sys2Proof.Machine.execMainSupplyLoss landed s
  | .mainSupplyReturn => Sys2Proof.Machine.execMainSupplyReturn s
  | .coldReset keepAlive => Sys2Proof.Machine.execColdReset keepAlive s
  | .adminPostBaseWrite value => Sys2Proof.Machine.execAdminPostBaseWrite value s
  | .adminReportBaseWrite value => Sys2Proof.Machine.execAdminReportBaseWrite value s
  | .adminSizesWrite value => Sys2Proof.Machine.execAdminSizesWrite value s
  | .doorbellErrorClear value => Sys2Proof.Machine.execDoorbellErrorClear value s
  | .intrPendingClear value => Sys2Proof.Machine.execIntrPendingClear value s
  | .intrMaskWrite value => Sys2Proof.Machine.execIntrMaskWrite value s
  | .registerWriteOther offset size value => Sys2Proof.Machine.execRegisterWriteOther offset size value s
  | .tick => Sys2Proof.Machine.execTick s
  | .sourceQualified => Sys2Proof.Machine.execSourceQualified s
  | .sourceSwitch => Sys2Proof.Machine.execSourceSwitch s
  | .qualificationTimeout => Sys2Proof.Machine.execQualificationTimeout s
  | .refclkGap => Sys2Proof.Machine.execRefclkGap s
  | .alignEdge => Sys2Proof.Machine.execAlignEdge s
  | .alignTimeout => Sys2Proof.Machine.execAlignTimeout s
  | .pulseEnd line => Sys2Proof.Machine.execPulseEnd line s
  | .coalesceTimeExpiry ring => Sys2Proof.Machine.execCoalesceTimeExpiry ring s
  | .dispatchWalk => Sys2Proof.Machine.execDispatchWalk s
  | .dispatchClaim => Sys2Proof.Machine.execDispatchClaim s
  | .heldActionBegin slot => Sys2Proof.Machine.execHeldActionBegin slot s
  | .actionReadAnswer slot answer => Sys2Proof.Machine.execActionReadAnswer slot answer s
  | .actionWriteAnswer slot answer => Sys2Proof.Machine.execActionWriteAnswer slot answer s
  | .lineRequest slot => Sys2Proof.Machine.execLineRequest slot s
  | .lineAnswer slot => Sys2Proof.Machine.execLineAnswer slot s
  | .completionReturn => Sys2Proof.Machine.execCompletionReturn s
  | .reportWriteAnswer write answer => Sys2Proof.Machine.execReportWriteAnswer write answer s
  | .refclkEdge => Sys2Proof.Machine.execRefclkEdge s
  | .keepAliveSupplyLoss => Sys2Proof.Machine.execKeepAliveSupplyLoss s

end Sys2Proof.Machine
end

