-- ==== Sys2Proof/Machine/Step.lean ====
section
/-!
DEFINITION. One step: the command at the front of the queue, or, on an empty queue, the step that ends a reset or one period
of the internal oscillator (log entries 2 and 12).
-/
namespace Sys2Proof.Machine

/-- What passes when no command waits: the end of a reset that found nothing to wait for (R174), else one period of the internal
oscillator (R78, R84). The block idles otherwise. -/
def State.idle (s : State) : State := if s.resetEndsNext then s.endReset else s.oscillatorPeriod false false

/-- One step. -/
def step (s : State) : Host.Outcome State Fault Refusal :=
  match s.pending with
  | [] => .next s.idle
  | c :: rest => exec c (s.setPending rest)

/-- The state with the command that a word spells put at the front of its queue; unchanged where the word spells none. -/
def State.withFetchWord (s : State) (nbits w : Nat) : State :=
  match decodeTableWord nbits w with
  | some c => s.setPending (c :: s.pending)
  | none => s

end Sys2Proof.Machine
end

