-- ==== Sys2Proof/Safety.lean ====
section
/-!
DEFINITION. The terms in which claims about the 2480 are stated: which parts of the state a command leaves alone, what the
acknowledgment of a request adds, what arming and freeing do to reference counts, and the laws that every step keeps.
-/
namespace Sys2Proof.Machine

/-! ### Frames -/

/-- The parts of the state. The queue of commands is none of them: no command changes it. -/
inductive Part where
  | tb
  | store
  | disp
  | engine
  | regions
  | lines
  | posting
  | report
  | window
  | inputs
  | mem
  deriving DecidableEq, Repr

/-- Nothing differs between two states but, at most, the parts listed. -/
def OnlyIn (ps : List Part) (s t : State) : Prop :=
  (Part.tb ∈ ps ∨ t.tb = s.tb) ∧ (Part.store ∈ ps ∨ t.store = s.store) ∧ (Part.disp ∈ ps ∨ t.disp = s.disp) ∧
    (Part.engine ∈ ps ∨ t.engine = s.engine) ∧ (Part.regions ∈ ps ∨ t.regions = s.regions) ∧
    (Part.lines ∈ ps ∨ t.lines = s.lines) ∧ (Part.posting ∈ ps ∨ t.posting = s.posting) ∧
    (Part.report ∈ ps ∨ t.report = s.report) ∧ (Part.window ∈ ps ∨ t.window = s.window) ∧
    (Part.inputs ∈ ps ∨ t.inputs = s.inputs) ∧ (Part.mem ∈ ps ∨ t.mem = s.mem) ∧ t.pending = s.pending

/-- Every timer slot but one is as it was, and so is the sequence counter's use of them. -/
def OtherSlotsKept (n : Nat) (s t : State) : Prop := ∀ m, m ≠ n → t.store.slot m = s.store.slot m

/-! ### The end of a reset that waits for nothing (R174) -/

/-- A reset is in progress, READY 0, with no answer awaited and the RESET input not asserted: it ends in the next step (R174). -/
abbrev ResetAboutToEnd (s : State) : Prop :=
  s.window.ready = false ∧ s.window.resetInProgress = true ∧ s.window.awaited = [] ∧ s.inputs.resetPin = false

/-- What the next step makes of a reset that is about to end: READY is 1, and nothing else differs. Any other state is as it
was. -/
def Ended (s : State) : State :=
  if ResetAboutToEnd s then s.setWindow { s.window with ready := true, resetInProgress := false } else s

/-! ### What a request's acknowledgment does (R140, R156) -/

/-- Between two Report Units one record has been added, against its reservation, at the end of the write queue of ring `n`:
placed if the ring is ACTIVE or LOSSY, dropped if it is FAULTED. Nothing else differs but reference counts. -/
def AckAdded (n : Nat) (x : Report) (a b : ReportUnit) : Prop :=
  (∀ k, b.ring k =
    { a.ring k with
      queue := if k = n ∧ ((a.ring n).state = .active ∨ (a.ring n).state = .lossy) then (a.ring k).queue ++ [x]
        else (a.ring k).queue,
      reserved := if k = n ∧ (a.ring n).state ≠ .absent then (a.ring k).reserved - 1 else (a.ring k).reserved,
      refs := (b.ring k).refs }) ∧
    b.hold = a.hold ∧ b.deletedWrites = a.deletedWrites ∧ b.intrPending = a.intrPending

/-- No report ring's reference count differs. -/
def SameRingRefs (a b : ReportUnit) : Prop := ∀ k, (b.ring k).refs = (a.ring k).refs

/-- The fields that the acknowledgment of a record carries whatever its request: posting ring, opcode, index of the first
slot, new head. -/
def ackOf (r : IntakeRecord) (w : PostSlot) : AckHead := ⟨r.ring, r.bound, PostSlot.byte w 0, r.first, r.newHead⟩

/-- The record in progress has been answered with a status and results: its acknowledgment is added to its report ring, no
record is in progress, and the Posting Unit and the reference counts of report rings are otherwise as they were. -/
def Answered (r : IntakeRecord) (w : PostSlot) (st : Status) (res : AckResults) (s t : State) : Prop :=
  AckAdded r.bound (.ack (ackOf r w) st res) s.report t.report ∧ SameRingRefs s.report t.report ∧
    t.posting = { s.posting with inProgress := none }

/-- The record in progress is at the owner of requests with an opcode: `w` is its first slot. -/
def AtOwner (s : State) (op : Opcode) (r : IntakeRecord) (w : PostSlot) : Prop :=
  s.posting.inProgress = some r ∧ r.stage = .atOwner ∧ r.slot1 = some w ∧ PostSlot.opcode w = some op

/-- As `AckAdded`, at a tick, which may also signal a ring whose coalesce time it reaches (R170). -/
def AckAddedAtTick (n : Nat) (x : Report) (a b : ReportUnit) : Prop :=
  (∀ k, b.ring k =
    { a.ring k with
      queue := if k = n ∧ ((a.ring n).state = .active ∨ (a.ring n).state = .lossy) then (a.ring k).queue ++ [x]
        else (a.ring k).queue,
      reserved := if k = n ∧ (a.ring n).state ≠ .absent then (a.ring k).reserved - 1 else (a.ring k).reserved,
      unsignalled := (b.ring k).unsignalled,
      oldest := (b.ring k).oldest }) ∧
    b.hold = a.hold ∧ b.deletedWrites = a.deletedWrites

/-- Between two Report Units at most some rings have been signalled: their counts toward the interrupt and the pending bits
differ, and nothing else. -/
def OnlySignals (a b : ReportUnit) : Prop :=
  (∀ k, b.ring k = { a.ring k with unsignalled := (b.ring k).unsignalled, oldest := (b.ring k).oldest }) ∧
    b.hold = a.hold ∧ b.deletedWrites = a.deletedWrites

/-! ### The arrival of a report and the return of space (R157 to R161) -/

/-- Only report ring `n` differs between two Report Units, and it is `x`. -/
def RingBecomes (n : Nat) (x : ReportRing) (a b : ReportUnit) : Prop :=
  (∀ k, b.ring k = if k = n then x else a.ring k) ∧ b.deletedWrites = a.deletedWrites ∧ b.intrPending = a.intrPending

/-- A FIRED or EVENT record has arrived for ring `n`: the rows of R157. -/
def Arrived (n : Nat) (x : Report) (a b : ReportUnit) : Prop :=
  let ring := a.ring n
  let held := a.hold.any (fun e => decide (e.ring = n))
  match ring.state with
  | .absent => b = a
  | .faulted => b = a
  | .lossy => RingBecomes n { ring with lost := min (ring.lost + 1) 65535 } a b ∧ b.hold = a.hold
  | .active =>
    if 1 ≤ ring.free ∧ held = false then RingBecomes n { ring with queue := ring.queue ++ [x] } a b ∧ b.hold = a.hold
    else if a.hold.length < 32 then RingBecomes n ring a b ∧ b.hold = a.hold ++ [⟨n, x⟩]
    else RingBecomes n { ring with state := .lossy, lost := 1 } a b ∧ b.hold = a.hold

/-- Space has returned to ring `n` at an MT (R159, R161), a ring that is ACTIVE or LOSSY: held entries, oldest first, one for
each free slot, then the LOSS record of a LOSSY ring with none left and a slot free. Entries of other rings stay in their
order. -/
def SpaceReturned (n : Nat) (mt : U64) (a b : ReportUnit) : Prop :=
  let ring := a.ring n
  let held := a.heldOf n
  let moved := held.take ring.free
  RingBecomes n
      (if ring.state = .lossy ∧ held.length + 1 ≤ ring.free then
        { ring with queue := ring.queue ++ moved ++ [.loss ring.lost mt], lost := 0, state := .active }
      else { ring with queue := ring.queue ++ moved }) a b ∧
    b.heldOf n = held.drop ring.free ∧ b.hold.Sublist a.hold ∧ ∀ k, k ≠ n → b.heldOf k = a.heldOf k

/-! ### The checks of the timer requests, in the words of R12 to R17 -/

/-- The numbers of the memory kinds (10, Action block). -/
def memoryKinds : List Byte := [0x02, 0x03, 0x04, 0x05, 0x06, 0x07]

/-- Row 4 of R14. -/
abbrev ArmConflict (q : ArmRequest) : Prop :=
  (q.periodic = true ∧ q.ext.isSome = true) ∨ (q.periodic = true ∧ (q.period = 0 ∨ 2 ^ 40 < q.period.toNat)) ∨
    (q.countLimit ≠ 0 ∧ q.periodic = false) ∨ (q.stopAtZero = true ∧ q.action.kind ≠ 0x07)

/-- Row 5 of R14: the policy is not NONE, and the ring is not 1 to 8, ABSENT or FAULTED. -/
abbrev ArmLacksRing (s : State) (q : ArmRequest) : Prop :=
  q.policy ≠ 0x03 ∧ (q.reportRing.toNat < 1 ∨ 8 < q.reportRing.toNat ∨
    (s.report.ring q.reportRing.toNat).state = .absent ∨ (s.report.ring q.reportRing.toNat).state = .faulted)

/-- An action that R15 calls not valid. -/
abbrev ActionInvalid (b : ActionBlock) : Prop :=
  b.kind ∉ [0x01, 0x02, 0x03, 0x04, 0x05, 0x06, 0x07, 0x10, 0x11] ∨
    (b.kind ∈ memoryKinds ∧ b.width ∉ [1, 2, 4, 8]) ∨
    ((b.kind = 0x10 ∨ b.kind = 0x11) ∧ 7 < b.target.toNat) ∨
    (b.kind = 0x10 ∧ (b.opA = 0 ∨ 2 ^ 24 < b.opA.toNat)) ∨
    (b.kind = 0x11 ∧ b.opA ∉ [1, 2, 3])

/-- Row 6 of R14: the main action, the follow action or the condition is not valid. -/
abbrev ArmInvalid (q : ArmRequest) : Prop :=
  ActionInvalid q.action ∨
    q.ext.any (fun e => decide (ActionInvalid e.action) || decide (4 < e.condition.toNat)) = true

/-- The region checks of R16 on one action. -/
def regionStatus (s : State) (b : ActionBlock) : Status :=
  let x := s.region b.target.toNat
  if b.kind ∉ memoryKinds then .ok
  else if 63 < b.target.toNat ∨ x.valid = false then .noRegion
  else if (b.kind = 0x02 ∧ x.access = .write) ∨ (b.kind = 0x03 ∧ x.access = .read) ∨
      (b.kind ≠ 0x02 ∧ b.kind ≠ 0x03 ∧ x.access ≠ .readWrite) then .regionDenied
  else if x.length < b.offset.toNat + b.width.toNat then .outOfRegion
  else if b.offset.toNat % b.width.toNat ≠ 0 then .misaligned
  else .ok

/-- Row 7 of R14: the main action first, then the follow action. -/
def armRegionStatus (s : State) (q : ArmRequest) : Status :=
  if regionStatus s q.action ≠ .ok then regionStatus s q.action
  else
    match q.ext with
    | none => .ok
    | some e => regionStatus s e.action

/-- The deadline a request gives: as written, or now in the scale plus the delay (R17). -/
def deadlineGiven (s : State) (absolute : Bool) (sc : Scale) (value : U64) : U64 :=
  if absolute then value else (match sc with | .pt => s.tb.pt | .mt => s.tb.mt) + value

/-- The checks of R12, in their order: `bad` says that check 2 fails. -/
def firstChecks (ring : Nat) (bad : Bool) (timer : BitVec 16) : Status :=
  if ring = 0 then .wrongRing else if bad then .badFormat else if 4095 < timer.toNat then .badTimer else .ok

/-- Check 2 of R12 on an ARM. -/
def armFormatBad (w : PostSlot) (second : Option PostSlot) : Bool :=
  !PostSlot.reservedZero w armFields ||
    (PostSlot.bit w 1 4 && !PostSlot.reservedZero (second.getD 0) extensionFields) ||
    decide (3 < (PostSlot.byte w 5).toNat) ||
    (PostSlot.bit w 1 3 && decide (1 < (PostSlot.byte w 6).toNat))

/-- Rows 8 and 9 of R14. -/
def armLastChecks (s : State) (q : ArmRequest) : Status :=
  let x := s.store.slot q.timer.toNat
  if x.state = .armed ∧ q.replace = false then .alreadyArmed
  else if x.state = .firing then .busyFiring
  else if q.refusePast = true ∧ deadlineGiven s q.absolute q.scale q.deadline ≤ s.tb.now q.scale then .deadlinePassed
  else .ok

/-- The status of an ARM: the first check of R12 and R14 that fails, OK when none does. -/
def armStatus (s : State) (r : IntakeRecord) (w : PostSlot) : Status :=
  let q := ArmRequest.read w r.slot2
  if firstChecks r.ring (armFormatBad w r.slot2) q.timer ≠ .ok then firstChecks r.ring (armFormatBad w r.slot2) q.timer
  else if ArmConflict q then .conflictingOptions
  else if ArmLacksRing s q then .noReportRing
  else if ArmInvalid q then .badAction
  else if armRegionStatus s q ≠ .ok then armRegionStatus s q
  else armLastChecks s q

/-- An action is the one an action block names. -/
def ActionNamed (b : ActionBlock) (a : Action) : Prop :=
  ActionKind.ofCode b.kind = some a.kind ∧ a.width = b.width.toNat ∧ a.target = b.target.toNat ∧ a.offset = b.offset ∧
    a.opA = b.opA ∧ a.opB = b.opB

/-- A slot is armed as an accepted ARM says (R13, R18): `old` is the generation before, `d` the deadline, `seq` the insertion
sequence. -/
def ArmedBy (q : ArmRequest) (old : BitVec 8) (d seq : U64) (x : TimerSlot) : Prop :=
  (x.state = .armed ∧ x.phase = .main ∧ x.generation = old + 1 ∧ x.scale = q.scale ∧ x.deadline = d ∧ x.seq = seq) ∧
    (x.stepped = false ∧ x.cancelRequested = false ∧ x.fireCount = 0) ∧
    (x.tag = q.tag ∧ x.countLimit = q.countLimit ∧ x.stopAtZero = q.stopAtZero) ∧
    x.period.map Period.ticks = (if q.periodic then some q.period else none) ∧
    x.period.map Period.policy = (if q.periodic then PeriodPolicy.ofCode q.periodPolicy else none) ∧
    some x.reportPolicy = ReportPolicy.ofCode q.policy ∧
    x.reportRing = (if q.policy = 0x03 then none else some q.reportRing.toNat) ∧
    ActionNamed q.action x.mainAction ∧
    (q.ext = none → x.follow = none) ∧
    ∀ e, q.ext = some e → ∃ f, x.follow = some f ∧ Condition.ofCode e.condition = some f.condition ∧
      f.delay = e.delay ∧ ActionNamed e.action f.action

/-- The generation an acknowledgment of a timer request carries (R11): the slot's, and 0 above 4095. -/
def generationShown (s : State) (timer : BitVec 16) : BitVec 8 :=
  if 4095 < timer.toNat then 0 else (s.store.slot timer.toNat).generation

/-! ### Offers (R8, R51) -/

/-- The offered set is the one that the store's latest reassessment gives: the due slots of the two queues, in queue order,
each with its deadline, insertion sequence and target. -/
def Reoffered (t : State) : Prop :=
  t.disp.offered = (t.store.headRun t.tb .pt ++ t.store.headRun t.tb .mt).map t.offerOf

/-- PT has been moved by a time step to `p1` (R92): OFFSET follows, no step is pending any more, the PT-scale slots that the
step made due are marked (R5), and the store has offered its head runs again. -/
def SteppedTo (p1 : U64) (s t : State) : Prop :=
  t.tb = { s.tb with offset := p1 - s.tb.mt, pendingStep := none } ∧ t.tb.pt = p1 ∧
    (∀ n, t.store.slot n =
      { s.store.slot n with
        stepped := (s.store.slot n).stepped ||
          (decide ((s.store.slot n).state = .armed) && decide ((s.store.slot n).scale = .pt) &&
            decide (s.tb.pt < (s.store.slot n).deadline) && decide ((s.store.slot n).deadline ≤ p1)) }) ∧
    (∀ sc, t.store.queue sc = s.store.queue sc) ∧ t.store.nextSeq = s.store.nextSeq ∧ Reoffered t

/-- The acknowledgment of a pending step that a request replaces (R97): REPLACED with PT before and after 0, when a step was
pending; nothing when none was. -/
def ReplacedAcknowledged (s : State) (b : ReportUnit) : Prop :=
  match s.tb.pendingStep with
  | none => b = s.report
  | some p => AckAdded p.ack.bound (.ack p.ack .replaced (.step 0 0)) s.report b ∧ SameRingRefs s.report b

/-- A cold reset is in progress: it waits for the release of the RESET input (R176), and the internal oscillator's periods
are not counted before its end (R101). -/
abbrev InColdReset (s : State) : Prop := s.window.resetInProgress = true ∧ s.window.resetCause = .cold

/-- The internal oscillator runs and its periods are counted (R100, R101). -/
abbrev OscillatorCounts (s : State) : Prop :=
  (s.inputs.mainSupply = true ∨ s.inputs.keepAliveSupply = true) ∧ ¬InColdReset s

/-- The next period of the driving source completes a tick, and that source is there (R78, R100). -/
abbrev TickIsDue (s : State) : Prop :=
  s.tb.divInUse ≤ s.tb.prescaler + 1 ∧
    if s.tb.source = .external then s.inputs.mainSupply = true else OscillatorCounts s

/-- The pending step, if any, does not expire at the next tick. -/
def StepWaits (s : State) : Prop := ∀ p, s.tb.pendingStep = some p → p.expiry ≠ s.tb.mt + 1

/-- The pending switch, if any, is neither qualified nor at its 65,536th tick. -/
def SwitchWaits (s : State) : Prop := ∀ p, s.tb.pendingSwitch = some p → p.edges < 1024 ∧ p.ticks + 1 < 65536

/-- What every tick does (R78 to R81, R90, R119, R8): MT advances by one, PT by one and the trim's adjustment, the count
begins again against the divisor of the source that now drives ticks, and the lines whose pulses end return to REST. A reset
about to end ends with it. -/
def Ticked (s t : State) : Prop :=
  t.tb.mt = s.tb.mt + 1 ∧ t.tb.pt = s.tb.pt + 1 + trimStep s.tb.trim s.tb.windowPos ∧
    t.tb.windowPos = (s.tb.windowPos + 1) % 1048576 ∧ t.tb.prescaler = 0 ∧
    t.tb.divInUse = (if t.tb.source = .external then s.tb.extDivisor else s.tb.intDivisor) ∧
    t.tb.trim = s.tb.trim ∧ t.tb.marks = s.tb.marks ∧ t.tb.intDivisor = s.tb.intDivisor ∧
    t.tb.extDivisor = s.tb.extDivisor ∧
    (∀ n, t.line n =
      if n < 8 ∧ (s.line n).state = .pulsing ∧ (s.line n).pulseEnd = some (s.tb.mt + 1) then ⟨.rest, none, (s.line n).rest⟩
      else s.line n) ∧
    Reoffered t ∧ OnlyIn [.tb, .disp, .lines, .report] (Ended s) t

/-! ### The intake (R132 to R135) -/

/-- A posting ring is eligible (R132). -/
def RingEligible (s : State) (n : Nat) : Prop :=
  let p := s.posting.ring n
  let b := s.report.ring p.bound
  p.state = .active ∧ p.headNeed ≤ (p.tail + p.size - p.head) % p.size ∧ (b.state = .active ∨ b.state = .lossy) ∧
    1 ≤ b.size - 1 - (b.written + b.queue.length) - b.reserved ∧ (n = 0 → s.window.adminFault = none)

/-- A ring from 1 to 8 of a class is eligible. -/
def ClassEligible (s : State) (c : RingClass) (n : Nat) : Prop :=
  1 ≤ n ∧ n ≤ 8 ∧ RingEligible s n ∧ (s.posting.ring n).ringClass = c

/-- How far a ring number lies along the search that starts after the last ring taken, or at ring 1 when there is none, and
wraps from 8 to 1 (R134): (number - last - 1) modulo 8. -/
def searchDistance (last : Option Nat) (n : Nat) : Nat := (n + 7 + 7 * last.getD 8) % 8

/-- A ring is the first eligible one of its class in the search from a position (R134). -/
def FirstInSearch (s : State) (c : RingClass) (last : Option Nat) (n : Nat) : Prop :=
  ClassEligible s c n ∧ ∀ m, ClassEligible s c m → searchDistance last n ≤ searchDistance last m

/-- Some NORMAL ring is eligible (R135). -/
def NormalEligible (s : State) : Prop := ∃ m, ClassEligible s .normal m

/-- The ring the arbiter takes (R134, R135): ring 0; else a HIGH ring, unless the run is 8 and a NORMAL ring is eligible; else a
NORMAL ring. -/
def ArbiterTakes (s : State) (n : Nat) : Prop :=
  if s.posting.highRun ≥ 8 then
    (RingEligible s 0 ∧ n = 0) ∨
      (¬RingEligible s 0 ∧ NormalEligible s ∧ FirstInSearch s .normal s.posting.lastNormal n) ∨
      (¬RingEligible s 0 ∧ ¬NormalEligible s ∧ FirstInSearch s .high s.posting.lastHigh n)
  else
    (RingEligible s 0 ∧ n = 0) ∨ (¬RingEligible s 0 ∧ FirstInSearch s .high s.posting.lastHigh n) ∨
      (¬RingEligible s 0 ∧ (∀ m, ¬ClassEligible s .high m) ∧ FirstInSearch s .normal s.posting.lastNormal n)

/-- The arbiter's positions and run after a take on ring `n` that is not withdrawn (R134, R135). -/
def PositionsFollow (n : Nat) (normal : Bool) (a b : PostingUnit) : Prop :=
  match (a.ring n).ringClass with
  | .administration => b.lastHigh = a.lastHigh ∧ b.lastNormal = a.lastNormal ∧ b.highRun = a.highRun
  | .high => b.lastHigh = some n ∧ b.lastNormal = a.lastNormal ∧
      b.highRun = if normal then min (a.highRun + 1) 8 else 0
  | .normal => b.lastHigh = a.lastHigh ∧ b.lastNormal = some n ∧ b.highRun = 0

/-- The intake's own checks (R138): the opcode of the first slot, the pairing with the second, the ring. -/
def intakeStatus (ring : Nat) (w : PostSlot) (second : Option PostSlot) : Status :=
  match PostSlot.opcode w with
  | none => .badOpcode
  | some .extension => .badOpcode
  | some op =>
    if second.any (fun x => decide (PostSlot.byte x 0 ≠ 0x7F)) then .badFormat
    else if ring ≠ 0 ∧ op ∉ [.arm, .cancel, .retime, .query] then .wrongRing
    else .ok

/-- A doorbell error has been taken (R183): it sets the record with its ring and kind, or MULTIPLE of a record already set. -/
def ErrorRecorded (ring : BitVec 4) (kind : BitVec 2) (s t : State) : Prop :=
  (s.window.doorbellError = none → t.window = { s.window with doorbellError := some ⟨ring, kind, false⟩ }) ∧
    ∀ e, s.window.doorbellError = some e → t.window = { s.window with doorbellError := some { e with multiple := true } }

/-! ### Registers (R176 to R185; 10, Register bit layout) -/

/-- The whole number a register holds, by its place in the window (offset 8k): the sum of its fields, each at the weight of its
lowest bit; 0 where there is no register and for DOORBELL. -/
def RegisterValue (s : State) (k : Nat) : Nat :=
  match k with
  | 0 => 0x00D2 + 0x2480 * 2 ^ 16 + 0x01 * 2 ^ 32
  | 1 => s.window.enabled.toNat
  | 2 => s.window.ready.toNat + 2 * s.window.enabled.toNat +
      2 ^ 4 * (match s.window.resetCause with
        | .cold => 0
        | .pin => 1
        | .control => 2
        | .powerReturn => 3) +
      (match s.window.adminFault with
        | none => 0
        | some .enableRefused => 2 ^ 8 + 2 ^ 9 * 1
        | some .postRingFetch => 2 ^ 8 + 2 ^ 9 * 2
        | some .reportRingWrite => 2 ^ 8 + 2 ^ 9 * 3) +
      (match s.window.doorbellError with
        | none => 0
        | some e => 2 ^ 16 + 2 ^ 17 * e.multiple.toNat + 2 ^ 20 * e.ring.toNat + 2 ^ 24 * e.kind.toNat) +
      2 ^ 32 * (match s.tb.source with
        | .internal => 0
        | .qualifying => 1
        | .external => 2
        | .fallback => 3)
  | 3 => s.window.adminPostBase.toNat
  | 4 => s.window.adminReportBase.toNat
  | 5 => s.window.adminPostSize.toNat + 2 ^ 32 * s.window.adminReportSize.toNat
  | 7 => s.report.intrPending.toNat
  | 8 => s.window.intrMask.toNat
  | _ => 0

/-! ### Report records, byte by byte (R189, R190; 10, Report records) -/

/-- A field of a record: its offset, its bytes, its value. -/
abbrev RecordField := Nat × Nat × Nat

/-- The result fields of an acknowledgment (10, ACK). -/
def AckResults.fields : AckResults → List RecordField
  | .none => []
  | .timerDeadline timer generation deadline => [(10, 2, timer.toNat), (12, 1, generation.toNat), (16, 8, deadline.toNat)]
  | .timerOnly timer generation => [(10, 2, timer.toNat), (12, 1, generation.toNat)]
  | .snapshot timer generation state phase scale deadline fireCount =>
    [(10, 2, timer.toNat), (12, 1, generation.toNat), (13, 1, state.code), (14, 1, phase.code), (15, 1, scale.code),
      (16, 8, deadline.toNat), (24, 4, fireCount.toNat)]
  | .region number valid access refs base length =>
    [(10, 1, number.toNat), (11, 1, valid.toNat), (12, 1, (access.map Access.code).getD 0), (14, 2, refs),
      (16, 8, base.toNat), (24, 8, length)]
  | .timebase source intDivisor extDivisor => [(10, 1, source.code), (14, 4, intDivisor), (18, 4, extDivisor)]
  | .trim before after => [(10, 2, (before % 65536).toNat), (12, 2, (after % 65536).toNat)]
  | .step before after => [(16, 8, before.toNat), (24, 8, after.toNat)]
  | .marks before => [(10, 1, before.toNat)]
  | .time source stepPending switchPending marking trimNow mt pt =>
    [(10, 1, source.code), (11, 1, stepPending.toNat + 2 * switchPending.toNat + 4 * marking.toNat),
      (12, 2, (trimNow % 65536).toNat), (16, 8, mt.toNat), (24, 8, pt.toNat)]
  | .lines before after states =>
    [(10, 1, before.toNat), (11, 1, after.toNat)] ++ states.zipIdx.map (fun p => (12 + p.2, 1, p.1.code))
  | .postRing number state head tail discarded =>
    [(10, 1, number.toNat), (11, 1, state.code), (12, 2, head), (14, 2, tail), (16, 2, discarded)]
  | .reportRing number state producer consumer refs lost discarded =>
    [(10, 1, number.toNat), (11, 1, state.code), (12, 2, producer), (14, 2, consumer), (16, 2, refs), (18, 2, lost),
      (20, 2, discarded)]

/-- The fields of a report record under a phase bit. -/
def Report.fields (phase : Bool) : Report → List RecordField
  | .ack head status results =>
    [(0, 1, 0x01), (1, 1, phase.toNat), (2, 1, head.ring), (3, 1, head.opcode.toNat), (4, 1, status.code),
      (6, 2, head.first), (8, 2, head.newHead)] ++ results.fields
  | .fired f =>
    [(0, 1, 0x02), (1, 1, phase.toNat + 2 * f.status.code + 8 * f.scale.code), (2, 2, f.timer), (4, 1, f.generation.toNat),
      (5, 1, f.stepped.toNat + 2 * f.final.toNat + 4 * f.matchFlag.toNat + 8 * f.zeroFlag.toNat +
        16 * f.followSkipped.toNat + 32 * f.cancelled.toNat + 64 * f.phaseFollow.toNat),
      (6, 2, f.skipped), (8, 4, f.fireCount.toNat), (12, 4, f.lateness.toNat), (16, 8, f.result.toNat), (24, 8, f.tag.toNat)]
  | .loss count mt => [(0, 1, 0x03), (1, 1, phase.toNat), (2, 2, count), (8, 8, mt.toNat)]
  | .event (.sourceLost mt pt) => [(0, 1, 0x04), (1, 1, phase.toNat), (2, 1, 0x01), (8, 8, mt.toNat), (16, 8, pt.toNat)]
  | .event (.timeMark applied mt pt) =>
    [(0, 1, 0x04), (1, 1, phase.toNat), (2, 1, 0x02), (3, 1, applied.toNat), (8, 8, mt.toNat), (16, 8, pt.toNat)]
  | .event (.reportRingFault ring slot mt pt) =>
    [(0, 1, 0x04), (1, 1, phase.toNat), (2, 1, 0x03), (4, 1, ring), (6, 2, slot), (8, 8, mt.toNat), (16, 8, pt.toNat)]

/-- Byte `j` of a record with the fields listed, which do not overlap: that of the field it lies in, little-endian (R186), and
0 in every byte no field claims (R189). -/
def byteOfFields (j : Nat) : List RecordField → Byte
  | [] => 0
  | (k, n, v) :: fs => if k ≤ j ∧ j < k + n then BitVec.ofNat 8 (v / 256 ^ (j - k)) else byteOfFields j fs

/-- Byte `j` of a report record under a phase bit. -/
def Report.byteAt (phase : Bool) (y : Report) (j : Nat) : Byte := byteOfFields j (y.fields phase)

/-- The codes that stand in report records and registers (10, Status codes; 10, Codes of states and values). -/
def CodesAsListed : Prop :=
  (∀ p ∈ [(Status.ok, 0x00), (.cancelledAfterFire, 0x03), (.badOpcode, 0x10), (.badFormat, 0x11), (.wrongRing, 0x12),
      (.fetchError, 0x13), (.badTimer, 0x20), (.conflictingOptions, 0x21), (.noReportRing, 0x22), (.badAction, 0x23),
      (.noRegion, 0x24), (.regionDenied, 0x25), (.outOfRegion, 0x26), (.misaligned, 0x27), (.alreadyArmed, 0x28),
      (.busyFiring, 0x29), (.deadlinePassed, 0x2A), (.notArmed, 0x2B), (.staleGeneration, 0x2C), (.badRegion, 0x30),
      (.inUse, 0x31), (.badTrim, 0x38), (.stepPending, 0x39), (.switchPending, 0x3A), (.replaced, 0x3B),
      (.alignTimeout, 0x3C), (.sourceNotReady, 0x3D), (.lineBusy, 0x40), (.ringExists, 0x48), (.noRing, 0x49),
      (.badRingParams, 0x4A), (.notStalled, 0x4B)], p.1.code = p.2) ∧
  [ActionStatus.ok, .readError, .writeError].map ActionStatus.code = [0, 1, 2] ∧
  [SlotState.free, .armed, .firing].map SlotState.code = [0, 1, 2] ∧ [Phase.main, .follow].map Phase.code = [0, 1] ∧
  [Scale.pt, .mt].map Scale.code = [0, 1] ∧ [Access.read, .write, .readWrite].map Access.code = [1, 2, 3] ∧
  [SourceState.internal, .qualifying, .external, .fallback].map SourceState.code = [0, 1, 2, 3] ∧
  [PostRingState.absent, .active, .stalled].map PostRingState.code = [0, 1, 2] ∧
  [ReportRingState.absent, .active, .lossy, .faulted].map ReportRingState.code = [0, 1, 2, 3] ∧
  [LineState.rest, .held, .pulsing].map LineState.code = [0, 1, 2] ∧ [Level.low, .high].map Level.code = [0, 1]

/-! ### Resets (R173) -/

/-- The blocks of the main domain but the Register Window are in their reset state, and the rest levels as they were (R28, R51,
R75, R114, R122, R148, R172). -/
def BlocksReset (s t : State) : Prop :=
  t.store = ⟨[], [], [], 0⟩ ∧ t.disp = ⟨[], none⟩ ∧ t.engine = ⟨[], [], []⟩ ∧ (∀ n, t.region n = ⟨false, 0, 0, .read, 0⟩) ∧
    t.posting = ⟨[], none, none, none, 0⟩ ∧ t.report = ⟨[], [], [], 0⟩ ∧
    ∀ n < 8, t.line n = ⟨.rest, none, (s.line n).rest⟩

/-- The Time Base at a function reset (R102): no step and no switch is pending, QUALIFYING has returned to its return state,
marks are off, and everything else is as it was. -/
def TimeBaseReset (s t : State) : Prop :=
  t.tb = { s.tb with
    source := (match s.tb.pendingSwitch with
      | none => s.tb.source
      | some p => if p.toFallback then .fallback else .internal),
    pendingStep := none, pendingSwitch := none, marks := false }

/-- The operations outstanding on the system port (R173): the intake's read, the writes in flight of report rings, the writes
of deleted rings, the operations of the action slots. -/
def IsOutstanding (s : State) (op : PortOp) : Prop :=
  (∃ r, s.posting.inProgress = some r ∧ r.stage = .fetching ∧
    op = .read ((s.posting.ring r.ring).slotAddr
      (if r.slot1 = none then r.first else (r.first + 1) % (s.posting.ring r.ring).size)) 64) ∨
    (∃ n w, n < 9 ∧ (s.report.ring n).inFlight = some w ∧ op = .write w) ∨
    (∃ w, w ∈ s.report.deletedWrites ∧ op = .write w) ∨
    (∃ i, i < 4 ∧ (s.engine.slot i).stage = .reading ∧
      op = .read (s.engine.slot i).addr (s.engine.slot i).action.width) ∨
    ∃ i, i < 4 ∧ (s.engine.slot i).stage = .writing ∧ op = .write (s.engine.slot i).portWrite

/-- A function reset has been taken with a cause (R173): READY is 0 until the step of R174 ends it. The administration ring
registers are those given. -/
def ResetTaken (cause : ResetCause) (w : Window) (s t : State) : Prop :=
  BlocksReset s t ∧ TimeBaseReset s t ∧
    (∀ op, op ∈ t.window.awaited ↔ op ∈ w.awaited ∨ IsOutstanding s op) ∧
    t.window.enabled = false ∧ t.window.resetCause = cause ∧ t.window.adminFault = none ∧ t.window.doorbellError = none ∧
    t.window.intrMask = BitVec.allOnes 9 ∧ t.window.adminPostBase = w.adminPostBase ∧
    t.window.adminReportBase = w.adminReportBase ∧ t.window.adminPostSize = w.adminPostSize ∧
    t.window.adminReportSize = w.adminReportSize ∧
    t.window.ready = false ∧ t.window.resetInProgress = true

/-- A byte of host memory lies in a write. -/
def PortWrite.covers (w : PortWrite) (a : Nat) : Prop := ∃ k < w.len, a = (w.addr + BitVec.ofNat 64 k).toNat

/-! ### References (R21, R105, R165) -/

/-- How many times the arming of a slot names a region: once for each memory action (R21). A FREE slot names none. -/
def TimerSlot.namesRegion (x : TimerSlot) (n : Nat) : Nat := if x.state = .free then 0 else x.regionRefs.count n

/-- How many times the arming of a slot names a report ring (R21, R165). -/
def TimerSlot.namesRing (x : TimerSlot) (n : Nat) : Nat := if x.state ≠ .free ∧ x.reportRing = some n then 1 else 0

/-- The memory actions of ARMED and FIRING slots that name a region (R105). -/
def TimerStore.regionUses (t : TimerStore) (n : Nat) : Nat := (t.slots.map (fun p => p.2.namesRegion n)).sum

/-- The ARMED and FIRING slots whose reports go to a report ring (R165). -/
def TimerStore.ringUses (t : TimerStore) (n : Nat) : Nat := (t.slots.map (fun p => p.2.namesRing n)).sum

/-- The posting rings bound to a report ring (R165). -/
def PostingUnit.ringUses (p : PostingUnit) (n : Nat) : Nat :=
  (p.rings.map (fun q => if q.2.state ≠ .absent ∧ q.2.bound = n then 1 else 0)).sum

/-! ### The laws every step keeps -/

/-- Every numbered list and the bytes of host memory are in canonical form: numbers rising, no record listed that an
unlisted number has. -/
def State.canonical (s : State) : Bool :=
  Map.wf TimerSlot.reset s.store.slots && Map.wf ActionSlot.reset s.engine.slots && Map.wf Region.reset s.regions &&
    Map.wf LineRec.reset s.lines && Map.wf PostRing.reset s.posting.rings && Map.wf ReportRing.reset s.report.rings &&
    Memory.wf s.mem

/-- The Time Base's values are in their ranges (R78, R79, R84, R85, R86, R90, R91), and a switch is pending exactly in
QUALIFYING (R85). -/
structure TimeBase.Lawful (t : TimeBase) : Prop where
  intDivisor : 1 ≤ t.intDivisor ∧ t.intDivisor ≤ 65536
  extDivisor : 1 ≤ t.extDivisor ∧ t.extDivisor ≤ 65536
  divInUse : 1 ≤ t.divInUse ∧ t.divInUse ≤ 65536
  prescaler : t.prescaler < t.divInUse
  gapCount : t.gapCount ≤ 64
  windowPos : t.windowPos < 1048576
  trim : -1023 ≤ t.trim ∧ t.trim ≤ 1023
  qualifying : t.source = .qualifying ↔ t.pendingSwitch.isSome = true
  switch : ∀ p, t.pendingSwitch = some p → p.edges ≤ 1024 ∧ p.ticks < 65536

/-- Enabling, READY and resets (R100, R173, R174, R176, R179): the controller is enabled only out of reset; READY is 0
exactly while a reset is in progress or the main supply is absent; a cold reset in progress waits for the release of the RESET
input and for nothing else. -/
structure State.WindowLaw (s : State) : Prop where
  enabled : s.window.enabled = true → s.window.ready = true
  unpowered : s.inputs.mainSupply = false →
    s.window.ready = false ∧ s.window.resetInProgress = false ∧ s.window.awaited = []
  powered : s.inputs.mainSupply = true → s.window.ready = !s.window.resetInProgress
  cold : s.window.resetInProgress = true → s.window.resetCause = .cold →
    s.inputs.resetPin = true ∧ s.window.awaited = []
  awaited : s.window.resetInProgress = false → s.window.awaited = []

/-- While the controller is not enabled, every block of the main domain is in its reset state and nothing is deferred
(R28, R51, R75, R102, R114, R122, R148, R172, R173). -/
structure State.IdleLaw (s : State) : Prop where
  store : s.window.enabled = false → s.store = TimerStore.reset
  disp : s.window.enabled = false → s.disp = Dispatcher.reset
  engine : s.window.enabled = false → s.engine = ActionEngine.reset
  regions : s.window.enabled = false → s.regions = []
  posting : s.window.enabled = false → s.posting = PostingUnit.reset
  report : s.window.enabled = false → s.report = ReportUnit.reset
  lines : s.window.enabled = false → ∀ n < 8, (s.line n).state = .rest ∧ (s.line n).pulseEnd = none
  deferred : s.window.enabled = false →
    s.tb.pendingStep = none ∧ s.tb.pendingSwitch = none ∧ s.tb.marks = false

/-- The expiry queues (R1, R6): a slot is on the queue of a scale exactly when it is ARMED on that scale, once, and the
queue is in order of deadline and insertion sequence. -/
structure TimerStore.QueueLaw (t : TimerStore) : Prop where
  members : ∀ sc n, n ∈ t.queue sc ↔ (t.slot n).state = .armed ∧ (t.slot n).scale = sc
  once : ∀ sc, (t.queue sc).Nodup
  inOrder : ∀ sc, (t.queue sc).Pairwise (fun a b => (t.slot b).before (t.slot a) = false)

/-- The action slots (R55, R57, R58): those occupied are listed once, in the order of their dispatch, and of two that have
one target only the one dispatched first has begun. -/
structure ActionEngine.OrderLaw (e : ActionEngine) : Prop where
  occupied : ∀ i, i ∈ e.order ↔ (e.slot i).stage ≠ .empty
  numbered : ∀ i ∈ e.order, i < 4
  once : e.order.Nodup
  oneBegun : e.order.Pairwise (fun a b =>
    (e.slot a).target ≠ none → (e.slot b).target = (e.slot a).target → (e.slot b).stage = .held)

/-- The timers whose actions are in flight or whose completion returns the store has not taken. -/
def ActionEngine.timers (e : ActionEngine) : List Nat :=
  e.order.map (fun i => (e.slot i).timer) ++ e.returns.map Completion.timer

/-- A slot is FIRING exactly while its action is in flight or its completion return is on its way, and it has one of them
(R9, R10). -/
structure State.FiringLaw (s : State) : Prop where
  firing : ∀ n, n ∈ s.engine.timers ↔ (s.store.slot n).state = .firing
  once : s.engine.timers.Nodup

/-- One when a condition holds. -/
def oneIf (b : Bool) : Nat := if b then 1 else 0

/-- The acknowledgments that a report ring has been promised: of the record in progress, of the pending step and of the
pending switch (R133, R140). -/
def State.promised (s : State) (n : Nat) : Nat :=
  oneIf (s.posting.inProgress.any (fun r => decide (r.bound = n))) +
    oneIf (s.tb.pendingStep.any (fun p => decide (p.ack.bound = n))) +
    oneIf (s.tb.pendingSwitch.any (fun p => decide (p.ack.bound = n)))

/-- The capacity of the report rings (R152, R154, R156, R158): written, queued and reserved records never exceed a ring's
size less one, every reservation belongs to a promised acknowledgment, the hold list never exceeds 32 entries, and a ring with
held entries has no free space. Requests
that are owned outside the Timer Store and all deferred acknowledgments answer on report ring 0. -/
structure State.CapacityLaw (s : State) : Prop where
  promises : ∀ n, (s.report.ring n).reserved = s.promised n
  absent : ∀ n, (s.report.ring n).state = .absent → (s.report.ring n).queue = [] ∧ (s.report.ring n).reserved = 0
  indexes : ∀ n, (s.report.ring n).state ≠ .absent →
    4 ≤ (s.report.ring n).size ∧ (s.report.ring n).producer < (s.report.ring n).size ∧
      (s.report.ring n).consumer < (s.report.ring n).size
  capacity : ∀ n, (s.report.ring n).state ≠ .absent →
    (s.report.ring n).written + (s.report.ring n).queue.length + (s.report.ring n).reserved + 1 ≤ (s.report.ring n).size
  faulted : ∀ n, (s.report.ring n).state = .faulted → (s.report.ring n).queue = []
  hold : s.report.hold.length ≤ 32
  held : ∀ e ∈ s.report.hold, (s.report.ring e.ring).running = true ∧ (s.report.ring e.ring).free = 0
  ringZero : (s.posting.ring 0).bound = 0
  record : ∀ r, s.posting.inProgress = some r → r.ring = 0 → r.bound = 0
  owned : ∀ r w op, s.posting.inProgress = some r → r.stage = .atOwner → r.slot1 = some w →
    PostSlot.opcode w = some op → op.isTimer = false → r.ring = 0
  step : ∀ p, s.tb.pendingStep = some p → p.ack.bound = 0
  switch : ∀ p, s.tb.pendingSwitch = some p → p.ack.bound = 0

/-- Region reference counts (R105): a region's count is the number of memory actions of ARMED and FIRING slots that name it,
and a region with a reference is VALID. -/
structure State.RegionRefLaw (s : State) : Prop where
  count : ∀ n, (s.region n).refs = s.store.regionUses n
  valid : ∀ n, (s.region n).refs ≠ 0 → (s.region n).valid = true

/-- Report ring reference counts (R165): a ring's count is the number of posting rings bound to it and of ARMED and FIRING
slots that name it, and an ABSENT ring has none. The posting ring whose record is being fetched is ACTIVE (R132, R137). -/
structure State.RingRefLaw (s : State) : Prop where
  count : ∀ n, (s.report.ring n).refs = s.posting.ringUses n + s.store.ringUses n
  absent : ∀ n, (s.report.ring n).state = .absent → (s.report.ring n).refs = 0
  fetching : ∀ r, s.posting.inProgress = some r → r.stage = .fetching → (s.posting.ring r.ring).state = .active

end Sys2Proof.Machine
end

