-- ==== Sys2Proof/WellFormed.lean ====
section
/-!
DEFINITION. Well-formed commands: the operands a row of the table admits. A command outside them names nothing (a line 9, an
action slot 7), or is another row's.
-/
namespace Sys2Proof

/-- A doorbell's ring is one of 0 to 8 (R184). -/
def wfDoorbellRing (ring : BitVec 4) : Bool := decide (ring.toNat ≤ 8)

/-- A doorbell that names no ring or no kind (R184). -/
def wfNoRing (ring : BitVec 4) (kind : BitVec 2) : Bool := decide (8 < ring.toNat) || decide (2 ≤ kind.toNat)

/-- An action slot's number (R58). -/
def wfActionSlot (slot : Nat) : Bool := decide (slot < Config.numActionSlots)

/-- A line's number (R115). -/
def wfLine (line : Nat) : Bool := decide (line < Config.numLines)

/-- A report ring's number. -/
def wfReportRing (ring : Nat) : Bool := decide (ring < Config.numRings)

/-- The ring of a report write; a deleted ring's write is named by its place among those outstanding. -/
def wfReportWrite : ReportWrite → Bool
  | .ring n => wfReportRing n
  | .deleted _ => true

/-- A STATUS write with the DOORBELL_ERROR field 1 (R183). -/
def wfErrorClear (value : U64) : Bool := value.getLsbD 16

/-- A write that is no other row's: one of 1, 2, 4 or 8 bytes that the window ignores (R177). -/
def wfOtherWrite (offset : BitVec 7) (size : Nat) (value : U64) : Bool :=
  (decide (size = 1) || decide (size = 2) || decide (size = 4) || decide (size = 8)) &&
    decide (decodeWindowWrite offset size value = .registerWriteOther offset size value)

/-- The operands a row admits. -/
def Instr.wf : Instr → Bool
  | .arm => true
  | .cancel => true
  | .retime => true
  | .query => true
  | .setRegion => true
  | .clearRegion => true
  | .configureTimebase => true
  | .setTrim => true
  | .setTime => true
  | .setMarks => true
  | .readTime => true
  | .setLineRest => true
  | .createPostRing => true
  | .deletePostRing => true
  | .resumePostRing => true
  | .createReportRing => true
  | .deleteReportRing => true
  | .intakeChoice => true
  | .intakeReadAnswer _ => true
  | .postingTailDoorbell ring _ => wfDoorbellRing ring
  | .reportConsumerDoorbell ring _ => wfDoorbellRing ring
  | .doorbellNoRing ring kind _ => wfNoRing ring kind
  | .enable => true
  | .functionReset _ => true
  | .resetAssert => true
  | .resetRelease => true
  | .abandonedAnswer _ _ _ => true
  | .mainSupplyLoss _ => true
  | .mainSupplyReturn => true
  | .coldReset _ => true
  | .adminPostBaseWrite _ => true
  | .adminReportBaseWrite _ => true
  | .adminSizesWrite _ => true
  | .doorbellErrorClear value => wfErrorClear value
  | .intrPendingClear _ => true
  | .intrMaskWrite _ => true
  | .registerWriteOther offset size value => wfOtherWrite offset size value
  | .tick => true
  | .sourceQualified => true
  | .sourceSwitch => true
  | .qualificationTimeout => true
  | .refclkGap => true
  | .alignEdge => true
  | .alignTimeout => true
  | .pulseEnd line => wfLine line
  | .coalesceTimeExpiry ring => wfReportRing ring
  | .dispatchWalk => true
  | .dispatchClaim => true
  | .heldActionBegin slot => wfActionSlot slot
  | .actionReadAnswer slot _ => wfActionSlot slot
  | .actionWriteAnswer slot _ => wfActionSlot slot
  | .lineRequest slot => wfActionSlot slot
  | .lineAnswer slot => wfActionSlot slot
  | .completionReturn => true
  | .reportWriteAnswer write _ => wfReportWrite write
  | .refclkEdge => true
  | .keepAliveSupplyLoss => true

end Sys2Proof
end

