-- ==== Sys2Proof/Certificates/Slice0/Obligations.lean ====
section
/-!
DEFINITION. The statements for the provers: what each command does, its frame, where it completes, and the laws every step
keeps.
-/

open Sys2Proof Sys2Proof.Machine

/-! ### The step, the commands as a whole, reset -/

/-- A step takes the command at the front of the queue and runs it with the queue's rest. With no command waiting, a step ends a
reset that is about to end (log entry 12), or else is one period of the internal oscillator. A period that brings the gap
detector's count to 64 in QUALIFYING or EXTERNAL is the step of REFCLK_GAP; any other that completes a tick is the step of TICK;
any other is counted by the prescaler, unless REFCLK drives ticks, and by the gap detector, whose count stays at 64, and changes
nothing else. Without power, and in a cold reset, nothing changes. What an empty queue does is the model's choice (log entry 2),
and the order of a gap and a tick on one period its reading (log entry 6). -/
def Obligations.StepRunsTheFrontCommandOrOneOscillatorPeriod : Prop :=
  (∀ (s : State) (c : Instr) (rest : List Instr), s.pending = c :: rest → step s = exec c (s.setPending rest)) ∧
  (∀ s : State, s.pending = [] → ResetAboutToEnd s →
    step s = .next (s.setWindow { s.window with ready := true, resetInProgress := false })) ∧
  (∀ s : State, s.pending = [] → ¬ResetAboutToEnd s →
    let acts := s.tb.source = .qualifying ∨ s.tb.source = .external
    (¬OscillatorCounts s → step s = .next s) ∧
    (OscillatorCounts s → s.tb.gapCount = 63 → acts → step s = exec .refclkGap s) ∧
    (OscillatorCounts s → s.tb.gapCount ≠ 63 ∨ (¬acts ∧ s.tb.pendingSwitch = none) → s.tb.source ≠ .external →
      s.tb.divInUse ≤ s.tb.prescaler + 1 → step s = exec .tick s) ∧
    (OscillatorCounts s → s.tb.gapCount ≠ 63 ∨ ¬acts → s.tb.source = .external ∨ s.tb.prescaler + 1 < s.tb.divInUse →
      ∃ t, step s = .next t ∧ OnlyIn [.tb] s t ∧
        t.tb = { s.tb with
          gapCount := if s.tb.gapCount < 64 then s.tb.gapCount + 1 else 64,
          prescaler := if s.tb.source = .external then s.tb.prescaler else s.tb.prescaler + 1 }))

/-- Every command is answered with a next state, whatever the state, and leaves the queue of commands as it is. That nothing
stops is the model's choice for a command whose event cannot occur in the state (log entries 3 and 20). -/
def Obligations.EveryCommandAnswersAndKeepsTheQueue : Prop :=
  ∀ (c : Instr) (s : State), ∃ t, exec c s = .next t ∧ t.pending = s.pending

/-- What a cold reset leaves: the values of R28, R51, R58, R101, R114, R123, R148, R172 and R176; the first tick comes at the
32nd period of the internal oscillator. -/
def Obligations.ColdResetLeavesTheResetValues : Prop :=
  (∀ n, let x := State.reset.store.slot n
    x.state = .free ∧ x.generation = 0 ∧ x.phase = .main ∧ x.scale = .pt ∧ x.deadline = 0 ∧ x.fireCount = 0 ∧
      x.stepped = false ∧ x.cancelRequested = false ∧ x.period = none ∧ x.follow = none ∧ x.reportRing = none ∧
      x.reportPolicy = .none ∧ x.tag = 0 ∧ x.mainAction.kind = .note) ∧
  State.reset.store.ptQueue = [] ∧ State.reset.store.mtQueue = [] ∧ State.reset.store.nextSeq = 0 ∧
  State.reset.disp.offered = [] ∧ State.reset.disp.claim = none ∧
  (∀ i, (State.reset.engine.slot i).stage = .empty) ∧
  (State.reset.tb.mt = 0 ∧ State.reset.tb.offset = 0 ∧ State.reset.tb.pt = 0 ∧ State.reset.tb.trim = 0 ∧
    State.reset.tb.windowPos = 0 ∧ State.reset.tb.source = .internal ∧
    State.reset.tb.intDivisor = 32 ∧ State.reset.tb.extDivisor = 10 ∧ State.reset.tb.prescaler = 0 ∧
    State.reset.tb.pendingStep = none ∧ State.reset.tb.pendingSwitch = none ∧ State.reset.tb.marks = false) ∧
  (∀ k ≤ 32, (State.idle^[k] State.reset).tb.mt = if k = 32 then 1 else 0) ∧
  (∀ n, State.reset.region n = ⟨false, 0, 0, .read, 0⟩) ∧
  (∀ n, State.reset.line n = ⟨.rest, none, .low⟩) ∧
  (∀ n, (State.reset.posting.ring n).state = .absent) ∧ State.reset.posting.inProgress = none ∧
  State.reset.posting.lastHigh = none ∧ State.reset.posting.lastNormal = none ∧ State.reset.posting.highRun = 0 ∧
  (∀ n, State.reset.report.ring n =
    { state := .absent, base := 0, size := 0, producer := 0, phase := false, consumer := 0, queue := [], reserved := 0,
      lost := 0, intEnable := false, coalesceCount := 0, coalesceTime := 0, unsignalled := 0, oldest := none, refs := 0 }) ∧
  State.reset.report.hold = [] ∧ State.reset.report.deletedWrites = [] ∧ State.reset.report.intrPending = 0 ∧
  State.reset.intOutput = some false ∧
  State.reset.window.ready = true ∧ State.reset.window.enabled = false ∧ State.reset.window.resetCause = .cold ∧
  State.reset.window.adminFault = none ∧ State.reset.window.doorbellError = none ∧
  State.reset.window.adminPostBase = 0 ∧ State.reset.window.adminReportBase = 0 ∧
  State.reset.window.adminPostSize = 0 ∧ State.reset.window.adminReportSize = 0 ∧
  State.reset.window.intrMask = BitVec.allOnes 9

/-- The state after reset meets every law that the steps keep. -/
def Obligations.ResetMeetsEveryLaw : Prop :=
  State.reset.canonical = true ∧ State.reset.tb.Lawful ∧ State.reset.WindowLaw ∧ State.reset.IdleLaw ∧
    State.reset.store.QueueLaw ∧ State.reset.engine.OrderLaw ∧ State.reset.FiringLaw ∧ State.reset.CapacityLaw ∧
    State.reset.RegionRefLaw ∧ State.reset.RingRefLaw

/-! ### Laws that every step keeps -/

/-- Every step keeps the numbered records and the bytes of memory in canonical form. -/
def Obligations.StepsKeepTheCanonicalForm : Prop :=
  ∀ s t : State, s.canonical = true → step s = .next t → t.canonical = true

/-- Every step keeps the Time Base's values in their ranges, and a switch pending exactly in QUALIFYING. -/
def Obligations.StepsKeepTheTimeBaseInRange : Prop :=
  ∀ s t : State, s.tb.Lawful → step s = .next t → t.tb.Lawful

/-- Every step keeps the law of enabling, READY and resets in progress. -/
def Obligations.StepsKeepTheWindowLaw : Prop :=
  ∀ s t : State, s.WindowLaw → step s = .next t → t.WindowLaw

/-- Every step keeps every block of the main domain in its reset state while the controller is not enabled. -/
def Obligations.StepsKeepDisabledBlocksInReset : Prop :=
  ∀ s t : State, s.IdleLaw → step s = .next t → t.IdleLaw

/-- Every step keeps the expiry queues: an ARMED slot stands once, on the queue of its scale, in order; no other slot stands
on a queue. -/
def Obligations.StepsKeepArmedSlotsOnTheirQueues : Prop :=
  ∀ s t : State, s.store.QueueLaw → step s = .next t → t.store.QueueLaw

/-- Every step keeps at most one begun action for each host word and each line, in the order of dispatch. -/
def Obligations.StepsKeepOneBegunActionPerTarget : Prop :=
  ∀ s t : State, s.engine.OrderLaw → step s = .next t → t.engine.OrderLaw

/-- Every step keeps each FIRING slot with exactly one action in flight or completion return on its way, and no other slot
with one. -/
def Obligations.StepsKeepOneActionPerFiringSlot : Prop :=
  ∀ s t : State, s.engine.OrderLaw → s.FiringLaw → step s = .next t → t.FiringLaw

/-- Every step keeps the report rings within their capacity, the reservations matched to the acknowledgments promised, and
the hold list within 32 entries. -/
def Obligations.StepsKeepReportRingsWithinCapacity : Prop :=
  ∀ s t : State, s.tb.Lawful → s.WindowLaw → s.IdleLaw → s.CapacityLaw → step s = .next t → t.CapacityLaw

/-- Every step keeps each region's reference count equal to the memory actions of ARMED and FIRING slots that name it, and
every referenced region VALID. -/
def Obligations.StepsKeepRegionReferenceCounts : Prop :=
  ∀ s t : State, s.canonical = true → s.RegionRefLaw → step s = .next t → t.RegionRefLaw

/-- Every step keeps each report ring's reference count equal to the posting rings bound to it and the ARMED and FIRING slots
that name it, and no ABSENT ring referenced. -/
def Obligations.StepsKeepReportRingReferenceCounts : Prop :=
  ∀ s t : State, s.canonical = true → s.IdleLaw → s.RingRefLaw → step s = .next t → t.RingRefLaw

/-! ### The Timer Store's requests -/

/-- The four timer requests are answered by the first of the three common checks that fails, and nothing but the
acknowledgment and the end of the record in progress comes of it: no slot, queue, counter or reference changes. Its results
are the timer number as written and the slot's generation, and 0 in every other field. -/
def Obligations.TimerRequestsMeetTheCommonChecksFirst : Prop :=
  ∀ (s : State) (r : IntakeRecord) (w : PostSlot) (op : Opcode) (c : Instr) (bad : Bool),
    (op, c, bad) ∈ [(.arm, .arm, armFormatBad w r.slot2),
      (.cancel, .cancel, !PostSlot.reservedZero w (requestFields .cancel)),
      (.retime, .retime, !PostSlot.reservedZero w (requestFields .retime)),
      (.query, .query, !PostSlot.reservedZero w (requestFields .query))] →
    AtOwner s op r w → firstChecks r.ring bad (PostSlot.u16 w 2) ≠ .ok →
    ∃ t res, exec c s = .next t ∧ Answered r w (firstChecks r.ring bad (PostSlot.u16 w 2)) res s t ∧
      (op = .arm ∨ op = .retime → res = .timerDeadline (PostSlot.u16 w 2) (generationShown s (PostSlot.u16 w 2)) 0) ∧
      (op = .cancel → res = .timerOnly (PostSlot.u16 w 2) (generationShown s (PostSlot.u16 w 2))) ∧
      (op = .query →
        res = .snapshot (PostSlot.u16 w 2) (generationShown s (PostSlot.u16 w 2)) .free .main .pt 0 0) ∧
      OnlyIn [.report, .posting] s t

/-- An ARM is refused with the status of the first check that fails, in the order of R12 and R14; nothing changes but its
acknowledgment, which carries the timer number, the slot's unchanged generation, and the computed deadline with
DEADLINE_PASSED only. -/
def Obligations.ArmIsRefusedByItsFirstFailingCheck : Prop :=
  ∀ (s : State) (r : IntakeRecord) (w : PostSlot), AtOwner s .arm r w → armStatus s r w ≠ .ok →
    let q := ArmRequest.read w r.slot2
    ∃ t, exec .arm s = .next t ∧
      Answered r w (armStatus s r w)
        (.timerDeadline q.timer (generationShown s q.timer)
          (if armStatus s r w = .deadlinePassed then deadlineGiven s q.absolute q.scale q.deadline else 0)) s t ∧
      OnlyIn [.report, .posting] s t

/-- An ARM that passes every check arms its slot, FREE or replaced: a new generation, the deadline computed at the moment it
is taken, every field from the request, a new insertion sequence, a place on the queue of its scale, the references of the
old arming released and those of the new one added. -/
def Obligations.ArmAcceptedArmsTheSlot : Prop :=
  ∀ (s : State) (r : IntakeRecord) (w : PostSlot), AtOwner s .arm r w → armStatus s r w = .ok →
    let q := ArmRequest.read w r.slot2
    let n := q.timer.toNat
    let old := s.store.slot n
    let d := deadlineGiven s q.absolute q.scale q.deadline
    ∃ t, exec .arm s = .next t ∧
      ArmedBy q old.generation d s.store.nextSeq (t.store.slot n) ∧
      OtherSlotsKept n s t ∧ t.store.nextSeq = s.store.nextSeq + 1 ∧ n ∈ t.store.queue q.scale ∧
      (∀ sc m, m ≠ n → (m ∈ t.store.queue sc ↔ m ∈ s.store.queue sc)) ∧ Reoffered t ∧
      (∀ k, t.region k =
        { s.region k with refs := (s.region k).refs - old.namesRegion k + (t.store.slot n).namesRegion k }) ∧
      (∀ k, (t.report.ring k).refs = (s.report.ring k).refs - old.namesRing k + (t.store.slot n).namesRing k) ∧
      AckAdded r.bound (.ack (ackOf r w) .ok (.timerDeadline q.timer (old.generation + 1) d)) s.report t.report ∧
      t.posting = { s.posting with inProgress := none } ∧
      OnlyIn [.store, .disp, .regions, .report, .posting] s t

/-- A CANCEL that passes the common checks is decided by the slot's state and generation: FREE is NOT_ARMED; a generation
that does not match is STALE_GENERATION; a matching ARMED slot goes FREE, off its queue, its references released; a matching
FIRING slot has cancel-requested set and its action goes on. -/
def Obligations.CancelIsDecidedByTheSlot : Prop :=
  ∀ (s : State) (r : IntakeRecord) (w : PostSlot), AtOwner s .cancel r w →
    firstChecks r.ring (!PostSlot.reservedZero w (requestFields .cancel)) (PostSlot.u16 w 2) = .ok →
    let n := (PostSlot.u16 w 2).toNat
    let x := s.store.slot n
    let matching := PostSlot.bit w 1 0 = true ∨ PostSlot.byte w 4 = x.generation
    let res := AckResults.timerOnly (PostSlot.u16 w 2) x.generation
    ∃ t, exec .cancel s = .next t ∧
      (x.state = .free → Answered r w .notArmed res s t ∧ OnlyIn [.report, .posting] s t) ∧
      (x.state ≠ .free → ¬matching → Answered r w .staleGeneration res s t ∧ OnlyIn [.report, .posting] s t) ∧
      (x.state = .firing → matching → Answered r w .cancelledAfterFire res s t ∧
        t.store.slot n = { x with cancelRequested := true } ∧ OtherSlotsKept n s t ∧
        (∀ sc, t.store.queue sc = s.store.queue sc) ∧ t.store.nextSeq = s.store.nextSeq ∧
        OnlyIn [.store, .report, .posting] s t) ∧
      (x.state = .armed → matching →
        t.store.slot n = { x with state := .free, cancelRequested := false, stepped := false } ∧
        OtherSlotsKept n s t ∧ (∀ sc, t.store.queue sc = (s.store.queue sc).filter (fun m => decide (m ≠ n))) ∧
        t.store.nextSeq = s.store.nextSeq ∧
        (∀ k, t.region k = { s.region k with refs := (s.region k).refs - x.namesRegion k }) ∧
        (∀ k, (t.report.ring k).refs = (s.report.ring k).refs - x.namesRing k) ∧
        AckAdded r.bound (.ack (ackOf r w) .ok res) s.report t.report ∧
        t.posting = { s.posting with inProgress := none } ∧ OnlyIn [.store, .regions, .report, .posting] s t)

/-- A RETIME that passes the common checks is refused by the first of its four checks that fails, changing nothing; accepted,
it moves the slot's deadline with a new insertion sequence and clears the stepped mark, and every other field of the arming
keeps its value. -/
def Obligations.RetimeMovesOnlyTheDeadline : Prop :=
  ∀ (s : State) (r : IntakeRecord) (w : PostSlot), AtOwner s .retime r w →
    firstChecks r.ring (!PostSlot.reservedZero w (requestFields .retime)) (PostSlot.u16 w 2) = .ok →
    let n := (PostSlot.u16 w 2).toNat
    let x := s.store.slot n
    let d := deadlineGiven s (PostSlot.bit w 1 1) x.scale (PostSlot.u64 w 8)
    let st := if x.state = .free then Status.notArmed
      else if PostSlot.byte w 4 ≠ x.generation then .staleGeneration
      else if x.state = .firing then .busyFiring
      else if PostSlot.bit w 1 2 = true ∧ d ≤ s.tb.now x.scale then .deadlinePassed
      else .ok
    ∃ t, exec .retime s = .next t ∧
      (st ≠ .ok →
        Answered r w st (.timerDeadline (PostSlot.u16 w 2) x.generation (if st = .deadlinePassed then d else 0)) s t ∧
        OnlyIn [.report, .posting] s t) ∧
      (st = .ok →
        t.store.slot n = { x with deadline := d, seq := s.store.nextSeq, stepped := false } ∧ OtherSlotsKept n s t ∧
        t.store.nextSeq = s.store.nextSeq + 1 ∧ n ∈ t.store.queue x.scale ∧
        (∀ sc m, m ≠ n → (m ∈ t.store.queue sc ↔ m ∈ s.store.queue sc)) ∧ Reoffered t ∧
        Answered r w .ok (.timerDeadline (PostSlot.u16 w 2) x.generation d) s t ∧
        OnlyIn [.store, .disp, .report, .posting] s t)

/-- A QUERY that passes the common checks is answered OK with a snapshot of the slot, its deadline shown only while ARMED,
and changes nothing in the store. -/
def Obligations.QueryShowsTheSlot : Prop :=
  ∀ (s : State) (r : IntakeRecord) (w : PostSlot), AtOwner s .query r w →
    firstChecks r.ring (!PostSlot.reservedZero w (requestFields .query)) (PostSlot.u16 w 2) = .ok →
    let x := s.store.slot (PostSlot.u16 w 2).toNat
    ∃ t, exec .query s = .next t ∧
      Answered r w .ok (.snapshot (PostSlot.u16 w 2) x.generation x.state x.phase x.scale
        (if x.state = .armed then x.deadline else 0) x.fireCount) s t ∧
      OnlyIn [.report, .posting] s t

/-! ### Regions and rest levels -/

/-- SET_REGION and CLEAR_REGION: the first failing check refuses with the region's unchanged fields; an accepted SET_REGION
makes the region VALID with the request's base, length and access and a count of 0; an accepted CLEAR_REGION of a VALID
region makes it INVALID, and of an INVALID one changes nothing. No other region changes. -/
def Obligations.RegionRequestsSetAndClearUnreferencedRegions : Prop :=
  (∀ (s : State) (r : IntakeRecord) (w : PostSlot), AtOwner s .setRegion r w →
    let number := PostSlot.byte w 2
    let n := number.toNat
    let base := PostSlot.u64 w 8
    let length := (PostSlot.u64 w 16).toNat
    let st := if PostSlot.reservedZero w (requestFields .setRegion) = false ∨ PostSlot.byte w 3 ∉ [1, 2, 3] then Status.badFormat
      else if 63 < n ∨ base.toNat % 8 ≠ 0 ∨ length < 8 ∨ 2 ^ 32 < length ∨ length % 8 ≠ 0 ∨ 2 ^ 64 < base.toNat + length then
        .badRegion
      else if (s.region n).refs ≠ 0 then .inUse
      else .ok
    ∃ t acc, exec .setRegion s = .next t ∧ OnlyIn [.regions, .report, .posting] s t ∧
      (∀ k, k ≠ n → t.region k = s.region k) ∧
      (st ≠ .ok → t.regions = s.regions) ∧
      (st = .ok → Access.ofCode (PostSlot.byte w 3) = some acc ∧ t.region n = ⟨true, base, length, acc, 0⟩) ∧
      Answered r w st (if 63 < n then .region number false none 0 0 0
        else .region number (t.region n).valid (some (t.region n).access) (t.region n).refs (t.region n).base
          (t.region n).length) s t) ∧
  (∀ (s : State) (r : IntakeRecord) (w : PostSlot), AtOwner s .clearRegion r w →
    let number := PostSlot.byte w 2
    let n := number.toNat
    let st := if PostSlot.reservedZero w (requestFields .clearRegion) = false then Status.badFormat
      else if 63 < n then .badRegion
      else if (s.region n).valid = true ∧ (s.region n).refs ≠ 0 then .inUse
      else .ok
    ∃ t, exec .clearRegion s = .next t ∧ OnlyIn [.regions, .report, .posting] s t ∧
      (∀ k, k ≠ n → t.region k = s.region k) ∧
      (st ≠ .ok ∨ (s.region n).valid = false → t.regions = s.regions) ∧
      (st = .ok → (s.region n).valid = true → t.region n = ⟨false, 0, 0, .read, 0⟩) ∧
      Answered r w st (if 63 < n then .region number false none 0 0 0
        else .region number (t.region n).valid (some (t.region n).access) (t.region n).refs (t.region n).base
          (t.region n).length) s t)

/-- SET_LINE_REST sets the rest levels of the masked lines, unless a reserved field is not zero or a masked line is HELD or
PULSING; the acknowledgment carries the levels before and after and the states of the lines; no line's state changes. -/
def Obligations.SetLineRestSetsMaskedRestLevels : Prop :=
  ∀ (s : State) (r : IntakeRecord) (w : PostSlot), AtOwner s .setLineRest r w →
    let mask := PostSlot.byte w 2
    let levels := PostSlot.byte w 4
    let busy := ∃ n < 8, mask.getLsbD n = true ∧ (s.line n).state ≠ .rest
    ∃ t st before after states, exec .setLineRest s = .next t ∧ OnlyIn [.lines, .report, .posting] s t ∧
      Answered r w st (.lines before after states) s t ∧
      (∀ n < 8, before.getLsbD n = decide ((s.line n).rest = .high) ∧ after.getLsbD n = decide ((t.line n).rest = .high)) ∧
      states = (List.range 8).map (fun n => (s.line n).state) ∧
      (PostSlot.reservedZero w (requestFields .setLineRest) = false → st = .badFormat) ∧
      (PostSlot.reservedZero w (requestFields .setLineRest) = true → busy → st = .lineBusy) ∧
      (PostSlot.reservedZero w (requestFields .setLineRest) = true → ¬busy → st = .ok) ∧
      (st ≠ .ok → t.lines = s.lines) ∧
      (st = .ok → ∀ n, t.line n =
        { s.line n with rest := if n < 8 ∧ mask.getLsbD n = true then (if levels.getLsbD n = true then .high else .low)
          else (s.line n).rest })

/-! ### The Time Base's requests -/

/-- CONFIGURE_TIMEBASE: refused, it changes nothing; accepted, it sets the divisors it names and then acts on the source choice
by the state found: EXTERNAL begins qualification with the acknowledgment deferred, INTERNAL leaves EXTERNAL at once with a
fresh count and leaves FALLBACK with the count as it is, everything else leaves the source. The count in progress keeps the
divisor in use. -/
def Obligations.ConfigureTimebaseActsByTheSourceState : Prop :=
  ∀ (s : State) (r : IntakeRecord) (w : PostSlot), AtOwner s .configureTimebase r w →
    let choice := PostSlot.byte w 2
    let i := (PostSlot.u32 w 4).toNat
    let e := (PostSlot.u32 w 8).toNat
    let int' := if i = 0 then s.tb.intDivisor else i
    let ext' := if e = 0 then s.tb.extDivisor else e
    let st := if PostSlot.reservedZero w (requestFields .configureTimebase) = false ∨ 2 < choice.toNat ∨ 65536 < i ∨ 65536 < e then
        Status.badFormat
      else if s.tb.source = .qualifying ∧ choice ≠ 0 then .switchPending
      else .ok
    let tb := { s.tb with intDivisor := int', extDivisor := ext' }
    ∃ t, exec .configureTimebase s = .next t ∧
      (st ≠ .ok → Answered r w st (.timebase s.tb.source s.tb.intDivisor s.tb.extDivisor) s t ∧
        OnlyIn [.report, .posting] s t) ∧
      (st = .ok → choice = 2 → s.tb.source = .internal ∨ s.tb.source = .fallback →
        t.tb = { tb with
          source := .qualifying, gapCount := 0,
          pendingSwitch := some ⟨decide (s.tb.source = .fallback), 0, 0, ackOf r w⟩ } ∧
        t.posting = { s.posting with inProgress := none } ∧ OnlyIn [.tb, .posting] s t) ∧
      (st = .ok → choice = 1 → s.tb.source = .external →
        t.tb = { tb with source := .internal, prescaler := 0, divInUse := int' } ∧
        Answered r w .ok (.timebase .internal int' ext') s t ∧ OnlyIn [.tb, .report, .posting] s t) ∧
      (st = .ok → choice = 1 → s.tb.source = .fallback →
        t.tb = { tb with source := .internal } ∧
        Answered r w .ok (.timebase .internal int' ext') s t ∧ OnlyIn [.tb, .report, .posting] s t) ∧
      (st = .ok → choice = 0 ∨ (choice = 1 ∧ s.tb.source = .internal) ∨ (choice = 2 ∧ s.tb.source = .external) →
        t.tb = tb ∧ Answered r w .ok (.timebase s.tb.source int' ext') s t ∧ OnlyIn [.tb, .report, .posting] s t)

/-- SET_TRIM: a value outside -1023 to +1023, or a reserved field that is not zero, is refused with the trim in force; an accepted
one sets the trim and restarts the window, also when it names the trim in force. SET_MARKS sets marks enable to the value, on or
off, and answers with the setting before. READ_TIME answers with a snapshot and changes nothing. -/
def Obligations.SetTrimSetMarksAndReadTimeAnswerAtOnce : Prop :=
  (∀ (s : State) (r : IntakeRecord) (w : PostSlot), AtOwner s .setTrim r w →
    let v := (PostSlot.u32 w 4).toInt
    let st := if PostSlot.reservedZero w (requestFields .setTrim) = false then Status.badFormat
      else if v < -1023 ∨ 1023 < v then .badTrim
      else .ok
    ∃ t, exec .setTrim s = .next t ∧
      (st ≠ .ok → Answered r w st (.trim s.tb.trim s.tb.trim) s t ∧ OnlyIn [.report, .posting] s t) ∧
      (st = .ok → t.tb = { s.tb with trim := v, windowPos := 0 } ∧ Answered r w .ok (.trim s.tb.trim v) s t ∧
        OnlyIn [.tb, .report, .posting] s t)) ∧
  ((∀ (s : State) (r : IntakeRecord) (w : PostSlot), AtOwner s .setMarks r w →
    let ok := PostSlot.reservedZero w (requestFields .setMarks) = true ∧ (PostSlot.byte w 2 = 0 ∨ PostSlot.byte w 2 = 1)
    ∃ t, exec .setMarks s = .next t ∧
      (¬ok → Answered r w .badFormat (.marks s.tb.marks) s t ∧ OnlyIn [.report, .posting] s t) ∧
      (ok → t.tb = { s.tb with marks := decide (PostSlot.byte w 2 = 1) } ∧ Answered r w .ok (.marks s.tb.marks) s t ∧
        OnlyIn [.tb, .report, .posting] s t)) ∧
  (∀ (s : State) (r : IntakeRecord) (w : PostSlot), AtOwner s .readTime r w →
    ∃ t, exec .readTime s = .next t ∧ OnlyIn [.report, .posting] s t ∧
      (PostSlot.reservedZero w (requestFields .readTime) = true →
        Answered r w .ok (.time s.tb.source s.tb.pendingStep.isSome s.tb.pendingSwitch.isSome s.tb.marks s.tb.trim s.tb.mt
          (s.tb.mt + s.tb.offset)) s t) ∧
      (PostSlot.reservedZero w (requestFields .readTime) = false → Answered r w .badFormat .none s t)))

/-- Over one whole trim window MT advances by 2^20 and PT by 2^20 + T, wherever in the window it begins; the adjusted ticks are
those at positions 0, s, 2s and so on, |T| of them. `windowPos` is the position the next tick takes (log entry 11). -/
def Obligations.TrimAdjustsEachWindowByExactlyT : Prop :=
  (∀ (T : Int) (pos : Nat), -1023 ≤ T → T ≤ 1023 → pos < 1048576 →
    (adjustedTick T pos = true ↔ T ≠ 0 ∧ ∃ i < T.natAbs, pos = i * (1048576 / T.natAbs)) ∧
    trimStep T pos = if adjustedTick T pos = true then (if 0 < T then 1 else -1) else 0) ∧
  ∀ t : TimeBase, t.Lawful →
    (TimeBase.advance^[1048576] t).mt = t.mt + 1048576 ∧
      (TimeBase.advance^[1048576] t).pt = t.pt + 1048576 + BitVec.ofInt 64 t.trim ∧
      (TimeBase.advance^[1048576] t).windowPos = t.windowPos

/-- SET_TIME: refused with STEP_PENDING or BAD_FORMAT it changes nothing; accepted, it first ends a pending step unapplied with
its acknowledgment REPLACED; an IMMEDIATE step then moves PT at once, marks and offers the slots it made due, and is
acknowledged with PT before and after; an AT_ALIGN step becomes pending with its expiry, its acknowledgment deferred. -/
def Obligations.SetTimeStepsNowOrAtTheEdge : Prop :=
  ∀ (s : State) (r : IntakeRecord) (w : PostSlot), AtOwner s .setTime r w →
    let mode := PostSlot.byte w 2
    let timing := PostSlot.byte w 3
    let timeout := PostSlot.u32 w 4
    let value := PostSlot.u64 w 8
    let p1 := if mode = 0 then value else s.tb.pt + value
    let st := if PostSlot.reservedZero w (requestFields .setTime) = false ∨ 1 < mode.toNat ∨ 1 < timing.toNat ∨
        (timing = 1 ∧ timeout = 0) then Status.badFormat
      else if s.tb.pendingStep ≠ none ∧ PostSlot.bit w 1 0 = false then .stepPending
      else .ok
    ∃ t mid, exec .setTime s = .next t ∧
      (st ≠ .ok → Answered r w st (.step 0 0) s t ∧ OnlyIn [.report, .posting] s t) ∧
      (st = .ok → timing = 0 → ReplacedAcknowledged s mid ∧
        AckAdded r.bound (.ack (ackOf r w) .ok (.step s.tb.pt p1)) mid t.report ∧ SameRingRefs mid t.report ∧
        t.posting = { s.posting with inProgress := none } ∧ SteppedTo p1 s t ∧
        OnlyIn [.tb, .store, .disp, .report, .posting] s t) ∧
      (st = .ok → timing = 1 → ReplacedAcknowledged s t.report ∧
        t.tb = { s.tb with
          pendingStep := some ⟨if mode = 0 then .absolute else .relative, value, s.tb.mt + timeout.setWidth 64, ackOf r w⟩ } ∧
        t.posting = { s.posting with inProgress := none } ∧ OnlyIn [.tb, .report, .posting] s t)

/-! ### The clock -/

/-- A tick, when the next period of the driving source completes one: MT advances by one, PT with it and the trim, the next
count begins against the configured divisor, and due slots are offered. With nothing pending, no acknowledgment or event
comes of it. While a cold reset is in progress the internal oscillator produces none, so that the first tick comes one internal
divisor of periods after the reset ends. Here and below, a reset about to end ends with the command (`Ended`, log entry 12). -/
def Obligations.TickAdvancesMonotonicTimeByOne : Prop :=
  (∀ s : State, TickIsDue s → ∃ t, exec .tick s = .next t ∧ Ticked s t ∧
    (s.tb.pendingStep = none → s.tb.pendingSwitch = none → OnlySignals s.report t.report ∧ t.tb.source = s.tb.source ∧
      t.tb.pendingStep = none ∧ t.tb.pendingSwitch = none)) ∧
  (∀ s : State, InColdReset s → ¬ResetAboutToEnd s → s.tb.source ≠ .external → exec .tick s = .next s)

/-- Every rising REFCLK edge: in QUALIFYING it adds one to the edge count, up to 1024; in EXTERNAL it advances the prescaler, or
completes a tick; in INTERNAL and FALLBACK it is ignored but for the gap detector's count, which it sets to 0. SOURCE_QUALIFIED,
the edge that brings the edge count to 1024, qualifies the source; the state stays QUALIFYING, and neither MT nor the tick count
changes. That an edge which completes a tick produces it in the same command is the model's choice (log entry 26). A reset
about to end ends with the command (log entry 12). -/
def Obligations.RefclkEdgesCountByTheSourceState : Prop :=
  (∀ s : State, s.inputs.mainSupply = true →
    ∃ t, exec .refclkEdge s = .next t ∧
      (s.tb.source = .internal ∨ s.tb.source = .fallback → t.tb = { s.tb with gapCount := 0 } ∧ OnlyIn [.tb] (Ended s) t) ∧
      (s.tb.source = .qualifying →
        t.tb = { s.tb with
          gapCount := 0,
          pendingSwitch := s.tb.pendingSwitch.map (fun p => { p with edges := if p.edges < 1024 then p.edges + 1 else 1024 }) } ∧
        OnlyIn [.tb] (Ended s) t) ∧
      (s.tb.source = .external → s.tb.prescaler + 1 < s.tb.divInUse →
        t.tb = { s.tb with gapCount := 0, prescaler := s.tb.prescaler + 1 } ∧ OnlyIn [.tb] (Ended s) t) ∧
      (s.tb.source = .external → s.tb.divInUse ≤ s.tb.prescaler + 1 → Ticked s t ∧ t.tb.gapCount = 0)) ∧
  (∀ (s : State) (p : PendingSwitch), s.inputs.mainSupply = true → s.tb.source = .qualifying →
    s.tb.pendingSwitch = some p → p.edges = 1023 →
    ∃ t, exec .sourceQualified s = .next t ∧ OnlyIn [.tb] (Ended s) t ∧
      t.tb = { s.tb with gapCount := 0, pendingSwitch := some { p with edges := 1024 } })

/-- The tick after qualification makes the switch, and the 65,536th tick without qualification ends it: SOURCE_SWITCH leaves
EXTERNAL with a fresh count against the external divisor and the deferred acknowledgment OK; QUALIFICATION_TIMEOUT leaves the
return state and SOURCE_NOT_READY. That both commands are the whole tick is the model's reading (log entry 4). A period that
also completes a gap (log entry 6) and a tick at which a pending step expires too (log entry 5) are not spoken of here. -/
def Obligations.SwitchIsMadeOrTimesOutAtATick : Prop :=
  ∀ (s : State) (p : PendingSwitch), TickIsDue s → StepWaits s → s.tb.source = .qualifying → s.tb.gapCount ≠ 63 →
    s.tb.pendingSwitch = some p →
    (p.edges = 1024 → ∃ t, exec .sourceSwitch s = .next t ∧ Ticked s t ∧ t.tb.source = .external ∧
      t.tb.pendingSwitch = none ∧ t.tb.divInUse = s.tb.extDivisor ∧
      AckAddedAtTick p.ack.bound (.ack p.ack .ok (.timebase .external s.tb.intDivisor s.tb.extDivisor)) s.report t.report) ∧
    (p.edges < 1024 → p.ticks = 65535 → ∃ t, exec .qualificationTimeout s = .next t ∧ Ticked s t ∧
      t.tb.source = (if p.toFallback then .fallback else .internal) ∧ t.tb.pendingSwitch = none ∧
      AckAddedAtTick p.ack.bound
        (.ack p.ack .sourceNotReady (.timebase t.tb.source s.tb.intDivisor s.tb.extDivisor)) s.report t.report)

/-- REFCLK_GAP, the 64th internal period without an edge: in EXTERNAL the Time Base falls back at once, with a fresh count
against the internal divisor, MT, OFFSET and the window position unchanged, and SOURCE_LOST goes to report ring 0; in
QUALIFYING the edge count returns to 0 and the tick count stays. In QUALIFYING the same internal period advances the prescaler,
or completes a tick, which the command takes after the gap (log entry 6). A reset about to end ends with the command (log
entry 12). -/
def Obligations.GapFallsBackOrRestartsQualification : Prop :=
  ∀ s : State, OscillatorCounts s → s.tb.gapCount = 63 →
    (s.tb.source = .external → ∃ t, exec .refclkGap s = .next t ∧
      t.tb = { s.tb with gapCount := 64, source := .fallback, prescaler := 0, divInUse := s.tb.intDivisor } ∧
      Arrived 0 (.event (.sourceLost s.tb.mt s.tb.pt)) s.report t.report ∧ OnlyIn [.tb, .report] (Ended s) t) ∧
    (s.tb.source = .qualifying → s.tb.prescaler + 1 < s.tb.divInUse → ∃ t, exec .refclkGap s = .next t ∧
      t.tb = { s.tb with
        gapCount := 64, prescaler := s.tb.prescaler + 1,
        pendingSwitch := s.tb.pendingSwitch.map (fun p => { p with edges := 0 }) } ∧ OnlyIn [.tb] (Ended s) t) ∧
    (∀ p, s.tb.source = .qualifying → s.tb.divInUse ≤ s.tb.prescaler + 1 → StepWaits s →
      s.tb.pendingSwitch = some p → p.ticks + 1 < 65536 → ∃ t, exec .refclkGap s = .next t ∧ Ticked s t ∧
        t.tb.gapCount = 64 ∧ t.tb.source = .qualifying ∧
        t.tb.pendingSwitch = some { p with edges := 0, ticks := p.ticks + 1 } ∧ OnlySignals s.report t.report)

/-- ALIGN_EDGE: a rising ALIGN edge applies a pending step, hands in its deferred acknowledgment, and then, while marks are
enabled, hands a TIME_MARK with the PT after the step to report ring 0; with no step pending only the mark; with marks off and
nothing pending nothing at all. That a reset about to end ends with the command is the model's reading (log entry 12). -/
def Obligations.AlignEdgeAppliesTheStepThenMarks : Prop :=
  ∀ s : State, s.inputs.mainSupply = true → ∃ t, exec .alignEdge s = .next t ∧
    (s.tb.pendingStep = none → s.tb.marks = false → t = Ended s) ∧
    (s.tb.pendingStep = none → s.tb.marks = true →
      Arrived 0 (.event (.timeMark false s.tb.mt s.tb.pt)) s.report t.report ∧ OnlyIn [.report] (Ended s) t) ∧
    (∀ p, s.tb.pendingStep = some p →
      let p1 := match p.mode with
        | .absolute => p.value
        | .relative => s.tb.pt + p.value
      SteppedTo p1 s t ∧ OnlyIn [.tb, .store, .disp, .report] (Ended s) t ∧
      ∃ mid, AckAdded p.ack.bound (.ack p.ack .ok (.step s.tb.pt p1)) s.report mid ∧ SameRingRefs s.report mid ∧
        (s.tb.marks = true → Arrived 0 (.event (.timeMark true s.tb.mt p1)) mid t.report) ∧
        (s.tb.marks = false → t.report = mid))

/-- ALIGN_TIMEOUT: at the tick that brings MT to its expiry MT the pending step is removed unapplied, and its acknowledgment
ALIGN_TIMEOUT carries the PT at that tick twice. That the command is the whole tick is the model's reading (log entry 4). A tick
at which a pending switch is decided too (log entry 5) is not spoken of here. -/
def Obligations.PendingStepTimesOutAtItsExpiry : Prop :=
  ∀ (s : State) (p : PendingStep), TickIsDue s → SwitchWaits s → s.tb.pendingStep = some p → p.expiry = s.tb.mt + 1 →
    ∃ t, exec .alignTimeout s = .next t ∧ Ticked s t ∧ t.tb.pendingStep = none ∧
      AckAddedAtTick p.ack.bound (.ack p.ack .alignTimeout (.step t.tb.pt t.tb.pt)) s.report t.report

/-- PULSE_END: at the tick that brings MT to a PULSING line's pulse end the line becomes REST with no pulse end, its rest level
kept; other lines change only if their own pulse ends at that tick. COALESCE_TIME_EXPIRY: at the tick at which Tc ticks have
passed since the oldest unsignalled record, the ring's pending bit is raised and its count cleared; a ring whose time is not
reached keeps its count, and its bit as it was. That each command is the whole tick is the model's reading (log entry 4), and so
is a FAULTED ring's part in it (log entry 30). A coalesce time that expires with a step or switch pending is not spoken of
here. -/
def Obligations.PulsesAndCoalesceTimesEndAtTheirTick : Prop :=
  (∀ (s : State) (n : Nat), n < 8 → TickIsDue s → (s.line n).state = .pulsing →
    (s.line n).pulseEnd = some (s.tb.mt + 1) →
    ∃ t, exec (.pulseEnd n) s = .next t ∧ Ticked s t ∧ t.line n = ⟨.rest, none, (s.line n).rest⟩) ∧
  (∀ (s : State) (n : Nat), n < 9 → TickIsDue s → s.tb.pendingStep = none → s.tb.pendingSwitch = none →
    let reached := fun (k : Nat) => k < 9 ∧ (s.report.ring k).intEnable = true ∧ (s.report.ring k).coalesceTime ≠ 0 ∧
      0 < (s.report.ring k).unsignalled ∧
      ∃ o, (s.report.ring k).oldest = some o ∧ (s.report.ring k).coalesceTime ≤ (s.tb.mt + 1 - o).toNat
    reached n →
    ∃ t, exec (.coalesceTimeExpiry n) s = .next t ∧ Ticked s t ∧
      (∀ k, reached k → t.report.ring k = { s.report.ring k with unsignalled := 0, oldest := none } ∧
        t.report.intrPending.getLsbD k = true) ∧
      (∀ k, ¬reached k → t.report.ring k = s.report.ring k ∧
        t.report.intrPending.getLsbD k = s.report.intrPending.getLsbD k) ∧
      t.report.hold = s.report.hold ∧ t.report.deletedWrites = s.report.deletedWrites)

/-! ### Ring requests -/

/-- CREATE_POST_RING: the first failing check refuses and changes nothing; accepted, the ring is ACTIVE with the request's base,
size, class and binding, head and tail 0, head need 1, and its report ring has one reference more. That the acknowledgment of a request refused
for a ring from 1 to 8 that is ABSENT carries head 0 and tail 0 is the model's choice (log entry 25). -/
def Obligations.CreatePostRingMakesTheRingActive : Prop :=
  ∀ (s : State) (r : IntakeRecord) (w : PostSlot), AtOwner s .createPostRing r w →
    let number := PostSlot.byte w 2
    let n := number.toNat
    let b := (PostSlot.byte w 4).toNat
    let base := PostSlot.u64 w 8
    let size := (PostSlot.u32 w 16).toNat
    let cls := if PostSlot.byte w 3 = 1 then RingClass.high else .normal
    let st := if PostSlot.reservedZero w (requestFields .createPostRing) = false ∨ PostSlot.byte w 3 ∉ [1, 2] then Status.badFormat
      else if n < 1 ∨ 8 < n ∨ base.toNat % 64 ≠ 0 ∨ size < 4 ∨ 4096 < size ∨ 2 ^ 64 < base.toNat + 64 * size ∨ b < 1 ∨ 8 < b then
        .badRingParams
      else if (s.posting.ring n).state ≠ .absent then .ringExists
      else if (s.report.ring b).state = .absent ∨ (s.report.ring b).state = .faulted then .noRing
      else .ok
    ∃ t, exec .createPostRing s = .next t ∧ OnlyIn [.report, .posting] s t ∧ t.posting.inProgress = none ∧
      t.posting.lastHigh = s.posting.lastHigh ∧ t.posting.lastNormal = s.posting.lastNormal ∧
      t.posting.highRun = s.posting.highRun ∧
      (∀ k, t.posting.ring k = if st = .ok ∧ k = n then ⟨.active, base, size, 0, 0, 1, cls, b⟩ else s.posting.ring k) ∧
      (∀ k, (t.report.ring k).refs = (s.report.ring k).refs + (if st = .ok ∧ k = b then 1 else 0)) ∧
      AckAdded r.bound (.ack (ackOf r w) st
        (if n < 1 ∨ 8 < n ∨ (t.posting.ring n).state = .absent then .postRing number .absent 0 0 0
        else .postRing number (t.posting.ring n).state (t.posting.ring n).head (t.posting.ring n).tail 0)) s.report t.report

/-- DELETE_POST_RING discards the slots present, makes the ring ABSENT and releases its report ring, answering with the ring's
state, head and tail at the deletion; RESUME_POST_RING makes a STALLED ring ACTIVE with head need 1, its other fields kept.
Both refuse by their first failing check and then change nothing. That the acknowledgment of a request refused for a ring from 1
to 8 that is ABSENT carries head 0 and tail 0 is the model's choice (log entry 25). -/
def Obligations.PostRingsAreDeletedAndResumed : Prop :=
  (∀ (s : State) (r : IntakeRecord) (w : PostSlot), AtOwner s .deletePostRing r w →
    let number := PostSlot.byte w 2
    let n := number.toNat
    let x := s.posting.ring n
    let st := if PostSlot.reservedZero w (requestFields .deletePostRing) = false then Status.badFormat
      else if n < 1 ∨ 8 < n then .badRingParams
      else if x.state = .absent then .noRing
      else .ok
    ∃ t, exec .deletePostRing s = .next t ∧ OnlyIn [.report, .posting] s t ∧ t.posting.inProgress = none ∧
      t.posting.lastHigh = s.posting.lastHigh ∧ t.posting.lastNormal = s.posting.lastNormal ∧
      t.posting.highRun = s.posting.highRun ∧
      (∀ k, k ≠ n ∨ st ≠ .ok → t.posting.ring k = s.posting.ring k) ∧
      (st = .ok → (t.posting.ring n).state = .absent) ∧
      (∀ k, (t.report.ring k).refs = (s.report.ring k).refs - (if st = .ok ∧ k = x.bound then 1 else 0)) ∧
      AckAdded r.bound (.ack (ackOf r w) st
        (if n < 1 ∨ 8 < n ∨ x.state = .absent then .postRing number .absent 0 0 0
        else .postRing number x.state x.head x.tail (if st = .ok then (x.tail + x.size - x.head) % x.size else 0)))
        s.report t.report) ∧
  (∀ (s : State) (r : IntakeRecord) (w : PostSlot), AtOwner s .resumePostRing r w →
    let number := PostSlot.byte w 2
    let n := number.toNat
    let x := s.posting.ring n
    let st := if PostSlot.reservedZero w (requestFields .resumePostRing) = false then Status.badFormat
      else if n < 1 ∨ 8 < n then .badRingParams
      else if x.state = .absent then .noRing
      else if x.state = .active then .notStalled
      else .ok
    ∃ t, exec .resumePostRing s = .next t ∧ OnlyIn [.report, .posting] s t ∧ t.posting.inProgress = none ∧
      t.posting.lastHigh = s.posting.lastHigh ∧ t.posting.lastNormal = s.posting.lastNormal ∧
      t.posting.highRun = s.posting.highRun ∧
      (∀ k, t.posting.ring k = if st = .ok ∧ k = n then { x with state := .active, headNeed := 1 } else s.posting.ring k) ∧
      SameRingRefs s.report t.report ∧
      AckAdded r.bound (.ack (ackOf r w) st
        (if n < 1 ∨ 8 < n ∨ (t.posting.ring n).state = .absent then .postRing number .absent 0 0 0
        else .postRing number (t.posting.ring n).state x.head x.tail 0)) s.report t.report)

/-- CREATE_REPORT_RING: the first failing check refuses and changes nothing; accepted, the ring is ACTIVE with the request's
base, size and interrupt settings, phase 1 and every count 0. `mid` is the Report Unit before the acknowledgment. -/
def Obligations.CreateReportRingMakesTheRingActive : Prop :=
  ∀ (s : State) (r : IntakeRecord) (w : PostSlot), AtOwner s .createReportRing r w →
    let number := PostSlot.byte w 2
    let n := number.toNat
    let base := PostSlot.u64 w 8
    let size := (PostSlot.u32 w 16).toNat
    let count := (PostSlot.byte w 4).toNat
    let time := (PostSlot.u32 w 20).toNat
    let st := if PostSlot.reservedZero w (requestFields .createReportRing) = false ∨ PostSlot.byte w 3 ∉ [0, 1] then Status.badFormat
      else if n < 1 ∨ 8 < n ∨ base.toNat % 32 ≠ 0 ∨ size < 4 ∨ 4096 < size ∨ 2 ^ 64 < base.toNat + 32 * size ∨ count < 1 ∨
          64 < count ∨ 2 ^ 24 < time then .badRingParams
      else if (s.report.ring n).state ≠ .absent then .ringExists
      else .ok
    ∃ t mid, exec .createReportRing s = .next t ∧ OnlyIn [.report, .posting] s t ∧
      t.posting = { s.posting with inProgress := none } ∧ (st ≠ .ok → mid = s.report) ∧
      (st = .ok → mid.hold = s.report.hold ∧ RingBecomes n
        { state := .active, base := base, size := size, producer := 0, phase := true, consumer := 0, queue := [],
          reserved := 0, lost := 0, intEnable := decide (PostSlot.byte w 3 = 1), coalesceCount := count,
          coalesceTime := time, unsignalled := 0, oldest := none, refs := 0 } s.report mid) ∧
      AckAdded r.bound (.ack (ackOf r w) st
        (if n < 1 ∨ 8 < n then .reportRing number .absent 0 0 0 0 0
        else .reportRing number (mid.ring n).state (mid.ring n).producer (mid.ring n).consumer (mid.ring n).refs 0 0))
        mid t.report ∧ SameRingRefs mid t.report

/-- DELETE_REPORT_RING: refused while the ring is referenced, and by the other checks in their order, changing nothing; accepted,
the ring's held entries and the records whose writes are not issued are discarded and counted, the ring is ABSENT (its other
fields 0: log entry 25), its write in flight stays outstanding, and no pending bit changes. -/
def Obligations.DeleteReportRingDiscardsWhatIsNotIssued : Prop :=
  ∀ (s : State) (r : IntakeRecord) (w : PostSlot), AtOwner s .deleteReportRing r w →
    let number := PostSlot.byte w 2
    let n := number.toNat
    let x := s.report.ring n
    let st := if PostSlot.reservedZero w (requestFields .deleteReportRing) = false then Status.badFormat
      else if n < 1 ∨ 8 < n then .badRingParams
      else if x.state = .absent then .noRing
      else if x.refs ≠ 0 then .inUse
      else .ok
    ∃ t mid, exec .deleteReportRing s = .next t ∧ OnlyIn [.report, .posting] s t ∧
      t.posting = { s.posting with inProgress := none } ∧ (st ≠ .ok → mid = s.report) ∧
      (st = .ok →
        (∀ k, mid.ring k = if k = n then ReportRing.reset else s.report.ring k) ∧
        mid.hold = s.report.hold.filter (fun e => decide (e.ring ≠ n)) ∧ mid.intrPending = s.report.intrPending ∧
        (x.queue = [] → mid.deletedWrites = s.report.deletedWrites) ∧
        (∀ y ys, x.queue = y :: ys → mid.deletedWrites = s.report.deletedWrites ++
          [⟨x.base + BitVec.ofNat 64 (32 * x.producer), 32, Report.encode x.phase y⟩])) ∧
      AckAdded r.bound (.ack (ackOf r w) st
        (if n < 1 ∨ 8 < n then .reportRing number .absent 0 0 0 0 0
        else .reportRing number x.state x.producer x.consumer x.refs x.lost
          (if st = .ok then (s.report.hold.filter (fun e => decide (e.ring = n))).length + (x.queue.length - 1) else 0)))
        mid t.report ∧ SameRingRefs mid t.report

/-! ### The intake -/

/-- INTAKE_CHOICE: with no record in progress, the arbiter takes the ring that the order of ring 0, HIGH and NORMAL and the
eight-take rule give, with one reservation in its bound report ring, and its first slot's read is issued; with no ring eligible
nothing changes, but that a reset about to end ends (log entry 12). -/
def Obligations.IntakeChoiceTakesTheRingFirstInOrder : Prop :=
  ∀ s : State, s.posting.inProgress = none → ∃ t, exec .intakeChoice s = .next t ∧
    (∀ n, ArbiterTakes s n → ∃ rec, t.posting = { s.posting with inProgress := some rec } ∧
      rec.ring = n ∧ rec.bound = (s.posting.ring n).bound ∧ rec.first = (s.posting.ring n).head ∧ rec.stage = .fetching ∧
      rec.slot1 = none ∧ rec.slot2 = none ∧ (rec.normalEligible = true ↔ NormalEligible s) ∧
      RingBecomes rec.bound
        { s.report.ring rec.bound with reserved := (s.report.ring rec.bound).reserved + 1 } s.report t.report ∧
      t.report.hold = s.report.hold ∧ OnlyIn [.posting, .report] s t) ∧
    ((∀ n ≤ 8, ¬RingEligible s n) → t = Ended s)

/-- INTAKE_READ_ANSWER, the last read of a record answered OK: the head advances past the record, the head need returns to 1 and
the arbiter's positions follow; a record that passes the intake's checks goes to its owner with its contents, and one that
fails is answered with the status of the first failing check and no results. A two-slot record whose second slot is present
waits for that slot's read. -/
def Obligations.IntakeAdvancesTheHeadAndRoutes : Prop :=
  ∀ (s : State) (r : IntakeRecord) (w : PostSlot), s.posting.inProgress = some r → r.stage = .fetching →
    let p := s.posting.ring r.ring
    let two := PostSlot.byte w 0 = 0x01 ∧ PostSlot.bit w 1 4 = true
    let last := fun (answer : SlotRead) (second : Option PostSlot) (len : Nat) =>
      let head := (p.head + len) % p.size
      ∃ t, exec (.intakeReadAnswer answer) s = .next t ∧
        (∀ k, t.posting.ring k = if k = r.ring then { p with head := head, headNeed := 1 } else s.posting.ring k) ∧
        PositionsFollow r.ring r.normalEligible s.posting t.posting ∧
        (intakeStatus r.ring w second = .ok → OnlyIn [.posting] s t ∧ ∃ rec, t.posting.inProgress = some rec ∧
          rec.stage = .atOwner ∧ rec.ring = r.ring ∧ rec.bound = r.bound ∧ rec.first = r.first ∧ rec.newHead = head ∧
          rec.slot1 = some w ∧ rec.slot2 = second ∧ rec.length = some len) ∧
        (intakeStatus r.ring w second ≠ .ok → OnlyIn [.posting, .report] s t ∧ t.posting.inProgress = none ∧
          SameRingRefs s.report t.report ∧
          AckAdded r.bound (.ack ⟨r.ring, r.bound, PostSlot.byte w 0, r.first, head⟩ (intakeStatus r.ring w second) .none)
            s.report t.report)
    (r.slot1 = none → ¬two → last (.ok w) none 1) ∧
    (∀ w2, r.slot1 = some w → last (.ok w2) (some w2) 2) ∧
    (r.slot1 = none → two → 2 ≤ (p.tail + p.size - p.head) % p.size →
      exec (.intakeReadAnswer (.ok w)) s =
        .next (s.setPosting { s.posting with inProgress := some { r with length := some 2, slot1 := some w } }))

/-- INTAKE_READ_ANSWER, an ERROR: the ring is STALLED with its head as it was, a FETCH_ERROR acknowledgment without results uses
the reservation, and on ring 0 the administration fault is set, unless one is set already. -/
def Obligations.FetchErrorStallsTheRing : Prop :=
  ∀ (s : State) (r : IntakeRecord), s.posting.inProgress = some r → r.stage = .fetching →
    let p := s.posting.ring r.ring
    let opcode := match r.slot1 with
      | some w => PostSlot.byte w 0
      | none => 0
    ∃ t, exec (.intakeReadAnswer .error) s = .next t ∧ OnlyIn [.posting, .report, .window] s t ∧
      (∀ k, t.posting.ring k = if k = r.ring then { p with state := .stalled } else s.posting.ring k) ∧
      PositionsFollow r.ring r.normalEligible s.posting t.posting ∧ t.posting.inProgress = none ∧
      AckAdded r.bound (.ack ⟨r.ring, r.bound, opcode, p.head, p.head⟩ .fetchError .none) s.report t.report ∧
      SameRingRefs s.report t.report ∧
      t.window = (if r.ring = 0 ∧ s.window.adminFault = none then { s.window with adminFault := some .postRingFetch }
        else s.window)

/-- INTAKE_READ_ANSWER, the first slot of a two-slot record whose second slot is not present: the take is withdrawn, the head
need becomes 2, the head and the arbiter's positions stay, and the reservation is handed back, with the return of space. So too
where no slot at all is present any more (log entry 29). -/
def Obligations.TwoSlotRecordWithOneSlotIsWithdrawn : Prop :=
  ∀ (s : State) (r : IntakeRecord) (w : PostSlot), s.posting.inProgress = some r → r.stage = .fetching →
    r.slot1 = none → PostSlot.byte w 0 = 0x01 → PostSlot.bit w 1 4 = true →
    let p := s.posting.ring r.ring
    let x := s.report.ring r.bound
    (p.tail + p.size - p.head) % p.size < 2 →
    ∃ t mid, exec (.intakeReadAnswer (.ok w)) s = .next t ∧ OnlyIn [.posting, .report] s t ∧
      (∀ k, t.posting.ring k = if k = r.ring then { p with headNeed := 2 } else s.posting.ring k) ∧
      t.posting.inProgress = none ∧ t.posting.lastHigh = s.posting.lastHigh ∧
      t.posting.lastNormal = s.posting.lastNormal ∧ t.posting.highRun = s.posting.highRun ∧
      RingBecomes r.bound { x with reserved := x.reserved - 1 } s.report mid ∧ mid.hold = s.report.hold ∧
      (x.state = .active ∨ x.state = .lossy → SpaceReturned r.bound s.tb.mt mid t.report) ∧
      (x.state = .absent ∨ x.state = .faulted → t.report = mid)

/-! ### Doorbells -/

/-- A tail doorbell sets the tail of an ACTIVE or STALLED ring to a value below its size, whatever the tail was, and leaves the
head and the head need; any other is ignored with a doorbell error. -/
def Obligations.TailDoorbellSetsTheTailOrIsRefused : Prop :=
  ∀ (s : State) (ring : BitVec 4) (value : BitVec 16), ring.toNat ≤ 8 → s.window.ready = true → s.window.enabled = true →
    let p := s.posting.ring ring.toNat
    ∃ t, exec (.postingTailDoorbell ring value) s = .next t ∧
      (p.state ≠ .absent → value.toNat < p.size → OnlyIn [.posting] s t ∧
        (∀ k, t.posting.ring k = if k = ring.toNat then { p with tail := value.toNat } else s.posting.ring k) ∧
        t.posting = { s.posting with rings := t.posting.rings }) ∧
      (p.state = .absent ∨ p.size ≤ value.toNat → OnlyIn [.window] s t ∧ ErrorRecorded ring 0 s t)

/-- A consumer doorbell releases the records up to its value when the value lies in the span from the consumer to the producer,
with the return of space where the ring is ACTIVE or LOSSY and records are released; any other is refused with a doorbell
error. -/
def Obligations.ConsumerDoorbellReleasesWrittenRecords : Prop :=
  ∀ (s : State) (ring : BitVec 4) (value : BitVec 16), ring.toNat ≤ 8 → s.window.ready = true → s.window.enabled = true →
    let n := ring.toNat
    let x := s.report.ring n
    let v := value.toNat
    let released := (v + x.size - x.consumer) % x.size
    let accepted := x.state ≠ .absent ∧ v < x.size ∧ released ≤ (x.producer + x.size - x.consumer) % x.size
    ∃ t mid, exec (.reportConsumerDoorbell ring value) s = .next t ∧
      (accepted → OnlyIn [.report] s t ∧ RingBecomes n { x with consumer := v } s.report mid ∧
        mid.hold = s.report.hold ∧
        (released ≠ 0 → x.state = .active ∨ x.state = .lossy → SpaceReturned n s.tb.mt mid t.report) ∧
        (released = 0 ∨ x.state = .faulted → t.report = mid)) ∧
      (¬accepted → OnlyIn [.window] s t ∧ ErrorRecorded ring 1 s t)

/-- A doorbell that names no ring or no kind is recorded as a doorbell error with the ring and kind as written; the clearing
write to STATUS clears the record. While READY is 0 or the controller is not enabled, no doorbell has an effect; a reset
about to end ends first (log entry 12, the statement on its end). -/
def Obligations.DoorbellsNamingNothingAreRecorded : Prop :=
  (∀ (s : State) (ring : BitVec 4) (kind : BitVec 2) (value : BitVec 16), 8 < ring.toNat ∨ 1 < kind.toNat →
    s.window.ready = true → s.window.enabled = true →
    ∃ t, exec (.doorbellNoRing ring kind value) s = .next t ∧ OnlyIn [.window] s t ∧ ErrorRecorded ring kind s t) ∧
  (∀ (s : State) (value : U64), value.getLsbD 16 = true → s.window.ready = true →
    ∃ t, exec (.doorbellErrorClear value) s = .next t ∧ OnlyIn [.window] s t ∧
      t.window = { s.window with doorbellError := none }) ∧
  (∀ (s : State) (ring : BitVec 4) (kind : BitVec 2) (value : BitVec 16), s.window.ready = false ∨ s.window.enabled = false →
    ¬ResetAboutToEnd s → exec (.postingTailDoorbell ring value) s = .next s ∧ exec (.reportConsumerDoorbell ring value) s = .next s ∧
      exec (.doorbellNoRing ring kind value) s = .next s)

/-! ### The register window -/

/-- ENABLE, out of reset and not enabled: when the administration ring registers pass the checks, the controller is enabled and
posting ring 0 and report ring 0 become ACTIVE in the same step with the bases and sizes held, and a fault ENABLE_REFUSED is
cleared; when a check fails, the administration fault is set and nothing else changes. In every state with the controller
enabled, and while READY is 0, it has no effect; a reset about to end ends first (log entry 12, the statement on its end). -/
def Obligations.EnableMakesTheAdministrationRings : Prop :=
  (∀ s : State, ¬ResetAboutToEnd s → s.window.enabled = true ∨ s.window.ready = false → exec .enable s = .next s) ∧
  ∀ s : State, s.window.ready = true → s.window.enabled = false →
    let w := s.window
    let passes := w.adminPostBase.toNat % 64 = 0 ∧ w.adminPostBase.toNat + 64 * w.adminPostSize.toNat ≤ 2 ^ 64 ∧
      w.adminReportBase.toNat % 32 = 0 ∧ w.adminReportBase.toNat + 32 * w.adminReportSize.toNat ≤ 2 ^ 64 ∧
      4 ≤ w.adminPostSize.toNat ∧ w.adminPostSize.toNat ≤ 256 ∧ 4 ≤ w.adminReportSize.toNat ∧ w.adminReportSize.toNat ≤ 256
    ∃ t, exec .enable s = .next t ∧
      (passes → OnlyIn [.posting, .report, .window] s t ∧
        t.window = { w with enabled := true,
                            adminFault := if w.adminFault = some .enableRefused then none else w.adminFault } ∧
        (∀ k, t.posting.ring k =
          if k = 0 then ⟨.active, w.adminPostBase, w.adminPostSize.toNat, 0, 0, 1, .administration, 0⟩
          else s.posting.ring k) ∧
        t.posting = { s.posting with rings := t.posting.rings } ∧ t.report.hold = s.report.hold ∧
        RingBecomes 0
          { state := .active, base := w.adminReportBase, size := w.adminReportSize.toNat, producer := 0, phase := true,
            consumer := 0, queue := [], reserved := 0, lost := 0, intEnable := true, coalesceCount := 1, coalesceTime := 0,
            unsignalled := 0, oldest := none, refs := 1 } s.report t.report ∧
        exec .enable t = .next t) ∧
      (¬passes → OnlyIn [.window] s t ∧
        t.window = { w with adminFault := if w.adminFault = none then some .enableRefused else w.adminFault })

/-- The administration ring registers hold any value written while READY is 1 and the controller is not enabled; a write while
enabled, or while READY is 0, is ignored. A write to INTR_PENDING while READY is 1 clears each pending bit written 1 and leaves
each written 0; one to INTR_MASK sets all nine mask bits. INT is asserted exactly while a pending bit is set whose mask bit is 0.
While READY is 0 no write has an effect; a reset about to end ends first (log entry 12, the statement on its end). -/
def Obligations.AdminAndInterruptRegistersTakeTheirWrites : Prop :=
  (∀ (s : State) (v : U64), ∃ a b c,
    exec (.adminPostBaseWrite v) s = .next a ∧ exec (.adminReportBaseWrite v) s = .next b ∧
      exec (.adminSizesWrite v) s = .next c ∧
      OnlyIn [.window] s a ∧ OnlyIn [.window] s b ∧ OnlyIn [.window] s c ∧
      (s.window.ready = true → s.window.enabled = false →
        a.window = { s.window with adminPostBase := v } ∧ b.window = { s.window with adminReportBase := v } ∧
          c.window = { s.window with adminPostSize := c.window.adminPostSize, adminReportSize := c.window.adminReportSize } ∧
          c.window.adminPostSize.toNat = v.toNat % 2 ^ 16 ∧ c.window.adminReportSize.toNat = v.toNat / 2 ^ 32 % 2 ^ 16) ∧
      (¬ResetAboutToEnd s → s.window.ready = false ∨ s.window.enabled = true → a = s ∧ b = s ∧ c = s)) ∧
  (∀ (s : State) (v : U64), ∃ a b,
    exec (.intrPendingClear v) s = .next a ∧ exec (.intrMaskWrite v) s = .next b ∧ OnlyIn [.report] (Ended s) a ∧
      OnlyIn [.window] s b ∧
      (s.window.ready = true →
        (∀ n < 9, a.report.intrPending.getLsbD n = (s.report.intrPending.getLsbD n && !v.getLsbD n)) ∧
        a.report = { s.report with intrPending := a.report.intrPending } ∧
        (∀ n < 9, b.window.intrMask.getLsbD n = v.getLsbD n) ∧
        b.window = { s.window with intrMask := b.window.intrMask }) ∧
      (s.window.ready = false → ¬ResetAboutToEnd s → a = s ∧ b = s) ∧
      (s.inputs.mainSupply = true →
        (s.intOutput = some true ↔ ∃ n < 9, s.report.intrPending.getLsbD n = true ∧ s.window.intrMask.getLsbD n = false)))

/-- Every other write to the window is ignored: of a size other than 8 bytes, to IDENT, past the registers, and, by the model's
reading, at an offset within a register (log entry 16). Every read is answered while the main supply is present, by the
addressed bytes of one register, bit for bit as the register layout gives it, or by 0, and by nothing while the supply is
absent. A read changes nothing, being no command (log entry 21). A reset about to end ends with the ignored write (log
entry 12). -/
def Obligations.OtherWindowAccessesChangeNothing : Prop :=
  (∀ (s : State) (o : BitVec 7) (size : Nat) (v : U64), exec (.registerWriteOther o size v) s = .next (Ended s)) ∧
  (∀ (o : BitVec 7) (size : Nat) (v : U64), size ≠ 8 ∨ o = 0 ∨ 0x48 ≤ o.toNat ∨ o.toNat % 8 ≠ 0 →
    decodeWindowWrite o size v = .registerWriteOther o size v) ∧
  ∀ (s : State) (offset size : Nat),
    (s.inputs.mainSupply = false → s.readRegister offset size = none) ∧
    (s.inputs.mainSupply = true → s.readRegister offset size = some (BitVec.ofNat 64
      (if size ∈ [1, 2, 4, 8] ∧ offset % 8 + size ≤ 8 then
        RegisterValue s (offset / 8) / 256 ^ (offset % 8) % 256 ^ size
      else 0)))

/-! ### Resets and supplies -/

/-- A function reset, by CONTROL or by the assertion of the RESET input, is taken in one step: every block takes its reset
state, the Time Base keeps its time and the rest levels are kept, the administration ring registers are kept, every operation
outstanding is awaited, and READY is 0. A write to FUNCTION_RESET while READY is 0 is ignored. -/
def Obligations.FunctionResetIsTakenInOneStep : Prop :=
  (∀ (s : State) (e : Bool), s.window.ready = true → ∃ t, exec (.functionReset e) s = .next t ∧
    ResetTaken .control s.window s t ∧ t.inputs = s.inputs ∧ t.mem = s.mem ∧ t.pending = s.pending) ∧
  (∀ (s : State) (e : Bool), s.window.ready = false → ¬ResetAboutToEnd s → exec (.functionReset e) s = .next s) ∧
  (∀ s : State, s.inputs.mainSupply = true → s.inputs.resetPin = false →
    s.window.resetInProgress = false ∨ s.window.resetCause ≠ .cold →
    ∃ t, exec .resetAssert s = .next t ∧ ResetTaken .pin s.window s t ∧
      t.inputs = { s.inputs with resetPin := true } ∧ t.mem = s.mem ∧ t.pending = s.pending)

/-- The answer to an abandoned operation is taken and discarded: of a write, the bytes let through have reached memory, no other
byte changes (which bytes is an operand: log entry 9), and READY returns with the last answer awaited once the RESET input is
released; its release ends a reset that awaits no answer. A reset that found nothing to wait for ends in the step after its
taking, whatever that is: the step of an empty queue, or the command that comes next, which acts on the state out of reset
and leaves READY 1, unless it is itself a reset or the loss of the main supply (log entry 12). -/
def Obligations.ResetEndsWithTheLastAnswerAndTheRelease : Prop :=
  (∀ (s : State) (k : Nat) (op : PortOp) (ok : Bool) (landed : BitVec 32), s.window.awaited[k]? = some op →
    s.window.resetInProgress = true →
    ∃ t, exec (.abandonedAnswer k ok landed) s = .next t ∧ OnlyIn [.window, .mem] s t ∧
      t.window = { s.window with
        awaited := s.window.awaited.eraseIdx k,
        ready := if s.window.awaited.length = 1 ∧ s.inputs.resetPin = false then true else s.window.ready,
        resetInProgress := !decide (s.window.awaited.length = 1 ∧ s.inputs.resetPin = false) } ∧
      (∀ addr len, op = .read addr len → t.mem = s.mem) ∧
      ∀ w, op = .write w → w.len ≤ 32 →
        (∀ a, ¬w.covers a → Memory.read t.mem a = Memory.read s.mem a) ∧
        ∀ j < w.len, Memory.read t.mem (w.addr + BitVec.ofNat 64 j).toNat =
          if landed.getLsbD j = true then some (w.data.extractLsb' (8 * j) 8)
          else Memory.read s.mem (w.addr + BitVec.ofNat 64 j).toNat) ∧
  (∀ s : State, ∃ t, exec .resetRelease s = .next t ∧ OnlyIn [.window, .inputs] s t ∧
    t.inputs = { s.inputs with resetPin := false } ∧
    t.window = if s.window.resetInProgress = true ∧ s.window.awaited = [] then
      { s.window with ready := true, resetInProgress := false } else s.window) ∧
  (∀ (s : State) (v : U64) (e : Bool), ResetAboutToEnd s →
    let t := s.setWindow { s.window with ready := true, resetInProgress := false }
    (s.pending = [] → step s = .next t) ∧
    ∀ c ∈ [.enable, .functionReset e, .adminPostBaseWrite v, .adminReportBaseWrite v, .adminSizesWrite v, .intrMaskWrite v],
      exec c s = exec c t) ∧
  (∀ (s : State) (c : Instr), ResetAboutToEnd s → s.WindowLaw → s.IdleLaw → exec c s = exec c (Ended s) ∧
    ((∀ e, c ≠ .functionReset e) → c ≠ .resetAssert → (∀ landed, c ≠ .mainSupplyLoss landed) →
      ∃ t, exec c s = .next t ∧ t.window.ready = true))

/-- The loss of the main supply: the main domain's state is lost, and only bytes of writes that were outstanding or awaited may
differ in memory (log entry 9). While the keep-alive supply is present the rest levels are kept and the lines are at rest, and
the Time Base abandons what is pending and goes on from the internal oscillator; while it is absent the Time Base and the rest
levels are lost as well. The values that stand in what is lost, READY 0 and enabled 0 among them, are the model's while the
power is absent (log entry 14). -/
def Obligations.MainSupplyLossKeepsTheKeepAliveDomain : Prop :=
  (∀ (s : State) (landed : List (BitVec 32)), s.inputs.mainSupply = true → s.inputs.keepAliveSupply = false →
    ∃ t, exec (.mainSupplyLoss landed) s = .next t ∧ BlocksReset (s.setLines []) t ∧
      t.inputs = { s.inputs with mainSupply := false } ∧ t.window.ready = false ∧ t.window.enabled = false ∧
      t.window.awaited = [] ∧ t.window.resetInProgress = false ∧ t.pending = s.pending ∧ t.tb = State.reset.tb ∧
      (∀ n, t.line n = ⟨.rest, none, .low⟩) ∧
      ∀ a, (∀ w, PortOp.write w ∈ s.window.awaited ∨ IsOutstanding s (.write w) → ¬w.covers a) →
        Memory.read t.mem a = Memory.read s.mem a) ∧
  ∀ (s : State) (landed : List (BitVec 32)), s.inputs.mainSupply = true → s.inputs.keepAliveSupply = true →
    ∃ t, exec (.mainSupplyLoss landed) s = .next t ∧ BlocksReset s t ∧
      t.inputs = { s.inputs with mainSupply := false } ∧ t.window.ready = false ∧ t.window.enabled = false ∧
      t.window.awaited = [] ∧ t.window.resetInProgress = false ∧ t.pending = s.pending ∧
      t.tb.mt = s.tb.mt ∧ t.tb.offset = s.tb.offset ∧ t.tb.trim = s.tb.trim ∧ t.tb.windowPos = s.tb.windowPos ∧
      t.tb.intDivisor = s.tb.intDivisor ∧ t.tb.extDivisor = s.tb.extDivisor ∧ t.tb.pendingStep = none ∧
      t.tb.pendingSwitch = none ∧ t.tb.marks = false ∧
      (s.tb.pendingSwitch = none → s.tb.source = .external →
        t.tb.source = .fallback ∧ t.tb.prescaler = 0 ∧ t.tb.divInUse = s.tb.intDivisor) ∧
      (s.tb.pendingSwitch = none → s.tb.source ≠ .external →
        t.tb.source = s.tb.source ∧ t.tb.prescaler = s.tb.prescaler ∧ t.tb.divInUse = s.tb.divInUse) ∧
      (∀ p, s.tb.pendingSwitch = some p → t.tb.source = if p.toFallback then .fallback else .internal) ∧
      ∀ a, (∀ w, PortOp.write w ∈ s.window.awaited ∨ IsOutstanding s (.write w) → ¬w.covers a) →
        Memory.read t.mem a = Memory.read s.mem a

/-- The return of the main supply, the keep-alive domain kept: a function reset with cause POWER_RETURN, or PIN while the RESET
input is asserted, with the administration ring registers 0; with the input released it ends in the step after (log entry 12).
The loss of the keep-alive supply changes nothing else while the main supply is present, and can change only the Time Base and
the rest levels while it is absent; its return without a cold reset is no command (log entry 13), and a reset about to end
ends with it (log entry 12). COLD_RESET, the power-on after
both were absent, gives every block its cold values (those of State.reset, where the manual gives none the model's: log entries
15, 22 and 25), and ends once the RESET input is not asserted, in the same command where it is not (log entry 12); whether the
keep-alive supply is there again is an operand (log entry 13). -/
def Obligations.SupplyReturnsAreResets : Prop :=
  (∀ s : State, s.inputs.mainSupply = false → s.inputs.keepAliveSupply = true → ∃ t, exec .mainSupplyReturn s = .next t ∧
    ResetTaken (if s.inputs.resetPin then .pin else .powerReturn) { Window.cold with ready := false } s t ∧
    t.window.adminPostBase = 0 ∧ t.window.adminReportBase = 0 ∧ t.window.adminPostSize = 0 ∧ t.window.adminReportSize = 0 ∧
    t.inputs = { s.inputs with mainSupply := true } ∧ t.mem = s.mem ∧ t.pending = s.pending) ∧
  ((∀ s : State, s.inputs.mainSupply = true → ∃ t, exec .keepAliveSupplyLoss s = .next t ∧ OnlyIn [.inputs] (Ended s) t ∧
    t.inputs = { s.inputs with keepAliveSupply := false }) ∧
  (∀ s : State, s.inputs.mainSupply = false → ∃ t, exec .keepAliveSupplyLoss s = .next t ∧ OnlyIn [.inputs, .tb, .lines] (Ended s) t ∧
    t.inputs = { s.inputs with keepAliveSupply := false }) ∧
  (∀ (s : State) (keepAlive : Bool), s.inputs.mainSupply = false → s.inputs.keepAliveSupply = false →
    ∃ t, exec (.coldReset keepAlive) s = .next t ∧
      t.store = State.reset.store ∧ t.disp = State.reset.disp ∧ t.engine = State.reset.engine ∧
      t.regions = State.reset.regions ∧ t.lines = State.reset.lines ∧ t.posting = State.reset.posting ∧
      t.report = State.reset.report ∧ t.tb = State.reset.tb ∧
      t.window = { State.reset.window with ready := !s.inputs.resetPin, resetInProgress := s.inputs.resetPin } ∧
      t.inputs = ⟨true, keepAlive, s.inputs.resetPin⟩ ∧ t.mem = s.mem ∧ t.pending = s.pending))

/-! ### Dispatch -/

/-- DISPATCH_WALK: with an action slot EMPTY and no claim outstanding, the Dispatcher claims an entry of the offered set whose
target no occupied action slot holds, and none that passes so stands before it: none is later, none as late is on PT while it is
on MT, none as late on its scale has a smaller insertion sequence. Where no entry passes, nothing changes,
but that a reset about to end ends (log entry 12). -/
def Obligations.WalkClaimsTheLatestFreeTarget : Prop :=
  ∀ s : State, (∃ i < 4, (s.engine.slot i).stage = .empty) → s.disp.claim = none →
    let passes := fun (o : Offer) => o ∈ s.disp.offered ∧
      (o.target = none ∨ ∀ i < 4, (s.engine.slot i).stage ≠ .empty → (s.engine.slot i).target ≠ o.target)
    let late := fun (o : Offer) => s.tb.now o.scale - o.deadline
    ∃ t, exec .dispatchWalk s = .next t ∧
      ((∀ o, ¬passes o) → t = Ended s) ∧
      ((∃ o, passes o) → ∃ o, passes o ∧ t = s.setDisp { s.disp with claim := some o.timer } ∧
        ∀ p, passes p → late p ≤ late o ∧ (late p = late o → p.scale = .pt → o.scale = .pt) ∧
          (late p = late o → p.scale = o.scale → o.seq ≤ p.seq))

/-- DISPATCH_CLAIM on a slot that is ARMED and due, with an action slot EMPTY: the slot leaves its queue and is FIRING, its stepped
mark cleared; the action of its phase, with its generation, deadline, tag and mark and its lateness, is in an action slot that was
EMPTY, held back while another action holds its target and begun otherwise, or, a NOTE, has completed at once; the entry leaves
the offered set and no claim is outstanding. On a slot that is not ARMED, or not due, the store refuses: no slot and no action
slot changes, the entry leaves the offered set and no claim is outstanding. -/
def Obligations.ClaimDispatchesADueSlotAndRefusesOthers : Prop :=
  (∀ (s : State) (n : Nat), s.disp.claim = some n → (∃ i < 4, (s.engine.slot i).stage = .empty) →
    let x := s.store.slot n
    x.state = .armed → x.deadline ≤ s.tb.now x.scale →
    ∃ t, exec .dispatchClaim s = .next t ∧ OnlyIn [.store, .disp, .engine] s t ∧
      t.store.slot n = { x with state := .firing, stepped := false } ∧ OtherSlotsKept n s t ∧
      (∀ sc, t.store.queue sc = (s.store.queue sc).filter (fun m => decide (m ≠ n))) ∧
      t.store.nextSeq = s.store.nextSeq ∧ t.disp.claim = none ∧
      t.disp.offered = s.disp.offered.filter (fun o => decide (o.timer ≠ n)) ∧
      ∃ i, i < 4 ∧ (s.engine.slot i).stage = .empty ∧ (∀ k, k ≠ i → t.engine.slot k = s.engine.slot k) ∧
        let a := if x.phase = .follow then ((x.follow.map FollowPart.action).getD x.mainAction) else x.mainAction
        let lateness := if 2 ^ 32 ≤ (s.tb.now x.scale - x.deadline).toNat then BitVec.ofNat 32 (2 ^ 32 - 1)
          else (s.tb.now x.scale - x.deadline).setWidth 32
        let target := s.targetOf a
        let blocked := ∃ k < 4, k ≠ i ∧ (s.engine.slot k).stage ≠ .empty ∧ target ≠ none ∧ (s.engine.slot k).target = target
        (a.kind = .note → t.engine.slot i = ActionSlot.reset ∧ t.engine.order = (s.engine.order ++ [i]).filter (fun k => decide (k ≠ i)) ∧
          t.engine.returns = s.engine.returns ++ [⟨n, x.generation, x.tag, x.scale, lateness, .ok, 0, false, true, x.stepped⟩]) ∧
        (a.kind ≠ .note → t.engine.order = s.engine.order ++ [i] ∧ t.engine.returns = s.engine.returns ∧
          t.engine.slot i =
            { stage := t.engine.slot i |>.stage, timer := n, generation := x.generation, phase := x.phase, scale := x.scale,
              deadline := x.deadline, tag := x.tag, stepped := x.stepped, action := a,
              addr := if a.kind.isMemory then (s.region a.target).base + a.offset.setWidth 64 else 0, target := target,
              lateness := lateness, old := none, result := 0, matchFlag := false, zeroFlag := false, status := .ok,
              answer := none } ∧
          (blocked → (t.engine.slot i).stage = .held) ∧
          (¬blocked → (t.engine.slot i).stage =
            if a.kind = .store then .writing else if a.kind = .linePulse ∨ a.kind = .lineSet then .line else .reading))) ∧
  (∀ (s : State) (n : Nat), s.disp.claim = some n →
    (s.store.slot n).state ≠ .armed ∨ s.tb.now (s.store.slot n).scale < (s.store.slot n).deadline →
    ∃ t, exec .dispatchClaim s = .next t ∧ OnlyIn [.disp] s t ∧ t.disp.claim = none ∧
      t.disp.offered = s.disp.offered.filter (fun o => decide (o.timer ≠ n)))

/-- HELD_ACTION_BEGIN: a HELD action begins, as its kind requires, once no action dispatched before it holds its target; while
one does, nothing changes. -/
def Obligations.HeldActionBeginsInDispatchOrder : Prop :=
  ∀ (s : State) (i : Nat), s.engine.OrderLaw → (s.engine.slot i).stage = .held →
    let x := s.engine.slot i
    let earlier := ∃ before after j, s.engine.order = before ++ i :: after ∧ j ∈ before ∧ x.target ≠ none ∧
      (s.engine.slot j).target = x.target
    ∃ t, exec (.heldActionBegin i) s = .next t ∧ OnlyIn [.engine] s t ∧
      (∀ k, k ≠ i → t.engine.slot k = s.engine.slot k) ∧
      (earlier → t = s) ∧
      (¬earlier → x.action.kind ≠ .note → t.engine.order = s.engine.order ∧ t.engine.returns = s.engine.returns ∧
        t.engine.slot i = { x with
          stage := if x.action.kind = .store then .writing
            else if x.action.kind = .linePulse ∨ x.action.kind = .lineSet then .line else .reading })

/-! ### Memory actions -/

/-- ACTION_READ_ANSWER: by the kind, the value read completes the action with its result and flags, or issues its write; an ERROR
completes it with READ_ERROR, result 0 and both flags clear, and no write. Memory does not change. -/
def Obligations.ReadAnswerCompletesOrIssuesTheWrite : Prop :=
  ∀ (s : State) (i : Nat) (v : U64), (s.engine.slot i).stage = .reading →
    let x := s.engine.slot i
    let mask := BitVec.ofNat 64 (2 ^ (8 * x.action.width) - 1)
    let old := v &&& mask
    let a := x.action.opA &&& mask
    let k := x.action.kind
    k ∈ [.load, .setBits, .clearBits, .swapIfEqual, .countDown] →
    let completes := k = .load ∨ (k = .swapIfEqual ∧ old ≠ a) ∨ (k = .countDown ∧ old = 0)
    let result := if k = .countDown ∧ old ≠ 0 then old - 1 else old
    ∃ t f, exec (.actionReadAnswer i (.ok v)) s = .next t ∧ exec (.actionReadAnswer i .error) s = .next f ∧
      OnlyIn [.engine] s t ∧ OnlyIn [.engine] s f ∧
      (∀ j, j ≠ i → t.engine.slot j = s.engine.slot j ∧ f.engine.slot j = s.engine.slot j) ∧
      (completes → t.engine.slot i = ActionSlot.reset ∧ t.engine.order = s.engine.order.filter (fun j => decide (j ≠ i)) ∧
        t.engine.returns = s.engine.returns ++
          [⟨x.timer, x.generation, x.tag, x.scale, x.lateness, x.status, result, false, decide (result = 0), x.stepped⟩]) ∧
      (¬completes → t.engine.order = s.engine.order ∧ t.engine.returns = s.engine.returns ∧
        t.engine.slot i = { x with
          stage := .writing, old := some old, result := result, matchFlag := decide (k = .swapIfEqual),
          zeroFlag := decide (result = 0) }) ∧
      f.engine.slot i = ActionSlot.reset ∧ f.engine.order = s.engine.order.filter (fun j => decide (j ≠ i)) ∧
      f.engine.returns = s.engine.returns ++
        [⟨x.timer, x.generation, x.tag, x.scale, x.lateness, .readError, 0, false, false, x.stepped⟩]

/-- ACTION_WRITE_ANSWER: the action completes with OK or WRITE_ERROR and the result and flags of its kind. The bytes of the
target, width bytes from the host address on, hold the value written, little-endian, or, after an ERROR, those let through
do (an operand: log entry 9); every other byte of memory is as it was. -/
def Obligations.WriteAnswerStoresExactlyTheTargetBytes : Prop :=
  ∀ (s : State) (i : Nat) (answer : WriteAnswer), (s.engine.slot i).stage = .writing →
    let x := s.engine.slot i
    let w := x.action.width
    let mask := BitVec.ofNat 64 (2 ^ (8 * w) - 1)
    let old := x.old.getD 0 &&& mask
    let k := x.action.kind
    w ∈ [1, 2, 4, 8] → k ∈ [.store, .setBits, .clearBits, .swapIfEqual, .countDown] → (k = .countDown → old ≠ 0) →
    (k = .swapIfEqual → old = x.action.opA &&& mask) →
    let v : U64 := match k with
      | .store => x.action.opA
      | .setBits => old ||| x.action.opA
      | .clearBits => old &&& ~~~x.action.opA
      | .swapIfEqual => x.action.opB
      | _ => old - 1
    let result := if k = .store ∨ k = .countDown then v &&& mask else old
    let landed : Nat → Bool := fun j => match answer with
      | .ok => true
      | .error l => l.getLsbD j
    ∃ t, exec (.actionWriteAnswer i answer) s = .next t ∧ OnlyIn [.engine, .mem] s t ∧
      (∀ addr, (∀ j < w, addr ≠ (x.addr + BitVec.ofNat 64 j).toNat) → Memory.read t.mem addr = Memory.read s.mem addr) ∧
      (∀ j < w, Memory.read t.mem (x.addr + BitVec.ofNat 64 j).toNat =
        if landed j = true then some (v.extractLsb' (8 * j) 8)
        else Memory.read s.mem (x.addr + BitVec.ofNat 64 j).toNat) ∧
      (∀ j, j ≠ i → t.engine.slot j = s.engine.slot j) ∧ t.engine.slot i = ActionSlot.reset ∧
      t.engine.order = s.engine.order.filter (fun j => decide (j ≠ i)) ∧
      t.engine.returns = s.engine.returns ++
        [⟨x.timer, x.generation, x.tag, x.scale, x.lateness, if answer = .ok then .ok else .writeError, result,
          decide (k = .swapIfEqual), decide (result = 0), x.stepped⟩]

/-! ### Line actions -/

/-- LINE_REQUEST: the Line Unit applies the request to its line as the tables of LINE_PULSE and LINE_SET give for the state found,
and answers with the state after; rest levels and other lines do not change. LINE_ANSWER: the line action completes with its
status as set at its placement, the code of the state answered as its result, and MATCH and ZERO clear. While the main supply
is present each output drives its line's rest level in REST and the opposite level in HELD and PULSING, and it drives none
while the supply is absent. -/
def Obligations.LineActionsChangeTheirLineAlone : Prop :=
  (∀ (s : State) (i : Nat), (s.engine.slot i).stage = .line → (s.engine.slot i).answer = none →
    let x := s.engine.slot i
    let n := x.action.target
    let l := s.line n
    let a := x.action.opA
    ∃ t, exec (.lineRequest i) s = .next t ∧ OnlyIn [.lines, .engine] s t ∧
      (∀ k, k ≠ n → t.line k = s.line k) ∧ (t.line n).rest = l.rest ∧
      (x.action.kind = .linePulse → l.state = .rest → t.line n = ⟨.pulsing, some (s.tb.mt + a), l.rest⟩) ∧
      (x.action.kind = .linePulse → ∀ p, l.state = .pulsing → l.pulseEnd = some p →
        t.line n = ⟨.pulsing, some (if p - s.tb.mt < a then s.tb.mt + a else p), l.rest⟩) ∧
      (x.action.kind = .linePulse → l.state = .held → t.line n = l) ∧
      (x.action.kind = .lineSet → a = 1 → t.line n = ⟨.held, none, l.rest⟩) ∧
      (x.action.kind = .lineSet → a = 2 → t.line n = ⟨.rest, none, l.rest⟩) ∧
      (x.action.kind = .lineSet → a = 3 →
        t.line n = ⟨if l.state = .held then .rest else .held, none, l.rest⟩) ∧
      (∀ j, j ≠ i → t.engine.slot j = s.engine.slot j) ∧
      t.engine.slot i = { x with answer := some (t.line n).state } ∧ t.engine.order = s.engine.order ∧
      t.engine.returns = s.engine.returns) ∧
  (∀ (s : State) (i : Nat) (st : LineState), (s.engine.slot i).stage = .line → (s.engine.slot i).answer = some st →
    let x := s.engine.slot i
    let code : U64 := match st with
      | .rest => 0
      | .held => 1
      | .pulsing => 2
    ∃ t, exec (.lineAnswer i) s = .next t ∧ OnlyIn [.engine] s t ∧ (∀ j, j ≠ i → t.engine.slot j = s.engine.slot j) ∧
      t.engine.slot i = ActionSlot.reset ∧ t.engine.order = s.engine.order.filter (fun j => decide (j ≠ i)) ∧
      t.engine.returns = s.engine.returns ++
        [⟨x.timer, x.generation, x.tag, x.scale, x.lateness, x.status, code, false, false, x.stepped⟩]) ∧
  (∀ (s : State) (n : Nat),
    (s.inputs.mainSupply = false → s.outputLevel n = none) ∧
    (s.inputs.mainSupply = true → s.outputLevel n = some (match (s.line n).state, (s.line n).rest with
      | .rest, .low => .low
      | .rest, .high => .high
      | .held, .low => .high
      | .held, .high => .low
      | .pulsing, .low => .high
      | .pulsing, .high => .low)))

/-! ### Completion returns -/

/-- COMPLETION_RETURN, on a FIRING slot, decided by the first case of R31 that applies: the timer ends on an error, a cancel, its
count limit or a STOP_AT_ZERO at zero, a follow condition that does not hold, or as a one-shot or a follow firing; a periodic
timer takes its next deadline by its policy; a follow phase is armed at now plus its delay. The fire count rises in phase MAIN.
The FIRED report carries the flags of the outcome, and arrives at the slot's report ring, where the policy lets it through,
before the slot is freed and its references released. -/
def Obligations.CompletionReturnDecidesTheTimer : Prop :=
  ∀ (s : State) (c : Completion) (cs : List Completion), s.engine.returns = c :: cs →
    (s.store.slot c.timer).state = .firing →
    let n := c.timer
    let x := s.store.slot n
    let now := s.tb.now x.scale
    let count := if x.phase = .main then x.fireCount + 1 else x.fireCount
    let goesOn := c.status = .ok ∧ x.cancelRequested = false ∧ x.phase = .main
    let periodic := goesOn ∧ x.period ≠ none
    let following := goesOn ∧ x.period = none ∧ x.follow ≠ none
    let limit := (x.countLimit ≠ 0 ∧ count = x.countLimit) ∨ (x.stopAtZero = true ∧ c.zeroFlag = true)
    let holds := ∃ f, x.follow = some f ∧ (f.condition = .always ∨ (f.condition = .ifMatch ∧ c.matchFlag = true) ∨
      (f.condition = .ifNoMatch ∧ c.matchFlag = false) ∨ (f.condition = .ifZero ∧ c.zeroFlag = true) ∨
      (f.condition = .ifNonzero ∧ c.zeroFlag = false))
    let next := periodic ∧ ¬limit
    let follows := following ∧ holds
    let handed := fun (final : Bool) => x.reportPolicy = .all ∨ (x.reportPolicy = .final ∧ final = true) ∨
      (x.reportPolicy = .errorsAndFinal ∧ (c.status ≠ .ok ∨ final = true))
    ∃ t mid f, exec .completionReturn s = .next t ∧ OnlyIn [.store, .disp, .engine, .regions, .report] s t ∧
      t.engine = { s.engine with returns := cs } ∧ OtherSlotsKept n s t ∧
      (f.timer = n ∧ f.generation = c.generation ∧ f.tag = c.tag ∧ f.scale = c.scale ∧ f.lateness = c.lateness ∧
        f.status = c.status ∧ f.result = c.result ∧ f.matchFlag = c.matchFlag ∧ f.zeroFlag = c.zeroFlag ∧
        f.stepped = c.stepped ∧ f.fireCount = count ∧ f.cancelled = x.cancelRequested ∧
        (f.phaseFollow = true ↔ x.phase = .follow) ∧ (f.final = true ↔ ¬next ∧ ¬follows) ∧
        (f.followSkipped = true ↔ following ∧ ¬holds)) ∧
      (∀ ring, x.reportRing = some ring → handed f.final → Arrived ring (.fired f) s.report mid) ∧
      (x.reportRing = none ∨ ¬handed f.final → mid = s.report) ∧
      (¬next → ¬follows →
        t.store.slot n = { x with fireCount := count, state := .free, cancelRequested := false, stepped := false } ∧
        (∀ sc, t.store.queue sc = (s.store.queue sc).filter (fun m => decide (m ≠ n))) ∧
        t.store.nextSeq = s.store.nextSeq ∧ t.disp = s.disp ∧
        (∀ k, t.region k = { s.region k with refs := (s.region k).refs - x.namesRegion k }) ∧
        (∀ k, t.report.ring k = { mid.ring k with refs := (mid.ring k).refs - x.namesRing k }) ∧
        t.report = { mid with rings := t.report.rings }) ∧
      (next → ∀ p, x.period = some p →
        let k := if x.deadline ≤ now then (now.toNat - x.deadline.toNat) / p.ticks.toNat + 1 else 1
        let d := match p.policy with
          | .catchup => x.deadline + p.ticks
          | .skip => x.deadline + BitVec.ofNat 64 k * p.ticks
        t.store.slot n = { x with fireCount := count, state := .armed, deadline := d, seq := s.store.nextSeq } ∧
        f.skipped = (match p.policy with
          | .catchup => 0
          | .skip => min (k - 1) 65535)) ∧
      (follows → ∀ g, x.follow = some g →
        t.store.slot n = { x with
          fireCount := count, state := .armed, phase := .follow, deadline := now + g.delay.setWidth 64,
          seq := s.store.nextSeq }) ∧
      (¬next → f.skipped = 0) ∧
      (next ∨ follows → n ∈ t.store.queue x.scale ∧ (∀ sc m, m ≠ n → (m ∈ t.store.queue sc ↔ m ∈ s.store.queue sc)) ∧
        t.store.nextSeq = s.store.nextSeq + 1 ∧ Reoffered t ∧ t.regions = s.regions ∧ t.report = mid)

/-! ### Report writes -/

/-- REPORT_WRITE_ANSWER, OK: the record in flight is in host memory at its slot under the ring's phase, each of its 32 bytes as
the layouts of ACK, FIRED, LOSS and EVENT records and the tables of codes give it, and no other byte changes; it leaves the
write queue, the producer advances and the phase toggles where it wraps, and the record counts toward the ring's interrupt: by
count or by time the pending bit is raised, once. -/
def Obligations.WrittenRecordAdvancesTheProducer : Prop :=
  CodesAsListed ∧
  ∀ (s : State) (n : Nat) (y : Report) (ys : List Report),
    let x := s.report.ring n
    x.state = .active ∨ x.state = .lossy → x.queue = y :: ys →
    let addr := fun (j : Nat) => (x.base + BitVec.ofNat 64 (32 * x.producer) + BitVec.ofNat 64 j).toNat
    let p := (x.producer + 1) % x.size
    let count := x.unsignalled + 1
    let since := if x.unsignalled = 0 then some s.tb.mt else x.oldest
    let signal := x.intEnable = true ∧
      (x.coalesceCount ≤ count ∨ (x.coalesceTime ≠ 0 ∧ ∃ o, since = some o ∧ x.coalesceTime ≤ (s.tb.mt - o).toNat))
    ∃ t, exec (.reportWriteAnswer (.ring n) .ok) s = .next t ∧ OnlyIn [.report, .mem] s t ∧
      (∀ j < 32, Memory.read t.mem (addr j) = some (y.byteAt x.phase j)) ∧
      (∀ a, (∀ j < 32, a ≠ addr j) → Memory.read t.mem a = Memory.read s.mem a) ∧
      (∀ k, k ≠ n → t.report.ring k = s.report.ring k) ∧
      t.report.ring n = { x with
        queue := ys, producer := p, phase := if p = 0 then !x.phase else x.phase,
        unsignalled := (t.report.ring n).unsignalled, oldest := (t.report.ring n).oldest } ∧
      (signal → (t.report.ring n).unsignalled = 0 ∧ (t.report.ring n).oldest = none) ∧
      (¬signal → x.intEnable = true → (t.report.ring n).unsignalled = count ∧ (t.report.ring n).oldest = since) ∧
      (x.intEnable = false → (t.report.ring n).unsignalled = x.unsignalled ∧ (t.report.ring n).oldest = x.oldest) ∧
      (∀ k < 9, t.report.intrPending.getLsbD k = true ↔ s.report.intrPending.getLsbD k = true ∨ (k = n ∧ signal)) ∧
      t.report.hold = s.report.hold ∧ t.report.deletedWrites = s.report.deletedWrites

/-- REPORT_WRITE_ANSWER, ERROR: the ring is FAULTED with its producer and phase as they were, its write queue and its held entries
are discarded, and a REPORT_RING_FAULT event arrives at report ring 0, or, for ring 0, the administration fault is set; only
bytes of the failed write may have changed: those the command lets through hold the record's bytes (which ones is an operand:
log entry 9). The answer to a write of a deleted ring changes no ring, and no byte outside that write. -/
def Obligations.FailedReportWriteFaultsTheRing : Prop :=
  (∀ (s : State) (n : Nat) (y : Report) (ys : List Report) (landed : BitVec 32),
    let x := s.report.ring n
    x.state = .active ∨ x.state = .lossy → x.queue = y :: ys →
    let addr := fun (j : Nat) => (x.base + BitVec.ofNat 64 (32 * x.producer) + BitVec.ofNat 64 j).toNat
    ∃ t mid, exec (.reportWriteAnswer (.ring n) (.error landed)) s = .next t ∧ OnlyIn [.report, .mem, .window] s t ∧
      RingBecomes n { x with state := .faulted, queue := [] } s.report mid ∧
      mid.hold = s.report.hold.filter (fun e => decide (e.ring ≠ n)) ∧
      (n ≠ 0 → Arrived 0 (.event (.reportRingFault n x.producer s.tb.mt s.tb.pt)) mid t.report ∧ t.window = s.window) ∧
      (n = 0 → t.report = mid ∧
        t.window = { s.window with
          adminFault := if s.window.adminFault = none then some .reportRingWrite else s.window.adminFault }) ∧
      (∀ j < 32, landed.getLsbD j = true →
        Memory.read t.mem (addr j) = some ((Report.encode x.phase y).extractLsb' (8 * j) 8)) ∧
      ∀ a, (∀ j < 32, landed.getLsbD j = true → a ≠ addr j) → Memory.read t.mem a = Memory.read s.mem a) ∧
  ∀ (s : State) (k : Nat) (w : PortWrite) (answer : WriteAnswer), s.report.deletedWrites[k]? = some w →
    ∃ t, exec (.reportWriteAnswer (.deleted k) answer) s = .next t ∧ OnlyIn [.report, .mem] s t ∧
      t.report = { s.report with deletedWrites := s.report.deletedWrites.eraseIdx k } ∧
      ∀ a, ¬w.covers a → Memory.read t.mem a = Memory.read s.mem a
end

