-- ==== Sys2Proof/Laws/Bytes.lean ====
section
/-!
SUPPORT. The bytes of report records: what one field puts at each byte, and that a record's bytes are those its fields give.
-/
namespace Sys2Proof.Machine

/-- A byte of a field: the field's own byte where it lies, 0 elsewhere. -/
theorem putField_byte (k n v j : Nat) (hj : j < 32) : (putField k (8 * n) v).extractLsb' (8 * j) 8 =
    if k ≤ j ∧ j < k + n then BitVec.ofNat 8 (v / 256 ^ (j - k)) else 0 := by
  apply BitVec.eq_of_getLsbD_eq
  intro i hi
  have hb : 8 * j + i < 256 := by omega
  have h256 : ∀ m, 256 ^ m = 2 ^ (8 * m) := fun m => by rw [pow_mul]; rfl
  simp only [putField, BitVec.getLsbD_extractLsb', hi, decide_true, Bool.true_and, BitVec.getLsbD_ofNat, hb,
    Nat.testBit_mul_two_pow, Nat.testBit_mod_two_pow]
  by_cases h : k ≤ j ∧ j < k + n
  · have h1 : 8 * k ≤ 8 * j + i := by omega
    have h2 : 8 * j + i - 8 * k < 8 * n := by omega
    have h3 : 8 * j + i - 8 * k = 8 * (j - k) + i := by omega
    rw [if_pos h, h256, BitVec.getLsbD_ofNat]
    rw [Nat.testBit_div_two_pow, Nat.add_comm i, ← h3]
    simp only [hi, h1, decide_true, Bool.true_and, h2]
  · rw [if_neg h]
    by_cases h1 : 8 * k ≤ 8 * j + i
    · have h2 : ¬8 * j + i - 8 * k < 8 * n := by omega
      simp [h2]
    · simp [h1]

/-- The fields of a list put together. -/
def putFields : List RecordField → ReportSlot
  | [] => 0
  | (k, n, v) :: fs => putField k (8 * n) v ||| putFields fs

/-- Two fields have no byte in common. -/
abbrev RecordField.Apart (f g : RecordField) : Prop := f.1 + f.2.1 ≤ g.1 ∨ g.1 + g.2.1 ≤ f.1

theorem byteOfFields_zero {j : Nat} {fs : List RecordField} (h : ∀ f ∈ fs, ¬(f.1 ≤ j ∧ j < f.1 + f.2.1)) :
    byteOfFields j fs = 0 := by
  induction fs with
  | nil => rfl
  | cons f fs ih =>
    rw [byteOfFields, if_neg (h f (List.mem_cons_self ..)), ih (fun g hg => h g (List.mem_cons_of_mem _ hg))]

/-- Fields put together read back, byte by byte. -/
theorem putFields_byte {fs : List RecordField} (h : fs.Pairwise RecordField.Apart) {j : Nat} (hj : j < 32) :
    (putFields fs).extractLsb' (8 * j) 8 = byteOfFields j fs := by
  induction fs with
  | nil => exact BitVec.extractLsb'_zero
  | cons f fs ih =>
    obtain ⟨k, n, v⟩ := f
    obtain ⟨h1, h2⟩ := List.pairwise_cons.mp h
    rw [putFields, BitVec.extractLsb'_or, putField_byte k n v j hj, ih h2, byteOfFields]
    split
    · rw [byteOfFields_zero]
      · exact BitVec.or_zero
      intro g hg
      have := h1 g hg
      simp only [RecordField.Apart] at this
      omega
    · exact BitVec.zero_or

theorem putFields_append (fs gs : List RecordField) : putFields (fs ++ gs) = putFields fs ||| putFields gs := by
  induction fs with
  | nil => exact BitVec.zero_or.symm
  | cons f fs ih => rw [List.cons_append, putFields, putFields, ih, BitVec.or_assoc]

/-- The line state bytes of a SET_LINE_REST's results. -/
theorem encodeLineStates_eq (xs : List LineState) (k : Nat) :
    encodeLineStates k xs = putFields ((xs.zipIdx (k - 12)).map (fun p => (12 + p.2, 1, p.1.code))) ∨ k < 12 := by
  induction xs generalizing k with
  | nil => exact .inl rfl
  | cons x xs ih =>
    by_cases hk : k < 12
    · exact .inr hk
    · left
      rcases ih (k + 1) with h | h
      · rw [encodeLineStates, h, List.zipIdx_cons, List.map_cons, putFields, show 12 + (k - 12) = k by omega,
          show k + 1 - 12 = k - 12 + 1 by omega]
        rfl
      · omega

theorem ReportSlot.or_zero (x : ReportSlot) : x ||| 0 = x := BitVec.or_zero
theorem ReportSlot.zero_or (x : ReportSlot) : 0 ||| x = x := BitVec.zero_or

theorem putField_zero (k w : Nat) : putField k w 0 = 0 := by simp [putField]

theorem bitAt_zero (x : Bool) : bitAt 0 x = x.toNat := by cases x <;> rfl

theorem signed16_eq (x : Int) : signed16 x = (x % 65536).toNat := by simp [signed16]

/-- The results of an acknowledgment are its fields put together. -/
theorem AckResults.encode_eq (r : AckResults) : r.encode = putFields r.fields := by
  cases r with
  | lines before after states =>
    have h := (encodeLineStates_eq states 12).resolve_right (Nat.lt_irrefl 12)
    rw [AckResults.encode, AckResults.fields, putFields_append, h]
    simp only [putFields, put8, ReportSlot.or_zero, Nat.reduceMul, BitVec.or_assoc, Nat.sub_self]
  | time a b c d e f g =>
    cases b <;> cases c <;> cases d <;>
      simp [AckResults.encode, AckResults.fields, putFields, put8, put16, put64, BitVec.or_assoc, signed16_eq, bitAt]
  | _ =>
    simp only [AckResults.encode, AckResults.fields, putFields, put8, put16, put32, put64, BitVec.or_assoc,
      ReportSlot.or_zero, Nat.reduceMul, bitAt_zero, signed16_eq]

theorem Fired.flags_eq (f : Fired) : f.flags = f.stepped.toNat + 2 * f.final.toNat + 4 * f.matchFlag.toNat +
    8 * f.zeroFlag.toNat + 16 * f.followSkipped.toNat + 32 * f.cancelled.toNat + 64 * f.phaseFollow.toNat := by
  have h : ∀ (b : Nat) (x : Bool), bitAt b x = 2 ^ b * x.toNat := fun b x => by cases x <;> simp [bitAt]
  simp [Fired.flags, h]

theorem put8_phase (phase : Bool) (st : ActionStatus) (sc : Scale) :
    put8 1 phase.toNat ||| put8 1 (st.code * 2 + sc.code * 8) = put8 1 (phase.toNat + 2 * st.code + 8 * sc.code) := by
  cases phase <;> cases st <;> cases sc <;> decide

theorem ReportSlot.or_left_comm (x y z : ReportSlot) : x ||| (y ||| z) = y ||| (x ||| z) := by
  rw [← BitVec.or_assoc, BitVec.or_comm x, BitVec.or_assoc]

/-- A report record is its fields put together. -/
theorem Report.encode_eq (phase : Bool) (y : Report) : y.encode phase = putFields (y.fields phase) := by
  cases y with
  | ack h st r =>
    simp only [Report.encode, Report.fields, putFields_append, AckResults.encode_eq, putFields, bitAt_zero, put8, put16,
      BitVec.or_assoc, Nat.reduceMul, ReportSlot.zero_or]
    exact ReportSlot.or_left_comm ..
  | fired f =>
    rw [Report.encode, Report.fields, Fired.encode, Fired.flags_eq, bitAt_zero]
    simp only [BitVec.or_assoc]
    rw [ReportSlot.or_left_comm (put8 1 phase.toNat), ← BitVec.or_assoc (put8 1 phase.toNat), put8_phase]
    simp only [putFields, put8, put16, put32, put64, Nat.reduceMul, ReportSlot.or_zero]
  | loss n mt =>
    simp only [Report.encode, Report.fields, putFields, bitAt_zero, put8, put16, put64, Nat.reduceMul, BitVec.or_assoc,
      ReportSlot.or_zero]
    exact ReportSlot.or_left_comm ..
  | event e =>
    cases e <;>
      simp only [Report.encode, Report.fields, Event.encode, putFields, bitAt_zero, put8, put16, put64, Nat.reduceMul,
        BitVec.or_assoc, ReportSlot.or_zero] <;>
      exact ReportSlot.or_left_comm ..

/-- The fields of an acknowledgment's results have no byte in common and lie past the head's. -/
theorem AckResults.fields_apart (r : AckResults) :
    r.fields.Pairwise RecordField.Apart ∧ ∀ f ∈ r.fields, 10 ≤ f.1 := by
  cases r with
  | lines before after states =>
    have h : ∀ k, (states.zipIdx k).Pairwise (fun a b => a.2 < b.2) ∧ ∀ p ∈ states.zipIdx k, k ≤ p.2 := by
      induction states with
      | nil => simp
      | cons x xs ih =>
        intro k
        rw [List.zipIdx_cons]
        refine ⟨List.pairwise_cons.mpr ⟨fun p hp => ?_, (ih (k + 1)).1⟩, fun p hp => ?_⟩
        · have := (ih (k + 1)).2 p hp; simp only at *; omega
        · rcases List.mem_cons.mp hp with rfl | hp
          · exact Nat.le_refl _
          · have := (ih (k + 1)).2 p hp; omega
    constructor
    · rw [AckResults.fields, List.pairwise_append]
      refine ⟨by simp [RecordField.Apart], ?_, ?_⟩
      · rw [List.pairwise_map]
        exact (h 0).1.imp (fun {a b} hab => .inl (by simp only; omega))
      · intro f hf g hg
        obtain ⟨p, -, rfl⟩ := List.mem_map.mp hg
        simp only [List.mem_cons, List.not_mem_nil, or_false] at hf
        rcases hf with rfl | rfl <;> exact .inl (by simp only; omega)
    · intro f hf
      rw [AckResults.fields, List.mem_append] at hf
      rcases hf with hf | hf
      · simp only [List.mem_cons, List.not_mem_nil, or_false] at hf
        rcases hf with rfl | rfl <;> simp
      · obtain ⟨p, -, rfl⟩ := List.mem_map.mp hf
        simp only; omega
  | _ => simp [AckResults.fields, RecordField.Apart]

/-- The fields of a report record have no byte in common. -/
theorem Report.fields_apart (phase : Bool) (y : Report) : (y.fields phase).Pairwise RecordField.Apart := by
  cases y with
  | ack h st r =>
    obtain ⟨h1, h2⟩ := r.fields_apart
    rw [Report.fields, List.pairwise_append]
    refine ⟨by simp [RecordField.Apart], h1, fun f hf g hg => ?_⟩
    have := h2 g hg
    simp only [List.mem_cons, List.not_mem_nil, or_false] at hf
    rcases hf with rfl | rfl | rfl | rfl | rfl | rfl | rfl <;> exact .inl (by simp only; omega)
  | event e => cases e <;> simp [Report.fields, RecordField.Apart]
  | _ => simp [Report.fields, RecordField.Apart]

/-- Each byte of a report record is the one its layout gives (10, Report records). -/
theorem Report.encode_byte (phase : Bool) (y : Report) {j : Nat} (hj : j < 32) :
    (y.encode phase).extractLsb' (8 * j) 8 = y.byteAt phase j := by
  rw [Report.encode_eq, putFields_byte (y.fields_apart phase) hj]
  rfl

end Sys2Proof.Machine
end

