-- ==== Sys2Proof/Laws/State.lean ====
section
/-!
SUPPORT. One lemma for each field of State under each update, true by rfl, so that no proof unfolds a record update.
-/
namespace Sys2Proof.Machine

variable (s : State)

@[simp] theorem State.setTb_tb (x : TimeBase) : (s.setTb x).tb = x := rfl
@[simp] theorem State.setTb_store (x : TimeBase) : (s.setTb x).store = s.store := rfl
@[simp] theorem State.setTb_disp (x : TimeBase) : (s.setTb x).disp = s.disp := rfl
@[simp] theorem State.setTb_engine (x : TimeBase) : (s.setTb x).engine = s.engine := rfl
@[simp] theorem State.setTb_regions (x : TimeBase) : (s.setTb x).regions = s.regions := rfl
@[simp] theorem State.setTb_lines (x : TimeBase) : (s.setTb x).lines = s.lines := rfl
@[simp] theorem State.setTb_posting (x : TimeBase) : (s.setTb x).posting = s.posting := rfl
@[simp] theorem State.setTb_report (x : TimeBase) : (s.setTb x).report = s.report := rfl
@[simp] theorem State.setTb_window (x : TimeBase) : (s.setTb x).window = s.window := rfl
@[simp] theorem State.setTb_inputs (x : TimeBase) : (s.setTb x).inputs = s.inputs := rfl
@[simp] theorem State.setTb_mem (x : TimeBase) : (s.setTb x).mem = s.mem := rfl
@[simp] theorem State.setTb_pending (x : TimeBase) : (s.setTb x).pending = s.pending := rfl

@[simp] theorem State.setStore_tb (x : TimerStore) : (s.setStore x).tb = s.tb := rfl
@[simp] theorem State.setStore_store (x : TimerStore) : (s.setStore x).store = x := rfl
@[simp] theorem State.setStore_disp (x : TimerStore) : (s.setStore x).disp = s.disp := rfl
@[simp] theorem State.setStore_engine (x : TimerStore) : (s.setStore x).engine = s.engine := rfl
@[simp] theorem State.setStore_regions (x : TimerStore) : (s.setStore x).regions = s.regions := rfl
@[simp] theorem State.setStore_lines (x : TimerStore) : (s.setStore x).lines = s.lines := rfl
@[simp] theorem State.setStore_posting (x : TimerStore) : (s.setStore x).posting = s.posting := rfl
@[simp] theorem State.setStore_report (x : TimerStore) : (s.setStore x).report = s.report := rfl
@[simp] theorem State.setStore_window (x : TimerStore) : (s.setStore x).window = s.window := rfl
@[simp] theorem State.setStore_inputs (x : TimerStore) : (s.setStore x).inputs = s.inputs := rfl
@[simp] theorem State.setStore_mem (x : TimerStore) : (s.setStore x).mem = s.mem := rfl
@[simp] theorem State.setStore_pending (x : TimerStore) : (s.setStore x).pending = s.pending := rfl

@[simp] theorem State.setDisp_tb (x : Dispatcher) : (s.setDisp x).tb = s.tb := rfl
@[simp] theorem State.setDisp_store (x : Dispatcher) : (s.setDisp x).store = s.store := rfl
@[simp] theorem State.setDisp_disp (x : Dispatcher) : (s.setDisp x).disp = x := rfl
@[simp] theorem State.setDisp_engine (x : Dispatcher) : (s.setDisp x).engine = s.engine := rfl
@[simp] theorem State.setDisp_regions (x : Dispatcher) : (s.setDisp x).regions = s.regions := rfl
@[simp] theorem State.setDisp_lines (x : Dispatcher) : (s.setDisp x).lines = s.lines := rfl
@[simp] theorem State.setDisp_posting (x : Dispatcher) : (s.setDisp x).posting = s.posting := rfl
@[simp] theorem State.setDisp_report (x : Dispatcher) : (s.setDisp x).report = s.report := rfl
@[simp] theorem State.setDisp_window (x : Dispatcher) : (s.setDisp x).window = s.window := rfl
@[simp] theorem State.setDisp_inputs (x : Dispatcher) : (s.setDisp x).inputs = s.inputs := rfl
@[simp] theorem State.setDisp_mem (x : Dispatcher) : (s.setDisp x).mem = s.mem := rfl
@[simp] theorem State.setDisp_pending (x : Dispatcher) : (s.setDisp x).pending = s.pending := rfl

@[simp] theorem State.setEngine_tb (x : ActionEngine) : (s.setEngine x).tb = s.tb := rfl
@[simp] theorem State.setEngine_store (x : ActionEngine) : (s.setEngine x).store = s.store := rfl
@[simp] theorem State.setEngine_disp (x : ActionEngine) : (s.setEngine x).disp = s.disp := rfl
@[simp] theorem State.setEngine_engine (x : ActionEngine) : (s.setEngine x).engine = x := rfl
@[simp] theorem State.setEngine_regions (x : ActionEngine) : (s.setEngine x).regions = s.regions := rfl
@[simp] theorem State.setEngine_lines (x : ActionEngine) : (s.setEngine x).lines = s.lines := rfl
@[simp] theorem State.setEngine_posting (x : ActionEngine) : (s.setEngine x).posting = s.posting := rfl
@[simp] theorem State.setEngine_report (x : ActionEngine) : (s.setEngine x).report = s.report := rfl
@[simp] theorem State.setEngine_window (x : ActionEngine) : (s.setEngine x).window = s.window := rfl
@[simp] theorem State.setEngine_inputs (x : ActionEngine) : (s.setEngine x).inputs = s.inputs := rfl
@[simp] theorem State.setEngine_mem (x : ActionEngine) : (s.setEngine x).mem = s.mem := rfl
@[simp] theorem State.setEngine_pending (x : ActionEngine) : (s.setEngine x).pending = s.pending := rfl

@[simp] theorem State.setRegions_tb (x : List (Nat × Region)) : (s.setRegions x).tb = s.tb := rfl
@[simp] theorem State.setRegions_store (x : List (Nat × Region)) : (s.setRegions x).store = s.store := rfl
@[simp] theorem State.setRegions_disp (x : List (Nat × Region)) : (s.setRegions x).disp = s.disp := rfl
@[simp] theorem State.setRegions_engine (x : List (Nat × Region)) : (s.setRegions x).engine = s.engine := rfl
@[simp] theorem State.setRegions_regions (x : List (Nat × Region)) : (s.setRegions x).regions = x := rfl
@[simp] theorem State.setRegions_lines (x : List (Nat × Region)) : (s.setRegions x).lines = s.lines := rfl
@[simp] theorem State.setRegions_posting (x : List (Nat × Region)) : (s.setRegions x).posting = s.posting := rfl
@[simp] theorem State.setRegions_report (x : List (Nat × Region)) : (s.setRegions x).report = s.report := rfl
@[simp] theorem State.setRegions_window (x : List (Nat × Region)) : (s.setRegions x).window = s.window := rfl
@[simp] theorem State.setRegions_inputs (x : List (Nat × Region)) : (s.setRegions x).inputs = s.inputs := rfl
@[simp] theorem State.setRegions_mem (x : List (Nat × Region)) : (s.setRegions x).mem = s.mem := rfl
@[simp] theorem State.setRegions_pending (x : List (Nat × Region)) : (s.setRegions x).pending = s.pending := rfl

@[simp] theorem State.setLines_tb (x : List (Nat × LineRec)) : (s.setLines x).tb = s.tb := rfl
@[simp] theorem State.setLines_store (x : List (Nat × LineRec)) : (s.setLines x).store = s.store := rfl
@[simp] theorem State.setLines_disp (x : List (Nat × LineRec)) : (s.setLines x).disp = s.disp := rfl
@[simp] theorem State.setLines_engine (x : List (Nat × LineRec)) : (s.setLines x).engine = s.engine := rfl
@[simp] theorem State.setLines_regions (x : List (Nat × LineRec)) : (s.setLines x).regions = s.regions := rfl
@[simp] theorem State.setLines_lines (x : List (Nat × LineRec)) : (s.setLines x).lines = x := rfl
@[simp] theorem State.setLines_posting (x : List (Nat × LineRec)) : (s.setLines x).posting = s.posting := rfl
@[simp] theorem State.setLines_report (x : List (Nat × LineRec)) : (s.setLines x).report = s.report := rfl
@[simp] theorem State.setLines_window (x : List (Nat × LineRec)) : (s.setLines x).window = s.window := rfl
@[simp] theorem State.setLines_inputs (x : List (Nat × LineRec)) : (s.setLines x).inputs = s.inputs := rfl
@[simp] theorem State.setLines_mem (x : List (Nat × LineRec)) : (s.setLines x).mem = s.mem := rfl
@[simp] theorem State.setLines_pending (x : List (Nat × LineRec)) : (s.setLines x).pending = s.pending := rfl

@[simp] theorem State.setPosting_tb (x : PostingUnit) : (s.setPosting x).tb = s.tb := rfl
@[simp] theorem State.setPosting_store (x : PostingUnit) : (s.setPosting x).store = s.store := rfl
@[simp] theorem State.setPosting_disp (x : PostingUnit) : (s.setPosting x).disp = s.disp := rfl
@[simp] theorem State.setPosting_engine (x : PostingUnit) : (s.setPosting x).engine = s.engine := rfl
@[simp] theorem State.setPosting_regions (x : PostingUnit) : (s.setPosting x).regions = s.regions := rfl
@[simp] theorem State.setPosting_lines (x : PostingUnit) : (s.setPosting x).lines = s.lines := rfl
@[simp] theorem State.setPosting_posting (x : PostingUnit) : (s.setPosting x).posting = x := rfl
@[simp] theorem State.setPosting_report (x : PostingUnit) : (s.setPosting x).report = s.report := rfl
@[simp] theorem State.setPosting_window (x : PostingUnit) : (s.setPosting x).window = s.window := rfl
@[simp] theorem State.setPosting_inputs (x : PostingUnit) : (s.setPosting x).inputs = s.inputs := rfl
@[simp] theorem State.setPosting_mem (x : PostingUnit) : (s.setPosting x).mem = s.mem := rfl
@[simp] theorem State.setPosting_pending (x : PostingUnit) : (s.setPosting x).pending = s.pending := rfl

@[simp] theorem State.setReport_tb (x : ReportUnit) : (s.setReport x).tb = s.tb := rfl
@[simp] theorem State.setReport_store (x : ReportUnit) : (s.setReport x).store = s.store := rfl
@[simp] theorem State.setReport_disp (x : ReportUnit) : (s.setReport x).disp = s.disp := rfl
@[simp] theorem State.setReport_engine (x : ReportUnit) : (s.setReport x).engine = s.engine := rfl
@[simp] theorem State.setReport_regions (x : ReportUnit) : (s.setReport x).regions = s.regions := rfl
@[simp] theorem State.setReport_lines (x : ReportUnit) : (s.setReport x).lines = s.lines := rfl
@[simp] theorem State.setReport_posting (x : ReportUnit) : (s.setReport x).posting = s.posting := rfl
@[simp] theorem State.setReport_report (x : ReportUnit) : (s.setReport x).report = x := rfl
@[simp] theorem State.setReport_window (x : ReportUnit) : (s.setReport x).window = s.window := rfl
@[simp] theorem State.setReport_inputs (x : ReportUnit) : (s.setReport x).inputs = s.inputs := rfl
@[simp] theorem State.setReport_mem (x : ReportUnit) : (s.setReport x).mem = s.mem := rfl
@[simp] theorem State.setReport_pending (x : ReportUnit) : (s.setReport x).pending = s.pending := rfl

@[simp] theorem State.setWindow_tb (x : Window) : (s.setWindow x).tb = s.tb := rfl
@[simp] theorem State.setWindow_store (x : Window) : (s.setWindow x).store = s.store := rfl
@[simp] theorem State.setWindow_disp (x : Window) : (s.setWindow x).disp = s.disp := rfl
@[simp] theorem State.setWindow_engine (x : Window) : (s.setWindow x).engine = s.engine := rfl
@[simp] theorem State.setWindow_regions (x : Window) : (s.setWindow x).regions = s.regions := rfl
@[simp] theorem State.setWindow_lines (x : Window) : (s.setWindow x).lines = s.lines := rfl
@[simp] theorem State.setWindow_posting (x : Window) : (s.setWindow x).posting = s.posting := rfl
@[simp] theorem State.setWindow_report (x : Window) : (s.setWindow x).report = s.report := rfl
@[simp] theorem State.setWindow_window (x : Window) : (s.setWindow x).window = x := rfl
@[simp] theorem State.setWindow_inputs (x : Window) : (s.setWindow x).inputs = s.inputs := rfl
@[simp] theorem State.setWindow_mem (x : Window) : (s.setWindow x).mem = s.mem := rfl
@[simp] theorem State.setWindow_pending (x : Window) : (s.setWindow x).pending = s.pending := rfl

@[simp] theorem State.setInputs_tb (x : Inputs) : (s.setInputs x).tb = s.tb := rfl
@[simp] theorem State.setInputs_store (x : Inputs) : (s.setInputs x).store = s.store := rfl
@[simp] theorem State.setInputs_disp (x : Inputs) : (s.setInputs x).disp = s.disp := rfl
@[simp] theorem State.setInputs_engine (x : Inputs) : (s.setInputs x).engine = s.engine := rfl
@[simp] theorem State.setInputs_regions (x : Inputs) : (s.setInputs x).regions = s.regions := rfl
@[simp] theorem State.setInputs_lines (x : Inputs) : (s.setInputs x).lines = s.lines := rfl
@[simp] theorem State.setInputs_posting (x : Inputs) : (s.setInputs x).posting = s.posting := rfl
@[simp] theorem State.setInputs_report (x : Inputs) : (s.setInputs x).report = s.report := rfl
@[simp] theorem State.setInputs_window (x : Inputs) : (s.setInputs x).window = s.window := rfl
@[simp] theorem State.setInputs_inputs (x : Inputs) : (s.setInputs x).inputs = x := rfl
@[simp] theorem State.setInputs_mem (x : Inputs) : (s.setInputs x).mem = s.mem := rfl
@[simp] theorem State.setInputs_pending (x : Inputs) : (s.setInputs x).pending = s.pending := rfl

@[simp] theorem State.setMem_tb (x : List Host.Cell) : (s.setMem x).tb = s.tb := rfl
@[simp] theorem State.setMem_store (x : List Host.Cell) : (s.setMem x).store = s.store := rfl
@[simp] theorem State.setMem_disp (x : List Host.Cell) : (s.setMem x).disp = s.disp := rfl
@[simp] theorem State.setMem_engine (x : List Host.Cell) : (s.setMem x).engine = s.engine := rfl
@[simp] theorem State.setMem_regions (x : List Host.Cell) : (s.setMem x).regions = s.regions := rfl
@[simp] theorem State.setMem_lines (x : List Host.Cell) : (s.setMem x).lines = s.lines := rfl
@[simp] theorem State.setMem_posting (x : List Host.Cell) : (s.setMem x).posting = s.posting := rfl
@[simp] theorem State.setMem_report (x : List Host.Cell) : (s.setMem x).report = s.report := rfl
@[simp] theorem State.setMem_window (x : List Host.Cell) : (s.setMem x).window = s.window := rfl
@[simp] theorem State.setMem_inputs (x : List Host.Cell) : (s.setMem x).inputs = s.inputs := rfl
@[simp] theorem State.setMem_mem (x : List Host.Cell) : (s.setMem x).mem = x := rfl
@[simp] theorem State.setMem_pending (x : List Host.Cell) : (s.setMem x).pending = s.pending := rfl

@[simp] theorem State.setPending_tb (x : List Instr) : (s.setPending x).tb = s.tb := rfl
@[simp] theorem State.setPending_store (x : List Instr) : (s.setPending x).store = s.store := rfl
@[simp] theorem State.setPending_disp (x : List Instr) : (s.setPending x).disp = s.disp := rfl
@[simp] theorem State.setPending_engine (x : List Instr) : (s.setPending x).engine = s.engine := rfl
@[simp] theorem State.setPending_regions (x : List Instr) : (s.setPending x).regions = s.regions := rfl
@[simp] theorem State.setPending_lines (x : List Instr) : (s.setPending x).lines = s.lines := rfl
@[simp] theorem State.setPending_posting (x : List Instr) : (s.setPending x).posting = s.posting := rfl
@[simp] theorem State.setPending_report (x : List Instr) : (s.setPending x).report = s.report := rfl
@[simp] theorem State.setPending_window (x : List Instr) : (s.setPending x).window = s.window := rfl
@[simp] theorem State.setPending_inputs (x : List Instr) : (s.setPending x).inputs = s.inputs := rfl
@[simp] theorem State.setPending_mem (x : List Instr) : (s.setPending x).mem = s.mem := rfl
@[simp] theorem State.setPending_pending (x : List Instr) : (s.setPending x).pending = x := rfl

end Sys2Proof.Machine
end

