-- ==== Sys2Proof/Laws/Frames.lean ====
section
/-!
SUPPORT. How frames combine: what changes nothing outside a list of parts, twice, changes nothing outside it.
-/
namespace Sys2Proof.Machine

variable {ps qs : List Part} {s t u : State}

@[simp] theorem OnlyIn.refl (ps : List Part) (s : State) : OnlyIn ps s s := by simp [OnlyIn]

/-- A frame holds for every longer list of parts. -/
theorem OnlyIn.mono (h : OnlyIn ps s t) (hs : ps ⊆ qs) : OnlyIn qs s t := by
  obtain ⟨h1, h2, h3, h4, h5, h6, h7, h8, h9, h10, h11, h12⟩ := h
  exact ⟨h1.imp_left (hs ·), h2.imp_left (hs ·), h3.imp_left (hs ·), h4.imp_left (hs ·), h5.imp_left (hs ·),
    h6.imp_left (hs ·), h7.imp_left (hs ·), h8.imp_left (hs ·), h9.imp_left (hs ·), h10.imp_left (hs ·),
    h11.imp_left (hs ·), h12⟩

theorem OnlyIn.trans (h : OnlyIn ps s t) (h' : OnlyIn ps t u) : OnlyIn ps s u := by
  obtain ⟨h1, h2, h3, h4, h5, h6, h7, h8, h9, h10, h11, h12⟩ := h
  obtain ⟨k1, k2, k3, k4, k5, k6, k7, k8, k9, k10, k11, k12⟩ := h'
  refine ⟨?_, ?_, ?_, ?_, ?_, ?_, ?_, ?_, ?_, ?_, ?_, k12.trans h12⟩
  · exact h1.elim .inl fun e => k1.imp_right (·.trans e)
  · exact h2.elim .inl fun e => k2.imp_right (·.trans e)
  · exact h3.elim .inl fun e => k3.imp_right (·.trans e)
  · exact h4.elim .inl fun e => k4.imp_right (·.trans e)
  · exact h5.elim .inl fun e => k5.imp_right (·.trans e)
  · exact h6.elim .inl fun e => k6.imp_right (·.trans e)
  · exact h7.elim .inl fun e => k7.imp_right (·.trans e)
  · exact h8.elim .inl fun e => k8.imp_right (·.trans e)
  · exact h9.elim .inl fun e => k9.imp_right (·.trans e)
  · exact h10.elim .inl fun e => k10.imp_right (·.trans e)
  · exact h11.elim .inl fun e => k11.imp_right (·.trans e)

theorem OnlyIn.pending_eq (h : OnlyIn ps s t) : t.pending = s.pending := h.2.2.2.2.2.2.2.2.2.2.2

variable (s : State)

theorem State.setTb_onlyIn (x : TimeBase) : OnlyIn [.tb] s (s.setTb x) := by simp [OnlyIn]
theorem State.setStore_onlyIn (x : TimerStore) : OnlyIn [.store] s (s.setStore x) := by simp [OnlyIn]
theorem State.setDisp_onlyIn (x : Dispatcher) : OnlyIn [.disp] s (s.setDisp x) := by simp [OnlyIn]
theorem State.setEngine_onlyIn (x : ActionEngine) : OnlyIn [.engine] s (s.setEngine x) := by simp [OnlyIn]
theorem State.setRegions_onlyIn (x : List (Nat × Region)) : OnlyIn [.regions] s (s.setRegions x) := by simp [OnlyIn]
theorem State.setLines_onlyIn (x : List (Nat × LineRec)) : OnlyIn [.lines] s (s.setLines x) := by simp [OnlyIn]
theorem State.setPosting_onlyIn (x : PostingUnit) : OnlyIn [.posting] s (s.setPosting x) := by simp [OnlyIn]
theorem State.setReport_onlyIn (x : ReportUnit) : OnlyIn [.report] s (s.setReport x) := by simp [OnlyIn]
theorem State.setWindow_onlyIn (x : Window) : OnlyIn [.window] s (s.setWindow x) := by simp [OnlyIn]
theorem State.setInputs_onlyIn (x : Inputs) : OnlyIn [.inputs] s (s.setInputs x) := by simp [OnlyIn]
theorem State.setMem_onlyIn (x : List Host.Cell) : OnlyIn [.mem] s (s.setMem x) := by simp [OnlyIn]

end Sys2Proof.Machine
end

