-- ==== Sys2Proof/Laws/Maps.lean ====
section
/-!
SUPPORT. The laws of numbered records and of the bytes written: a read after a write gives the value written, a write leaves
every other place alone, and every operation keeps the canonical form.
-/
namespace Sys2Proof.Machine

variable {α : Type}

@[simp] theorem Map.find_nil (n : Nat) : Map.find ([] : List (Nat × α)) n = none := rfl

theorem Map.find_cons (k : Nat) (v : α) (m : List (Nat × α)) (n : Nat) :
    Map.find ((k, v) :: m) n = if n = k then some v else Map.find m n := rfl

@[simp] theorem Map.get_nil (d : α) (n : Nat) : Map.get d [] n = d := rfl

theorem Map.find_insert_self (m : List (Nat × α)) (n : Nat) (v : α) : Map.find (Map.insert m n v) n = some v := by
  induction m with
  | nil => simp [Map.insert, Map.find_cons]
  | cons p m ih =>
    obtain ⟨k, w⟩ := p
    simp only [Map.insert]
    split
    · simp [Map.find_cons]
    · split
      · simp [Map.find_cons]
      · rename_i _ h
        simp [Map.find_cons, h, ih]

theorem Map.find_insert_ne (m : List (Nat × α)) {n j : Nat} (v : α) (h : j ≠ n) :
    Map.find (Map.insert m n v) j = Map.find m j := by
  induction m with
  | nil => simp [Map.insert, Map.find_cons, h]
  | cons p m ih =>
    obtain ⟨k, w⟩ := p
    simp only [Map.insert]
    split
    · simp [Map.find_cons, h]
    · split
      · rename_i _ hk
        subst hk
        simp [Map.find_cons, h]
      · simp [Map.find_cons, ih]

theorem Map.find_erase_self (m : List (Nat × α)) (n : Nat) : Map.find (Map.erase m n) n = none := by
  induction m with
  | nil => rfl
  | cons p m ih =>
    obtain ⟨k, w⟩ := p
    simp only [Map.erase]
    split
    · exact ih
    · rename_i h
      simp [Map.find_cons, h, ih]

theorem Map.find_erase_ne (m : List (Nat × α)) {n j : Nat} (h : j ≠ n) :
    Map.find (Map.erase m n) j = Map.find m j := by
  induction m with
  | nil => rfl
  | cons p m ih =>
    obtain ⟨k, w⟩ := p
    simp only [Map.erase]
    split
    · rename_i hk
      subst hk
      simp [Map.find_cons, h, ih]
    · simp [Map.find_cons, ih]

section Set
variable [DecidableEq α] (d : α)

/-- A record read back after it is set. -/
@[simp] theorem Map.get_set_self (m : List (Nat × α)) (n : Nat) (v : α) : Map.get d (Map.set d m n v) n = v := by
  unfold Map.set Map.get
  split
  · rename_i h
    rw [Map.find_erase_self, h]; rfl
  · rw [Map.find_insert_self]; rfl

/-- Setting a record leaves the others. -/
theorem Map.get_set_ne (m : List (Nat × α)) {n j : Nat} (v : α) (h : j ≠ n) :
    Map.get d (Map.set d m n v) j = Map.get d m j := by
  unfold Map.set Map.get
  split
  · rw [Map.find_erase_ne m h]
  · rw [Map.find_insert_ne m v h]

/-- Both cases of a record read after one is set. -/
theorem Map.get_set (m : List (Nat × α)) (n j : Nat) (v : α) :
    Map.get d (Map.set d m n v) j = if j = n then v else Map.get d m j := by
  split
  · rename_i h
    rw [h, Map.get_set_self]
  · rename_i h
    exact Map.get_set_ne d m v h

end Set

/-! ### The canonical form -/

theorem Map.sortedFrom_mono {lo lo' : Nat} {m : List (Nat × α)} (h : lo' ≤ lo) (hs : Map.sortedFrom lo m = true) :
    Map.sortedFrom lo' m = true := by
  cases m with
  | nil => rfl
  | cons p m =>
    obtain ⟨k, w⟩ := p
    simp only [Map.sortedFrom, Bool.and_eq_true, decide_eq_true_eq] at hs ⊢
    exact ⟨le_trans h hs.1, hs.2⟩

theorem Map.sortedFrom_insert {lo n : Nat} {m : List (Nat × α)} (v : α) (hn : lo ≤ n)
    (hs : Map.sortedFrom lo m = true) : Map.sortedFrom lo (Map.insert m n v) = true := by
  induction m generalizing lo with
  | nil => simp [Map.insert, Map.sortedFrom, hn]
  | cons p m ih =>
    obtain ⟨k, w⟩ := p
    simp only [Map.sortedFrom, Bool.and_eq_true, decide_eq_true_eq] at hs
    simp only [Map.insert]
    split
    · rename_i h
      simp [Map.sortedFrom, hn, Nat.succ_le_of_lt h, hs.2]
    · split
      · rename_i _ h
        subst h
        simp [Map.sortedFrom, hn, hs.2]
      · rename_i h1 h2
        simp only [Map.sortedFrom, Bool.and_eq_true, decide_eq_true_eq]
        exact ⟨hs.1, ih (by omega) hs.2⟩

theorem Map.sortedFrom_erase {lo : Nat} {m : List (Nat × α)} (n : Nat) (hs : Map.sortedFrom lo m = true) :
    Map.sortedFrom lo (Map.erase m n) = true := by
  induction m generalizing lo with
  | nil => rfl
  | cons p m ih =>
    obtain ⟨k, w⟩ := p
    simp only [Map.sortedFrom, Bool.and_eq_true, decide_eq_true_eq] at hs
    simp only [Map.erase]
    split
    · exact ih (Map.sortedFrom_mono (by omega) hs.2)
    · simp only [Map.sortedFrom, Bool.and_eq_true, decide_eq_true_eq]
      exact ⟨hs.1, ih hs.2⟩

theorem Map.mem_insert {m : List (Nat × α)} {n : Nat} {v : α} {p : Nat × α} (h : p ∈ Map.insert m n v) :
    p = (n, v) ∨ p ∈ m := by
  induction m with
  | nil => simpa [Map.insert] using h
  | cons q m ih =>
    obtain ⟨k, w⟩ := q
    simp only [Map.insert] at h
    split at h
    · simpa using h
    · split at h
      · simp only [List.mem_cons] at h ⊢
        tauto
      · simp only [List.mem_cons] at h ⊢
        rcases h with h | h
        · exact .inr (.inl h)
        · rcases ih h with h | h
          · exact .inl h
          · exact .inr (.inr h)

theorem Map.mem_erase {m : List (Nat × α)} {n : Nat} {p : Nat × α} (h : p ∈ Map.erase m n) : p ∈ m := by
  induction m with
  | nil => simp [Map.erase] at h
  | cons q m ih =>
    obtain ⟨k, w⟩ := q
    simp only [Map.erase] at h
    split at h
    · exact List.mem_cons_of_mem _ (ih h)
    · simp only [List.mem_cons] at h ⊢
      exact h.imp id ih

/-- What the canonical form says. -/
theorem Map.wf_iff [DecidableEq α] (d : α) (m : List (Nat × α)) :
    Map.wf d m = true ↔ Map.sorted m = true ∧ ∀ p ∈ m, p.2 ≠ d := by
  simp [Map.wf]

/-- Setting a record keeps the canonical form. -/
theorem Map.wf_set [DecidableEq α] (d : α) {m : List (Nat × α)} (n : Nat) (v : α) (h : Map.wf d m = true) :
    Map.wf d (Map.set d m n v) = true := by
  rw [Map.wf_iff] at h ⊢
  unfold Map.set
  split
  · exact ⟨Map.sortedFrom_erase n h.1, fun p hp => h.2 p (Map.mem_erase hp)⟩
  · rename_i hv
    refine ⟨Map.sortedFrom_insert v (Nat.zero_le n) h.1, fun p hp => ?_⟩
    rcases Map.mem_insert hp with rfl | hp
    · exact hv
    · exact h.2 p hp

/-! ### Host memory -/

@[simp] theorem Memory.read_write_self (m : List Host.Cell) (a : Nat) (b : Byte) :
    Memory.read (Memory.write m a b) a = some b := Map.find_insert_self m a b

theorem Memory.read_write_ne (m : List Host.Cell) {a a' : Nat} (b : Byte) (h : a' ≠ a) :
    Memory.read (Memory.write m a b) a' = Memory.read m a' := Map.find_insert_ne m b h

theorem Memory.wf_write {m : List Host.Cell} {a : Nat} (b : Byte) (ha : a < Config.space64) (h : Memory.wf m = true) :
    Memory.wf (Memory.write m a b) = true := by
  simp only [Memory.wf, Bool.and_eq_true, List.all_eq_true, decide_eq_true_eq] at h ⊢
  refine ⟨Map.sortedFrom_insert b (Nat.zero_le a) h.1, fun p hp => ?_⟩
  rcases Map.mem_insert hp with rfl | hp
  · exact ha
  · exact h.2 p hp

theorem PortWrite.addrOf_lt (w : PortWrite) (i : Nat) : w.addrOf i < Config.space64 :=
  BitVec.isLt _

theorem Memory.wf_landUpTo (w : PortWrite) (landed : BitVec 32) (n : Nat) {m : List Host.Cell} (h : Memory.wf m = true) :
    Memory.wf (Memory.landUpTo w landed n m) = true := by
  induction n with
  | zero => exact h
  | succ n ih =>
    simp only [Memory.landUpTo]
    split
    · exact Memory.wf_write _ (w.addrOf_lt n) ih
    · exact ih

/-- Landing some bytes of a write keeps the canonical form. -/
theorem Memory.wf_land (w : PortWrite) (landed : BitVec 32) {m : List Host.Cell} (h : Memory.wf m = true) :
    Memory.wf (Memory.land w landed m) = true := Memory.wf_landUpTo w landed w.len h

/-- An answered write keeps the canonical form. -/
theorem Memory.wf_settle (w : PortWrite) (a : WriteAnswer) {m : List Host.Cell} (h : Memory.wf m = true) :
    Memory.wf (Memory.settle w a m) = true := by
  cases a <;> exact Memory.wf_land w _ h

/-- Writes settled together keep the canonical form. -/
theorem Memory.wf_landAll (ws : List PortWrite) (ls : List (BitVec 32)) {m : List Host.Cell} (h : Memory.wf m = true) :
    Memory.wf (Memory.landAll ws ls m) = true := by
  induction ws generalizing ls m with
  | nil => exact h
  | cons w ws ih =>
    cases ls with
    | nil => exact ih [] (Memory.wf_land w 0 h)
    | cons l ls => exact ih ls (Memory.wf_land w l h)

/-- A byte outside a write is left as it was. -/
theorem Memory.read_landUpTo_outside (w : PortWrite) (landed : BitVec 32) (n : Nat) (m : List Host.Cell) {a : Nat}
    (h : ∀ i < n, a ≠ w.addrOf i) : Memory.read (Memory.landUpTo w landed n m) a = Memory.read m a := by
  induction n with
  | zero => rfl
  | succ n ih =>
    have ih := ih (fun i hi => h i (Nat.lt_succ_of_lt hi))
    simp only [Memory.landUpTo]
    split
    · rw [Memory.read_write_ne _ _ (h n (Nat.lt_succ_self n)), ih]
    · exact ih

/-- A byte outside a settled write is left as it was (R60). -/
theorem Memory.read_settle_outside (w : PortWrite) (ans : WriteAnswer) (m : List Host.Cell) {a : Nat}
    (h : ∀ i < w.len, a ≠ w.addrOf i) : Memory.read (Memory.settle w ans m) a = Memory.read m a := by
  cases ans <;> exact Memory.read_landUpTo_outside w _ w.len m h

end Sys2Proof.Machine
end

