-- ==== Sys2Proof/Laws/Records.lean ====
section
/-!
SUPPORT. Reading a numbered record after one is set, for each block, and what setting it leaves alone.
-/
namespace Sys2Proof.Machine

/-! ### Timer slots -/

@[simp] theorem TimerStore.slot_setSlot (t : TimerStore) (n m : Nat) (x : TimerSlot) :
    (t.setSlot n x).slot m = if m = n then x else t.slot m := Map.get_set _ _ _ _ _

@[simp] theorem TimerStore.setSlot_ptQueue (t : TimerStore) (n : Nat) (x : TimerSlot) :
    (t.setSlot n x).ptQueue = t.ptQueue := rfl

@[simp] theorem TimerStore.setSlot_mtQueue (t : TimerStore) (n : Nat) (x : TimerSlot) :
    (t.setSlot n x).mtQueue = t.mtQueue := rfl

@[simp] theorem TimerStore.setSlot_nextSeq (t : TimerStore) (n : Nat) (x : TimerSlot) :
    (t.setSlot n x).nextSeq = t.nextSeq := rfl

@[simp] theorem TimerStore.setSlot_queue (t : TimerStore) (n : Nat) (x : TimerSlot) (sc : Scale) :
    (t.setSlot n x).queue sc = t.queue sc := by cases sc <;> rfl

/-! ### Action slots -/

@[simp] theorem ActionEngine.slot_setSlot (e : ActionEngine) (i j : Nat) (x : ActionSlot) :
    (e.setSlot i x).slot j = if j = i then x else e.slot j := Map.get_set _ _ _ _ _

@[simp] theorem ActionEngine.setSlot_order (e : ActionEngine) (i : Nat) (x : ActionSlot) :
    (e.setSlot i x).order = e.order := rfl

@[simp] theorem ActionEngine.setSlot_returns (e : ActionEngine) (i : Nat) (x : ActionSlot) :
    (e.setSlot i x).returns = e.returns := rfl

/-- An action slot's record depends on the slots alone. -/
theorem ActionEngine.slot_congr {e f : ActionEngine} (h : e.slots = f.slots) (i : Nat) : e.slot i = f.slot i := by
  simp [ActionEngine.slot, h]

/-! ### Regions and lines -/

@[simp] theorem State.region_setRegion (s : State) (n m : Nat) (x : Region) :
    (s.setRegion n x).region m = if m = n then x else s.region m := Map.get_set _ _ _ _ _

@[simp] theorem State.line_setLine (s : State) (n m : Nat) (x : LineRec) :
    (s.setLine n x).line m = if m = n then x else s.line m := Map.get_set _ _ _ _ _

/-- A region's record depends on the region list alone. -/
theorem State.region_congr {s t : State} (h : s.regions = t.regions) (n : Nat) : s.region n = t.region n := by
  simp [State.region, h]

/-- A line's record depends on the line list alone. -/
theorem State.line_congr {s t : State} (h : s.lines = t.lines) (n : Nat) : s.line n = t.line n := by
  simp [State.line, h]

/-! ### Rings -/

@[simp] theorem PostingUnit.ring_setRing (p : PostingUnit) (n m : Nat) (x : PostRing) :
    (p.setRing n x).ring m = if m = n then x else p.ring m := Map.get_set _ _ _ _ _

@[simp] theorem PostingUnit.setRing_inProgress (p : PostingUnit) (n : Nat) (x : PostRing) :
    (p.setRing n x).inProgress = p.inProgress := rfl

@[simp] theorem PostingUnit.setRing_lastHigh (p : PostingUnit) (n : Nat) (x : PostRing) :
    (p.setRing n x).lastHigh = p.lastHigh := rfl

@[simp] theorem PostingUnit.setRing_lastNormal (p : PostingUnit) (n : Nat) (x : PostRing) :
    (p.setRing n x).lastNormal = p.lastNormal := rfl

@[simp] theorem PostingUnit.setRing_highRun (p : PostingUnit) (n : Nat) (x : PostRing) :
    (p.setRing n x).highRun = p.highRun := rfl

/-- A posting ring's record depends on the ring list alone. -/
theorem PostingUnit.ring_congr {p q : PostingUnit} (h : p.rings = q.rings) (n : Nat) : p.ring n = q.ring n := by
  simp [PostingUnit.ring, h]

@[simp] theorem ReportUnit.ring_setRing (r : ReportUnit) (n m : Nat) (x : ReportRing) :
    (r.setRing n x).ring m = if m = n then x else r.ring m := Map.get_set _ _ _ _ _

@[simp] theorem ReportUnit.setRing_hold (r : ReportUnit) (n : Nat) (x : ReportRing) :
    (r.setRing n x).hold = r.hold := rfl

@[simp] theorem ReportUnit.setRing_deletedWrites (r : ReportUnit) (n : Nat) (x : ReportRing) :
    (r.setRing n x).deletedWrites = r.deletedWrites := rfl

@[simp] theorem ReportUnit.setRing_intrPending (r : ReportUnit) (n : Nat) (x : ReportRing) :
    (r.setRing n x).intrPending = r.intrPending := rfl

/-- A report ring's record depends on the ring list alone. -/
theorem ReportUnit.ring_congr {r q : ReportUnit} (h : r.rings = q.rings) (n : Nat) : r.ring n = q.ring n := by
  simp [ReportUnit.ring, h]

/-! ### What setting a region or a line leaves -/

@[simp] theorem State.setRegion_tb (s : State) (n : Nat) (x : Region) : (s.setRegion n x).tb = s.tb := rfl
@[simp] theorem State.setRegion_store (s : State) (n : Nat) (x : Region) : (s.setRegion n x).store = s.store := rfl
@[simp] theorem State.setRegion_disp (s : State) (n : Nat) (x : Region) : (s.setRegion n x).disp = s.disp := rfl
@[simp] theorem State.setRegion_engine (s : State) (n : Nat) (x : Region) : (s.setRegion n x).engine = s.engine := rfl
@[simp] theorem State.setRegion_lines (s : State) (n : Nat) (x : Region) : (s.setRegion n x).lines = s.lines := rfl
@[simp] theorem State.setRegion_posting (s : State) (n : Nat) (x : Region) : (s.setRegion n x).posting = s.posting := rfl
@[simp] theorem State.setRegion_report (s : State) (n : Nat) (x : Region) : (s.setRegion n x).report = s.report := rfl
@[simp] theorem State.setRegion_window (s : State) (n : Nat) (x : Region) : (s.setRegion n x).window = s.window := rfl
@[simp] theorem State.setRegion_inputs (s : State) (n : Nat) (x : Region) : (s.setRegion n x).inputs = s.inputs := rfl
@[simp] theorem State.setRegion_mem (s : State) (n : Nat) (x : Region) : (s.setRegion n x).mem = s.mem := rfl
@[simp] theorem State.setRegion_pending (s : State) (n : Nat) (x : Region) : (s.setRegion n x).pending = s.pending := rfl

@[simp] theorem State.setLine_tb (s : State) (n : Nat) (x : LineRec) : (s.setLine n x).tb = s.tb := rfl
@[simp] theorem State.setLine_store (s : State) (n : Nat) (x : LineRec) : (s.setLine n x).store = s.store := rfl
@[simp] theorem State.setLine_disp (s : State) (n : Nat) (x : LineRec) : (s.setLine n x).disp = s.disp := rfl
@[simp] theorem State.setLine_engine (s : State) (n : Nat) (x : LineRec) : (s.setLine n x).engine = s.engine := rfl
@[simp] theorem State.setLine_regions (s : State) (n : Nat) (x : LineRec) : (s.setLine n x).regions = s.regions := rfl
@[simp] theorem State.setLine_posting (s : State) (n : Nat) (x : LineRec) : (s.setLine n x).posting = s.posting := rfl
@[simp] theorem State.setLine_report (s : State) (n : Nat) (x : LineRec) : (s.setLine n x).report = s.report := rfl
@[simp] theorem State.setLine_window (s : State) (n : Nat) (x : LineRec) : (s.setLine n x).window = s.window := rfl
@[simp] theorem State.setLine_inputs (s : State) (n : Nat) (x : LineRec) : (s.setLine n x).inputs = s.inputs := rfl
@[simp] theorem State.setLine_mem (s : State) (n : Nat) (x : LineRec) : (s.setLine n x).mem = s.mem := rfl
@[simp] theorem State.setLine_pending (s : State) (n : Nat) (x : LineRec) : (s.setLine n x).pending = s.pending := rfl

@[simp] theorem State.line_setRegion (s : State) (n m : Nat) (x : Region) : (s.setRegion n x).line m = s.line m := rfl
@[simp] theorem State.region_setLine (s : State) (n m : Nat) (x : LineRec) : (s.setLine n x).region m = s.region m := rfl

end Sys2Proof.Machine
end

