-- ==== Sys2Proof/Laws/Reports.lean ====
section
/-!
SUPPORT. What the Report Unit's shared operations do, each said once: an acknowledgment handed in, a report's arrival, the
return of space, a reservation, references and pending bits.
-/
namespace Sys2Proof.Machine

variable (r : ReportUnit) (n : Nat)

/-- ACTIVE or LOSSY (R149). -/
theorem ReportRing.running_iff (x : ReportRing) : x.running = true ↔ x.state = .active ∨ x.state = .lossy := by
  simp [ReportRing.running]

/-- A unit whose rings are set to one value at `n` and are otherwise as they were. -/
theorem RingBecomes.of_setRing (x : ReportRing) : RingBecomes n x r (r.setRing n x) :=
  ⟨fun k => by simp, rfl, rfl⟩

/-! ### Acknowledgments -/

/-- Handing in an acknowledgment, ring by ring (R156). -/
theorem ReportUnit.handIn_ring (x : Report) (k : Nat) : (r.handIn n x).ring k =
    { r.ring k with
      queue := if k = n ∧ ((r.ring n).state = .active ∨ (r.ring n).state = .lossy) then (r.ring k).queue ++ [x]
        else (r.ring k).queue,
      reserved := if k = n ∧ (r.ring n).state ≠ .absent then (r.ring k).reserved - 1 else (r.ring k).reserved } := by
  unfold ReportUnit.handIn
  by_cases hk : k = n
  · subst hk
    cases hr : r.ring k with
    | mk st => cases st <;> simp [ReportRing.running, ReportRing.place, hr]
  · simp only [hk, false_and, if_false]
    split
    · simp [hk]
    · split <;> simp [hk]

theorem ReportUnit.handIn_rest (x : Report) : (r.handIn n x).hold = r.hold ∧
    (r.handIn n x).deletedWrites = r.deletedWrites ∧ (r.handIn n x).intrPending = r.intrPending := by
  simp only [ReportUnit.handIn]
  split
  · exact ⟨rfl, rfl, rfl⟩
  · split <;> exact ⟨rfl, rfl, rfl⟩

/-- What handing in an acknowledgment does to every ring, and what it leaves alone (R156). -/
theorem ReportUnit.handIn_added (x : Report) : AckAdded n x r (r.handIn n x) ∧ SameRingRefs r (r.handIn n x) := by
  obtain ⟨h1, h2, h3⟩ := ReportUnit.handIn_rest r n x
  refine ⟨⟨fun k => ?_, h1, h2, h3⟩, fun k => ?_⟩ <;> rw [ReportUnit.handIn_ring]

/-! ### Arrivals -/

/-- The hold list has an entry for a ring exactly when the ring's held reports are not none. -/
theorem ReportUnit.heldOf_eq_nil_iff :
    r.heldOf n = [] ↔ r.hold.any (fun e => decide (e.ring = n)) = false := by
  simp [ReportUnit.heldOf, List.filter_eq_nil_iff]

/-- A report taken is a report arrived, by the rows of R157. -/
theorem ReportUnit.take_arrived (x : Report) : Arrived n x r (r.take n x) := by
  simp only [Arrived, ReportUnit.take, ReportUnit.heldOf_eq_nil_iff, Config.holdCapacity]
  generalize hy : r.ring n = y
  obtain ⟨st⟩ := y
  cases st
  · rfl
  · dsimp only
    split
    · exact ⟨RingBecomes.of_setRing r n _, rfl⟩
    · by_cases h2 : r.hold.length < 32
      · simp only [h2, if_true]
        refine ⟨⟨fun k => ?_, rfl, rfl⟩, trivial⟩
        split
        · rename_i hk
          rw [hk, ← hy]
          rfl
        · rfl
      · simp only [h2, if_false]
        exact ⟨RingBecomes.of_setRing r n _, rfl⟩
  · exact ⟨RingBecomes.of_setRing r n _, rfl⟩
  · rfl

/-! ### The return of space -/

/-- Dropping entries of a ring drops that many of its held reports, oldest first. -/
theorem dropHeld_held (k : Nat) (es : List HoldEntry) :
    ((dropHeld n k es).filter (fun e => decide (e.ring = n))).map HoldEntry.report =
      ((es.filter (fun e => decide (e.ring = n))).map HoldEntry.report).drop k := by
  induction es generalizing k with
  | nil => cases k <;> simp [dropHeld]
  | cons e es ih =>
    cases k with
    | zero => simp [dropHeld]
    | succ k =>
      simp only [dropHeld]
      by_cases he : e.ring = n
      · simp [he, ih]
      · simp [he, ih]

/-- Dropping entries of a ring leaves those of the others. -/
theorem dropHeld_other {m : Nat} (h : m ≠ n) (k : Nat) (es : List HoldEntry) :
    (dropHeld n k es).filter (fun e => decide (e.ring = m)) = es.filter (fun e => decide (e.ring = m)) := by
  induction es generalizing k with
  | nil => cases k <;> simp [dropHeld]
  | cons e es ih =>
    cases k with
    | zero => simp [dropHeld]
    | succ k =>
      simp only [dropHeld]
      by_cases he : e.ring = n
      · have : e.ring ≠ m := fun h' => h (h'.symm.trans he)
        simp [he, Ne.symm h, ih]
      · simp [he, List.filter_cons, ih]

theorem dropHeld_sublist (k : Nat) (es : List HoldEntry) : (dropHeld n k es).Sublist es := by
  induction es generalizing k with
  | nil => cases k <;> simp [dropHeld]
  | cons e es ih =>
    cases k with
    | zero => simp [dropHeld]
    | succ k =>
      simp only [dropHeld]
      split
      · exact (ih k).trans (List.sublist_cons_self e es)
      · exact (ih (k + 1)).cons_cons e

@[simp] theorem ReportUnit.moveHeld_ring (k : Nat) : (r.moveHeld n).ring k =
    if k = n then { r.ring n with queue := (r.ring n).queue ++ (r.heldOf n).take (min (r.ring n).free (r.heldOf n).length) }
    else r.ring k := by
  simp [ReportUnit.moveHeld, ReportUnit.ring, ReportUnit.setRing, Map.get_set]

theorem ReportUnit.moveHeld_hold :
    (r.moveHeld n).hold = dropHeld n (min (r.ring n).free (r.heldOf n).length) r.hold := rfl

theorem ReportUnit.moveHeld_heldOf (m : Nat) : (r.moveHeld n).heldOf m =
    if m = n then (r.heldOf n).drop (r.ring n).free else r.heldOf m := by
  unfold ReportUnit.heldOf
  rw [ReportUnit.moveHeld_hold]
  split
  · rename_i h
    subst h
    rw [dropHeld_held]
    rcases le_total (r.ring m).free (r.heldOf m).length with h | h
    · rw [min_eq_left h]
    · rw [min_eq_right h]
      simp only [ReportUnit.heldOf] at h
      rw [List.drop_eq_nil_of_le h, List.drop_eq_nil_of_le (by simp [ReportUnit.heldOf])]
  · rename_i h
    rw [dropHeld_other n h]

/-- A return of space, whole (R159, R161). -/
theorem ReportUnit.returnSpace_returned (mt : U64) (h : (r.ring n).state = .active ∨ (r.ring n).state = .lossy) :
    SpaceReturned n mt r (r.returnSpace n mt) := by
  have hrun := (ReportRing.running_iff _).2 h
  have htake : (r.heldOf n).take (min (r.ring n).free (r.heldOf n).length) = (r.heldOf n).take (r.ring n).free := by
    rcases le_total (r.ring n).free (r.heldOf n).length with h | h
    · rw [min_eq_left h]
    · rw [min_eq_right h, List.take_length, List.take_of_length_le h]
  unfold SpaceReturned ReportUnit.returnSpace
  simp only [hrun, if_true]
  unfold ReportUnit.placeLoss
  have hfree : ((r.moveHeld n).ring n).free =
      (r.ring n).free - (min (r.ring n).free (r.heldOf n).length) := by
    simp [ReportRing.free, ReportRing.occupied, ReportRing.written]
    omega
  have hcond : ((r.moveHeld n).heldOf n = [] ∧ 1 ≤ ((r.moveHeld n).ring n).free) ↔
      (r.heldOf n).length + 1 ≤ (r.ring n).free := by
    rw [hfree, ReportUnit.moveHeld_heldOf, if_pos rfl, List.drop_eq_nil_iff]
    omega
  have hst : ((r.moveHeld n).ring n).state = (r.ring n).state := by simp
  simp only [hst, hcond]
  split
  · rename_i hc
    refine ⟨⟨fun k => ?_, rfl, rfl⟩, ?_, ?_, fun k hk => ?_⟩
    · by_cases hk : k = n
      · subst hk
        simp [ReportRing.place, htake]
      · simp [hk]
    · exact (ReportUnit.moveHeld_heldOf r n n).trans (if_pos rfl)
    · exact dropHeld_sublist n _ _
    · exact (ReportUnit.moveHeld_heldOf r n k).trans (if_neg hk)
  · refine ⟨⟨fun k => ?_, rfl, rfl⟩, ?_, ?_, fun k hk => ?_⟩
    · by_cases hk : k = n
      · subst hk
        simp [htake]
      · simp [hk]
    · exact (ReportUnit.moveHeld_heldOf r n n).trans (if_pos rfl)
    · exact dropHeld_sublist n _ _
    · exact (ReportUnit.moveHeld_heldOf r n k).trans (if_neg hk)

/-- No space returns to a ring that is neither ACTIVE nor LOSSY. -/
theorem ReportUnit.returnSpace_stopped (mt : U64) (h : (r.ring n).running = false) : r.returnSpace n mt = r := by
  simp [ReportUnit.returnSpace, h]

/-! ### Reservations and references -/

/-- A reservation granted (R155). -/
theorem ReportUnit.reserve_granted (h : (r.ring n).running = true) (hf : 1 ≤ (r.ring n).free) :
    r.reserve n = some (r.setRing n { r.ring n with reserved := (r.ring n).reserved + 1 }) := by
  simp [ReportUnit.reserve, h, hf]

/-- A granted reservation raises one reserved count, on a ring that is ACTIVE or LOSSY with a slot free. -/
theorem ReportUnit.reserve_some {r' : ReportUnit} (h : r.reserve n = some r') :
    (r.ring n).running = true ∧ 1 ≤ (r.ring n).free ∧
      r' = r.setRing n { r.ring n with reserved := (r.ring n).reserved + 1 } := by
  unfold ReportUnit.reserve at h
  simp only at h
  split at h
  · rename_i hc
    exact ⟨hc.1, hc.2, (Option.some.inj h).symm⟩
  · cases h

@[simp] theorem ReportUnit.addRef_ring (k : Nat) : (r.addRef n).ring k =
    { r.ring k with refs := (r.ring k).refs + if k = n then 1 else 0 } := by
  by_cases h : k = n <;> simp [ReportUnit.addRef, h]

@[simp] theorem ReportUnit.releaseRef_ring (k : Nat) : (r.releaseRef n).ring k =
    { r.ring k with refs := (r.ring k).refs - if k = n then 1 else 0 } := by
  by_cases h : k = n <;> simp [ReportUnit.releaseRef, h]

@[simp] theorem ReportUnit.addRef_hold : (r.addRef n).hold = r.hold := rfl
@[simp] theorem ReportUnit.addRef_deletedWrites : (r.addRef n).deletedWrites = r.deletedWrites := rfl
@[simp] theorem ReportUnit.addRef_intrPending : (r.addRef n).intrPending = r.intrPending := rfl
@[simp] theorem ReportUnit.releaseRef_hold : (r.releaseRef n).hold = r.hold := rfl
@[simp] theorem ReportUnit.releaseRef_deletedWrites : (r.releaseRef n).deletedWrites = r.deletedWrites := rfl
@[simp] theorem ReportUnit.releaseRef_intrPending : (r.releaseRef n).intrPending = r.intrPending := rfl

@[simp] theorem ReportUnit.raise_ring (k : Nat) : (r.raise n).ring k = r.ring k := rfl
@[simp] theorem ReportUnit.raise_hold : (r.raise n).hold = r.hold := rfl
@[simp] theorem ReportUnit.raise_deletedWrites : (r.raise n).deletedWrites = r.deletedWrites := rfl

/-- Raising a bit sets it and leaves the others (R169). -/
theorem ReportUnit.raise_bit {k : Nat} (hk : k < 9) :
    (r.raise n).intrPending.getLsbD k = (r.intrPending.getLsbD k || decide (k = n)) := by
  simp only [ReportUnit.raise, BitVec.getLsbD_or, BitVec.getLsbD_ofNat, Nat.testBit_two_pow]
  by_cases h : k = n
  · subst h; simp [hk]
  · simp [h, Ne.symm h]

end Sys2Proof.Machine
end

