-- ==== Sys2Proof/Laws/Store.lean ====
section
/-!
SUPPORT. What the Timer Store's shared operations do, each said once: places on the expiry queues, joining and leaving them,
freeing, firing and marking a slot.
-/
namespace Sys2Proof.Machine

variable (t : TimerStore) (n : Nat)

/-! ### The queues -/

@[simp] theorem TimerStore.queue_setQueue (sc sd : Scale) (q : List Nat) :
    (t.setQueue sc q).queue sd = if sd = sc then q else t.queue sd := by
  cases sc <;> cases sd <;> rfl

@[simp] theorem TimerStore.slot_setQueue (sc : Scale) (q : List Nat) (m : Nat) : (t.setQueue sc q).slot m = t.slot m := by
  cases sc <;> rfl

@[simp] theorem TimerStore.nextSeq_setQueue (sc : Scale) (q : List Nat) : (t.setQueue sc q).nextSeq = t.nextSeq := by
  cases sc <;> rfl

/-- Placing a timer on a queue adds it and nothing else. -/
theorem TimerStore.mem_place (m : Nat) (q : List Nat) : m ∈ t.place n q ↔ m = n ∨ m ∈ q := by
  induction q with
  | nil => simp [TimerStore.place]
  | cons k q ih =>
    simp only [TimerStore.place]
    split
    · simp
    · simp only [List.mem_cons, ih]; tauto

/-- A timer not on a queue stands there once when it has been placed. -/
theorem TimerStore.nodup_place {q : List Nat} (h : q.Nodup) (hn : n ∉ q) : (t.place n q).Nodup := by
  induction q with
  | nil => simp [TimerStore.place]
  | cons k q ih =>
    simp only [List.mem_cons, not_or] at hn
    simp only [TimerStore.place]
    split
    · exact List.nodup_cons.2 ⟨by simp [hn], h⟩
    · rw [List.nodup_cons] at h ⊢
      refine ⟨?_, ih h.2 hn.2⟩
      rw [TimerStore.mem_place]
      exact fun h' => h'.elim (fun e => hn.1 e.symm) h.1

/-! ### Leaving a queue, freeing, firing -/

@[simp] theorem TimerStore.leave_slot (m : Nat) : (t.leave n).slot m = t.slot m := rfl
@[simp] theorem TimerStore.leave_nextSeq : (t.leave n).nextSeq = t.nextSeq := rfl
@[simp] theorem TimerStore.leave_queue (sc : Scale) :
    (t.leave n).queue sc = (t.queue sc).filter (fun m => decide (m ≠ n)) := by
  cases sc <;> rfl

@[simp] theorem TimerStore.goFree_slot (m : Nat) : (t.goFree n).slot m =
    if m = n then { t.slot n with state := .free, cancelRequested := false, stepped := false } else t.slot m := by
  simp [TimerStore.goFree]
@[simp] theorem TimerStore.goFree_nextSeq : (t.goFree n).nextSeq = t.nextSeq := rfl
@[simp] theorem TimerStore.goFree_queue (sc : Scale) :
    (t.goFree n).queue sc = (t.queue sc).filter (fun m => decide (m ≠ n)) := by
  simp [TimerStore.goFree]

@[simp] theorem TimerStore.fire_slot (m : Nat) : (t.fire n).slot m =
    if m = n then { t.slot n with state := .firing, stepped := false } else t.slot m := by
  simp [TimerStore.fire]
@[simp] theorem TimerStore.fire_nextSeq : (t.fire n).nextSeq = t.nextSeq := rfl
@[simp] theorem TimerStore.fire_queue (sc : Scale) :
    (t.fire n).queue sc = (t.queue sc).filter (fun m => decide (m ≠ n)) := by
  simp [TimerStore.fire]

@[simp] theorem TimerStore.requestCancel_slot (m : Nat) : (t.requestCancel n).slot m =
    if m = n then { t.slot n with cancelRequested := true } else t.slot m := by
  simp [TimerStore.requestCancel]
@[simp] theorem TimerStore.requestCancel_nextSeq : (t.requestCancel n).nextSeq = t.nextSeq := rfl
@[simp] theorem TimerStore.requestCancel_queue (sc : Scale) : (t.requestCancel n).queue sc = t.queue sc := by
  simp [TimerStore.requestCancel]

/-! ### Joining a queue -/

variable (x : TimerSlot)

@[simp] theorem TimerStore.join_slot (m : Nat) :
    (t.join n x).slot m = if m = n then { x with seq := t.nextSeq } else t.slot m := by
  simp only [TimerStore.join, TimerStore.slot_setQueue]
  exact TimerStore.slot_setSlot t n m { x with seq := t.nextSeq }

@[simp] theorem TimerStore.join_nextSeq : (t.join n x).nextSeq = t.nextSeq + 1 := by
  simp [TimerStore.join]

/-- A place depends on the slot records alone. -/
theorem TimerStore.place_congr {a b : TimerStore} (h : ∀ m, a.slot m = b.slot m) (n : Nat) (q : List Nat) :
    a.place n q = b.place n q := by
  induction q with
  | nil => rfl
  | cons k q ih => simp [TimerStore.place, h, ih]

/-- The store with a joining slot's record set, before it has a place: what `join` looks at to place it. -/
theorem TimerStore.join_queue (sc : Scale) : (t.join n x).queue sc =
    if sc = x.scale then TimerStore.place (t.setSlot n { x with seq := t.nextSeq }) n (t.queue sc) else t.queue sc := by
  simp only [TimerStore.join, TimerStore.queue_setQueue]
  have hq : ∀ sd, ({ t.setSlot n { x with seq := t.nextSeq } with nextSeq := t.nextSeq + 1 } : TimerStore).queue sd =
      t.queue sd := by intro sd; cases sd <;> rfl
  split
  · rename_i h
    rw [hq, h]
    apply TimerStore.place_congr
    exact fun _ => rfl
  · exact hq sc

/-- Joining a queue puts the slot on the queue of its scale; the others stand where they stood. -/
theorem TimerStore.mem_join_queue (sc : Scale) (m : Nat) :
    m ∈ (t.join n x).queue sc ↔ m ∈ t.queue sc ∨ (m = n ∧ sc = x.scale) := by
  rw [TimerStore.join_queue]
  split
  · rename_i h
    rw [TimerStore.mem_place]
    simp [h, or_comm]
  · rename_i h
    simp [h]

/-! ### The stepped marking claim -/

theorem Map.find_map {α : Type} (f : α → α) (m : List (Nat × α)) (k : Nat) :
    Map.find (m.map (fun p => (p.1, f p.2))) k = (Map.find m k).map f := by
  induction m with
  | nil => rfl
  | cons p m ih =>
    obtain ⟨j, w⟩ := p
    simp only [List.map_cons, Map.find]
    split <;> simp [ih]

/-- The marking claim on every slot (R5). -/
@[simp] theorem TimerStore.markStep_slot (p0 p1 : U64) (m : Nat) :
    (t.markStep p0 p1).slot m = TimerSlot.markStep p0 p1 (t.slot m) := by
  simp only [TimerStore.markStep, TimerStore.slot, Map.get, Map.find_map]
  cases Map.find t.slots m <;> rfl

@[simp] theorem TimerStore.markStep_nextSeq (p0 p1 : U64) : (t.markStep p0 p1).nextSeq = t.nextSeq := rfl
@[simp] theorem TimerStore.markStep_queue (p0 p1 : U64) (sc : Scale) : (t.markStep p0 p1).queue sc = t.queue sc := by
  cases sc <;> rfl

/-- A slot marked or not: only its mark can differ. -/
theorem TimerSlot.markStep_eq (p0 p1 : U64) : TimerSlot.markStep p0 p1 x =
    { x with stepped := x.stepped || (decide (x.state = .armed) && decide (x.scale = .pt) && decide (p0 < x.deadline) &&
      decide (x.deadline ≤ p1)) } := by
  unfold TimerSlot.markStep
  split
  · rename_i h
    simp [h]
  · rename_i h
    have : (decide (x.state = .armed) && decide (x.scale = .pt) && decide (p0 < x.deadline) &&
        decide (x.deadline ≤ p1)) = false := by
      simp only [Bool.and_eq_false_iff, decide_eq_false_iff_not]
      tauto
    rw [this, Bool.or_false]

@[simp] theorem TimerSlot.markStep_state (p0 p1 : U64) : (TimerSlot.markStep p0 p1 x).state = x.state := by
  rw [TimerSlot.markStep_eq]
@[simp] theorem TimerSlot.markStep_scale (p0 p1 : U64) : (TimerSlot.markStep p0 p1 x).scale = x.scale := by
  rw [TimerSlot.markStep_eq]
@[simp] theorem TimerSlot.markStep_deadline (p0 p1 : U64) : (TimerSlot.markStep p0 p1 x).deadline = x.deadline := by
  rw [TimerSlot.markStep_eq]
@[simp] theorem TimerSlot.markStep_seq (p0 p1 : U64) : (TimerSlot.markStep p0 p1 x).seq = x.seq := by
  rw [TimerSlot.markStep_eq]

/-! ### Order on a queue -/

/-- A slot's place depends on its deadline and insertion sequence alone. -/
theorem TimerSlot.before_congr {a b c d : TimerSlot} (h1 : a.deadline = c.deadline) (h2 : a.seq = c.seq)
    (h3 : b.deadline = d.deadline) (h4 : b.seq = d.seq) : a.before b = c.before d := by
  simp [TimerSlot.before, h1, h2, h3, h4]

theorem TimerSlot.before_asymm {a b : TimerSlot} (h : a.before b = true) : b.before a = false := by
  simp only [TimerSlot.before, Bool.or_eq_true, Bool.and_eq_true, decide_eq_true_eq, Bool.or_eq_false_iff,
    Bool.and_eq_false_iff, decide_eq_false_iff_not] at h ⊢
  rcases h with h | ⟨h, h'⟩
  · exact ⟨by bv_omega, .inl (by bv_omega)⟩
  · exact ⟨by bv_omega, .inr (by bv_omega)⟩

theorem TimerSlot.before_trans_not {a b c : TimerSlot} (h : a.before b = true) (h' : c.before b = false) :
    c.before a = false := by
  simp only [TimerSlot.before, Bool.or_eq_true, Bool.and_eq_true, decide_eq_true_eq, Bool.or_eq_false_iff,
    Bool.and_eq_false_iff, decide_eq_false_iff_not] at h h' ⊢
  obtain ⟨h1, h2⟩ := h'
  rcases h with h | ⟨h, h3⟩
  · exact ⟨by bv_omega, .inl (by bv_omega)⟩
  · rcases h2 with h2 | h2
    · exact ⟨by bv_omega, .inl (by bv_omega)⟩
    · exact ⟨by bv_omega, by
        by_cases e : c.deadline = a.deadline
        · exact .inr (by bv_omega)
        · exact .inl e⟩

/-- Placing a timer keeps a queue in order (R6). -/
theorem TimerStore.place_inOrder {q : List Nat}
    (h : q.Pairwise (fun a b => (t.slot b).before (t.slot a) = false)) :
    (t.place n q).Pairwise (fun a b => (t.slot b).before (t.slot a) = false) := by
  induction q with
  | nil => simp [TimerStore.place]
  | cons k q ih =>
    rw [List.pairwise_cons] at h
    simp only [TimerStore.place]
    split
    · rename_i hb
      rw [List.pairwise_cons, List.pairwise_cons]
      refine ⟨fun b hb' => ?_, h⟩
      rcases List.mem_cons.1 hb' with rfl | hb'
      · exact TimerSlot.before_asymm hb
      · exact TimerSlot.before_trans_not hb (h.1 b hb')
    · rename_i hb
      rw [List.pairwise_cons]
      refine ⟨fun b hb' => ?_, ih h.2⟩
      rcases (TimerStore.mem_place t n b q).1 hb' with rfl | hb'
      · simpa using hb
      · exact h.1 b hb'

end Sys2Proof.Machine
end

