-- ==== Sys2Proof/Laws/Requests.lean ====
section
/-!
SUPPORT. What the operations shared by the requests do, each said once: finding the record at its owner, answering it, adding
and releasing references, offering the head runs, applying a time step.
-/
namespace Sys2Proof.Machine

variable (s : State)

/-! ### The record in progress and its answer -/

/-- The record in progress is found at its owner. -/
theorem AtOwner.eq {s : State} {op : Opcode} {r : IntakeRecord} {w : PostSlot} (h : AtOwner s op r w) :
    s.atOwner op = some (r, w) := by
  obtain ⟨h1, h2, h3, h4⟩ := h
  simp [State.atOwner, h1, h2, h3, h4]

/-- What is found at an owner is the record in progress. -/
theorem AtOwner.of_some {s : State} {op : Opcode} {r : IntakeRecord} {w : PostSlot} (h : s.atOwner op = some (r, w)) :
    AtOwner s op r w := by
  unfold State.atOwner at h
  split at h
  · cases h
  · rename_i r' hr
    split at h
    · cases h
    · rename_i w' hw
      split at h
      · rename_i hc
        simp only [Option.some.injEq, Prod.mk.injEq] at h
        obtain ⟨rfl, rfl⟩ := h
        exact ⟨hr, hc.1, hw, hc.2⟩
      · cases h

variable (r : IntakeRecord) (w : PostSlot) (st : Status) (res : AckResults)

@[simp] theorem State.answer_tb : (s.answer r w st res).tb = s.tb := rfl
@[simp] theorem State.answer_store : (s.answer r w st res).store = s.store := rfl
@[simp] theorem State.answer_disp : (s.answer r w st res).disp = s.disp := rfl
@[simp] theorem State.answer_engine : (s.answer r w st res).engine = s.engine := rfl
@[simp] theorem State.answer_regions : (s.answer r w st res).regions = s.regions := rfl
@[simp] theorem State.answer_lines : (s.answer r w st res).lines = s.lines := rfl
@[simp] theorem State.answer_window : (s.answer r w st res).window = s.window := rfl
@[simp] theorem State.answer_inputs : (s.answer r w st res).inputs = s.inputs := rfl
@[simp] theorem State.answer_mem : (s.answer r w st res).mem = s.mem := rfl
@[simp] theorem State.answer_pending : (s.answer r w st res).pending = s.pending := rfl
@[simp] theorem State.answer_posting :
    (s.answer r w st res).posting = { s.posting with inProgress := none } := rfl
@[simp] theorem State.answer_report :
    (s.answer r w st res).report = s.report.handIn r.bound (.ack (ackOf r w) st res) := rfl
@[simp] theorem State.answer_postRing (n : Nat) : (s.answer r w st res).posting.ring n = s.posting.ring n := rfl
@[simp] theorem State.answer_region (n : Nat) : (s.answer r w st res).region n = s.region n := rfl
@[simp] theorem State.answer_line (n : Nat) : (s.answer r w st res).line n = s.line n := rfl

/-- An answer adds its acknowledgment and ends the record (R140). -/
theorem State.answer_answered : Answered r w st res s (s.answer r w st res) := by
  obtain ⟨h1, h2⟩ := ReportUnit.handIn_added s.report r.bound (.ack (ackOf r w) st res)
  exact ⟨h1, h2, rfl⟩

/-- An answer changes the Report Unit and the Posting Unit alone. -/
theorem State.answer_onlyIn : OnlyIn [.report, .posting] s (s.answer r w st res) := by
  simp [OnlyIn]

@[simp] theorem State.handIn_tb (h : AckHead) : (s.handIn h st res).tb = s.tb := rfl
@[simp] theorem State.handIn_store (h : AckHead) : (s.handIn h st res).store = s.store := rfl
@[simp] theorem State.handIn_disp (h : AckHead) : (s.handIn h st res).disp = s.disp := rfl
@[simp] theorem State.handIn_engine (h : AckHead) : (s.handIn h st res).engine = s.engine := rfl
@[simp] theorem State.handIn_regions (h : AckHead) : (s.handIn h st res).regions = s.regions := rfl
@[simp] theorem State.handIn_lines (h : AckHead) : (s.handIn h st res).lines = s.lines := rfl
@[simp] theorem State.handIn_posting (h : AckHead) : (s.handIn h st res).posting = s.posting := rfl
@[simp] theorem State.handIn_window (h : AckHead) : (s.handIn h st res).window = s.window := rfl
@[simp] theorem State.handIn_inputs (h : AckHead) : (s.handIn h st res).inputs = s.inputs := rfl
@[simp] theorem State.handIn_mem (h : AckHead) : (s.handIn h st res).mem = s.mem := rfl
@[simp] theorem State.handIn_pending (h : AckHead) : (s.handIn h st res).pending = s.pending := rfl
@[simp] theorem State.handIn_report (h : AckHead) :
    (s.handIn h st res).report = s.report.handIn h.bound (.ack h st res) := rfl

/-! ### Offers -/

@[simp] theorem State.offer_tb : s.offer.tb = s.tb := rfl
@[simp] theorem State.offer_store : s.offer.store = s.store := rfl
@[simp] theorem State.offer_engine : s.offer.engine = s.engine := rfl
@[simp] theorem State.offer_regions : s.offer.regions = s.regions := rfl
@[simp] theorem State.offer_lines : s.offer.lines = s.lines := rfl
@[simp] theorem State.offer_posting : s.offer.posting = s.posting := rfl
@[simp] theorem State.offer_report : s.offer.report = s.report := rfl
@[simp] theorem State.offer_window : s.offer.window = s.window := rfl
@[simp] theorem State.offer_inputs : s.offer.inputs = s.inputs := rfl
@[simp] theorem State.offer_mem : s.offer.mem = s.mem := rfl
@[simp] theorem State.offer_pending : s.offer.pending = s.pending := rfl
@[simp] theorem State.offer_region (n : Nat) : s.offer.region n = s.region n := rfl
@[simp] theorem State.offer_line (n : Nat) : s.offer.line n = s.line n := rfl

/-- After a reassessment the offered set is the one it gives (R8). -/
theorem State.offer_reoffered : Reoffered s.offer := rfl

/-- Whether the offered set is the store's depends on the time, the store, the regions and the set. -/
theorem Reoffered.congr {s t : State} (h : Reoffered s) (h1 : ∀ sc, t.tb.now sc = s.tb.now sc) (h2 : t.store = s.store)
    (h3 : t.regions = s.regions) (h4 : t.disp = s.disp) : Reoffered t := by
  have ho : t.offerOf = s.offerOf := by
    funext n
    simp [State.offerOf, State.targetOf, State.hostAddr, State.region, h2, h3]
  have hr : ∀ sc, t.store.headRun t.tb sc = s.store.headRun s.tb sc := by
    intro sc
    simp [TimerStore.headRun, h1, h2]
  simp only [Reoffered, hr, h4, ho]
  exact h

/-! ### References -/

theorem State.foldl_addRegionRef (l : List Nat) :
    (l.foldl State.addRegionRef s) = s.setRegions (l.foldl State.addRegionRef s).regions := by
  induction l generalizing s with
  | nil => rfl
  | cons n l ih => rw [List.foldl_cons, ih]; rfl

theorem State.foldl_releaseRegionRef (l : List Nat) :
    (l.foldl State.releaseRegionRef s) = s.setRegions (l.foldl State.releaseRegionRef s).regions := by
  induction l generalizing s with
  | nil => rfl
  | cons n l ih => rw [List.foldl_cons, ih]; rfl

theorem State.foldl_addRegionRef_region (l : List Nat) (k : Nat) : (l.foldl State.addRegionRef s).region k =
    { s.region k with refs := (s.region k).refs + l.count k } := by
  induction l generalizing s with
  | nil => rfl
  | cons n l ih =>
    rw [List.foldl_cons, ih, State.addRegionRef, State.region_setRegion]
    by_cases h : k = n
    · subst h; simp [Nat.add_assoc, Nat.add_comm 1]
    · simp [h, Ne.symm h]

theorem State.foldl_releaseRegionRef_region (l : List Nat) (k : Nat) : (l.foldl State.releaseRegionRef s).region k =
    { s.region k with refs := (s.region k).refs - l.count k } := by
  induction l generalizing s with
  | nil => rfl
  | cons n l ih =>
    rw [List.foldl_cons, ih, State.releaseRegionRef, State.region_setRegion]
    by_cases h : k = n
    · subst h; simp [Nat.sub_sub, Nat.add_comm 1]
    · simp [h, Ne.symm h]

/-- Adding an arming's references changes the region list and the Report Unit. -/
theorem State.addRefs_eq (x : TimerSlot) : s.addRefs x = (s.setRegions (s.addRefs x).regions).setReport
    (match x.reportRing with
      | none => s.report
      | some n => s.report.addRef n) := by
  unfold State.addRefs
  rw [State.foldl_addRegionRef]
  cases x.reportRing <;> rfl

/-- Releasing an arming's references changes the region list and the Report Unit. -/
theorem State.releaseRefs_eq (x : TimerSlot) : s.releaseRefs x = (s.setRegions (s.releaseRefs x).regions).setReport
    (match x.reportRing with
      | none => s.report
      | some n => s.report.releaseRef n) := by
  unfold State.releaseRefs
  rw [State.foldl_releaseRegionRef]
  cases x.reportRing <;> rfl

variable (x : TimerSlot)

@[simp] theorem State.addRefs_tb : (s.addRefs x).tb = s.tb := by rw [State.addRefs_eq]; rfl
@[simp] theorem State.addRefs_store : (s.addRefs x).store = s.store := by rw [State.addRefs_eq]; rfl
@[simp] theorem State.addRefs_disp : (s.addRefs x).disp = s.disp := by rw [State.addRefs_eq]; rfl
@[simp] theorem State.addRefs_engine : (s.addRefs x).engine = s.engine := by rw [State.addRefs_eq]; rfl
@[simp] theorem State.addRefs_lines : (s.addRefs x).lines = s.lines := by rw [State.addRefs_eq]; rfl
@[simp] theorem State.addRefs_posting : (s.addRefs x).posting = s.posting := by rw [State.addRefs_eq]; rfl
@[simp] theorem State.addRefs_window : (s.addRefs x).window = s.window := by rw [State.addRefs_eq]; rfl
@[simp] theorem State.addRefs_inputs : (s.addRefs x).inputs = s.inputs := by rw [State.addRefs_eq]; rfl
@[simp] theorem State.addRefs_mem : (s.addRefs x).mem = s.mem := by rw [State.addRefs_eq]; rfl
@[simp] theorem State.addRefs_pending : (s.addRefs x).pending = s.pending := by rw [State.addRefs_eq]; rfl
theorem State.addRefs_report : (s.addRefs x).report = (match x.reportRing with
      | none => s.report
      | some n => s.report.addRef n) := by rw [State.addRefs_eq]; rfl
@[simp] theorem State.addRefs_region (k : Nat) : (s.addRefs x).region k =
    { s.region k with refs := (s.region k).refs + x.regionRefs.count k } := by
  rw [← State.foldl_addRegionRef_region]
  unfold State.addRefs
  cases x.reportRing <;> rfl

@[simp] theorem State.releaseRefs_tb : (s.releaseRefs x).tb = s.tb := by rw [State.releaseRefs_eq]; rfl
@[simp] theorem State.releaseRefs_store : (s.releaseRefs x).store = s.store := by rw [State.releaseRefs_eq]; rfl
@[simp] theorem State.releaseRefs_disp : (s.releaseRefs x).disp = s.disp := by rw [State.releaseRefs_eq]; rfl
@[simp] theorem State.releaseRefs_engine : (s.releaseRefs x).engine = s.engine := by rw [State.releaseRefs_eq]; rfl
@[simp] theorem State.releaseRefs_lines : (s.releaseRefs x).lines = s.lines := by rw [State.releaseRefs_eq]; rfl
@[simp] theorem State.releaseRefs_posting : (s.releaseRefs x).posting = s.posting := by rw [State.releaseRefs_eq]; rfl
@[simp] theorem State.releaseRefs_window : (s.releaseRefs x).window = s.window := by rw [State.releaseRefs_eq]; rfl
@[simp] theorem State.releaseRefs_inputs : (s.releaseRefs x).inputs = s.inputs := by rw [State.releaseRefs_eq]; rfl
@[simp] theorem State.releaseRefs_mem : (s.releaseRefs x).mem = s.mem := by rw [State.releaseRefs_eq]; rfl
@[simp] theorem State.releaseRefs_pending : (s.releaseRefs x).pending = s.pending := by rw [State.releaseRefs_eq]; rfl
theorem State.releaseRefs_report : (s.releaseRefs x).report = (match x.reportRing with
      | none => s.report
      | some n => s.report.releaseRef n) := by rw [State.releaseRefs_eq]; rfl
@[simp] theorem State.releaseRefs_region (k : Nat) : (s.releaseRefs x).region k =
    { s.region k with refs := (s.region k).refs - x.regionRefs.count k } := by
  rw [← State.foldl_releaseRegionRef_region]
  unfold State.releaseRefs
  cases x.reportRing <;> rfl

/-- The report rings after an arming's reference is added. -/
@[simp] theorem State.addRefs_ring (k : Nat) : (s.addRefs x).report.ring k =
    { s.report.ring k with refs := (s.report.ring k).refs + if x.reportRing = some k then 1 else 0 } := by
  rw [State.addRefs_report]
  cases h : x.reportRing with
  | none => simp
  | some n => simp [eq_comm]

/-- The report rings after an arming's reference is released. -/
@[simp] theorem State.releaseRefs_ring (k : Nat) : (s.releaseRefs x).report.ring k =
    { s.report.ring k with refs := (s.report.ring k).refs - if x.reportRing = some k then 1 else 0 } := by
  rw [State.releaseRefs_report]
  cases h : x.reportRing with
  | none => simp
  | some n => simp [eq_comm]

@[simp] theorem State.addRefs_hold : (s.addRefs x).report.hold = s.report.hold := by
  rw [State.addRefs_report]; cases x.reportRing <;> rfl
@[simp] theorem State.addRefs_deletedWrites : (s.addRefs x).report.deletedWrites = s.report.deletedWrites := by
  rw [State.addRefs_report]; cases x.reportRing <;> rfl
@[simp] theorem State.addRefs_intrPending : (s.addRefs x).report.intrPending = s.report.intrPending := by
  rw [State.addRefs_report]; cases x.reportRing <;> rfl
@[simp] theorem State.releaseRefs_hold : (s.releaseRefs x).report.hold = s.report.hold := by
  rw [State.releaseRefs_report]; cases x.reportRing <;> rfl
@[simp] theorem State.releaseRefs_deletedWrites : (s.releaseRefs x).report.deletedWrites = s.report.deletedWrites := by
  rw [State.releaseRefs_report]; cases x.reportRing <;> rfl
@[simp] theorem State.releaseRefs_intrPending : (s.releaseRefs x).report.intrPending = s.report.intrPending := by
  rw [State.releaseRefs_report]; cases x.reportRing <;> rfl

/-! ### Time steps (R92) -/

theorem TimeBase.stepped_pt (t : TimeBase) (mode : StepMode) (v : U64) : (t.stepped mode v).pt =
    match mode with
    | .absolute => v
    | .relative => t.pt + v := by
  cases mode <;> simp only [TimeBase.stepped, TimeBase.pt] <;> ring

variable (mode : StepMode) (v : U64)

@[simp] theorem State.applyStep_tb : (s.applyStep mode v).tb = s.tb.stepped mode v := rfl
@[simp] theorem State.applyStep_store :
    (s.applyStep mode v).store = s.store.markStep s.tb.pt (s.tb.stepped mode v).pt := rfl
@[simp] theorem State.applyStep_engine : (s.applyStep mode v).engine = s.engine := rfl
@[simp] theorem State.applyStep_regions : (s.applyStep mode v).regions = s.regions := rfl
@[simp] theorem State.applyStep_lines : (s.applyStep mode v).lines = s.lines := rfl
@[simp] theorem State.applyStep_posting : (s.applyStep mode v).posting = s.posting := rfl
@[simp] theorem State.applyStep_report : (s.applyStep mode v).report = s.report := rfl
@[simp] theorem State.applyStep_window : (s.applyStep mode v).window = s.window := rfl
@[simp] theorem State.applyStep_inputs : (s.applyStep mode v).inputs = s.inputs := rfl
@[simp] theorem State.applyStep_mem : (s.applyStep mode v).mem = s.mem := rfl
@[simp] theorem State.applyStep_pending : (s.applyStep mode v).pending = s.pending := rfl
theorem State.applyStep_reoffered : Reoffered (s.applyStep mode v) := State.offer_reoffered _

/-! ### Armings and their removal -/

/-- Every count an arming has named a region, by the state of its slot. -/
theorem TimerSlot.namesRegion_of (h : x.state ≠ .free) (k : Nat) : x.namesRegion k = x.regionRefs.count k := if_neg h

theorem TimerSlot.namesRing_of (h : x.state ≠ .free) (k : Nat) :
    x.namesRing k = if x.reportRing = some k then 1 else 0 := by
  simp [TimerSlot.namesRing, h]

theorem TimerSlot.namesRegion_free (h : x.state = .free) (k : Nat) : x.namesRegion k = 0 := if_pos h

theorem TimerSlot.namesRing_free (h : x.state = .free) (k : Nat) : x.namesRing k = 0 := by
  simp [TimerSlot.namesRing, h]

/-- The removal of the old arming of a slot that is not FIRING (R19). -/
theorem State.removeArming_spec (n : Nat) (hf : (s.store.slot n).state ≠ .firing) :
    OnlyIn [.store, .regions, .report] s (s.removeArming n) ∧
    (∀ m, (s.removeArming n).store.slot m = s.store.slot m) ∧
    (s.removeArming n).store.nextSeq = s.store.nextSeq ∧
    (∀ sc m, m ≠ n → (m ∈ (s.removeArming n).store.queue sc ↔ m ∈ s.store.queue sc)) ∧
    (∀ k, (s.removeArming n).region k =
      { s.region k with refs := (s.region k).refs - (s.store.slot n).namesRegion k }) ∧
    (∀ k, (s.removeArming n).report.ring k =
      { s.report.ring k with refs := (s.report.ring k).refs - (s.store.slot n).namesRing k }) ∧
    (s.removeArming n).report.hold = s.report.hold ∧
    (s.removeArming n).report.deletedWrites = s.report.deletedWrites ∧
    (s.removeArming n).report.intrPending = s.report.intrPending := by
  by_cases h : (s.store.slot n).state = .armed
  · have hne : (s.store.slot n).state ≠ .free := by simp [h]
    simp only [State.removeArming, if_pos h]
    refine ⟨by simp [OnlyIn], fun m => by simp, by simp, fun sc m hm => by simp [hm], fun k => ?_, fun k => ?_,
      by simp, by simp, by simp⟩
    · rw [TimerSlot.namesRegion_of _ hne, State.releaseRefs_region]; rfl
    · rw [TimerSlot.namesRing_of _ hne, State.releaseRefs_ring]; rfl
  · have hfr : (s.store.slot n).state = .free := by
      cases hs : (s.store.slot n).state <;> simp_all
    have e : s.removeArming n = s := if_neg h
    rw [e]
    refine ⟨OnlyIn.refl _ _, fun m => rfl, rfl, fun sc m _ => Iff.rfl, fun k => ?_, fun k => ?_, rfl, rfl, rfl⟩
    · rw [TimerSlot.namesRegion_free _ hfr]; rfl
    · rw [TimerSlot.namesRing_free _ hfr]; rfl

/-- Arming a slot that is not FIRING with a new record (R18, R19). -/
theorem State.armSlot_spec (n : Nat) (hf : (s.store.slot n).state ≠ .firing) (hx : x.state = .armed) :
    OnlyIn [.store, .disp, .regions, .report] s (s.armSlot n x) ∧
    (∀ m, (s.armSlot n x).store.slot m = if m = n then { x with seq := s.store.nextSeq } else s.store.slot m) ∧
    (s.armSlot n x).store.nextSeq = s.store.nextSeq + 1 ∧
    n ∈ (s.armSlot n x).store.queue x.scale ∧
    (∀ sc m, m ≠ n → (m ∈ (s.armSlot n x).store.queue sc ↔ m ∈ s.store.queue sc)) ∧
    Reoffered (s.armSlot n x) ∧
    (∀ k, (s.armSlot n x).region k =
      { s.region k with refs := (s.region k).refs - (s.store.slot n).namesRegion k + x.namesRegion k }) ∧
    (∀ k, (s.armSlot n x).report.ring k =
      { s.report.ring k with refs := (s.report.ring k).refs - (s.store.slot n).namesRing k + x.namesRing k }) ∧
    (s.armSlot n x).report.hold = s.report.hold ∧
    (s.armSlot n x).report.deletedWrites = s.report.deletedWrites ∧
    (s.armSlot n x).report.intrPending = s.report.intrPending := by
  obtain ⟨h1, h2, h3, h4, h5, h6, h7, h8, h9⟩ := s.removeArming_spec n hf
  have hne : x.state ≠ .free := by simp [hx]
  unfold State.armSlot
  refine ⟨?_, fun m => by simp [h2, h3], by simp [h3], by simp [TimerStore.mem_join_queue], fun sc m hm => ?_,
    State.offer_reoffered _, fun k => ?_, fun k => ?_, by simpa using h7, by simpa using h8, by simpa using h9⟩
  · refine (h1.mono (by simp)).trans ?_
    simp [OnlyIn]
  · simp [TimerStore.mem_join_queue, hm, h4 sc m hm]
  · rw [TimerSlot.namesRegion_of x hne]
    exact (State.addRefs_region _ x k).trans (by rw [h5])
  · rw [TimerSlot.namesRing_of x hne]
    exact (State.addRefs_ring _ x k).trans (by rw [h6])

/-- An acknowledgment handed in to a Report Unit that differs from another in reference counts alone. -/
theorem AckAdded.of_refs {a b : ReportUnit} (n : Nat) (y : Report)
    (h : ∀ k, b.ring k = { a.ring k with refs := (b.ring k).refs }) (h1 : b.hold = a.hold)
    (h2 : b.deletedWrites = a.deletedWrites) (h3 : b.intrPending = a.intrPending) :
    AckAdded n y a (b.handIn n y) := by
  obtain ⟨⟨i1, i2, i3, i4⟩, i5⟩ := ReportUnit.handIn_added b n y
  refine ⟨fun k => ?_, i2.trans h1, i3.trans h2, i4.trans h3⟩
  have hs : ∀ k, (b.ring k).state = (a.ring k).state := fun k => by rw [h k]
  rw [i1 k, h k]
  simp only [hs, i5 k]

end Sys2Proof.Machine
end

