-- ==== Sys2Proof/Laws/Clock.lean ====
section
/-!
SUPPORT. What a tick does, said once: to the Time Base, to the lines, to the report rings; and what the oscillator's periods
and REFCLK's edges do beside it.
-/
namespace Sys2Proof.Machine

/-! ### The Time Base -/

@[simp] theorem TimeBase.advance_mt (t : TimeBase) : t.advance.mt = t.mt + 1 := rfl
@[simp] theorem TimeBase.advance_windowPos (t : TimeBase) : t.advance.windowPos = (t.windowPos + 1) % 1048576 := rfl
@[simp] theorem TimeBase.advance_trim (t : TimeBase) : t.advance.trim = t.trim := rfl
@[simp] theorem TimeBase.advance_pendingStep (t : TimeBase) : t.advance.pendingStep = t.pendingStep := rfl
@[simp] theorem TimeBase.advance_pendingSwitch (t : TimeBase) : t.advance.pendingSwitch = t.pendingSwitch := rfl
@[simp] theorem TimeBase.advance_source (t : TimeBase) : t.advance.source = t.source := rfl
@[simp] theorem TimeBase.advance_marks (t : TimeBase) : t.advance.marks = t.marks := rfl
@[simp] theorem TimeBase.advance_intDivisor (t : TimeBase) : t.advance.intDivisor = t.intDivisor := rfl
@[simp] theorem TimeBase.advance_extDivisor (t : TimeBase) : t.advance.extDivisor = t.extDivisor := rfl
@[simp] theorem TimeBase.advance_gapCount (t : TimeBase) : t.advance.gapCount = t.gapCount := rfl

/-- PT at a tick: one on, and the trim's adjustment (R81, R90). -/
theorem TimeBase.advance_pt (t : TimeBase) : t.advance.pt = t.pt + 1 + trimStep t.trim t.windowPos := by
  simp only [TimeBase.advance, TimeBase.pt]; ring

/-- Now depends on MT and OFFSET alone. -/
theorem TimeBase.now_congr {a b : TimeBase} (h1 : a.mt = b.mt) (h2 : a.offset = b.offset) (sc : Scale) :
    a.now sc = b.now sc := by
  cases sc <;> simp [TimeBase.now, TimeBase.pt, h1, h2]

/-! ### The pending switch and the pending step at a tick -/

variable (s : State)

/-- The pending switch at a tick changes the source, the switch and the Report Unit alone. -/
theorem State.switchAtTick_eq : s.switchAtTick = (s.setTb { s.tb with
    source := s.switchAtTick.tb.source, pendingSwitch := s.switchAtTick.tb.pendingSwitch }).setReport
    s.switchAtTick.report := by
  unfold State.switchAtTick
  split
  · rfl
  · split
    · rfl
    · split <;> rfl

/-- The pending step at a tick changes the step and the Report Unit alone. -/
theorem State.alignAtTick_eq : s.alignAtTick = (s.setTb { s.tb with
    pendingStep := s.alignAtTick.tb.pendingStep }).setReport s.alignAtTick.report := by
  unfold State.alignAtTick
  split
  · rfl
  · split <;> rfl

/-- A pending switch qualified before a tick is made at it (R85). -/
theorem State.switchAtTick_made {p : PendingSwitch} (h : s.tb.pendingSwitch = some p) (he : 1024 ≤ p.edges) :
    s.switchAtTick = (s.setTb { s.tb with source := .external, pendingSwitch := none }).handIn p.ack .ok
      (.timebase .external s.tb.intDivisor s.tb.extDivisor) := by
  simp [State.switchAtTick, h, he, Config.qualifyEdges, TimeBase.configResults]

/-- A pending switch unqualified at its 65,536th tick ends (R86). -/
theorem State.switchAtTick_timedOut {p : PendingSwitch} (h : s.tb.pendingSwitch = some p) (he : p.edges < 1024)
    (ht : 65536 ≤ p.ticks + 1) :
    s.switchAtTick = (s.setTb { s.tb with source := p.returnState, pendingSwitch := none }).handIn p.ack .sourceNotReady
      (.timebase p.returnState s.tb.intDivisor s.tb.extDivisor) := by
  simp [State.switchAtTick, h, Nat.not_le.2 he, ht, Config.qualifyEdges, Config.qualifyTicks, TimeBase.configResults]

/-- A pending switch that waits has its tick counted. -/
theorem State.switchAtTick_counted {p : PendingSwitch} (h : s.tb.pendingSwitch = some p) (he : p.edges < 1024)
    (ht : p.ticks + 1 < 65536) :
    s.switchAtTick = s.setTb { s.tb with pendingSwitch := some { p with ticks := p.ticks + 1 } } := by
  simp [State.switchAtTick, h, Nat.not_le.2 he, Nat.not_le.2 ht, Config.qualifyEdges, Config.qualifyTicks]

theorem State.switchAtTick_none (h : s.tb.pendingSwitch = none) : s.switchAtTick = s := by
  simp [State.switchAtTick, h]

/-- A pending step at its expiry ends unapplied (R96). -/
theorem State.alignAtTick_expired {p : PendingStep} (h : s.tb.pendingStep = some p) (he : s.tb.mt = p.expiry) :
    s.alignAtTick = (s.setTb { s.tb with pendingStep := none }).handIn p.ack .alignTimeout (.step s.tb.pt s.tb.pt) := by
  simp [State.alignAtTick, h, he]

theorem State.alignAtTick_waits (h : ∀ p, s.tb.pendingStep = some p → p.expiry ≠ s.tb.mt) : s.alignAtTick = s := by
  unfold State.alignAtTick
  split
  · rfl
  · rename_i p hp
    rw [if_neg (fun e => h p hp e.symm)]

/-! ### The lines at a tick -/

theorem State.linesAtTick_eq (l : List Nat) : s.linesAtTick l = s.setLines (s.linesAtTick l).lines := by
  induction l generalizing s with
  | nil => rfl
  | cons n l ih => rw [State.linesAtTick, ih]; rfl

@[simp] theorem State.linesAtTick_tb (l : List Nat) : (s.linesAtTick l).tb = s.tb := by rw [State.linesAtTick_eq]; rfl
@[simp] theorem State.linesAtTick_report (l : List Nat) : (s.linesAtTick l).report = s.report := by
  rw [State.linesAtTick_eq]; rfl
@[simp] theorem State.ringsAtTick_lines : s.ringsAtTick.lines = s.lines := by
  rw [State.ringsAtTick, State.setReport_lines]
@[simp] theorem State.ringsAtTick_line (n : Nat) : s.ringsAtTick.line n = s.line n :=
  State.line_congr s.ringsAtTick_lines n
theorem State.ringsAtTick_report :
    s.ringsAtTick.report = (List.range 9).foldl (fun r n => r.ringAtTick s.tb.mt n) s.report := by
  rw [State.ringsAtTick, State.setReport_report, Config.numRings]

theorem LineRec.atTick_atTick (l : LineRec) (mt : U64) : (l.atTick mt).atTick mt = l.atTick mt := by
  unfold LineRec.atTick
  split
  · simp
  · rfl

/-- Every line listed takes the tick (R119). -/
theorem State.linesAtTick_line (l : List Nat) (k : Nat) :
    (s.linesAtTick l).line k = if k ∈ l then (s.line k).atTick s.tb.mt else s.line k := by
  induction l generalizing s with
  | nil => rfl
  | cons n l ih =>
    rw [State.linesAtTick, ih, State.line_setLine]
    simp only [State.setLine_tb, List.mem_cons]
    by_cases h : k = n
    · subst h
      by_cases h2 : k ∈ l <;> simp [h2, LineRec.atTick_atTick]
    · simp [h]

/-! ### The report rings at a tick -/

theorem ReportUnit.ringAtTick_ring (r : ReportUnit) (mt : U64) (n k : Nat) : (r.ringAtTick mt n).ring k =
    if k = n ∧ (r.ring n).intEnable = true ∧ (r.ring n).timeReached mt = true then (r.ring k).signalled else r.ring k := by
  unfold ReportUnit.ringAtTick
  by_cases h : (r.ring n).intEnable = true ∧ (r.ring n).timeReached mt = true
  · rw [if_pos h]
    by_cases hk : k = n
    · subst hk; simp [h]
    · simp [hk]
  · rw [if_neg h, if_neg (fun h' => h h'.2)]

theorem ReportUnit.ringAtTick_rest (r : ReportUnit) (mt : U64) (n : Nat) :
    (r.ringAtTick mt n).hold = r.hold ∧ (r.ringAtTick mt n).deletedWrites = r.deletedWrites := by
  unfold ReportUnit.ringAtTick
  split <;> exact ⟨rfl, rfl⟩

theorem ReportUnit.ringAtTick_bit (r : ReportUnit) (mt : U64) (n : Nat) {k : Nat} (hk : k < 9) :
    (r.ringAtTick mt n).intrPending.getLsbD k =
      (r.intrPending.getLsbD k || decide (k = n ∧ (r.ring n).intEnable = true ∧ (r.ring n).timeReached mt = true)) := by
  unfold ReportUnit.ringAtTick
  split
  · rename_i h
    rw [ReportUnit.raise_bit _ _ hk]
    simp [h]
  · rename_i h
    rw [decide_eq_false (fun h' => h h'.2), Bool.or_false]

theorem ReportRing.signalled_timeReached (x : ReportRing) (mt : U64) : x.signalled.timeReached mt = false := rfl

/-- The rings listed take the tick (R170). -/
theorem ReportUnit.foldl_ringAtTick (r : ReportUnit) (mt : U64) (l : List Nat) (hl : l.Nodup) :
    (∀ k, (l.foldl (fun r n => r.ringAtTick mt n) r).ring k =
      if k ∈ l ∧ (r.ring k).intEnable = true ∧ (r.ring k).timeReached mt = true then (r.ring k).signalled else r.ring k) ∧
    (l.foldl (fun r n => r.ringAtTick mt n) r).hold = r.hold ∧
    (l.foldl (fun r n => r.ringAtTick mt n) r).deletedWrites = r.deletedWrites ∧
    ∀ k < 9, (l.foldl (fun r n => r.ringAtTick mt n) r).intrPending.getLsbD k =
      (r.intrPending.getLsbD k || decide (k ∈ l ∧ (r.ring k).intEnable = true ∧ (r.ring k).timeReached mt = true)) := by
  induction l generalizing r with
  | nil => simp
  | cons n l ih =>
    rw [List.nodup_cons] at hl
    obtain ⟨i1, i2, i3, i4⟩ := ih (r.ringAtTick mt n) hl.2
    obtain ⟨j1, j2⟩ := ReportUnit.ringAtTick_rest r mt n
    have hother : ∀ k, k ≠ n → (r.ringAtTick mt n).ring k = r.ring k := by
      intro k hk
      rw [ReportUnit.ringAtTick_ring, if_neg (fun h => hk h.1)]
    rw [List.foldl_cons]
    refine ⟨fun k => ?_, i2.trans j1, i3.trans j2, fun k hk => ?_⟩
    · rw [i1]
      by_cases h : k = n
      · subst h
        rw [if_neg (fun h => hl.1 h.1), ReportUnit.ringAtTick_ring]
        simp
      · rw [hother k h]
        simp [h]
    · rw [i4 k hk, ReportUnit.ringAtTick_bit r mt n hk]
      by_cases h : k = n
      · subst h
        simp [hl.1]
      · rw [hother k h]
        simp [h]

/-! ### A tick, whole -/

/-- The state in the middle of a tick: MT advanced, the pending switch and step served. -/
def State.midTick (alignFirst : Bool) : State :=
  let s := s.setTb s.tb.advance
  if alignFirst then s.alignAtTick.switchAtTick else s.switchAtTick.alignAtTick

/-- The middle of a tick changes the Time Base's source, switch and step beside its advance, and the Report Unit. -/
theorem State.midTick_eq (b : Bool) : s.midTick b = (s.setTb { s.tb.advance with
    source := (s.midTick b).tb.source, pendingSwitch := (s.midTick b).tb.pendingSwitch,
    pendingStep := (s.midTick b).tb.pendingStep }).setReport (s.midTick b).report := by
  cases b
  · simp only [State.midTick, Bool.false_eq_true, if_false]
    rw [State.alignAtTick_eq, State.switchAtTick_eq]; rfl
  · simp only [State.midTick, if_true]
    rw [State.switchAtTick_eq, State.alignAtTick_eq]; rfl

/-- MT in the middle of a tick. -/
theorem State.midTick_mt (b : Bool) : (s.midTick b).tb.mt = s.tb.mt + 1 := by
  rw [State.midTick_eq]; simp only [State.setReport_tb, State.setTb_tb, TimeBase.advance_mt]

/-- The middle of a tick touches no line. -/
theorem State.midTick_lines (b : Bool) : (s.midTick b).lines = s.lines := by
  rw [State.midTick_eq]; simp only [State.setReport_lines, State.setTb_lines]

theorem State.tick_eq (b : Bool) : s.tick b =
    ((((s.midTick b).setTb (s.midTick b).tb.newCount).linesAtTick (List.range 8)).ringsAtTick).offer := by
  cases b <;> rfl

/-- The Time Base after a tick. -/
theorem State.tick_tb (b : Bool) : (s.tick b).tb = { s.tb.advance with
    source := (s.midTick b).tb.source, pendingSwitch := (s.midTick b).tb.pendingSwitch,
    pendingStep := (s.midTick b).tb.pendingStep, prescaler := 0,
    divInUse := if (s.midTick b).tb.source = .external then s.tb.extDivisor else s.tb.intDivisor } := by
  rw [State.tick_eq, State.linesAtTick_eq, State.midTick_eq]
  rfl

theorem State.tick_onlyIn (b : Bool) : OnlyIn [.tb, .disp, .lines, .report] s (s.tick b) := by
  rw [State.tick_eq, State.linesAtTick_eq, State.midTick_eq]
  simp [OnlyIn, State.ringsAtTick]

theorem State.tick_reoffered (b : Bool) : Reoffered (s.tick b) := State.offer_reoffered _

/-- The lines after a tick (R119). -/
theorem State.tick_line (b : Bool) (n : Nat) : (s.tick b).line n =
    if n < 8 ∧ (s.line n).state = .pulsing ∧ (s.line n).pulseEnd = some (s.tb.mt + 1) then ⟨.rest, none, (s.line n).rest⟩
    else s.line n := by
  have h1 : (s.tick b).line n = (((s.midTick b).setTb (s.midTick b).tb.newCount).linesAtTick (List.range 8)).line n := by
    rw [State.tick_eq, State.offer_line, State.ringsAtTick_line]
  have h2 := s.midTick_lines b
  have h3 := s.midTick_mt b
  have h4 : ((s.midTick b).setTb (s.midTick b).tb.newCount).line n = s.line n := by
    simp [State.line, h2]
  have h5 : ((s.midTick b).setTb (s.midTick b).tb.newCount).tb.mt = s.tb.mt + 1 := h3
  rw [h1, State.linesAtTick_line, h4, h5]
  simp only [List.mem_range, LineRec.atTick]
  by_cases hn : n < 8
  · simp only [hn, true_and, if_true]
  · simp [hn]

/-- The report rings after a tick: the middle's, those whose coalesce time is reached signalled (R170). -/
theorem State.tick_report (b : Bool) :
    (∀ k, (s.tick b).report.ring k =
      if k < 9 ∧ ((s.midTick b).report.ring k).intEnable = true ∧
          ((s.midTick b).report.ring k).timeReached (s.tb.mt + 1) = true then ((s.midTick b).report.ring k).signalled
      else (s.midTick b).report.ring k) ∧
    (s.tick b).report.hold = (s.midTick b).report.hold ∧
    (s.tick b).report.deletedWrites = (s.midTick b).report.deletedWrites ∧
    ∀ k < 9, (s.tick b).report.intrPending.getLsbD k = ((s.midTick b).report.intrPending.getLsbD k ||
      decide (((s.midTick b).report.ring k).intEnable = true ∧
        ((s.midTick b).report.ring k).timeReached (s.tb.mt + 1) = true)) := by
  have h3 := s.midTick_mt b
  have h : (s.tick b).report =
      (List.range 9).foldl (fun r n => r.ringAtTick (s.tb.mt + 1) n) (s.midTick b).report := by
    rw [State.tick_eq, State.offer_report, State.ringsAtTick_report, State.linesAtTick_tb, State.linesAtTick_report,
      State.setTb_tb, State.setTb_report, ← h3, TimeBase.newCount]
  obtain ⟨i1, i2, i3, i4⟩ :=
    ReportUnit.foldl_ringAtTick (s.midTick b).report (s.tb.mt + 1) (List.range 9) List.nodup_range
  rw [h]
  refine ⟨fun k => ?_, i2, i3, fun k hk => ?_⟩
  · rw [i1]; simp
  · rw [i4 k hk]; simp [hk]

/-! ### Periods and edges -/

/-- What the clock can change: the Time Base, the offered set, the lines and the Report Unit. -/
abbrev clockParts : List Part := [.tb, .disp, .lines, .report]

theorem State.prescale_ticks (b : Bool) (h : s.tb.divInUse ≤ s.tb.prescaler + 1) : s.prescale b = s.tick b := if_pos h

theorem State.prescale_counts (b : Bool) (h : s.tb.prescaler + 1 < s.tb.divInUse) :
    s.prescale b = s.setTb { s.tb with prescaler := s.tb.prescaler + 1 } := if_neg (Nat.not_le.2 h)

theorem State.prescale_onlyIn (b : Bool) : OnlyIn clockParts s (s.prescale b) := by
  unfold State.prescale
  split
  · exact s.tick_onlyIn b
  · exact (s.setTb_onlyIn _).mono (by simp)

theorem State.fallBack_onlyIn : OnlyIn [.tb, .report] s s.fallBack := by simp [OnlyIn, State.fallBack]

theorem State.gap_onlyIn : OnlyIn [.tb, .report] s s.gap := by
  unfold State.gap
  split
  · exact (s.setTb_onlyIn _).mono (by simp)
  · exact s.fallBack_onlyIn
  · exact OnlyIn.refl _ _
  · exact OnlyIn.refl _ _

theorem State.oscillatorPeriod_onlyIn (a b : Bool) : OnlyIn clockParts s (s.oscillatorPeriod a b) := by
  have h1 := (s.setTb_onlyIn s.tb.countGap).mono (qs := clockParts) (by simp)
  have hg : ∀ t : State, OnlyIn clockParts t t.gap := fun t => t.gap_onlyIn.mono (by simp)
  unfold State.oscillatorPeriod
  split
  · cases a
    · simp only [Bool.false_eq_true, if_false]
      split <;> split
      · exact (h1.trans (hg _)).trans (State.prescale_onlyIn _ b)
      · exact h1.trans (State.prescale_onlyIn _ b)
      · exact h1.trans (hg _)
      · exact h1
    · simp only [if_true]
      split <;> split
      · exact (h1.trans (State.prescale_onlyIn _ b)).trans (hg _)
      · exact h1.trans (hg _)
      · exact h1.trans (State.prescale_onlyIn _ b)
      · exact h1
  · exact OnlyIn.refl _ _

theorem State.refclkEdge_onlyIn (b : Bool) : OnlyIn clockParts s (s.refclkEdge b) := by
  have h1 := (s.setTb_onlyIn { s.tb with gapCount := 0 }).mono (qs := clockParts) (by simp)
  unfold State.refclkEdge
  split
  · dsimp only
    split
    · exact h1.trans ((State.setTb_onlyIn _ _).mono (by simp))
    · exact h1.trans (State.prescale_onlyIn _ b)
    · exact h1
    · exact h1
  · exact OnlyIn.refl _ _

theorem State.completeTick_onlyIn (b : Bool) : OnlyIn clockParts s (s.completeTick b) := by
  unfold State.completeTick
  split
  · exact s.refclkEdge_onlyIn b
  · exact s.oscillatorPeriod_onlyIn true b

end Sys2Proof.Machine
end

