-- ==== Sys2Proof/Laws/Engine.lean ====
section
/-!
SUPPORT. What the Action Engine's shared operations do, each said once: completing, beginning and placing an action, and the
conflict test; and what the Dispatcher's ranking chooses.
-/
namespace Sys2Proof.Machine

variable (e : ActionEngine) (i : Nat) (x : ActionSlot)

/-! ### Completion and beginning -/

@[simp] theorem ActionEngine.complete_slot (j : Nat) :
    (e.complete i x).slot j = if j = i then ActionSlot.reset else e.slot j := ActionEngine.slot_setSlot e i j ActionSlot.reset

@[simp] theorem ActionEngine.complete_order : (e.complete i x).order = e.order.filter (fun j => decide (j ≠ i)) := rfl

@[simp] theorem ActionEngine.complete_returns : (e.complete i x).returns = e.returns ++
    [⟨x.timer, x.generation, x.tag, x.scale, x.lateness, x.status, x.result, x.matchFlag, x.zeroFlag, x.stepped⟩] := rfl

/-- A NOTE completes as it begins (R62). -/
theorem ActionEngine.begin_note (h : x.action.kind = .note) :
    e.begin i x = e.complete i { x with result := 0, zeroFlag := true } := by
  simp [ActionEngine.begin, h]

/-- The stage in which an action that is no NOTE begins (R59). -/
def ActionKind.firstStage (k : ActionKind) : Stage :=
  if k = .store then .writing else if k = .linePulse ∨ k = .lineSet then .line else .reading

theorem ActionKind.firstStage_ne (k : ActionKind) : k.firstStage ≠ .empty ∧ k.firstStage ≠ .held := by
  cases k <;> decide

/-- Every other kind issues its first operation. -/
theorem ActionEngine.begin_other (h : x.action.kind ≠ .note) :
    e.begin i x = e.setSlot i { x with stage := x.action.kind.firstStage } := by
  cases hk : x.action.kind <;> simp_all [ActionEngine.begin, ActionKind.firstStage]

/-! ### The conflict test -/

/-- An occupied slot among those listed has the target. -/
theorem ActionEngine.holdsTarget_iff (l : List Nat) (t : Target) :
    e.holdsTarget l t = true ↔ ∃ j ∈ l, (e.slot j).stage ≠ .empty ∧ (e.slot j).target = some t := by
  simp [ActionEngine.holdsTarget]

/-- The conflict test passes when no occupied slot has the target (R55). -/
theorem ActionEngine.passes_iff (t : Option Target) :
    e.passes t = true ↔ t = none ∨ ∀ j < 4, (e.slot j).stage ≠ .empty → (e.slot j).target ≠ t := by
  cases t with
  | none => simp [ActionEngine.passes]
  | some t =>
    have h := e.holdsTarget_iff actionSlotNumbers t
    simp only [ActionEngine.passes, Bool.not_eq_true', reduceCtorEq, false_or]
    rw [← Bool.not_eq_true, h]
    simp [actionSlotNumbers]

/-- The EMPTY slot chosen is EMPTY, and one of the four. -/
theorem ActionEngine.emptySlot_some (h : e.emptySlot = some i) : i < 4 ∧ (e.slot i).stage = .empty := by
  have h1 := List.find?_some h
  have h2 := List.mem_of_find?_eq_some h
  simp only [decide_eq_true_eq] at h1
  exact ⟨by simpa [actionSlotNumbers] using h2, h1⟩

/-- With a slot EMPTY one is chosen. -/
theorem ActionEngine.emptySlot_isSome (hi : i < 4) (h : (e.slot i).stage = .empty) : ∃ j, e.emptySlot = some j := by
  cases he : e.emptySlot with
  | some j => exact ⟨j, rfl⟩
  | none =>
    have := List.find?_eq_none.1 he i (by simpa [actionSlotNumbers] using hi)
    simp [h] at this

/-! ### Placing -/

/-- Where a handed action goes (R57, R59). -/
theorem ActionEngine.placeAction_note (h : x.action.kind = .note) (ht : x.target = none) :
    e.placeAction i x = { (e.complete i { x with result := 0, zeroFlag := true }) with
      order := (e.order ++ [i]).filter (fun j => decide (j ≠ i)), slots := (e.placeAction i x).slots } := by
  simp only [ActionEngine.placeAction, ht, ActionEngine.passes, if_true, ActionEngine.begin, h]
  rfl

/-- The slot of a placed action, and what the placing leaves alone. -/
theorem ActionEngine.placeAction_other (h : x.action.kind ≠ .note) :
    (∀ j, (e.placeAction i x).slot j = if j = i then
      { x with stage := if e.passes x.target = true then x.action.kind.firstStage else x.stage } else e.slot j) ∧
    (e.placeAction i x).order = e.order ++ [i] ∧ (e.placeAction i x).returns = e.returns := by
  have hset : ∀ y : ActionSlot, ∀ j,
      ((({ e.setSlot i x with order := e.order ++ [i] } : ActionEngine)).setSlot i y).slot j = if j = i then y else e.slot j := by
    intro y j
    rw [ActionEngine.slot_setSlot]
    by_cases hj : j = i
    · rw [if_pos hj, if_pos hj]
    · rw [if_neg hj, if_neg hj]
      exact (ActionEngine.slot_setSlot e i j x).trans (if_neg hj)
  unfold ActionEngine.placeAction
  by_cases hp : e.passes x.target = true
  · simp only [hp, if_true, ActionEngine.begin_other _ i x h]
    exact ⟨hset _, rfl, rfl⟩
  · simp only [hp]
    exact ⟨fun j => ActionEngine.slot_setSlot e i j x, rfl, rfl⟩

/-! ### The ranking (R53) -/

/-- The first ranked entry is one of the list, and there is one unless the list is empty. -/
theorem firstRanked_mem {tb : TimeBase} {os : List Offer} {o : Offer} (h : firstRanked tb os = some o) : o ∈ os := by
  induction os generalizing o with
  | nil => cases h
  | cons p os ih =>
    simp only [firstRanked] at h
    split at h
    · simp only [Option.some.injEq] at h; simp [h]
    · rename_i q hq
      split at h
      · simp only [Option.some.injEq] at h
        subst h
        exact List.mem_cons_of_mem _ (ih hq)
      · simp only [Option.some.injEq] at h; simp [h]

theorem firstRanked_eq_none {tb : TimeBase} {os : List Offer} : firstRanked tb os = none ↔ os = [] := by
  cases os with
  | nil => simp [firstRanked]
  | cons p os =>
    simp only [firstRanked, reduceCtorEq, iff_false]
    split
    · simp
    · split <;> simp

/-- What standing before means, clause by clause. -/
theorem Offer.ranksBefore_iff (tb : TimeBase) (a b : Offer) : a.ranksBefore tb b = true ↔
    b.lateness tb < a.lateness tb ∨ (a.lateness tb = b.lateness tb ∧
      ((a.scale = .pt ∧ b.scale = .mt) ∨ (a.scale = b.scale ∧ a.seq < b.seq))) := by
  unfold Offer.ranksBefore
  split
  · rename_i h
    simp only [decide_eq_true_eq]
    tauto
  · rename_i h
    have h : a.lateness tb = b.lateness tb := not_not.1 h
    have hl : ¬b.lateness tb < a.lateness tb := by bv_omega
    cases ha : a.scale <;> cases hb : b.scale <;> simp [h]

/-- The ranking is a weak order: what stands before an entry stands before every entry that does not. -/
theorem Offer.ranksBefore_weak {tb : TimeBase} {a b c : Offer} (h : a.ranksBefore tb b = true)
    (h' : c.ranksBefore tb b = false) : a.ranksBefore tb c = true := by
  rw [← Bool.not_eq_true] at h'
  rw [Offer.ranksBefore_iff] at h h' ⊢
  simp only [not_or, not_and] at h'
  obtain ⟨h1, h2⟩ := h'
  rcases h with h | ⟨h3, h4⟩
  · exact .inl (by bv_omega)
  · by_cases hl : c.lateness tb = b.lateness tb
    · refine .inr ⟨h3.trans hl.symm, ?_⟩
      obtain ⟨h5, h6⟩ := h2 hl
      rcases h4 with ⟨p1, p2⟩ | ⟨p1, p2⟩
      · cases hc : c.scale with
        | pt => exact absurd p2 (h5 hc)
        | mt => exact .inl ⟨p1, rfl⟩
      · cases hc : c.scale with
        | pt =>
          cases hb : b.scale with
          | pt => exact .inr ⟨p1.trans hb, by have := h6 (hc.trans hb.symm); bv_omega⟩
          | mt => exact absurd hb (h5 hc)
        | mt =>
          cases hb : b.scale with
          | pt => exact .inl ⟨p1.trans hb, rfl⟩
          | mt => exact .inr ⟨p1.trans hb, by have := h6 (hc.trans hb.symm); bv_omega⟩
    · exact .inl (by bv_omega)

theorem Offer.ranksBefore_irrefl (tb : TimeBase) (a : Offer) : a.ranksBefore tb a = false := by
  rw [← Bool.not_eq_true, Offer.ranksBefore_iff]
  rintro (h | ⟨_, ⟨h1, h2⟩ | ⟨_, h⟩⟩)
  · bv_omega
  · rw [h1] at h2; cases h2
  · bv_omega

theorem Offer.ranksBefore_asymm {tb : TimeBase} {a b : Offer} (h : a.ranksBefore tb b = true) :
    b.ranksBefore tb a = false := by
  by_contra hc
  rw [Bool.not_eq_false] at hc
  rw [Offer.ranksBefore_iff] at h hc
  rcases h with h | ⟨h1, ⟨p1, p2⟩ | ⟨p1, p2⟩⟩ <;> rcases hc with hc | ⟨hc1, ⟨q1, q2⟩ | ⟨q1, q2⟩⟩
  · bv_omega
  · bv_omega
  · bv_omega
  · bv_omega
  · rw [p1] at q2; cases q2
  · rw [p1, p2] at q1; cases q1
  · bv_omega
  · rw [p1, q1] at q2; cases q2
  · bv_omega

/-- No entry of the list stands before the one ranked first. -/
theorem firstRanked_first {tb : TimeBase} {os : List Offer} {o : Offer} (h : firstRanked tb os = some o) :
    ∀ p ∈ os, p.ranksBefore tb o = false := by
  induction os generalizing o with
  | nil => cases h
  | cons q os ih =>
    simp only [firstRanked] at h
    split at h
    · rename_i hn
      rw [firstRanked_eq_none] at hn
      simp only [Option.some.injEq] at h
      subst h hn
      simp [Offer.ranksBefore_irrefl]
    · rename_i r hr
      split at h
      · rename_i hb
        simp only [Option.some.injEq] at h
        subst h
        intro p hp
        rcases List.mem_cons.1 hp with rfl | hp
        · by_contra hc
          rw [Bool.not_eq_false] at hc
          rw [Offer.ranksBefore_asymm hb] at hc
          cases hc
        · exact ih hr p hp
      · rename_i hb
        simp only [Option.some.injEq] at h
        subst h
        intro p hp
        rcases List.mem_cons.1 hp with rfl | hp
        · exact Offer.ranksBefore_irrefl tb p
        · by_contra hc
          rw [Bool.not_eq_false] at hc
          have := Offer.ranksBefore_weak hc (Bool.eq_false_iff.2 hb)
          rw [ih hr p hp] at this
          cases this

end Sys2Proof.Machine
end

