-- ==== Sys2Proof/Laws/Resets.lean ====
section
/-!
SUPPORT. What the shared operations of resets and supplies do, each said once: to the lines, to the main-domain blocks, to the
register window; and the bytes that a settled write leaves.
-/
namespace Sys2Proof.Machine

variable {s : State}

/-! ### The blocks at a reset -/

theorem LineRec.functionReset_twice (l : LineRec) : l.functionReset.functionReset = l.functionReset := rfl

/-- Resetting lines changes the line records only. -/
theorem State.resetLines_eq (l : List Nat) : s.resetLines l = s.setLines (s.resetLines l).lines := by
  induction l generalizing s with
  | nil => rfl
  | cons n l ih => rw [State.resetLines, ih]; rfl

/-- Every line listed goes to rest with its rest level kept (R122). -/
theorem State.resetLines_line (l : List Nat) (k : Nat) :
    (s.resetLines l).line k = if k ∈ l then (s.line k).functionReset else s.line k := by
  induction l generalizing s with
  | nil => rfl
  | cons n l ih =>
    rw [State.resetLines, ih, State.line_setLine]
    by_cases h : k = n
    · subst h
      by_cases h2 : k ∈ l <;> simp [h2, LineRec.functionReset_twice]
    · simp [h]

@[simp] theorem State.resetLines_store (l : List Nat) : (s.resetLines l).store = s.store := by rw [State.resetLines_eq]; rfl
@[simp] theorem State.resetLines_disp (l : List Nat) : (s.resetLines l).disp = s.disp := by rw [State.resetLines_eq]; rfl
@[simp] theorem State.resetLines_engine (l : List Nat) : (s.resetLines l).engine = s.engine := by rw [State.resetLines_eq]; rfl
@[simp] theorem State.resetLines_regions (l : List Nat) : (s.resetLines l).regions = s.regions := by rw [State.resetLines_eq]; rfl
@[simp] theorem State.resetLines_posting (l : List Nat) : (s.resetLines l).posting = s.posting := by rw [State.resetLines_eq]; rfl
@[simp] theorem State.resetLines_report (l : List Nat) : (s.resetLines l).report = s.report := by rw [State.resetLines_eq]; rfl
@[simp] theorem State.resetLines_tb (l : List Nat) : (s.resetLines l).tb = s.tb := by rw [State.resetLines_eq]; rfl
@[simp] theorem State.resetLines_window (l : List Nat) : (s.resetLines l).window = s.window := by rw [State.resetLines_eq]; rfl
@[simp] theorem State.resetLines_inputs (l : List Nat) : (s.resetLines l).inputs = s.inputs := by rw [State.resetLines_eq]; rfl
@[simp] theorem State.resetLines_mem (l : List Nat) : (s.resetLines l).mem = s.mem := by rw [State.resetLines_eq]; rfl
@[simp] theorem State.resetLines_pending (l : List Nat) : (s.resetLines l).pending = s.pending := by rw [State.resetLines_eq]; rfl

/-! The main-domain blocks in their reset state, and what is left alone (R28, R51, R75, R114, R148, R172). -/

@[simp] theorem State.resetBlocks_store : s.resetBlocks.store = TimerStore.reset := by simp [State.resetBlocks]
@[simp] theorem State.resetBlocks_disp : s.resetBlocks.disp = Dispatcher.reset := by simp [State.resetBlocks]
@[simp] theorem State.resetBlocks_engine : s.resetBlocks.engine = ActionEngine.reset := by simp [State.resetBlocks]
@[simp] theorem State.resetBlocks_regions : s.resetBlocks.regions = [] := by simp [State.resetBlocks]
@[simp] theorem State.resetBlocks_posting : s.resetBlocks.posting = PostingUnit.reset := by simp [State.resetBlocks]
@[simp] theorem State.resetBlocks_report : s.resetBlocks.report = ReportUnit.reset := by simp [State.resetBlocks]
@[simp] theorem State.resetBlocks_tb : s.resetBlocks.tb = s.tb := by simp [State.resetBlocks]
@[simp] theorem State.resetBlocks_window : s.resetBlocks.window = s.window := by simp [State.resetBlocks]
@[simp] theorem State.resetBlocks_inputs : s.resetBlocks.inputs = s.inputs := by simp [State.resetBlocks]
@[simp] theorem State.resetBlocks_mem : s.resetBlocks.mem = s.mem := by simp [State.resetBlocks]
@[simp] theorem State.resetBlocks_pending : s.resetBlocks.pending = s.pending := by simp [State.resetBlocks]

/-- Each of the eight lines after a reset of the blocks (R122). -/
theorem State.resetBlocks_line {n : Nat} (h : n < 8) : s.resetBlocks.line n = ⟨.rest, none, (s.line n).rest⟩ := by
  rw [State.resetBlocks, State.resetLines_line, if_pos (List.mem_range.mpr h)]
  rfl

/-- The Time Base and the register window at the taking of a function reset; the other blocks are those of resetBlocks
(R173, R102). -/
theorem State.takeReset_eq (c : ResetCause) : s.takeReset c =
    (s.resetBlocks.setTb s.tb.functionReset).setWindow (s.window.functionReset c s.outstanding) := rfl

/-! ### The end of a reset -/

/-- The end of a reset changes the register window only (R174). -/
theorem State.endReset_eq : s.endReset = s.setWindow { s.window with
    ready := if s.window.resetInProgress = true ∧ s.window.awaited = [] ∧ s.inputs.resetPin = false then true
      else s.window.ready,
    resetInProgress := if s.window.resetInProgress = true ∧ s.window.awaited = [] ∧ s.inputs.resetPin = false then false
      else s.window.resetInProgress } := by
  unfold State.endReset
  split <;> rfl

theorem State.endReset_onlyIn : OnlyIn [.window] s s.endReset := by
  unfold State.endReset
  split
  · exact s.setWindow_onlyIn _
  · simp [OnlyIn]

/-! ### The bytes of a settled write -/

/-- Two bytes of a write of at most 32 bytes have different addresses. -/
theorem PortWrite.addrOf_inj (w : PortWrite) {i j : Nat} (hi : i < 32) (hj : j < 32) (h : w.addrOf i = w.addrOf j) :
    i = j := by
  unfold PortWrite.addrOf at h
  have h := BitVec.eq_of_toNat_eq h
  have h := congrArg BitVec.toNat (add_left_cancel h)
  simp only [BitVec.toNat_ofNat] at h
  omega

/-- A byte of a settled write holds the value written if it landed, else its earlier value (R70, R75). -/
theorem Memory.read_landUpTo_inside (w : PortWrite) (landed : BitVec 32) {n j : Nat} (m : List Host.Cell) (hj : j < n)
    (hn : n ≤ 32) : Memory.read (Memory.landUpTo w landed n m) (w.addrOf j) =
      if landed.getLsbD j = true then some (w.byte j) else Memory.read m (w.addrOf j) := by
  induction n with
  | zero => omega
  | succ n ih =>
    by_cases h : j = n
    · subst h
      have ho : Memory.read (Memory.landUpTo w landed j m) (w.addrOf j) = Memory.read m (w.addrOf j) :=
        Memory.read_landUpTo_outside w landed j m (fun i hi h => by
          have := PortWrite.addrOf_inj w (i := j) (j := i) (by omega) (by omega) h
          omega)
      simp only [Memory.landUpTo]
      split
      · rw [Memory.read, Memory.write, Map.find_insert_self]
      · exact ho
    · have hne : w.addrOf j ≠ w.addrOf n := fun e => h (PortWrite.addrOf_inj w (by omega) (by omega) e)
      have ih := ih (by omega) (by omega)
      simp only [Memory.landUpTo]
      split
      · rw [Memory.read_write_ne _ _ hne, ih]
      · exact ih

/-- A byte outside every write settled together is left as it was (R76). -/
theorem Memory.read_landAll_outside (ws : List PortWrite) (ls : List (BitVec 32)) (m : List Host.Cell) {a : Nat}
    (h : ∀ w ∈ ws, ∀ i < w.len, a ≠ w.addrOf i) : Memory.read (Memory.landAll ws ls m) a = Memory.read m a := by
  induction ws generalizing ls m with
  | nil => rfl
  | cons w ws ih =>
    have hw := h w (List.mem_cons_self ..)
    have ih := fun ls m => ih ls m (fun v hv => h v (List.mem_cons_of_mem _ hv))
    cases ls with
    | nil => rw [Memory.landAll, ih]; exact Memory.read_landUpTo_outside w 0 w.len m hw
    | cons l ls => rw [Memory.landAll, ih]; exact Memory.read_landUpTo_outside w l w.len m hw

end Sys2Proof.Machine
end

