-- ==== Sys2Proof/Laws/Window.lean ====
section
/-!
SUPPORT. What the registers of the window hold, as the sum of their fields; and what the end of a reset that is about to end,
which each command takes first, does: to the register window alone, and once.
-/
namespace Sys2Proof.Machine

variable {s : State}

/-! ### Registers -/

/-- A field above every bit of a register so far adds its weight. -/
theorem or_regField {x : U64} {lo v : Nat} (hx : x.toNat < 2 ^ lo) (hv : v * 2 ^ lo < 2 ^ 64) :
    (x ||| regField lo v).toNat = x.toNat + 2 ^ lo * v := by
  rw [BitVec.toNat_or, regField, BitVec.toNat_ofNat, Nat.mod_eq_of_lt hv, Nat.or_comm, Nat.mul_comm v,
    ← Nat.two_pow_add_eq_or_of_lt hx, Nat.add_comm]

/-- The fields of STATUS below the doorbell error record. -/
def State.statusLow (s : State) : U64 :=
  regField 0 (bitAt 0 s.window.ready) ||| regField 1 (bitAt 0 s.window.enabled) |||
    regField 4 s.window.resetCause.code ||| regField 8 (bitAt 0 s.window.adminFault.isSome) |||
    regField 9 ((s.window.adminFault.map AdminFault.code).getD 0)

theorem State.statusLow_toNat : s.statusLow.toNat = s.window.ready.toNat + 2 * s.window.enabled.toNat +
    2 ^ 4 * s.window.resetCause.code + 2 ^ 8 * s.window.adminFault.isSome.toNat +
    2 ^ 9 * (s.window.adminFault.map AdminFault.code).getD 0 ∧ s.statusLow.toNat < 2 ^ 16 := by
  unfold State.statusLow
  generalize s.window.ready = a
  generalize s.window.enabled = b
  generalize s.window.resetCause = c
  rcases s.window.adminFault with _ | f
  · cases a <;> cases b <;> cases c <;> decide
  · cases a <;> cases b <;> cases c <;> cases f <;> decide

/-- A source state's field lies above every other field of STATUS. -/
theorem or_source {x : U64} (q : SourceState) (hx : x.toNat < 2 ^ 32) :
    (x ||| regField 32 q.code).toNat = x.toNat + 2 ^ 32 * q.code :=
  or_regField hx (by cases q <;> decide)

/-- STATUS, field by field (R182). -/
theorem State.statusRegister_toNat : s.statusRegister.toNat = RegisterValue s 2 := by
  obtain ⟨h, hl⟩ := s.statusLow_toNat
  have hv : RegisterValue s 2 = s.statusLow.toNat + (match s.window.doorbellError with
      | none => 0
      | some e => 2 ^ 16 + 2 ^ 17 * e.multiple.toNat + 2 ^ 20 * e.ring.toNat + 2 ^ 24 * e.kind.toNat) +
      2 ^ 32 * s.tb.source.code := by
    rw [h, RegisterValue]
    rcases s.window.adminFault with _ | f
    · cases s.window.resetCause <;> cases s.tb.source <;> rfl
    · cases f <;> cases s.window.resetCause <;> cases s.tb.source <;> rfl
  have hs : s.statusRegister = s.statusLow ||| (match s.window.doorbellError with
      | none => 0
      | some e => regField 16 1 ||| regField 17 (bitAt 0 e.multiple) ||| regField 20 e.ring.toNat |||
          regField 24 e.kind.toNat) ||| regField 32 s.tb.source.code := rfl
  rw [hs, hv]
  rcases s.window.doorbellError with _ | e
  · simp only
    rw [show s.statusLow ||| 0 = s.statusLow from BitVec.or_zero, or_source _ (Nat.lt_trans hl (by decide))]
    rfl
  · have hr := e.ring.isLt
    have hk := e.kind.isLt
    have hm : bitAt 0 e.multiple < 2 := by cases e.multiple <;> decide
    have hb : e.multiple.toNat = bitAt 0 e.multiple := by cases e.multiple <;> rfl
    simp only [← BitVec.or_assoc]
    have h1 := or_regField (v := 1) hl (by decide)
    have h2 := or_regField (x := s.statusLow ||| regField 16 1) (lo := 17) (v := bitAt 0 e.multiple) (by omega) (by omega)
    have h3 := or_regField (x := s.statusLow ||| regField 16 1 ||| regField 17 (bitAt 0 e.multiple)) (lo := 20)
      (v := e.ring.toNat) (by omega) (by omega)
    have h4 := or_regField (x := s.statusLow ||| regField 16 1 ||| regField 17 (bitAt 0 e.multiple) |||
      regField 20 e.ring.toNat) (lo := 24) (v := e.kind.toNat) (by omega) (by omega)
    rw [or_source _ (by omega), h4, h3, h2, h1, hb]
    omega

/-- The register at each place of the window. -/
theorem State.registerAt_toNat (k : Nat) : (s.registerAt (k * 8)).toNat = RegisterValue s k := by
  match k with
  | 0 => rfl
  | 1 =>
    show (regField 0 (bitAt 0 s.window.enabled)).toNat = s.window.enabled.toNat
    cases s.window.enabled <;> rfl
  | 2 => exact s.statusRegister_toNat
  | 3 => rfl
  | 4 => rfl
  | 5 =>
    have h1 := s.window.adminPostSize.isLt
    have h2 := s.window.adminReportSize.isLt
    have h0 : (regField 0 s.window.adminPostSize.toNat).toNat = s.window.adminPostSize.toNat := by
      simp only [regField, BitVec.toNat_ofNat]; omega
    have := or_regField (x := regField 0 s.window.adminPostSize.toNat) (lo := 32) (v := s.window.adminReportSize.toNat)
      (by omega) (by omega)
    rw [h0] at this
    exact this
  | 6 => rfl
  | 7 => exact BitVec.toNat_setWidth_of_le (show 9 ≤ 64 by decide)
  | 8 => exact BitVec.toNat_setWidth_of_le (show 9 ≤ 64 by decide)
  | k + 9 =>
    rw [State.registerAt, if_neg, if_neg, if_neg, if_neg, if_neg, if_neg, if_neg, if_neg, if_neg] <;> first | omega | rfl

/-! ### A reset about to end -/

/-- The end of a reset comes first exactly when it is about to end (R174). -/
theorem State.resetEndsNext_iff : s.resetEndsNext = true ↔ ResetAboutToEnd s := by
  simp [State.resetEndsNext, ResetAboutToEnd, and_assoc]

theorem State.afterReset_ended (h : ResetAboutToEnd s) :
    s.afterReset = s.setWindow { s.window with ready := true, resetInProgress := false } := by
  rw [State.afterReset, if_pos (State.resetEndsNext_iff.mpr h), State.endReset, if_pos h.2]

theorem State.afterReset_same (h : ¬ResetAboutToEnd s) : s.afterReset = s :=
  if_neg (fun e => h (State.resetEndsNext_iff.mp e))

/-- The end that each command takes first is that of `Ended`. -/
theorem State.afterReset_eq : s.afterReset = Ended s := by
  by_cases h : ResetAboutToEnd s
  · rw [State.afterReset_ended h, Ended, if_pos h]
  · rw [State.afterReset_same h, Ended, if_neg h]

/-- The end of a reset changes the register window only. -/
theorem State.afterReset_onlyIn : OnlyIn [.window] s s.afterReset := by
  rw [State.afterReset_eq, Ended]
  split <;> simp [OnlyIn]

/-- The parts beside the register window are as they were, whether or not a reset ends. -/
@[simp] theorem State.afterReset_tb : s.afterReset.tb = s.tb := by rw [State.afterReset_eq, Ended]; split <;> rfl
@[simp] theorem State.afterReset_store : s.afterReset.store = s.store := by rw [State.afterReset_eq, Ended]; split <;> rfl
@[simp] theorem State.afterReset_disp : s.afterReset.disp = s.disp := by rw [State.afterReset_eq, Ended]; split <;> rfl
@[simp] theorem State.afterReset_engine : s.afterReset.engine = s.engine := by rw [State.afterReset_eq, Ended]; split <;> rfl
@[simp] theorem State.afterReset_regions : s.afterReset.regions = s.regions := by rw [State.afterReset_eq, Ended]; split <;> rfl
@[simp] theorem State.afterReset_lines : s.afterReset.lines = s.lines := by rw [State.afterReset_eq, Ended]; split <;> rfl
@[simp] theorem State.afterReset_posting : s.afterReset.posting = s.posting := by rw [State.afterReset_eq, Ended]; split <;> rfl
@[simp] theorem State.afterReset_report : s.afterReset.report = s.report := by rw [State.afterReset_eq, Ended]; split <;> rfl
@[simp] theorem State.afterReset_inputs : s.afterReset.inputs = s.inputs := by rw [State.afterReset_eq, Ended]; split <;> rfl
@[simp] theorem State.afterReset_mem : s.afterReset.mem = s.mem := by rw [State.afterReset_eq, Ended]; split <;> rfl
@[simp] theorem State.afterReset_pending : s.afterReset.pending = s.pending := by rw [State.afterReset_eq, Ended]; split <;> rfl

/-- A reset ends once. -/
@[simp] theorem State.afterReset_twice : s.afterReset.afterReset = s.afterReset := by
  by_cases h : ResetAboutToEnd s
  · exact State.afterReset_same (by rw [State.afterReset_ended h]; intro e; cases e.1)
  · rw [State.afterReset_same h, State.afterReset_same h]

@[simp] theorem State.afterReset_ready (h : s.window.ready = true) : s.afterReset = s :=
  State.afterReset_same (fun e => absurd (h.symm.trans e.1) (by decide))

end Sys2Proof.Machine
end

