-- ==== Sys2Proof/Tests/Slice0.lean ====
section
/-!
SUPPORT. The model's own tests. Expected values are the manual's: its worked examples and tables, named at each test, or worked
by hand from the rule named. The last part shows, for each statement with hypotheses, a state and operands that meet them.
-/
namespace Sys2Proof.Tests

-- One proof at a time: many small ones at once would ask for more threads than the check allows.
set_option Elab.async false

open Sys2Proof.Machine

/-! ### Helpers -/

/-- A posting slot from (byte, value) pairs: each value little-endian from its byte on. -/
def slotOf (fs : List (Nat × Nat)) : PostSlot := BitVec.ofNat 512 (fs.foldl (fun a p => a + p.2 * 2 ^ (8 * p.1)) 0)

/-- The state after one command. -/
def run (c : Instr) (s : State) : State :=
  match exec c s with
  | .next t => t
  | _ => s

/-- An enabled controller: administration rings as in the bring-up sequence (11), report ring 1 and posting ring 1 bound to it,
and the two overlapping regions of chapter 5's example. -/
def live : State :=
  { State.reset with
    window := { Window.cold with enabled := true }
    posting := ⟨[(0, ⟨.active, 0x100000000#64, 16, 0, 3, 1, .administration, 0⟩),
      (1, ⟨.active, 0x100010000#64, 32, 5, 7, 1, .high, 1⟩)], none, none, none, 0⟩
    report := ⟨[(0, ReportRing.fresh 0x100004000#64 32 true 1 0 1), (1, ReportRing.fresh 0x100008000#64 64 true 4 1000 1)],
      [], [], 0⟩
    regions := [(1, ⟨true, 0x80000000#64, 0x100, .readWrite, 0⟩), (2, ⟨true, 0x80000010#64, 0x40, .write, 0⟩)] }

/-- A record taken from slot 5 of a posting ring, at its owner. -/
def record (ring bound : Nat) (w : PostSlot) (second : Option PostSlot) : IntakeRecord :=
  ⟨ring, bound, 5, .atOwner, some (if second.isSome then 2 else 1), some w, second, 6, false⟩

/-- A state whose record in progress is at its owner, with its reservation. -/
def asking (ring bound : Nat) (w : PostSlot) (second : Option PostSlot) (s : State) : State :=
  (s.setPosting { s.posting with inProgress := some (record ring bound w second) }).setReport
    (s.report.setRing bound { s.report.ring bound with reserved := 1 })

/-- An administration request at its owner. -/
def administering (fs : List (Nat × Nat)) (s : State) : State := asking 0 0 (slotOf fs) none s

/-- A timer request at its owner. -/
def timing (fs : List (Nat × Nat)) (s : State) : State := asking 1 1 (slotOf fs) none s

/-- Status and results of the acknowledgment last placed in a report ring's write queue. -/
def answerOf (n : Nat) (s : State) : Option (Status × AckResults) :=
  match (s.report.ring n).queue.getLast? with
  | some (.ack _ st res) => some (st, res)
  | _ => none

/-- A Time Base at given MT and OFFSET whose next period completes a tick. -/
def tbAt (mt offset : U64) : TimeBase := { TimeBase.cold with mt := mt, offset := offset, prescaler := 31 }

/-- A state at given MT and OFFSET, a tick due. -/
def liveAt (mt offset : U64) : State := live.setTb (tbAt mt offset)

/-! ### Well-formed commands: each check refuses an ill-formed term -/

theorem test_wf_refuses_doorbell_ring_9 :
    Instr.wf (.postingTailDoorbell 9 0) = false ∧ Instr.wf (.reportConsumerDoorbell 9 0) = false ∧
      Instr.wf (.postingTailDoorbell 8 0) = true := by decide
theorem test_wf_refuses_noRing_that_names_one :
    Instr.wf (.doorbellNoRing 8 1 0) = false ∧ Instr.wf (.doorbellNoRing 9 1 0) = true ∧
      Instr.wf (.doorbellNoRing 8 2 0) = true := by decide
theorem test_wf_refuses_action_slot_4 :
    [Instr.heldActionBegin 4, .actionReadAnswer 4 .error, .actionWriteAnswer 4 .ok, .lineRequest 4, .lineAnswer 4].all
      (fun c => !c.wf) = true ∧ Instr.wf (.heldActionBegin 3) = true := by decide
theorem test_wf_refuses_line_8 : Instr.wf (.pulseEnd 8) = false ∧ Instr.wf (.pulseEnd 7) = true := by decide
theorem test_wf_refuses_report_ring_9 :
    Instr.wf (.coalesceTimeExpiry 9) = false ∧ Instr.wf (.reportWriteAnswer (.ring 9) .ok) = false ∧
      Instr.wf (.reportWriteAnswer (.ring 8) .ok) = true := by decide
theorem test_wf_refuses_error_clear_without_its_bit :
    Instr.wf (.doorbellErrorClear 0xFFFEFFFF#64) = false ∧ Instr.wf (.doorbellErrorClear 0x10000#64) = true := by decide
theorem test_wf_refuses_other_write_that_acts :
    Instr.wf (.registerWriteOther 0x18 8 5) = false ∧ Instr.wf (.registerWriteOther 0x08 8 1) = false ∧
      Instr.wf (.registerWriteOther 0x18 3 5) = false ∧ Instr.wf (.registerWriteOther 0x18 4 5) = true ∧
      Instr.wf (.registerWriteOther 0x00 8 5) = true := by decide

/-! ### Writes to the register window as commands (R177 to R185; 10, Register bit layout) -/

theorem test_decode_control :
    decodeWindowWrite 0x08 8 1 = .enable ∧ decodeWindowWrite 0x08 8 3 = .functionReset true ∧
      decodeWindowWrite 0x08 8 2 = .functionReset false ∧ decodeWindowWrite 0x08 8 4 = .registerWriteOther 0x08 8 4 := by
  decide
theorem test_decode_doorbell :
    decodeWindowWrite 0x30 8 0x0000000200000005#64 = .postingTailDoorbell 2 5 ∧
      decodeWindowWrite 0x30 8 0x0000010300000007#64 = .reportConsumerDoorbell 3 7 ∧
      decodeWindowWrite 0x30 8 0x0000000900000001#64 = .doorbellNoRing 9 0 1 ∧
      decodeWindowWrite 0x30 8 0x0000020100000001#64 = .doorbellNoRing 1 2 1 := by decide
theorem test_decode_other_registers :
    decodeWindowWrite 0x10 8 0x10000 = .doorbellErrorClear 0x10000 ∧ decodeWindowWrite 0x18 8 6 = .adminPostBaseWrite 6 ∧
      decodeWindowWrite 0x20 8 6 = .adminReportBaseWrite 6 ∧ decodeWindowWrite 0x28 8 6 = .adminSizesWrite 6 ∧
      decodeWindowWrite 0x38 8 6 = .intrPendingClear 6 ∧ decodeWindowWrite 0x40 8 6 = .intrMaskWrite 6 ∧
      decodeWindowWrite 0x18 4 6 = .registerWriteOther 0x18 4 6 := by decide
theorem test_table_gives_no_bits : decodeTableWord 8 0x41 = none := rfl

/-! ### Codes (10) -/

theorem test_codes_refuse_what_is_not_listed :
    ReportPolicy.ofCode 3 = some .none ∧ ReportPolicy.ofCode 4 = Option.none ∧ PeriodPolicy.ofCode 2 = Option.none ∧
      ActionKind.ofCode 0x08 = Option.none ∧ Opcode.ofCode 0x00 = Option.none ∧ Condition.ofCode 5 = Option.none := by
  decide

/-! ### Steps -/

theorem test_idle_counts_a_period :
    step State.reset = .next { State.reset with tb := { TimeBase.cold with prescaler := 1, gapCount := 1 } } := rfl
theorem test_step_runs_the_front_command :
    step { State.reset with pending := [.intrMaskWrite 0x1FE, .tick] } =
      .next { State.reset with window := { Window.cold with intrMask := 0x1FE }, pending := [.tick] } := rfl

/-! ### Timer requests: timer 12 (2, a compare with a conditional follow; 10, one ARM with FOLLOW) -/

/-- Slot 5 of the example. -/
def arm12 : PostSlot :=
  slotOf [(0, 1), (1, 0x12), (2, 12), (4, 2), (8, 10000), (40, 6), (41, 4), (42, 3), (44, 0x40), (56, 1)]

/-- Slot 6 of the example. -/
def extension12 : PostSlot := slotOf [(0, 0x7F), (1, 1), (4, 40), (40, 0x10), (42, 3), (48, 100)]

/-- Region 3 and report ring 2 are in place; slot 12 was armed six times before. -/
def before12 : State :=
  { live with
    regions := [(3, ⟨true, 0x9000#64, 0x1000, .readWrite, 0⟩)]
    store := { TimerStore.reset with slots := [(12, { TimerSlot.reset with generation := 6 })] }
    report := live.report.setRing 2 (ReportRing.fresh 0x20000#64 16 false 1 0 1) }

/-- The ARM taken. -/
def armed12 : State := run .arm (asking 2 2 arm12 (some extension12) before12)

theorem test_arm_fills_the_slot :
    (armed12.store.slot 12).state = .armed ∧ (armed12.store.slot 12).generation = 7 ∧
      (armed12.store.slot 12).deadline = 10000 ∧ (armed12.store.slot 12).follow.map FollowPart.delay = some 40 ∧
      armed12.store.ptQueue = [12] ∧ (armed12.region 3).refs = 1 ∧ (armed12.report.ring 2).refs = 2 := by decide +kernel

/-- "posting ring 2, opcode 0x01, status 0x00, first-slot index 5, new head 7, and results timer 12, generation 7 and deadline
10000. Its other bytes are 0": here the new head is the record's, 6. -/
theorem test_arm_acknowledgment_bytes :
    (armed12.report.ring 2).queue.map (Report.encode true) =
      [BitVec.ofNat 256 (0x01 + 2 ^ 8 + 2 * 2 ^ 16 + 0x01 * 2 ^ 24 + 5 * 2 ^ 48 + 6 * 2 ^ 64 + 12 * 2 ^ 80 + 7 * 2 ^ 96 +
        10000 * 2 ^ 128)] := by decide +kernel

/-- Chapter 5's example: the rights, the bounds before the alignment, and the accepted offset. -/
theorem test_arm_region_checks :
    [[(40, 4), (44, 0)], [(40, 3), (44, 0x3E)], [(40, 3), (44, 0x3C)]].map (fun a =>
      (answerOf 1 (run .arm (timing ([(0, 1), (2, 5), (5, 3), (41, 4), (42, 2)] ++ a) live))).map Prod.fst) =
      [some .regionDenied, some .outOfRegion, some .ok] := by decide +kernel

theorem test_cancel_of_a_matching_armed_slot_frees_it :
    let t := run .cancel (asking 1 1 (slotOf [(0, 2), (2, 12), (4, 7)]) none armed12)
    answerOf 1 t = some (.ok, .timerOnly 12 7) ∧ (t.store.slot 12).state = .free ∧ t.store.ptQueue = [] ∧
      (t.region 3).refs = 0 ∧ (t.report.ring 2).refs = 1 := by decide +kernel

theorem test_cancel_of_a_stale_generation :
    let t := run .cancel (asking 1 1 (slotOf [(0, 2), (2, 12), (4, 6)]) none armed12)
    answerOf 1 t = some (.staleGeneration, .timerOnly 12 7) ∧ (t.store.slot 12).state = .armed := by decide +kernel

/-- R24, R25: relative, delay 5 at PT 0. -/
theorem test_retime_moves_the_deadline :
    let t := run .retime (asking 1 1 (slotOf [(0, 3), (2, 12), (4, 7), (8, 5)]) none armed12)
    answerOf 1 t = some (.ok, .timerDeadline 12 7 5) ∧ (t.store.slot 12).deadline = 5 ∧ t.store.ptQueue = [12] := by
  decide +kernel

theorem test_query_shows_an_armed_slot :
    answerOf 1 (run .query (asking 1 1 (slotOf [(0, 4), (2, 12)]) none armed12)) =
      some (.ok, .snapshot 12 7 .armed .main .pt 10000 0) := by decide +kernel

/-! ### Administration requests -/

/-- Chapter 5's example: SET_REGION 2 while timer 5 names it is IN_USE with count 1. -/
theorem test_setRegion_in_use :
    let s := live.setRegion 2 { live.region 2 with refs := 1 }
    let t := run .setRegion (administering [(0, 0x10), (2, 2), (3, 2), (8, 0x80000010), (16, 0x80)] s)
    answerOf 0 t = some (.inUse, .region 2 true (some .write) 1 0x80000010 0x40) ∧ t.regions = s.regions := by decide +kernel

theorem test_setRegion_above_63 :
    answerOf 0 (run .setRegion (administering [(0, 0x10), (2, 64), (3, 1), (16, 8)] live)) =
      some (.badRegion, .region 64 false none 0 0 0) := by decide +kernel

theorem test_clearRegion_makes_it_invalid :
    let t := run .clearRegion (administering [(0, 0x11), (2, 1)] live)
    answerOf 0 t = some (.ok, .region 1 false (some .read) 0 0 0) ∧ t.region 1 = Region.reset ∧ t.region 2 = live.region 2 := by
  decide +kernel

/-- Chapter 4's example: CONFIGURE_TIMEBASE EXTERNAL, divisors 0 and 0. -/
theorem test_configure_begins_qualification :
    let t := run .configureTimebase (administering [(0, 0x20), (2, 2)] live)
    t.tb.source = .qualifying ∧ t.tb.pendingSwitch.map PendingSwitch.toFallback = some false ∧ t.tb.gapCount = 0 ∧
      (t.report.ring 0).queue = [] ∧ (t.report.ring 0).reserved = 1 := by decide +kernel

/-- Chapter 4's example: SET_TRIM -4 with MT 10,000 and OFFSET 500, and the adjusted tick after it. -/
theorem test_setTrim_and_the_adjusted_tick :
    let t := run .setTrim (administering [(0, 0x21), (4, 2 ^ 32 - 4)] (liveAt 10000 500))
    answerOf 0 t = some (.ok, .trim 0 (-4)) ∧ (run .tick t).tb.mt = 10001 ∧ (run .tick t).tb.offset = 499 ∧
      (run .tick t).tb.pt = 10500 := by decide +kernel

theorem test_trim_adjusts_four_positions :
    [0, 1, 262143, 262144, 524288, 786432, 1048575].map (adjustedTick (-4)) =
      [true, false, false, true, true, true, false] := by decide

/-- Chapter 4's example: the aligned step, and the edge at MT 2,400,017. -/
def steppedAtEdge : State :=
  let s := run .setTime (administering [(0, 0x22), (3, 1), (4, 1500000), (8, 5000000000)] (liveAt 2000000 0))
  run .alignEdge (s.setTb { s.tb with mt := 2400017, marks := true })

theorem test_setTime_at_align_is_pending :
    (run .setTime (administering [(0, 0x22), (3, 1), (4, 1500000), (8, 5000000000)] (liveAt 2000000 0))).tb.pendingStep.map
      (fun p => (p.mode, p.value, p.expiry)) = some (.absolute, 5000000000, 3500000) := by decide +kernel

theorem test_alignEdge_steps_and_marks :
    steppedAtEdge.tb.offset = 4997599983 ∧ steppedAtEdge.tb.pendingStep = none ∧
      (steppedAtEdge.report.ring 0).queue = [.ack ⟨0, 0, 0x22, 5, 6⟩ .ok (.step 2400017 5000000000),
        .event (.timeMark true 2400017 5000000000)] := by decide +kernel

/-- R93, R5: an IMMEDIATE relative step of +20 marks the slot due at 10 and not the one due at 30. -/
theorem test_setTime_immediate_marks_what_it_makes_due :
    let x : TimerSlot := { TimerSlot.reset with state := .armed, deadline := 10 }
    let s := live.setStore ⟨[(1, x), (2, { x with deadline := 30, seq := 1 })], [1, 2], [], 2⟩
    let t := run .setTime (administering [(0, 0x22), (2, 1), (8, 20)] s)
    answerOf 0 t = some (.ok, .step 0 20) ∧ (t.store.slot 1).stepped = true ∧ (t.store.slot 2).stepped = false ∧
      t.disp.offered.map Offer.timer = [1] := by decide +kernel

theorem test_setMarks_answers_with_the_setting_before :
    let t := run .setMarks (administering [(0, 0x23), (2, 1)] live)
    t.tb.marks = true ∧ answerOf 0 t = some (.ok, .marks false) := by decide +kernel

theorem test_readTime_is_a_snapshot :
    answerOf 0 (run .readTime (administering [(0, 0x24)] (liveAt 7 3))) =
      some (.ok, .time .internal false false false 0 7 10) := by decide +kernel

/-- Chapter 6's example: SET_LINE_REST of line 2 to HIGH, refused at MT 1060 and accepted at MT 1090. -/
theorem test_setLineRest_line_2 :
    let busy := live.setLine 2 ⟨.pulsing, some 1080, .low⟩
    let ask := administering [(0, 0x30), (2, 4), (4, 4)]
    (answerOf 0 (run .setLineRest (ask busy))).map Prod.fst = some .lineBusy ∧
      answerOf 0 (run .setLineRest (ask live)) = some (.ok, .lines 0 4 (List.replicate 8 .rest)) ∧
      (run .setLineRest (ask live)).line 2 = ⟨.rest, none, .high⟩ := by decide +kernel

/-- The bring-up sequence (11): CREATE_POST_RING before its report ring exists is answered NO_RING. -/
theorem test_createPostRing_needs_its_report_ring :
    answerOf 0 (run .createPostRing (administering [(0, 0x40), (2, 2), (3, 1), (4, 2), (8, 0x40000), (16, 32)] live)) =
      some (.noRing, .postRing 2 .absent 0 0 0) := by decide +kernel

theorem test_createPostRing_adds_a_reference :
    let t := run .createPostRing (administering [(0, 0x40), (2, 2), (3, 1), (4, 1), (8, 0x40000), (16, 32)] live)
    t.posting.ring 2 = ⟨.active, 0x40000, 32, 0, 0, 1, .high, 1⟩ ∧ (t.report.ring 1).refs = 2 := by decide +kernel

/-- R144: slots 5 and 6 of ring 1 are present and discarded. -/
theorem test_deletePostRing_counts_the_discarded_slots :
    let t := run .deletePostRing (administering [(0, 0x41), (2, 1)] live)
    answerOf 0 t = some (.ok, .postRing 1 .active 5 7 2) ∧ (t.posting.ring 1).state = .absent ∧
      (t.report.ring 1).refs = 0 := by decide +kernel

/-- Chapter 7's example: ring 5, stalled at head 10 with tail 14, resumed. -/
theorem test_resumePostRing_5 :
    let s := live.setPosting (live.posting.setRing 5 ⟨.stalled, 0x40000, 16, 10, 14, 2, .normal, 1⟩)
    let t := run .resumePostRing (administering [(0, 0x42), (2, 5)] s)
    answerOf 0 t = some (.ok, .postRing 5 .active 10 14 0) ∧ (t.posting.ring 5).headNeed = 1 := by decide +kernel

/-- The bring-up sequence (11): report ring 1 with 64 slots, C = 4 and Tc = 1000. -/
theorem test_createReportRing_as_in_bring_up :
    let s := live.setReport (live.report.setRing 1 ReportRing.reset)
    let t := run .createReportRing
      (administering [(0, 0x48), (2, 1), (3, 1), (4, 4), (8, 0x100008000), (16, 64), (20, 1000)] s)
    t.report.ring 1 = ReportRing.fresh 0x100008000 64 true 4 1000 0 ∧ (t.report.ring 1).phase = true ∧
      answerOf 0 t = some (.ok, .reportRing 1 .active 0 0 0 0 0) := by decide +kernel

/-- Chapter 8's example: ring 2, FAULTED at producer 9, is IN_USE with three references and deleted with none. -/
theorem test_deleteReportRing_2 :
    let at' := fun refs => live.setReport (live.report.setRing 2
      { ReportRing.fresh 0x20000 16 false 1 0 refs with state := .faulted, producer := 9 })
    let ask := fun s => run .deleteReportRing (administering [(0, 0x49), (2, 2)] s)
    answerOf 0 (ask (at' 3)) = some (.inUse, .reportRing 2 .faulted 9 0 3 0 0) ∧
      answerOf 0 (ask (at' 0)) = some (.ok, .reportRing 2 .faulted 9 0 0 0 0) ∧
      (ask (at' 0)).report.ring 2 = ReportRing.reset := by decide +kernel

/-! ### The intake (7, the eight-take rule; a record across the wrap; a stalled ring) -/

/-- Rings 1 and 2 HIGH, rings 3 and 4 NORMAL, all with records; positions and run as given. -/
def fourRings (lastHigh lastNormal : Option Nat) (highRun : Nat) : State :=
  let x := fun (c : RingClass) => PostRing.mk .active 0x100010000#64 32 0 9 1 c 1
  { live with posting := ⟨[(1, x .high), (2, x .high), (3, x .normal), (4, x .normal)], none, lastHigh, lastNormal, highRun⟩ }

/-- The ring of the take in progress. -/
def ringTaken (s : State) : Option Nat := s.posting.inProgress.map IntakeRecord.ring

/-- Takes 1, 2, 3, 10 and 11 of the example, and the NORMAL take after eight more. -/
theorem test_intakeChoice_eight_take_rule :
    [fourRings none none 0, fourRings (some 1) none 1, fourRings (some 2) none 2, fourRings (some 2) none 8,
      fourRings (some 2) (some 3) 0, fourRings (some 2) (some 3) 8].map (fun s => ringTaken (run .intakeChoice s)) =
      [some 1, some 2, some 1, some 3, some 1, some 4] := by decide +kernel

/-- Ring 0, eligible, goes first; its reservation is in report ring 0. -/
theorem test_intakeChoice_ring_0_first :
    let t := run .intakeChoice live
    ringTaken t = some 0 ∧ (t.report.ring 0).reserved = 1 := by decide +kernel

/-- Posting ring 2 of the example: size 8, head 7. -/
def wrapping (tail headNeed : Nat) (slot1 : Option PostSlot) : State :=
  { live with
    posting := ⟨[(2, ⟨.active, 0x40000, 8, 7, tail, headNeed, .normal, 1⟩)],
      some ⟨2, 1, 7, .fetching, none, slot1, none, 7, true⟩, none, none, 0⟩
    report := live.report.setRing 1 { live.report.ring 1 with reserved := 1 } }

theorem test_intakeReadAnswer_withdraws_half_a_record :
    let t := run (.intakeReadAnswer (.ok arm12)) (wrapping 0 1 none)
    t.posting.ring 2 = ⟨.active, 0x40000, 8, 7, 0, 2, .normal, 1⟩ ∧ t.posting.inProgress = none ∧
      (t.report.ring 1).reserved = 0 ∧ (t.report.ring 1).queue = [] := by decide +kernel

theorem test_intakeReadAnswer_across_the_wrap :
    let t := run (.intakeReadAnswer (.ok extension12)) (wrapping 1 2 (some arm12))
    t.posting.ring 2 = ⟨.active, 0x40000, 8, 1, 1, 1, .normal, 1⟩ ∧
      t.posting.inProgress.map (fun r => (r.stage, r.first, r.newHead)) = some (.atOwner, 7, 1) ∧
      t.posting.lastNormal = some 2 := by decide +kernel

/-- The second opcode is CANCEL: BAD_FORMAT; an extension record first: BAD_OPCODE. -/
theorem test_intake_refuses_unpaired_records :
    answerOf 1 (run (.intakeReadAnswer (.ok (slotOf [(0, 2), (2, 3)]))) (wrapping 1 2 (some arm12))) = some (.badFormat, .none) ∧
      answerOf 1 (run (.intakeReadAnswer (.ok extension12)) (wrapping 1 2 none)) = some (.badOpcode, .none) := by
  decide +kernel

/-- A fetch error on slot 7 of ring 2: STALLED, opcode 0, first slot and new head 7. -/
theorem test_intake_fetch_error :
    let t := run (.intakeReadAnswer .error) (wrapping 1 1 none)
    (t.posting.ring 2).state = .stalled ∧ (t.report.ring 1).queue = [.ack ⟨2, 1, 0, 7, 7⟩ .fetchError .none] ∧
      t.window.adminFault = none := by decide +kernel

/-! ### Doorbells and registers -/

theorem test_tail_doorbell :
    (run (.postingTailDoorbell 1 9) live).posting.ring 1 = { live.posting.ring 1 with tail := 9 } ∧
      (run (.postingTailDoorbell 1 32) live).window.doorbellError = some ⟨1, 0, false⟩ ∧
      (run (.postingTailDoorbell 2 0) live).window.doorbellError = some ⟨2, 0, false⟩ := by decide +kernel

/-- Chapter 8's example: consumer 6, producer 2, size 8; value 2 is accepted, value 3 is not. -/
theorem test_consumer_doorbell_over_the_wrap :
    let s := live.setReport (live.report.setRing 3 { ReportRing.fresh 0x20000 8 true 3 100 0 with producer := 2, consumer := 6 })
    ((run (.reportConsumerDoorbell 3 2) s).report.ring 3).consumer = 2 ∧
      (run (.reportConsumerDoorbell 3 3) s).window.doorbellError = some ⟨3, 1, false⟩ := by decide +kernel

/-- R159, R161: three held entries and one slot freed: the oldest moves. -/
theorem test_consumer_doorbell_moves_the_oldest_held :
    let e := fun n => Report.event (.sourceLost n n)
    let s := live.setReport
      { live.report.setRing 1 { ReportRing.fresh 0x20000 4 false 1 0 1 with producer := 3 } with
        hold := [⟨1, e 1⟩, ⟨0, e 2⟩, ⟨1, e 3⟩] }
    let t := run (.reportConsumerDoorbell 1 1) s
    (t.report.ring 1).queue = [e 1] ∧ t.report.hold = [⟨0, e 2⟩, ⟨1, e 3⟩] := by decide +kernel

theorem test_doorbell_naming_nothing :
    let t := run (.doorbellNoRing 9 1 0) live
    t.window.doorbellError = some ⟨9, 1, false⟩ ∧
      (run (.doorbellNoRing 1 3 0) t).window.doorbellError = some ⟨9, 1, true⟩ ∧
      (run (.doorbellErrorClear 0x10000) t).window.doorbellError = none := by decide

/-- The bring-up sequence (11): free 31, reference count 1. -/
theorem test_enable_makes_the_administration_rings :
    let s := { State.reset with window := { Window.cold with
      adminPostBase := 0x100000000, adminReportBase := 0x100004000, adminPostSize := 16, adminReportSize := 32 } }
    let t := run .enable s
    t.window.enabled = true ∧ t.posting.ring 0 = ⟨.active, 0x100000000, 16, 0, 0, 1, .administration, 0⟩ ∧
      (t.report.ring 0).free = 31 ∧ (t.report.ring 0).refs = 1 ∧ (t.report.ring 0).phase = true := by decide

/-- R180: 3 slots are too few; the refusal is recorded and the fault is cleared by an enable that passes. -/
theorem test_enable_refused :
    let w := { Window.cold with adminPostSize := 3, adminReportSize := 4 }
    let t := run .enable { State.reset with window := w }
    t.window = { w with adminFault := some .enableRefused } ∧
      (run .enable (run (.adminSizesWrite 0x400000004#64) t)).window.adminFault = none := by decide

theorem test_admin_registers_hold_what_is_written :
    (run (.adminPostBaseWrite 0x123) State.reset).window.adminPostBase = 0x123 ∧
      (run (.adminReportBaseWrite 0x456) State.reset).window.adminReportBase = 0x456 ∧
      (run (.adminSizesWrite 0xFFFF0020FFFF0010#64) State.reset).window.adminPostSize = 0x10 ∧
      (run (.adminSizesWrite 0xFFFF0020FFFF0010#64) State.reset).window.adminReportSize = 0x20 ∧
      run (.adminPostBaseWrite 0x123) live = live := by decide

theorem test_interrupt_registers :
    let s := live.setReport { live.report with intrPending := 0b101 }
    (run (.intrPendingClear 0b100) s).report.intrPending = 0b001 ∧ (run (.intrMaskWrite 0x1FE) s).window.intrMask = 0x1FE ∧
      (run (.intrMaskWrite 0x1FE) s).intOutput = some true ∧ s.intOutput = some false := by decide

theorem test_other_writes_and_reads :
    run (.registerWriteOther 0 8 5) live = live ∧ live.readRegister 0x00 8 = some 0x01248000D2#64 ∧
      live.readRegister 0x02 2 = some 0x2480 ∧ live.readRegister 0x04 1 = some 1 ∧ live.readRegister 0x10 8 = some 3 ∧
      live.readRegister 0x44 8 = some 0 := by decide

/-- STATUS bit by bit (10): READY, ENABLED, the fault and its cause, MULTIPLE, ring 9, kind 1 and FALLBACK; its upper half and
one of its bytes. -/
theorem test_status_by_its_layout :
    let s := { live with
      window := { live.window with
        adminFault := some .reportRingWrite, doorbellError := some ⟨9, 1, true⟩, resetCause := .powerReturn }
      tb := { live.tb with source := .fallback } }
    s.readRegister 0x10 8 = some 0x301930733#64 ∧ s.readRegister 0x14 4 = some 3 ∧ s.readRegister 0x12 1 = some 0x93 ∧
      RegisterValue s 2 = 0x301930733 := by decide

/-! ### Resets and supplies -/

/-- A write of timer 9 outstanding in action slot 2: four bytes of 0x11223344 at 0x8000004C. -/
def writing9 : State :=
  let a : Action := ⟨.store, 4, 2, 0x3C, 0x11223344, 0⟩
  { live with
    store := { TimerStore.reset with slots := [(9, { TimerSlot.reset with state := .firing, mainAction := a })] }
    engine := ⟨[(2, { ActionSlot.reset with
      stage := .writing, timer := 9, action := a, addr := 0x8000004C, target := some (.word 0x80000048) })], [2], []⟩
    lines := [(2, ⟨.held, none, .high⟩)] }

theorem test_functionReset_waits_for_the_write :
    let t := run (.functionReset true) writing9
    t.window.ready = false ∧ t.window.enabled = false ∧ t.window.resetCause = .control ∧
      t.window.awaited = [.write ⟨0x8000004C, 4, 0x11223344⟩] ∧ t.line 2 = ⟨.rest, none, .high⟩ ∧
      t.store = TimerStore.reset := by decide +kernel

/-- R75: two of the four bytes have reached memory; with the answer the reset ends. -/
theorem test_abandonedAnswer_lands_its_bytes_and_ends_the_reset :
    let t := run (.abandonedAnswer 0 false 0b0011) (run (.functionReset true) writing9)
    t.window.ready = true ∧ t.window.awaited = [] ∧ t.mem = [(0x8000004C, 0x44), (0x8000004D, 0x33)] := by decide +kernel

theorem test_resetAssert_holds_until_the_release :
    let t := run .resetAssert live
    t.window.ready = false ∧ t.window.resetCause = .pin ∧ t.window.awaited = [] ∧
      (run .resetRelease t).window.ready = true ∧ run .resetAssert t = t := by decide +kernel

theorem test_mainSupplyLoss_and_return :
    let s := writing9.setTb { tbAt 100 5 with source := .external, divInUse := 10, prescaler := 4 }
    let t := run (.mainSupplyLoss [0b1000]) s
    t.window.ready = false ∧ t.tb.source = .fallback ∧ t.tb.mt = 100 ∧ t.tb.divInUse = 32 ∧ t.tb.prescaler = 0 ∧
      t.mem = [(0x8000004F, 0x11)] ∧ (run .mainSupplyReturn t).window.ready = false ∧
      (run .mainSupplyReturn t).window.resetCause = .powerReturn ∧ (run .mainSupplyReturn t).tb.mt = 100 ∧
      (run .mainSupplyReturn t).idle.window.ready = true := by decide +kernel

/-- R174: with nothing outstanding READY is 0 after the taking, in STATUS too, and 1 in the step after, whatever command that is,
unless it takes a reset. -/
theorem test_functionReset_ends_in_the_step_after :
    let t := run (.functionReset false) live
    t.window.ready = false ∧ t.readRegister 0x10 8 = some 0x20 ∧ t.idle.window.ready = true ∧
      t.idle.readRegister 0x10 8 = some 0x21 ∧ t.idle.tb = t.tb ∧
      (run .enable t).window.adminFault = some .enableRefused ∧
      [Instr.enable, .tick, .refclkEdge, .alignEdge, .intrPendingClear 1, .doorbellNoRing 9 0 0, .registerWriteOther 0 8 0,
        .arm, .intakeChoice, .dispatchWalk, .completionReturn, .keepAliveSupplyLoss, .mainSupplyReturn, .resetRelease].map
        (fun c => (run c t).window.ready) = List.replicate 14 true ∧
      (run (.functionReset false) t).window.ready = false ∧
      (run .tick (t.setTb (tbAt 5 1))).tb.mt = 6 := by decide +kernel

/-- R101: while the RESET input holds a cold reset nothing is counted; the first tick comes 32 periods after the release. -/
theorem test_coldReset_held_counts_nothing :
    let t := run (.coldReset true) { State.reset with inputs := ⟨false, false, true⟩ }
    t.window.ready = false ∧ t.idle = t ∧ run .tick { t with tb := tbAt 0 0 } = { t with tb := tbAt 0 0 } ∧
      (State.idle^[31] (run .resetRelease t)).tb.mt = 0 ∧ (State.idle^[32] (run .resetRelease t)).tb.mt = 1 := by
  decide +kernel

theorem test_coldReset_after_both_supplies :
    let t := run .keepAliveSupplyLoss (run (.mainSupplyLoss []) { writing9 with lines := [(2, ⟨.held, none, .high⟩)] })
    t.tb = TimeBase.cold ∧ t.lines = [] ∧ run (.coldReset true) t = State.reset := by decide +kernel

/-! ### The clock (4, qualifying REFCLK and losing it; 6; 8) -/

theorem test_tick_begins_a_new_count :
    let t := run .tick (liveAt 5 1)
    t.tb.mt = 6 ∧ t.tb.pt = 7 ∧ t.tb.prescaler = 0 ∧ run .tick live = live := by decide +kernel

/-- A switch pending from INTERNAL, its acknowledgment promised on report ring 0. -/
def qualifying (mt : U64) (edges ticks : Nat) : State :=
  let s := live.setReport (live.report.setRing 0 { live.report.ring 0 with reserved := 1 })
  s.setTb { tbAt mt 0 with source := .qualifying, pendingSwitch := some ⟨false, edges, ticks, ⟨0, 0, 0x20, 5, 6⟩⟩ }

theorem test_sourceQualified_at_the_1024th_edge :
    let t := run .sourceQualified (qualifying 700170 1023 170)
    t.tb.pendingSwitch.map PendingSwitch.edges = some 1024 ∧ t.tb.source = .qualifying ∧
      run .sourceQualified (qualifying 700170 1022 170) = qualifying 700170 1022 170 := by decide +kernel

theorem test_sourceSwitch_at_the_next_tick :
    let t := run .sourceSwitch (qualifying 700170 1024 170)
    t.tb.mt = 700171 ∧ t.tb.source = .external ∧ t.tb.divInUse = 10 ∧ t.tb.pendingSwitch = none ∧
      answerOf 0 t = some (.ok, .timebase .external 32 10) := by decide +kernel

theorem test_qualificationTimeout_at_the_65536th_tick :
    let t := run .qualificationTimeout (qualifying 1015535 1000 65535)
    t.tb.mt = 1015536 ∧ t.tb.source = .internal ∧ answerOf 0 t = some (.sourceNotReady, .timebase .internal 32 10) := by
  decide +kernel

theorem test_refclkGap_falls_back :
    let s := live.setTb { tbAt 900000 7 with source := .external, divInUse := 10, prescaler := 4, gapCount := 63 }
    let t := run .refclkGap s
    t.tb = { s.tb with source := .fallback, divInUse := 32, prescaler := 0, gapCount := 64 } ∧
      (t.report.ring 0).queue = [.event (.sourceLost 900000 900007)] := by decide +kernel

theorem test_refclkEdge_drives_ticks_in_external :
    let s := live.setTb { tbAt 5 0 with source := .external, divInUse := 10, prescaler := 9 }
    (run .refclkEdge s).tb.mt = 6 ∧ (run .refclkEdge live).tb = { live.tb with gapCount := 0 } := by decide +kernel

/-- Chapter 4's example: no edge by MT 3,500,000. -/
theorem test_alignTimeout_at_the_expiry :
    let s := liveAt 3499999 0
    let p : PendingStep := ⟨.absolute, 5000000000, 3500000, ⟨0, 0, 0x22, 5, 6⟩⟩
    let t := run .alignTimeout
      ((s.setTb { s.tb with pendingStep := some p }).setReport (s.report.setRing 0 { s.report.ring 0 with reserved := 1 }))
    t.tb.pendingStep = none ∧ answerOf 0 t = some (.alignTimeout, .step 3500000 3500000) := by decide +kernel

/-- Chapter 6's example: the tick to MT 1080. -/
theorem test_pulseEnd_at_its_tick :
    let s := (liveAt 1079 0).setLine 2 ⟨.pulsing, some 1080, .low⟩
    (run (.pulseEnd 2) s).line 2 = LineRec.reset ∧ (run (.pulseEnd 2) s).tb.mt = 1080 ∧ s.outputLevel 2 = some .high := by
  decide +kernel

/-- Chapter 8's example: the tick to MT 2100. -/
theorem test_coalesceTime_raises_the_bit :
    let s := (liveAt 2099 0).setReport (live.report.setRing 3
      { ReportRing.fresh 0x20000 8 true 3 100 0 with unsignalled := 1, oldest := some 2000 })
    let t := run (.coalesceTimeExpiry 3) s
    t.report.intrPending = 8 ∧ (t.report.ring 3).unsignalled = 0 ∧ (t.report.ring 3).oldest = none := by decide +kernel

/-- R117, R119: a pulse of width 1 asked for at MT 1079 ends at the tick to MT 1080, of a line in REST and of one whose pulse
ends at that tick already (log entry 28). -/
theorem test_pulse_of_width_1_with_one_tick_left :
    [LineRec.reset, ⟨.pulsing, some 1080, .low⟩].map (fun l => (l.pulse 1 1079, l.pulse 2 1079)) =
      [(⟨.pulsing, some 1080, .low⟩, ⟨.pulsing, some 1081, .low⟩), (⟨.pulsing, some 1080, .low⟩, ⟨.pulsing, some 1081, .low⟩)] := by
  decide

/-! ### Dispatch and actions (3) -/

/-- The walk's example: W1, W2 and W3 are host words, timer 88 holds line 3. -/
def walking (claim : Option Nat) (slots : List (Nat × ActionSlot)) : State :=
  let w := fun (n : Nat) => Target.word (BitVec.ofNat 64 (0x80000000 + 16 * n))
  let s := live.setTb (tbAt 5000 100000)
  { s with
    disp := ⟨[⟨9, .pt, 104990, 0, some (w 1)⟩, ⟨7, .pt, 104996, 1, some (w 1)⟩, ⟨51, .pt, 104999, 2, some (w 3)⟩,
      ⟨40, .mt, 4990, 3, some (w 2)⟩, ⟨300, .mt, 4998, 4, some (.line 3)⟩], claim⟩
    engine := ⟨(0, { ActionSlot.reset with stage := .line, timer := 88, target := some (.line 3) }) :: slots, [0], []⟩ }

/-- An action of the example on a host word. -/
def onWord (timer n : Nat) : ActionSlot :=
  { ActionSlot.reset with
    stage := .writing, timer := timer, target := some (.word (BitVec.ofNat 64 (0x80000000 + 16 * n))) }

/-- Timer 9 first, before timer 40 by its scale; with 9 and 40 in flight, 7 and 300 conflict and 51 is claimed. -/
theorem test_walk_past_a_conflict :
    (run .dispatchWalk (walking none [])).disp.claim = some 9 ∧
      (run .dispatchWalk (walking none [(1, onWord 9 1)])).disp.claim = some 40 ∧
      (run .dispatchWalk (walking none [(1, onWord 9 1), (2, onWord 40 2)])).disp.claim = some 51 := by decide +kernel

/-- Timer 12 due at PT 10002 and claimed: FIRING, READING, lateness 2 (10). -/
def claimed12 : State :=
  let s := armed12.setTb (tbAt 10002 0)
  run .dispatchClaim (s.setDisp ⟨[s.offerOf 12], some 12⟩)

theorem test_claim_dispatches_timer_12 :
    (claimed12.store.slot 12).state = .firing ∧ claimed12.store.ptQueue = [] ∧ claimed12.disp = ⟨[], none⟩ ∧
      claimed12.engine.order = [0] ∧ (claimed12.engine.slot 0).stage = .reading ∧ (claimed12.engine.slot 0).lateness = 2 ∧
      (claimed12.engine.slot 0).addr = 0x9040 := by decide +kernel

theorem test_claim_refuses_a_slot_not_due :
    let s := armed12.setDisp ⟨[armed12.offerOf 12], some 12⟩
    (run .dispatchClaim s).store = armed12.store ∧ (run .dispatchClaim s).disp = ⟨[], none⟩ := by decide +kernel

/-- R62: a NOTE completes at its placement with result 0 and ZERO set. -/
theorem test_claim_completes_a_note :
    let s := { live with
      store := ⟨[(6, { TimerSlot.reset with state := .armed })], [6], [], 1⟩, disp := ⟨[], some 6⟩ }
    (run .dispatchClaim s).engine = ⟨[], [], [⟨6, 0, 0, .pt, 0, .ok, 0, false, true, false⟩]⟩ := by decide +kernel

/-- R57: a HELD store begins only after the earlier action on its word has left its slot. -/
theorem test_heldAction_waits_its_turn :
    let a : Action := ⟨.store, 4, 1, 0x10, 1, 0⟩
    let held : ActionSlot := { onWord 7 1 with stage := .held, action := a }
    let s := { live with engine := ⟨[(0, held), (3, onWord 9 1)], [3, 0], []⟩ }
    let u := { live with engine := ⟨[(0, held)], [0], []⟩ }
    run (.heldActionBegin 0) s = s ∧ ((run (.heldActionBegin 0) u).engine.slot 0).stage = .writing := by decide +kernel

/-- One row of the table of the read kinds: what is written (none: nothing), the result, MATCH and ZERO. -/
def readKind (kind : ActionKind) (value a b : U64) : Option U64 × U64 × Bool × Bool :=
  let x : ActionSlot := { ActionSlot.reset with stage := .reading, addr := 0x100, action := ⟨kind, 2, 1, 0, a, b⟩ }
  let t := run (.actionReadAnswer 1 (.ok value)) { live with engine := ⟨[(1, x)], [1], []⟩ }
  match t.engine.returns with
  | c :: _ => (none, c.result, c.matchFlag, c.zeroFlag)
  | [] =>
    let y := t.engine.slot 1
    (some (y.portWrite.data.setWidth 64), y.result, y.matchFlag, y.zeroFlag)

/-- Chapter 3, results of the read kinds, row by row. -/
theorem test_results_of_the_read_kinds :
    [readKind .swapIfEqual 0x0000 0x0000 0x0007, readKind .swapIfEqual 0x0005 0x0000 0x0007,
      readKind .swapIfEqual 0x0005 0x10005 0x0007, readKind .countDown 0x0001 0 0, readKind .countDown 0x0000 0 0,
      readKind .countDown 0x8000 0 0, readKind .clearBits 0x00FF 0x000F 0, readKind .setBits 0x0000 0x0000 0] =
    [(some 7, 0, true, true), (none, 5, false, false), (some 7, 5, true, false), (some 0, 0, false, true),
      (none, 0, false, true), (some 0x7FFF, 0x7FFF, false, false), (some 0xF0, 0xFF, false, false),
      (some 0, 0, false, true)] := by decide +kernel

/-- R69: a read answered ERROR. -/
theorem test_readAnswer_error :
    (run (.actionReadAnswer 0 .error) claimed12).engine.returns.map (fun c => (c.status, c.result, c.matchFlag, c.zeroFlag)) =
      [(.readError, 0, false, false)] := by decide +kernel

theorem test_writeAnswer_stores_and_completes :
    let t := run (.actionWriteAnswer 2 .ok) writing9
    t.mem = [(0x8000004C, 0x44), (0x8000004D, 0x33), (0x8000004E, 0x22), (0x8000004F, 0x11)] ∧
      t.engine = ⟨[], [], [⟨9, 0, 0, .pt, 0, .ok, 0x11223344, false, false, false⟩]⟩ := by decide +kernel

/-- Chapter 6's example, MT 1000 to 1120: each line request and the record after it. -/
theorem test_lineRequest_line_2 :
    let ask := fun (mt : U64) (kind : ActionKind) (a : U64) (l : LineRec) =>
      let x : ActionSlot := { ActionSlot.reset with stage := .line, action := ⟨kind, 0, 2, 0, a, 0⟩ }
      (run (.lineRequest 0) ({ liveAt mt 0 with engine := ⟨[(0, x)], [0], []⟩ }.setLine 2 l)).line 2
    [ask 1000 .linePulse 50 ⟨.rest, none, .low⟩, ask 1020 .linePulse 10 ⟨.pulsing, some 1050, .low⟩,
      ask 1040 .linePulse 40 ⟨.pulsing, some 1050, .low⟩, ask 1100 .lineSet 3 ⟨.rest, none, .high⟩,
      ask 1110 .linePulse 5 ⟨.held, none, .high⟩, ask 1120 .lineSet 3 ⟨.held, none, .high⟩] =
    [⟨.pulsing, some 1050, .low⟩, ⟨.pulsing, some 1050, .low⟩, ⟨.pulsing, some 1080, .low⟩, ⟨.held, none, .high⟩,
      ⟨.held, none, .high⟩, ⟨.rest, none, .high⟩] := by decide +kernel

/-- R71: the answer PULSING completes the action with result 2. -/
theorem test_lineAnswer_completes :
    let x : ActionSlot := { ActionSlot.reset with stage := .line, answer := some .pulsing, action := ⟨.linePulse, 0, 3, 0, 100, 0⟩ }
    (run (.lineAnswer 0) { live with engine := ⟨[(0, x)], [0], []⟩ }).engine =
      ⟨[], [], [⟨0, 0, 0, .pt, 0, .ok, 2, false, false, false⟩]⟩ := by decide +kernel

/-! ### Completion returns (2) and report writes (8) -/

/-- Timer 12's swap completed at PT 10005 with old value 0. -/
def returned12 : State :=
  let s := run (.actionWriteAnswer 0 .ok) (run (.actionReadAnswer 0 (.ok 0)) claimed12)
  run .completionReturn (s.setTb (tbAt 10005 0))

/-- "ARMED, FOLLOW, deadline 10045, fire count 1"; flags 0x0C, lateness 2. -/
theorem test_completionReturn_arms_the_follow_phase :
    (returned12.store.slot 12).state = .armed ∧ (returned12.store.slot 12).phase = .follow ∧
      (returned12.store.slot 12).deadline = 10045 ∧ (returned12.store.slot 12).fireCount = 1 ∧
      (returned12.report.ring 2).queue.tail.map (Report.encode true) =
        [BitVec.ofNat 256 (0x02 + 2 ^ 8 + 12 * 2 ^ 16 + 7 * 2 ^ 32 + 0x0C * 2 ^ 40 + 1 * 2 ^ 64 + 2 * 2 ^ 96)] ∧
      (returned12.report.ring 2).queue.tail.map (fun y => (List.range 32).map (y.byteAt true)) =
        [[2, 1, 12, 0, 7, 0x0C, 0, 0, 1, 0, 0, 0, 2] ++ List.replicate 19 0] := by
  decide +kernel

/-- Timer 200 (2, a counted periodic timer with a step): CATCHUP to 1250, SKIP at PT 2100 to 2250 with 3 skipped, and the end
at fire count 4. -/
theorem test_completionReturn_next_period :
    let x := fun (pol : PeriodPolicy) (d : U64) (count : BitVec 32) => ({ TimerSlot.reset with
      state := .firing, deadline := d, period := some ⟨250, pol⟩, countLimit := 4, fireCount := count } : TimerSlot)
    let ret := fun (x : TimerSlot) => run .completionReturn { live.setTb (tbAt 2100 0) with
      store := { TimerStore.reset with slots := [(200, x)] }, engine := ⟨[], [], [⟨200, 0, 0, .pt, 0, .ok, 1, false, false, false⟩]⟩ }
    ((ret (x .catchup 1000 0)).store.slot 200).deadline = 1250 ∧ ((ret (x .skip 1250 1)).store.slot 200).deadline = 2250 ∧
      ((ret (x .catchup 1750 3)).store.slot 200).state = .free ∧ (Period.next ⟨250, .skip⟩ 2100 1250 = .nextPeriod 2250 3) := by
  decide +kernel

/-- Chapter 8's example, MT 1010 and MT 1020: the phase toggles at the wrap, and the third record raises the bit. -/
theorem test_reportWrite_across_the_wrap :
    let ring := fun (producer unsignalled : Nat) (phase : Bool) => ({ ReportRing.fresh 0x20000 8 true 3 100 0 with
      producer := producer, consumer := 6, phase := phase, unsignalled := unsignalled, oldest := some 1000,
      queue := [.event (.sourceLost 0 0)] } : ReportRing)
    let put := fun (mt : U64) (x : ReportRing) =>
      run (.reportWriteAnswer (.ring 3) .ok) ((liveAt mt 0).setReport (live.report.setRing 3 x))
    ((put 1010 (ring 7 1 true)).report.ring 3).phase = false ∧ ((put 1010 (ring 7 1 true)).report.ring 3).producer = 0 ∧
      ((put 1010 (ring 7 1 true)).report.ring 3).unsignalled = 2 ∧ (put 1020 (ring 0 2 false)).report.intrPending = 8 ∧
      ((put 1020 (ring 0 2 false)).report.ring 3).unsignalled = 0 ∧
      Memory.read (put 1010 (ring 7 1 true)).mem (0x20000 + 32 * 7 + 1) = some 1 := by decide +kernel

/-- Chapter 8's example: the write of f1 to slot 9 of ring 2 is answered ERROR. -/
theorem test_reportWrite_fault_on_ring_2 :
    let e := fun n => Report.event (.sourceLost n n)
    let s := live.setReport { live.report.setRing 2 { ReportRing.fresh 0x20000 16 false 1 0 5 with
      producer := 9, consumer := 13, queue := [e 1, e 2, e 3] } with hold := [⟨2, e 4⟩, ⟨1, e 5⟩, ⟨2, e 6⟩] }
    let t := run (.reportWriteAnswer (.ring 2) (.error 0)) s
    (t.report.ring 2).state = .faulted ∧ (t.report.ring 2).producer = 9 ∧ (t.report.ring 2).queue = [] ∧
      t.report.hold = [⟨1, e 5⟩] ∧ (t.report.ring 0).queue = [.event (.reportRingFault 2 9 0 0)] := by decide +kernel

/-! ### States that meet the hypotheses of the statements: the step and its laws -/

/-- A cold reset held by the RESET input. -/
def heldCold : State :=
  { State.reset with
    inputs := ⟨true, true, true⟩
    window := { Window.cold with ready := false, resetInProgress := true } }

/-- Operands at their bounds: the last count before a wrap, the last period before a gap; a reset about to end, no supply, and
a cold reset in progress; a period that completes a gap and a tick, in QUALIFYING and in INTERNAL; a count that stays at 64; and
REFCLK driving ticks. -/
theorem witness_StepRunsTheFrontCommandOrOneOscillatorPeriod :
    (∃ s : State, s.pending = [.tick]) ∧ (∃ s : State, s.pending = [] ∧ ResetAboutToEnd s) ∧
      (∃ s : State, s.pending = [] ∧ ¬ResetAboutToEnd s ∧ s.inputs = ⟨false, false, false⟩) ∧
      (∃ s : State, s.pending = [] ∧ ¬ResetAboutToEnd s ∧ s.inputs.mainSupply = true ∧ InColdReset s) ∧
      (∃ s : State, s.pending = [] ∧ ¬ResetAboutToEnd s ∧ OscillatorCounts s ∧ s.tb.gapCount = 63 ∧ s.tb.source = .qualifying ∧
        s.tb.prescaler + 1 = s.tb.divInUse) ∧
      (∃ s : State, s.pending = [] ∧ ¬ResetAboutToEnd s ∧ OscillatorCounts s ∧ s.tb.gapCount = 63 ∧ s.tb.source = .internal ∧
        s.tb.pendingSwitch = none ∧ s.tb.divInUse = s.tb.prescaler + 1) ∧
      (∃ s : State, s.pending = [] ∧ ¬ResetAboutToEnd s ∧ OscillatorCounts s ∧ s.tb.gapCount = 64 ∧ s.tb.source = .fallback ∧
        s.tb.prescaler + 2 = s.tb.divInUse) ∧
      (∃ s : State, s.pending = [] ∧ ¬ResetAboutToEnd s ∧ OscillatorCounts s ∧ s.tb.gapCount = 62 ∧ s.tb.source = .external) ∧
      ∃ s : State, s.pending = [] ∧ ¬ResetAboutToEnd s ∧ OscillatorCounts s ∧ s.tb.gapCount = 62 ∧
        s.tb.prescaler + 2 = s.tb.divInUse :=
  ⟨⟨{ State.reset with pending := [.tick] }, rfl⟩, ⟨run (.functionReset false) live, by decide +kernel, by decide +kernel⟩,
    ⟨{ State.reset with inputs := ⟨false, false, false⟩ }, rfl, by decide, rfl⟩,
    ⟨heldCold, rfl, by decide, rfl, by decide⟩,
    ⟨live.setTb { tbAt 0 0 with source := .qualifying, gapCount := 63 }, rfl, by decide, by decide, rfl, rfl, rfl⟩,
    ⟨live.setTb { tbAt 0 0 with gapCount := 63 }, rfl, by decide, by decide, rfl, rfl, rfl, rfl⟩,
    ⟨live.setTb { tbAt 0 0 with source := .fallback, gapCount := 64, prescaler := 30 }, rfl, by decide, by decide, rfl, rfl, rfl⟩,
    ⟨live.setTb { tbAt 0 0 with source := .external, gapCount := 62 }, rfl, by decide, by decide, rfl, rfl⟩,
    ⟨{ State.reset with tb := { TimeBase.cold with gapCount := 62, prescaler := 30 } }, rfl, by decide, by decide, rfl, rfl⟩⟩

theorem step_answers (s : State) (h : s.pending = []) : ∃ t, step s = .next t := ⟨s.idle, by simp [step, h]⟩

theorem witness_StepsKeepTheCanonicalForm : armed12.canonical = true ∧ ∃ t, step armed12 = .next t :=
  ⟨by decide +kernel, step_answers _ (by decide +kernel)⟩

theorem lawful_qualifying : (qualifying 700170 1024 65535).tb.Lawful where
  intDivisor := by decide
  extDivisor := by decide
  divInUse := by decide
  prescaler := by decide
  gapCount := by decide
  windowPos := by decide
  trim := by decide
  qualifying := by decide
  switch := by
    intro p h
    have h' : (⟨false, 1024, 65535, ⟨0, 0, 0x20, 5, 6⟩⟩ : PendingSwitch) = p := Option.some.inj h
    subst h'
    decide

theorem witness_StepsKeepTheTimeBaseInRange :
    (qualifying 700170 1024 65535).tb.Lawful ∧ ∃ t, step (qualifying 700170 1024 65535) = .next t :=
  ⟨lawful_qualifying, step_answers _ rfl⟩

theorem witness_StepsKeepTheWindowLaw : ∃ s t, State.WindowLaw s ∧ s.window.resetInProgress = true ∧ step s = .next t :=
  ⟨run .resetAssert live, _, ⟨by decide, by decide, by decide, by decide, by decide⟩, by decide, rfl⟩

theorem idleLaw_of_enabled (s : State) (h : s.window.enabled = true) : s.IdleLaw := by
  constructor <;> intro h' <;> simp_all

/-- A controller not enabled whose Time Base has run. -/
theorem witness_StepsKeepDisabledBlocksInReset :
    ∃ s t, State.IdleLaw s ∧ s.window.enabled = false ∧ s.tb.mt = 5 ∧ step s = .next t :=
  ⟨State.reset.setTb (tbAt 5 1), _,
    ⟨fun _ => rfl, fun _ => rfl, fun _ => rfl, fun _ => rfl, fun _ => rfl, fun _ => rfl, fun _ => by decide,
      fun _ => ⟨rfl, rfl, rfl⟩⟩, rfl, rfl, rfl⟩

/-- Timers 1 and 2 ARMED on PT, in deadline order. -/
def queued : TimerStore :=
  let x : TimerSlot := { TimerSlot.reset with state := .armed, deadline := 10 }
  ⟨[(1, x), (2, { x with deadline := 30, seq := 1 })], [1, 2], [], 2⟩

theorem queueLaw_queued : queued.QueueLaw where
  members := by
    intro sc n
    by_cases h1 : n = 1
    · subst h1; cases sc <;> decide
    · by_cases h2 : n = 2
      · subst h2; cases sc <;> decide
      · cases sc <;> simp [queued, TimerStore.queue, TimerStore.slot, Map.get, Map.find, TimerSlot.reset, h1, h2]
  once := by intro sc; cases sc <;> decide
  inOrder := by intro sc; cases sc <;> decide

theorem witness_StepsKeepArmedSlotsOnTheirQueues :
    ∃ s t, s.store = queued ∧ s.store.QueueLaw ∧ step s = .next t :=
  ⟨live.setStore queued, _, rfl, queueLaw_queued, rfl⟩

/-- Timer 7's store HELD behind timer 9's on one host word. -/
def heldBehind : ActionEngine :=
  ⟨[(0, { onWord 7 1 with stage := .held, action := ⟨.store, 4, 1, 0x10, 1, 0⟩ }), (3, onWord 9 1)], [3, 0], []⟩

theorem orderLaw_heldBehind : heldBehind.OrderLaw where
  occupied := by
    intro i
    by_cases h0 : i = 0
    · subst h0; decide
    · by_cases h3 : i = 3
      · subst h3; decide
      · simp [heldBehind, ActionEngine.slot, Map.get, Map.find, ActionSlot.reset, h0, h3]
  numbered := by decide
  once := by decide
  oneBegun := by decide +kernel

theorem witness_StepsKeepOneBegunActionPerTarget :
    ∃ s t, s.engine = heldBehind ∧ s.engine.OrderLaw ∧ step s = .next t :=
  ⟨{ live with engine := heldBehind }, _, rfl, orderLaw_heldBehind, rfl⟩

theorem orderLaw_writing9 : writing9.engine.OrderLaw where
  occupied := by
    intro i
    by_cases h : i = 2
    · subst h; decide
    · simp [writing9, ActionEngine.slot, Map.get, Map.find, ActionSlot.reset, h]
  numbered := by decide
  once := by decide
  oneBegun := by decide

theorem firingLaw_writing9 : writing9.FiringLaw where
  firing := by
    intro n
    by_cases h : n = 9
    · subst h; decide
    · simp [writing9, ActionEngine.timers, ActionEngine.slot, TimerStore.slot, TimerStore.reset, Map.get, Map.find,
        TimerSlot.reset, h]
  once := by decide

theorem witness_StepsKeepOneActionPerFiringSlot :
    writing9.engine.OrderLaw ∧ writing9.FiringLaw ∧ ∃ t, step writing9 = .next t :=
  ⟨orderLaw_writing9, firingLaw_writing9, step_answers _ rfl⟩

/-- READ_TIME at its owner, its reservation in report ring 0. -/
def askingTime : State := administering [(0, 0x24)] live

theorem askingTime_ring (n : Nat) (h0 : n ≠ 0) (h1 : n ≠ 1) : askingTime.report.ring n = ReportRing.reset := by
  show (Map.find [(0, _), (1, _)] n).getD _ = _
  simp [Map.find, h0, h1]

theorem capacityLaw_askingTime : askingTime.CapacityLaw where
  promises := by
    intro n
    by_cases h0 : n = 0
    · subst h0; decide +kernel
    · by_cases h1 : n = 1
      · subst h1; decide +kernel
      · rw [askingTime_ring n h0 h1]
        show 0 = oneIf (decide (0 = n)) + 0 + 0
        simp [oneIf, show (0 : Nat) ≠ n from fun h => h0 h.symm]
  absent := by
    intro n
    by_cases h0 : n = 0
    · subst h0; decide +kernel
    · by_cases h1 : n = 1
      · subst h1; decide +kernel
      · rw [askingTime_ring n h0 h1]; exact fun _ => ⟨rfl, rfl⟩
  indexes := by
    intro n
    by_cases h0 : n = 0
    · subst h0; decide +kernel
    · by_cases h1 : n = 1
      · subst h1; decide +kernel
      · rw [askingTime_ring n h0 h1]; exact fun h => absurd rfl h
  capacity := by
    intro n
    by_cases h0 : n = 0
    · subst h0; decide +kernel
    · by_cases h1 : n = 1
      · subst h1; decide +kernel
      · rw [askingTime_ring n h0 h1]; exact fun h => absurd rfl h
  faulted := by
    intro n
    by_cases h0 : n = 0
    · subst h0; decide +kernel
    · by_cases h1 : n = 1
      · subst h1; decide +kernel
      · rw [askingTime_ring n h0 h1]; exact fun _ => rfl
  hold := by decide
  held := by intro e h; cases h
  ringZero := rfl
  record := by
    intro r h _
    rw [← Option.some.inj h]
    rfl
  owned := by
    intro r w op h _ _ _ _
    rw [← Option.some.inj h]
    rfl
  step := by intro p h; cases h
  switch := by intro p h; cases h

theorem witness_StepsKeepReportRingsWithinCapacity :
    askingTime.tb.Lawful ∧ askingTime.WindowLaw ∧ askingTime.IdleLaw ∧ askingTime.CapacityLaw ∧
      ∃ t, step askingTime = .next t :=
  ⟨⟨by decide, by decide, by decide, by decide, by decide, by decide, by decide, by decide, by intro p h; cases h⟩,
    ⟨by decide, by decide, by decide, by decide, by decide⟩, idleLaw_of_enabled _ rfl, capacityLaw_askingTime, step_answers _ rfl⟩

/-- Timer 4 ARMED with a main and a follow action on region 1. -/
def twoUses : State :=
  let a : Action := ⟨.store, 8, 1, 0x40, 1, 0⟩
  let x : TimerSlot := { TimerSlot.reset with state := .armed, mainAction := a, follow := some ⟨.always, 1, a⟩ }
  { live with store := ⟨[(4, x)], [4], [], 1⟩, regions := [(1, ⟨true, 0x80000000, 0x100, .readWrite, 2⟩)] }

theorem regionRefLaw_twoUses : twoUses.RegionRefLaw where
  count := by
    intro n
    by_cases h : n = 1
    · subst h; decide
    · have h' : (1 : Nat) ≠ n := fun e => h e.symm
      simp [twoUses, State.region, Map.get, Map.find, Region.reset, TimerStore.regionUses, TimerSlot.namesRegion,
        TimerSlot.regionRefs, ActionKind.isMemory, h, h']
  valid := by
    intro n
    by_cases h : n = 1
    · subst h; decide
    · simp [twoUses, State.region, Map.get, Map.find, Region.reset, h]

theorem witness_StepsKeepRegionReferenceCounts :
    twoUses.canonical = true ∧ twoUses.RegionRefLaw ∧ ∃ t, step twoUses = .next t :=
  ⟨by decide +kernel, regionRefLaw_twoUses, step_answers _ rfl⟩

theorem ringRefLaw_live : live.RingRefLaw where
  count := by
    intro n
    by_cases h0 : n = 0
    · subst h0; decide
    · by_cases h1 : n = 1
      · subst h1; decide
      · have h0' : (0 : Nat) ≠ n := fun e => h0 e.symm
        have h1' : (1 : Nat) ≠ n := fun e => h1 e.symm
        simp [live, ReportUnit.ring, Map.get, Map.find, ReportRing.reset, PostingUnit.ringUses, TimerStore.ringUses,
          State.reset, TimerStore.reset, h0, h1, h0', h1']
  absent := by
    intro n
    by_cases h0 : n = 0
    · subst h0; decide
    · by_cases h1 : n = 1
      · subst h1; decide
      · simp [live, ReportUnit.ring, Map.get, Map.find, ReportRing.reset, h0, h1]
  fetching := by intro r h; cases h

theorem witness_StepsKeepReportRingReferenceCounts :
    live.canonical = true ∧ live.IdleLaw ∧ live.RingRefLaw ∧ ∃ t, step live = .next t :=
  ⟨by decide +kernel, idleLaw_of_enabled _ rfl, ringRefLaw_live, step_answers _ rfl⟩

/-! ### States that meet the hypotheses of the statements: requests -/

/-- A record of `asking` is at its owner. -/
theorem atOwner_asking (op : Opcode) (ring bound : Nat) (w : PostSlot) (second : Option PostSlot) (s : State)
    (h : PostSlot.opcode w = some op) : AtOwner (asking ring bound w second s) op (record ring bound w second) w :=
  ⟨rfl, rfl, rfl, h⟩

/-- Ring 0, a reserved bit, timer 4096, and timer 4095 with every check passed. -/
theorem witness_TimerRequestsMeetTheCommonChecksFirst :
    (∃ s r w, AtOwner s .arm r w ∧ firstChecks r.ring (armFormatBad w r.slot2) (PostSlot.u16 w 2) = .wrongRing) ∧
      (∃ s r w, AtOwner s .cancel r w ∧
        firstChecks r.ring (!PostSlot.reservedZero w (requestFields .cancel)) (PostSlot.u16 w 2) = .badFormat) ∧
      (∃ s r w, AtOwner s .retime r w ∧
        firstChecks r.ring (!PostSlot.reservedZero w (requestFields .retime)) (PostSlot.u16 w 2) = .badTimer) ∧
      ∃ s r w, AtOwner s .query r w ∧
        firstChecks r.ring (!PostSlot.reservedZero w (requestFields .query)) (PostSlot.u16 w 2) = .badTimer :=
  ⟨⟨_, _, _, atOwner_asking .arm 0 0 (slotOf [(0, 1)]) none live (by decide +kernel), by decide +kernel⟩,
    ⟨_, _, _, atOwner_asking .cancel 1 1 (slotOf [(0, 2), (5, 1)]) none live (by decide +kernel), by decide +kernel⟩,
    ⟨_, _, _, atOwner_asking .retime 1 1 (slotOf [(0, 3), (2, 4096)]) none live (by decide +kernel), by decide +kernel⟩,
    ⟨_, _, _, atOwner_asking .query 8 1 (slotOf [(0, 4), (2, 65535)]) none live (by decide +kernel), by decide +kernel⟩⟩

/-- Slots 1 (ARMED), 2 (FIRING), the rest FREE; MT 100, PT 100. -/
def threeSlots : State :=
  { live.setTb (tbAt 100 0) with
    store := ⟨[(1, { TimerSlot.reset with state := .armed, deadline := 500, generation := 9 }),
      (2, { TimerSlot.reset with state := .firing, generation := 9 })], [1], [], 1⟩ }

/-- The status of an ARM of a NOTE with policy NONE, its fields as given, on `threeSlots`. -/
def armStatusOf (fs : List (Nat × Nat)) : Status :=
  let w := slotOf ([(0, 1)] ++ fs)
  armStatus (asking 1 1 w none threeSlots) (record 1 1 w none) w

/-- Every check of R12, R14 and R15 to R17, each at a bound of its range: policy 4; timer 4096; period 2^40 + 1; report ring 9;
pulse width 2^24 + 1; region 64; READ_WRITE needed; offset 0xFD of 0x100; offset 0xFA; an ARMED slot; a FIRING slot; a
deadline that is now. -/
theorem witness_ArmIsRefusedByItsFirstFailingCheck :
    [[(5, 4)], [(2, 4096), (5, 3), (40, 1)], [(1, 8), (5, 3), (16, 2 ^ 40 + 1), (40, 1)], [(4, 9), (40, 1)],
      [(5, 3), (40, 0x10), (48, 2 ^ 24 + 1)], [(5, 3), (40, 3), (41, 4), (42, 64)], [(5, 3), (40, 4), (41, 4), (42, 2)],
      [(5, 3), (40, 3), (41, 4), (42, 1), (44, 0xFD)], [(5, 3), (40, 3), (41, 4), (42, 1), (44, 0xFA)],
      [(2, 1), (5, 3), (40, 1)], [(1, 1), (2, 2), (5, 3), (40, 1)], [(1, 6), (5, 3), (8, 100), (40, 1)]].map armStatusOf =
      [.badFormat, .badTimer, .conflictingOptions, .noReportRing, .badAction, .noRegion, .regionDenied, .outOfRegion,
        .misaligned, .alreadyArmed, .busyFiring, .deadlinePassed] ∧
    ∃ s r w, AtOwner s .arm r w ∧ armStatus s r w = .deadlinePassed :=
  ⟨by decide +kernel, _, _, _,
    atOwner_asking .arm 1 1 (slotOf [(0, 1), (1, 6), (5, 3), (8, 100), (40, 1)]) none threeSlots (by decide +kernel),
    by decide +kernel⟩

/-- The last timer and region of their ranges, the longest period, a replaced slot, a deadline one tick ahead. -/
theorem witness_ArmAcceptedArmsTheSlot :
    [[(2, 4095), (5, 3), (40, 1)], [(1, 8), (5, 3), (16, 2 ^ 40), (40, 1)], [(5, 3), (40, 3), (41, 4), (42, 1), (44, 0xFC)],
      [(5, 3), (40, 0x10), (42, 7), (48, 2 ^ 24)], [(1, 1), (2, 1), (5, 3), (40, 1)], [(1, 6), (5, 3), (8, 101), (40, 1)],
      [(4, 1), (5, 2), (40, 0x11), (42, 7), (48, 3)]].map armStatusOf = List.replicate 7 .ok ∧
    ∃ s r w, AtOwner s .arm r w ∧ armStatus s r w = .ok :=
  ⟨by decide +kernel, _, _, _,
    atOwner_asking .arm 1 1 (slotOf [(0, 1), (1, 1), (2, 1), (5, 3), (40, 1)]) none threeSlots (by decide +kernel),
    by decide +kernel⟩

/-- The acknowledgment of a timer request on `threeSlots`. -/
def timerAnswer (c : Instr) (fs : List (Nat × Nat)) : Option Status :=
  (answerOf 1 (run c (timing fs threeSlots))).map Prod.fst

/-- A FREE slot, a generation that does not match, a FIRING slot, an ARMED slot, any generation. -/
theorem witness_CancelIsDecidedByTheSlot :
    [[(0, 2), (2, 4095)], [(0, 2), (2, 1), (4, 8)], [(0, 2), (2, 2), (4, 9)], [(0, 2), (2, 1), (4, 9)],
      [(0, 2), (1, 1), (2, 1), (4, 8)]].map (timerAnswer .cancel) =
      [some .notArmed, some .staleGeneration, some .cancelledAfterFire, some .ok, some .ok] ∧
    ∃ s r w, AtOwner s .cancel r w ∧
      firstChecks r.ring (!PostSlot.reservedZero w (requestFields .cancel)) (PostSlot.u16 w 2) = .ok :=
  ⟨by decide +kernel, _, _, _,
    atOwner_asking .cancel 1 1 (slotOf [(0, 2), (2, 4095)]) none threeSlots (by decide +kernel), by decide +kernel⟩

/-- The four checks of R24 and an accepted request; the refused deadline is now, the accepted one a tick ahead. -/
theorem witness_RetimeMovesOnlyTheDeadline :
    [[(0, 3), (2, 4095)], [(0, 3), (2, 1), (4, 8)], [(0, 3), (2, 2), (4, 9)], [(0, 3), (1, 6), (2, 1), (4, 9), (8, 100)],
      [(0, 3), (1, 6), (2, 1), (4, 9), (8, 101)]].map (timerAnswer .retime) =
      [some .notArmed, some .staleGeneration, some .busyFiring, some .deadlinePassed, some .ok] ∧
    ∃ s r w, AtOwner s .retime r w ∧
      firstChecks r.ring (!PostSlot.reservedZero w (requestFields .retime)) (PostSlot.u16 w 2) = .ok :=
  ⟨by decide +kernel, _, _, _,
    atOwner_asking .retime 1 1 (slotOf [(0, 3), (2, 1), (4, 9)]) none threeSlots (by decide +kernel), by decide +kernel⟩

theorem witness_QueryShowsTheSlot :
    ∃ s r w, AtOwner s .query r w ∧
      firstChecks r.ring (!PostSlot.reservedZero w (requestFields .query)) (PostSlot.u16 w 2) = .ok :=
  ⟨_, _, _, atOwner_asking .query 1 1 (slotOf [(0, 4), (2, 4095)]) none threeSlots (by decide +kernel), by decide +kernel⟩

/-- The acknowledgment of an administration request on a state. -/
def adminAnswer (c : Instr) (s : State) (fs : List (Nat × Nat)) : Option Status :=
  (answerOf 0 (run c (administering fs s))).map Prod.fst

/-- Access 0 and 4, region 63 and 64, length 8, 2^32 and 2^32 + 8, the end of the address space and 8 bytes past it; a VALID
region with and without references. -/
theorem witness_RegionRequestsSetAndClearUnreferencedRegions :
    [[(3, 0)], [(3, 4)], [(2, 63), (3, 1), (16, 8)], [(2, 64), (3, 1), (16, 8)], [(3, 1), (16, 2 ^ 32)],
      [(3, 1), (16, 2 ^ 32 + 8)], [(3, 3), (8, 2 ^ 64 - 8), (16, 8)], [(3, 3), (8, 2 ^ 64 - 8), (16, 16)],
      [(2, 1), (3, 1), (16, 8)]].map
      (fun fs => adminAnswer .setRegion (live.setRegion 1 { live.region 1 with refs := 1 }) ([(0, 0x10)] ++ fs)) =
      [some .badFormat, some .badFormat, some .ok, some .badRegion, some .ok, some .badRegion, some .ok, some .badRegion,
        some .inUse] ∧
    [[(1, 1)], [(2, 64)], [(2, 1)], [(2, 2)], [(2, 63)]].map
      (fun fs => adminAnswer .clearRegion (live.setRegion 1 { live.region 1 with refs := 1 }) ([(0, 0x11)] ++ fs)) =
      [some .badFormat, some .badRegion, some .inUse, some .ok, some .ok] ∧
    (∃ s r w, AtOwner s .setRegion r w) ∧ ∃ s r w, AtOwner s .clearRegion r w :=
  ⟨by decide +kernel, by decide +kernel,
    ⟨_, _, _, atOwner_asking .setRegion 0 0 (slotOf [(0, 0x10)]) none live (by decide +kernel)⟩,
    ⟨_, _, _, atOwner_asking .clearRegion 0 0 (slotOf [(0, 0x11)]) none live (by decide +kernel)⟩⟩

/-- A reserved field, a masked line PULSING, the same line not masked, line 7. -/
theorem witness_SetLineRestSetsMaskedRestLevels :
    [[(3, 1)], [(2, 4), (4, 4)], [(2, 0xFB), (4, 0xFF)], [(2, 0x80), (4, 0)]].map
      (fun fs => adminAnswer .setLineRest (live.setLine 2 ⟨.pulsing, some 9, .low⟩) ([(0, 0x30)] ++ fs)) =
      [some .badFormat, some .lineBusy, some .ok, some .ok] ∧
    ∃ s r w, AtOwner s .setLineRest r w :=
  ⟨by decide +kernel, _, _, _, atOwner_asking .setLineRest 0 0 (slotOf [(0, 0x30)]) none live (by decide +kernel)⟩

/-- What a CONFIGURE_TIMEBASE leaves from a source state: the new source, and the status where it is answered at once. -/
def configured (source : SourceState) (fs : List (Nat × Nat)) : SourceState × Option Status :=
  let t := run .configureTimebase (administering ([(0, 0x20)] ++ fs) (live.setTb { tbAt 0 0 with source := source }))
  (t.tb.source, (answerOf 0 t).map Prod.fst)

/-- Choice 3 and divisor 65537; each choice in each source state, with divisor 65536. -/
theorem witness_ConfigureTimebaseActsByTheSourceState :
    [configured .internal [(2, 3)], configured .internal [(4, 65537)], configured .qualifying [(2, 1)],
      configured .qualifying [(4, 65536)], configured .internal [(2, 2)], configured .fallback [(2, 2), (8, 65536)],
      configured .external [(2, 1)], configured .fallback [(2, 1)], configured .internal [(2, 1)],
      configured .external [(2, 2)]] =
      [(.internal, some .badFormat), (.internal, some .badFormat), (.qualifying, some .switchPending), (.qualifying, some .ok),
        (.qualifying, none), (.qualifying, none), (.internal, some .ok), (.internal, some .ok), (.internal, some .ok),
        (.external, some .ok)] ∧
    ∃ s r w, AtOwner s .configureTimebase r w :=
  ⟨by decide +kernel, _, _, _, atOwner_asking .configureTimebase 0 0 (slotOf [(0, 0x20)]) none live (by decide +kernel)⟩

/-- Trims 1023, 1024, -1023 and -1024; marks 1 and 2; a reserved field of READ_TIME. -/
theorem witness_SetTrimSetMarksAndReadTimeAnswerAtOnce :
    [1023, 1024, 2 ^ 32 - 1023, 2 ^ 32 - 1024].map (fun v => adminAnswer .setTrim live [(0, 0x21), (4, v)]) =
      [some .ok, some .badTrim, some .ok, some .badTrim] ∧
    [1, 2].map (fun v => adminAnswer .setMarks live [(0, 0x23), (2, v)]) = [some .ok, some .badFormat] ∧
    adminAnswer .readTime live [(0, 0x24), (1, 1)] = some .badFormat ∧
    (∃ s r w, AtOwner s .setTrim r w) ∧ (∃ s r w, AtOwner s .setMarks r w) ∧ ∃ s r w, AtOwner s .readTime r w :=
  ⟨by decide +kernel, by decide +kernel, by decide +kernel,
    ⟨_, _, _, atOwner_asking .setTrim 0 0 (slotOf [(0, 0x21)]) none live (by decide +kernel)⟩,
    ⟨_, _, _, atOwner_asking .setMarks 0 0 (slotOf [(0, 0x23)]) none live (by decide +kernel)⟩,
    ⟨_, _, _, atOwner_asking .readTime 0 0 (slotOf [(0, 0x24)]) none live (by decide +kernel)⟩⟩

/-- The largest trims adjust position 0 and, at 1,022 steps of 1,025, their last; position 1,048,575 is not adjusted. -/
theorem witness_TrimAdjustsEachWindowByExactlyT :
    (adjustedTick 1023 0 = true ∧ adjustedTick (-1023) (1022 * 1025) = true ∧ adjustedTick 1023 1048575 = false ∧
      adjustedTick 0 0 = false) ∧ ∃ t : TimeBase, t.Lawful :=
  ⟨by decide, _, lawful_qualifying⟩

/-- Mode 2, timing 2 and a timeout of 0; a step pending; now; at the edge; replacing. -/
theorem witness_SetTimeStepsNowOrAtTheEdge :
    [[(2, 2)], [(3, 2)], [(3, 1)], [(3, 1), (4, 1)], [(2, 1), (8, 5)]].map
      (fun fs => adminAnswer .setTime live ([(0, 0x22)] ++ fs)) =
      [some .badFormat, some .badFormat, some .badFormat, none, some .ok] ∧
    [[(2, 1)], [(1, 1), (3, 1), (4, 1)]].map (fun fs =>
      adminAnswer .setTime (live.setTb { tbAt 0 0 with pendingStep := some ⟨.relative, 1, 9, ⟨0, 0, 0x22, 1, 2⟩⟩ })
        ([(0, 0x22)] ++ fs)) = [some .stepPending, some .replaced] ∧
    ∃ s r w, AtOwner s .setTime r w :=
  ⟨by decide +kernel, by decide +kernel, _, _, _,
    atOwner_asking .setTime 0 0 (slotOf [(0, 0x22)]) none live (by decide +kernel)⟩

/-- Class 0, ring 9, 3 slots, a base past the end of memory, report ring 0; ring 1 exists; report ring 2 is ABSENT; and ring 8
with 4096 slots. -/
theorem witness_CreatePostRingMakesTheRingActive :
    [[(3, 0)], [(2, 9), (3, 1), (4, 1), (16, 4)], [(2, 8), (3, 1), (4, 1), (16, 3)],
      [(2, 8), (3, 1), (4, 1), (8, 2 ^ 64 - 192), (16, 4)], [(2, 8), (3, 1), (16, 4)], [(2, 1), (3, 1), (4, 1), (16, 4)],
      [(2, 8), (3, 1), (4, 2), (16, 4)], [(2, 8), (3, 2), (4, 1), (16, 4096)],
      [(2, 8), (3, 1), (4, 1), (8, 2 ^ 64 - 256), (16, 4)]].map
      (fun fs => adminAnswer .createPostRing live ([(0, 0x40)] ++ fs)) =
      [some .badFormat, some .badRingParams, some .badRingParams, some .badRingParams, some .badRingParams,
        some .ringExists, some .noRing, some .ok, some .ok] ∧
    ∃ s r w, AtOwner s .createPostRing r w :=
  ⟨by decide +kernel, _, _, _, atOwner_asking .createPostRing 0 0 (slotOf [(0, 0x40)]) none live (by decide +kernel)⟩

/-- Ring 0, an ABSENT ring, an ACTIVE one, and a STALLED one. -/
theorem witness_PostRingsAreDeletedAndResumed :
    [0, 9, 8, 1].map (fun n => adminAnswer .deletePostRing live [(0, 0x41), (2, n)]) =
      [some .badRingParams, some .badRingParams, some .noRing, some .ok] ∧
    [0, 8, 1, 5].map (fun n => adminAnswer .resumePostRing
      (live.setPosting (live.posting.setRing 5 ⟨.stalled, 0x40000, 16, 10, 14, 2, .normal, 1⟩)) [(0, 0x42), (2, n)]) =
      [some .badRingParams, some .noRing, some .notStalled, some .ok] ∧
    (∃ s r w, AtOwner s .deletePostRing r w) ∧ ∃ s r w, AtOwner s .resumePostRing r w :=
  ⟨by decide +kernel, by decide +kernel,
    ⟨_, _, _, atOwner_asking .deletePostRing 0 0 (slotOf [(0, 0x41)]) none live (by decide +kernel)⟩,
    ⟨_, _, _, atOwner_asking .resumePostRing 0 0 (slotOf [(0, 0x42)]) none live (by decide +kernel)⟩⟩

/-- Interrupt enable 2; ring 0, counts 0 and 65, time 2^24 + 1; ring 1 exists; ring 8 at its bounds. -/
theorem witness_CreateReportRingMakesTheRingActive :
    [[(3, 2)], [(4, 1), (16, 4)], [(2, 8), (16, 4)], [(2, 8), (4, 65), (16, 4)], [(2, 8), (4, 1), (16, 4), (20, 2 ^ 24 + 1)],
      [(2, 1), (4, 1), (16, 4)], [(2, 8), (3, 1), (4, 64), (16, 4096), (20, 2 ^ 24)]].map
      (fun fs => adminAnswer .createReportRing live ([(0, 0x48)] ++ fs)) =
      [some .badFormat, some .badRingParams, some .badRingParams, some .badRingParams, some .badRingParams,
        some .ringExists, some .ok] ∧
    ∃ s r w, AtOwner s .createReportRing r w :=
  ⟨by decide +kernel, _, _, _, atOwner_asking .createReportRing 0 0 (slotOf [(0, 0x48)]) none live (by decide +kernel)⟩

/-- Ring 9, an ABSENT ring, a referenced one, and one with a write in flight and a record behind it. -/
theorem witness_DeleteReportRingDiscardsWhatIsNotIssued :
    let e := fun n => Report.event (.sourceLost n n)
    let s := live.setReport { live.report.setRing 2 { ReportRing.fresh 0x20000 4 false 1 0 0 with queue := [e 1, e 2] } with
      hold := [⟨2, e 3⟩] }
    ([9, 8, 1, 2].map (fun n => adminAnswer .deleteReportRing s [(0, 0x49), (2, n)]) =
      [some .badRingParams, some .noRing, some .inUse, some .ok] ∧
    answerOf 0 (run .deleteReportRing (administering [(0, 0x49), (2, 2)] s)) =
      some (.ok, .reportRing 2 .active 0 0 0 0 2)) ∧
    ∃ s r w, AtOwner s .deleteReportRing r w :=
  ⟨by decide +kernel, _, _, _, atOwner_asking .deleteReportRing 0 0 (slotOf [(0, 0x49)]) none live (by decide +kernel)⟩

/-! ### States that meet the hypotheses of the statements: the clock -/

/-- A tick is due from the oscillator, on either supply, and from REFCLK. -/
theorem witness_TickAdvancesMonotonicTimeByOne :
    (∃ s, TickIsDue s ∧ s.tb.pendingStep = none ∧ s.tb.pendingSwitch = none ∧ s.inputs.mainSupply = false) ∧
      (∃ s, TickIsDue s ∧ s.tb.source = .external ∧ s.tb.divInUse = 1) ∧
      ∃ s, InColdReset s ∧ ¬ResetAboutToEnd s ∧ s.tb.source ≠ .external ∧ s.tb.divInUse = s.tb.prescaler + 1 :=
  ⟨⟨{ liveAt 0 0 with inputs := ⟨false, true, false⟩ }, ⟨by decide, by decide⟩, rfl, rfl, rfl⟩,
    ⟨live.setTb { tbAt 0 0 with source := .external, divInUse := 1, prescaler := 0 }, ⟨by decide, by decide⟩, rfl, rfl⟩,
    ⟨heldCold.setTb (tbAt 0 0), by decide, by decide, by decide, rfl⟩⟩

/-- Each source state; the prescaler one short of its divisor, and at it; 1023 edges. -/
theorem witness_RefclkEdgesCountByTheSourceState :
    (∃ s : State, s.inputs.mainSupply = true ∧ s.tb.source = .internal) ∧
      (∃ s : State, s.inputs.mainSupply = true ∧ s.tb.source = .external ∧ s.tb.prescaler + 2 = s.tb.divInUse) ∧
      (∃ s : State, s.inputs.mainSupply = true ∧ s.tb.source = .external ∧ s.tb.prescaler + 1 = s.tb.divInUse) ∧
      ∃ (s : State) (p : PendingSwitch), s.inputs.mainSupply = true ∧ s.tb.source = .qualifying ∧
        s.tb.pendingSwitch = some p ∧ p.edges = 1023 :=
  ⟨⟨live, rfl, rfl⟩, ⟨live.setTb { tbAt 0 0 with source := .external, prescaler := 30 }, rfl, rfl, rfl⟩,
    ⟨live.setTb { tbAt 0 0 with source := .external, prescaler := 31 }, rfl, rfl, rfl⟩,
    ⟨qualifying 0 1023 0, _, rfl, rfl, rfl, rfl⟩⟩

theorem stepWaits_of_none (s : State) (h : s.tb.pendingStep = none) : StepWaits s := by
  intro p hp
  rw [h] at hp
  cases hp

theorem switchWaits_of_none (s : State) (h : s.tb.pendingSwitch = none) : SwitchWaits s := by
  intro p hp
  rw [h] at hp
  cases hp

/-- On either side of the period that completes a gap: with edges counted since, and with REFCLK stopped (the count at 64). -/
theorem witness_SwitchIsMadeOrTimesOutAtATick :
    (∃ (s : State) (p : PendingSwitch), TickIsDue s ∧ StepWaits s ∧ s.tb.source = .qualifying ∧ s.tb.gapCount = 62 ∧
      s.tb.pendingSwitch = some p ∧ p.edges = 1024) ∧
    (∃ (s : State) (p : PendingSwitch), TickIsDue s ∧ StepWaits s ∧ s.tb.source = .qualifying ∧ s.tb.gapCount = 0 ∧
      s.tb.pendingSwitch = some p ∧ p.edges = 1023 ∧ p.ticks = 65535) ∧
    ∃ (s : State) (p : PendingSwitch), TickIsDue s ∧ StepWaits s ∧ s.tb.source = .qualifying ∧ s.tb.gapCount = 64 ∧
      s.tb.pendingSwitch = some p ∧ p.edges = 0 ∧ p.ticks = 65535 ∧
      (run .qualificationTimeout s).tb.source = .internal :=
  ⟨⟨let s := qualifying 0 1024 65535; s.setTb { s.tb with gapCount := 62 }, ⟨false, 1024, 65535, ⟨0, 0, 0x20, 5, 6⟩⟩,
      ⟨by decide, by decide⟩, stepWaits_of_none _ rfl, rfl, rfl, rfl, rfl⟩,
    ⟨qualifying 0 1023 65535, ⟨false, 1023, 65535, ⟨0, 0, 0x20, 5, 6⟩⟩, ⟨by decide, by decide⟩, stepWaits_of_none _ rfl, rfl,
      rfl, rfl, rfl, rfl⟩,
    ⟨let s := qualifying 0 0 65535; s.setTb { s.tb with gapCount := 64 }, ⟨false, 0, 65535, ⟨0, 0, 0x20, 5, 6⟩⟩,
      ⟨by decide, by decide⟩, stepWaits_of_none _ rfl, rfl, rfl, rfl, rfl, rfl, by decide +kernel⟩⟩

/-- A gap that also completes a tick comes with the edge count at its bound and the tick count two short of its own. -/
theorem witness_GapFallsBackOrRestartsQualification :
    (∃ s : State, OscillatorCounts s ∧ s.tb.gapCount = 63 ∧ s.tb.source = .external) ∧
      (∃ s : State, OscillatorCounts s ∧ s.tb.gapCount = 63 ∧ s.tb.source = .qualifying ∧
        s.tb.prescaler + 2 = s.tb.divInUse) ∧
      ∃ (s : State) (p : PendingSwitch), OscillatorCounts s ∧ s.tb.gapCount = 63 ∧ s.tb.source = .qualifying ∧
        s.tb.prescaler + 1 = s.tb.divInUse ∧ StepWaits s ∧ s.tb.pendingSwitch = some p ∧ p.edges = 1024 ∧
        p.ticks + 1 = 65535 :=
  ⟨⟨live.setTb { tbAt 0 0 with source := .external, gapCount := 63 }, by decide, rfl, rfl⟩,
    ⟨live.setTb { tbAt 0 0 with source := .qualifying, gapCount := 63, prescaler := 30 }, by decide, rfl, rfl, rfl⟩,
    ⟨let s := qualifying 0 1024 65534; s.setTb { s.tb with gapCount := 63 }, ⟨false, 1024, 65534, ⟨0, 0, 0x20, 5, 6⟩⟩,
      by decide, rfl, rfl, rfl, stepWaits_of_none _ rfl, rfl, rfl, rfl⟩⟩

/-- Marks off and on with nothing pending, and a step pending of each mode. -/
theorem witness_AlignEdgeAppliesTheStepThenMarks :
    (∃ s : State, s.inputs.mainSupply = true ∧ s.tb.pendingStep = none ∧ s.tb.marks = false) ∧
      (∃ s : State, s.inputs.mainSupply = true ∧ s.tb.pendingStep = none ∧ s.tb.marks = true) ∧
      ∃ (s : State) (p : PendingStep), s.inputs.mainSupply = true ∧ s.tb.pendingStep = some p ∧ p.mode = .relative :=
  ⟨⟨live, rfl, rfl, rfl⟩, ⟨live.setTb { tbAt 0 0 with marks := true }, rfl, rfl, rfl⟩,
    ⟨live.setTb { tbAt 0 0 with pendingStep := some ⟨.relative, 1, 9, ⟨0, 0, 0x22, 1, 2⟩⟩ }, _, rfl, rfl, rfl⟩⟩

theorem witness_PendingStepTimesOutAtItsExpiry :
    ∃ (s : State) (p : PendingStep), TickIsDue s ∧ SwitchWaits s ∧ s.tb.pendingStep = some p ∧ p.expiry = s.tb.mt + 1 :=
  ⟨live.setTb { tbAt 8 0 with pendingStep := some ⟨.relative, 1, 9, ⟨0, 0, 0x22, 1, 2⟩⟩ },
    ⟨.relative, 1, 9, ⟨0, 0, 0x22, 1, 2⟩⟩, ⟨by decide, by decide⟩, switchWaits_of_none _ rfl, rfl, rfl⟩

/-- Line 7; report ring 8, its coalesce time of 1 reached. -/
theorem witness_PulsesAndCoalesceTimesEndAtTheirTick :
    (∃ s : State, TickIsDue s ∧ (s.line 7).state = .pulsing ∧ (s.line 7).pulseEnd = some (s.tb.mt + 1)) ∧
      ∃ s : State, TickIsDue s ∧ s.tb.pendingStep = none ∧ s.tb.pendingSwitch = none ∧
        (s.report.ring 8).intEnable = true ∧ (s.report.ring 8).coalesceTime = 1 ∧ (s.report.ring 8).unsignalled = 1 ∧
        (s.report.ring 8).oldest = some s.tb.mt :=
  ⟨⟨(liveAt 8 0).setLine 7 ⟨.pulsing, some 9, .low⟩, ⟨by decide, by decide⟩, rfl, rfl⟩,
    ⟨(liveAt 8 0).setReport (live.report.setRing 8
      { ReportRing.fresh 0x20000 8 true 64 1 0 with unsignalled := 1, oldest := some 8 }),
      ⟨by decide, by decide⟩, rfl, rfl, rfl, rfl, rfl, rfl⟩⟩

/-! ### States that meet the hypotheses of the statements: intake, doorbells, window -/

/-- Ring 0 eligible; a run of 7 and of 8 with a NORMAL ring eligible; and no ring eligible. -/
theorem witness_IntakeChoiceTakesTheRingFirstInOrder :
    ((live.posting.inProgress = none ∧ ringTaken (run .intakeChoice live) = some 0) ∧
      ringTaken (run .intakeChoice (fourRings (some 2) none 7)) = some 1 ∧
      ringTaken (run .intakeChoice (fourRings (some 2) none 8)) = some 3) ∧
    State.reset.posting.inProgress = none ∧ ∀ n ≤ 8, ¬RingEligible State.reset n :=
  ⟨by decide +kernel, rfl, fun n _ h => by
    have h1 : PostRingState.absent = .active := h.1
    cases h1⟩

/-- A one-slot record, the first slot of a two-slot record with both present, its second slot. -/
theorem witness_IntakeAdvancesTheHeadAndRoutes :
    (∃ (s : State) (r : IntakeRecord) (w : PostSlot), s.posting.inProgress = some r ∧ r.stage = .fetching ∧ r.slot1 = none ∧
      PostSlot.byte w 0 ≠ 0x01) ∧
    (∃ (s : State) (r : IntakeRecord) (w w2 : PostSlot), s.posting.inProgress = some r ∧ r.stage = .fetching ∧
      r.slot1 = some w ∧ intakeStatus r.ring w (some w2) = .ok) ∧
    ∃ (s : State) (r : IntakeRecord) (w : PostSlot), s.posting.inProgress = some r ∧ r.stage = .fetching ∧
      r.slot1 = none ∧ PostSlot.byte w 0 = 0x01 ∧ PostSlot.bit w 1 4 = true ∧
      2 ≤ ((s.posting.ring r.ring).tail + (s.posting.ring r.ring).size - (s.posting.ring r.ring).head) %
        (s.posting.ring r.ring).size :=
  ⟨⟨wrapping 0 1 none, _, slotOf [(0, 4)], rfl, rfl, rfl, by decide +kernel⟩,
    ⟨wrapping 1 1 (some arm12), _, arm12, extension12, rfl, rfl, rfl, by decide +kernel⟩,
    ⟨wrapping 1 1 none, _, arm12, rfl, rfl, rfl, by decide +kernel, by decide +kernel, by decide +kernel⟩⟩

theorem witness_FetchErrorStallsTheRing :
    ∃ (s : State) (r : IntakeRecord), s.posting.inProgress = some r ∧ r.stage = .fetching ∧ r.ring = 2 :=
  ⟨wrapping 1 1 none, _, rfl, rfl, rfl⟩

theorem witness_TwoSlotRecordWithOneSlotIsWithdrawn :
    ∃ (s : State) (r : IntakeRecord) (w : PostSlot), s.posting.inProgress = some r ∧ r.stage = .fetching ∧ r.slot1 = none ∧
      PostSlot.byte w 0 = 0x01 ∧ PostSlot.bit w 1 4 = true ∧
      ((s.posting.ring r.ring).tail + (s.posting.ring r.ring).size - (s.posting.ring r.ring).head) %
        (s.posting.ring r.ring).size = 1 :=
  ⟨wrapping 0 1 none, _, arm12, rfl, rfl, rfl, by decide +kernel, by decide +kernel, by decide +kernel⟩

/-- Ring 8, ABSENT; ring 1 of 32 slots with tails 31 and 32. -/
theorem witness_TailDoorbellSetsTheTailOrIsRefused :
    (live.window.ready = true ∧ live.window.enabled = true ∧ (live.posting.ring 1).state ≠ .absent ∧
      (live.posting.ring 1).size = 32 ∧ (live.posting.ring 8).state = .absent) ∧
    ((run (.postingTailDoorbell 1 31) live).posting.ring 1).tail = 31 ∧
      (run (.postingTailDoorbell 1 32) live).window.doorbellError = some ⟨1, 0, false⟩ := by decide +kernel

/-- From consumer 6 with producer 2 of size 8: 6 (none released), 2 (all), 3 and 8 refused; an ABSENT ring. -/
theorem witness_ConsumerDoorbellReleasesWrittenRecords :
    let s := live.setReport (live.report.setRing 3 { ReportRing.fresh 0x20000 8 true 3 100 0 with producer := 2, consumer := 6 })
    s.window.ready = true ∧ s.window.enabled = true ∧
      [6, 2, 3, 8].map (fun v => (s.report.ring 3).acceptsConsumer v) = [true, true, false, false] ∧
      (s.report.ring 8).acceptsConsumer 0 = false := by decide +kernel

/-- Ring 9 with kind 1, ring 8 with kind 2. -/
theorem witness_DoorbellsNamingNothingAreRecorded :
    (live.window.ready = true ∧ live.window.enabled = true) ∧
      (run (.doorbellNoRing 9 1 0) live).window.doorbellError = some ⟨9, 1, false⟩ ∧
      (run (.doorbellNoRing 8 2 0) live).window.doorbellError = some ⟨8, 2, false⟩ ∧
      ((0x10000 : U64).getLsbD 16 = true) ∧ State.reset.window.enabled = false ∧ ¬ResetAboutToEnd State.reset ∧
      heldCold.window.ready = false ∧ ¬ResetAboutToEnd heldCold := by decide +kernel

/-- Sizes 4 and 256 and a base at the end of memory pass; 3 and 257 do not. -/
theorem witness_EnableMakesTheAdministrationRings :
    (State.reset.window.ready = true ∧ State.reset.window.enabled = false) ∧
      (¬ResetAboutToEnd live ∧ live.window.enabled = true) ∧ (¬ResetAboutToEnd heldCold ∧ heldCold.window.ready = false) ∧
      [(4, 256, 0), (256, 4, 2 ^ 64 - 16384), (3, 4, 0), (4, 257, 0), (256, 4, 2 ^ 64 - 8192), (4, 4, 32)].map (fun p =>
        { Window.cold with
          adminPostSize := BitVec.ofNat 16 p.1
          adminReportSize := BitVec.ofNat 16 p.2.1
          adminPostBase := BitVec.ofNat 64 p.2.2 }.enablePasses) = [true, true, false, false, false, false] := by decide +kernel

theorem witness_AdminAndInterruptRegistersTakeTheirWrites :
    State.reset.window.ready = true ∧ State.reset.window.enabled = false ∧ live.window.enabled = true ∧
      (run .resetAssert live).window.ready = false ∧ ¬ResetAboutToEnd (run .resetAssert live) ∧ ¬ResetAboutToEnd live ∧
      live.inputs.mainSupply = true := by decide +kernel

/-- With and without the main supply; 8 bytes across two registers read 0, the last byte of a register is its top byte. -/
theorem witness_OtherWindowAccessesChangeNothing :
    (∃ s : State, s.inputs.mainSupply = true) ∧ (∃ s : State, s.inputs.mainSupply = false) ∧
      State.reset.readRegister 0x01 8 = some 0 ∧ State.reset.readRegister 0x02 4 = some 0x12480 ∧
      State.reset.readRegister 0x04 4 = some 1 ∧ State.reset.readRegister 0x05 4 = some 0 ∧
      State.reset.readRegister 0x41 1 = some 1 :=
  ⟨⟨live, rfl⟩, ⟨{ live with inputs := ⟨false, true, false⟩ }, rfl⟩, by decide⟩

/-! ### States that meet the hypotheses of the statements: resets and supplies -/

theorem witness_FunctionResetIsTakenInOneStep :
    (∃ s : State, s.window.ready = true ∧ s.outstanding ≠ []) ∧
      (∃ s : State, s.window.ready = false ∧ ¬ResetAboutToEnd s ∧ s.window.awaited ≠ []) ∧
      (∃ s : State, s.inputs.mainSupply = true ∧ s.inputs.resetPin = false ∧ s.window.resetInProgress = false) ∧
      ∃ s : State, s.inputs.mainSupply = true ∧ s.inputs.resetPin = false ∧ s.window.resetInProgress = true ∧
        s.window.resetCause ≠ .cold :=
  ⟨⟨writing9, rfl, by decide +kernel⟩,
    ⟨run (.functionReset false) writing9, by decide +kernel, by decide +kernel, by decide +kernel⟩, ⟨live, rfl, rfl, rfl⟩,
    ⟨run (.functionReset false) writing9, by decide +kernel, by decide +kernel, by decide +kernel, by decide +kernel⟩⟩

/-- A function reset just taken with nothing outstanding. -/
def justReset : State :=
  { State.reset with window := { Window.cold with ready := false, resetInProgress := true, resetCause := .control } }

/-- The last answer awaited, a write; a reset that awaits none; one about to end. -/
theorem witness_ResetEndsWithTheLastAnswerAndTheRelease :
    (∃ (s : State) (w : PortWrite), s.window.awaited[0]? = some (.write w) ∧ s.window.resetInProgress = true ∧
      s.window.awaited.length = 1 ∧ w.len ≤ 32) ∧
    (∃ s : State, s.window.resetInProgress = true ∧ s.window.awaited = []) ∧
    ∃ s : State, ResetAboutToEnd s ∧ s.pending = [] ∧ s.WindowLaw ∧ s.IdleLaw :=
  ⟨⟨run (.functionReset false) writing9, ⟨0x8000004C, 4, 0x11223344⟩, by decide +kernel, by decide +kernel, by decide +kernel,
    by decide⟩, ⟨run .resetAssert live, by decide +kernel, by decide +kernel⟩,
    ⟨justReset, by decide, rfl, ⟨by decide, by decide, by decide, by decide, by decide⟩,
      ⟨fun _ => rfl, fun _ => rfl, fun _ => rfl, fun _ => rfl, fun _ => rfl, fun _ => rfl, fun _ => by decide,
        fun _ => ⟨rfl, rfl, rfl⟩⟩⟩⟩

/-- With the keep-alive supply absent; with it present, on either source, with a switch pending, and with a write outstanding. -/
theorem witness_MainSupplyLossKeepsTheKeepAliveDomain :
    (∃ s : State, s.inputs.mainSupply = true ∧ s.inputs.keepAliveSupply = false ∧ s.tb.mt = 5 ∧
      (s.line 2).rest = .high ∧ s.outstanding ≠ []) ∧
    (∃ s : State, s.inputs.mainSupply = true ∧ s.inputs.keepAliveSupply = true ∧ s.tb.pendingSwitch = none ∧
      s.tb.source = .external) ∧
    (∃ s : State, s.inputs.mainSupply = true ∧ s.inputs.keepAliveSupply = true ∧ s.tb.pendingSwitch.isSome = true) ∧
    ∃ s : State, s.inputs.mainSupply = true ∧ s.inputs.keepAliveSupply = true ∧ s.tb.source ≠ .external ∧
      s.outstanding = [.write ⟨0x8000004C, 4, 0x11223344⟩] :=
  ⟨⟨{ writing9.setTb (tbAt 5 1) with inputs := ⟨true, false, false⟩ }, rfl, rfl, rfl, rfl, by decide +kernel⟩,
    ⟨live.setTb { tbAt 0 0 with source := .external }, rfl, rfl, rfl, rfl⟩, ⟨qualifying 0 1 1, rfl, rfl, rfl⟩,
    ⟨writing9, rfl, rfl, by decide, by decide +kernel⟩⟩

theorem witness_SupplyReturnsAreResets :
    (∃ s : State, s.inputs.mainSupply = false ∧ s.inputs.keepAliveSupply = true) ∧ (∃ s : State, s.inputs.mainSupply = true) ∧
      ∃ s : State, s.inputs.mainSupply = false ∧ s.inputs.keepAliveSupply = false :=
  ⟨⟨{ State.reset with inputs := ⟨false, true, false⟩ }, rfl, rfl⟩, ⟨State.reset, rfl⟩,
    ⟨{ State.reset with inputs := ⟨false, false, true⟩ }, rfl, rfl⟩⟩

/-! ### States that meet the hypotheses of the statements: dispatch, actions, returns, report writes -/

/-- Entries that pass, and none that passes. -/
theorem witness_WalkClaimsTheLatestFreeTarget :
    (∃ s : State, (∃ i < 4, (s.engine.slot i).stage = .empty) ∧ s.disp.claim = none ∧
      ∃ o ∈ s.disp.offered, o.target = some (.line 3)) ∧
    ∃ s : State, (∃ i < 4, (s.engine.slot i).stage = .empty) ∧ s.disp.claim = none ∧ s.disp.offered = [] :=
  ⟨⟨walking none [], by decide +kernel, rfl, by decide +kernel⟩, ⟨State.reset, by decide +kernel, rfl, rfl⟩⟩

/-- A slot due exactly now, one not ARMED, one a tick before its deadline. -/
theorem witness_ClaimDispatchesADueSlotAndRefusesOthers :
    (∃ (s : State) (n : Nat), s.disp.claim = some n ∧ (∃ i < 4, (s.engine.slot i).stage = .empty) ∧
      (s.store.slot n).state = .armed ∧ (s.store.slot n).deadline = s.tb.now (s.store.slot n).scale) ∧
    (∃ (s : State) (n : Nat), s.disp.claim = some n ∧ (s.store.slot n).state ≠ .armed) ∧
    ∃ (s : State) (n : Nat), s.disp.claim = some n ∧ (s.store.slot n).state = .armed ∧
      s.tb.now (s.store.slot n).scale + 1 = (s.store.slot n).deadline :=
  ⟨⟨(armed12.setTb (tbAt 10000 0)).setDisp ⟨[], some 12⟩, 12, by decide +kernel, by decide +kernel, by decide +kernel,
      by decide +kernel⟩,
    ⟨threeSlots.setDisp ⟨[], some 2⟩, 2, by decide +kernel, by decide +kernel⟩,
    ⟨(armed12.setTb (tbAt 9999 0)).setDisp ⟨[], some 12⟩, 12, by decide +kernel, by decide +kernel, by decide +kernel⟩⟩

/-- A HELD store behind another, and the same with the other gone. -/
theorem witness_HeldActionBeginsInDispatchOrder :
    (∃ s : State, s.engine.OrderLaw ∧ (s.engine.slot 0).stage = .held ∧ s.engine.order = [3, 0] ∧
      (s.engine.slot 3).target = (s.engine.slot 0).target) ∧
    (run (.heldActionBegin 0) { live with engine := heldBehind }).engine = heldBehind ∧
    ((run (.heldActionBegin 0) { live with engine := heldBehind.complete 3 (onWord 9 1) }).engine.slot 0).stage = .writing :=
  ⟨⟨{ live with engine := heldBehind }, orderLaw_heldBehind, by decide +kernel, rfl, by decide +kernel⟩, by decide +kernel,
    by decide +kernel⟩

theorem witness_ReadAnswerCompletesOrIssuesTheWrite :
    ∃ (s : State) (i : Nat), (s.engine.slot i).stage = .reading ∧ (s.engine.slot i).action.kind = .swapIfEqual :=
  ⟨claimed12, 0, by decide +kernel, by decide +kernel⟩

/-- A STORE, and a SWAP_IF_EQUAL that found its value. -/
theorem witness_WriteAnswerStoresExactlyTheTargetBytes :
    (∃ (s : State) (i : Nat), (s.engine.slot i).stage = .writing ∧ (s.engine.slot i).action.width = 4 ∧
      (s.engine.slot i).action.kind = .store) ∧
    ∃ (s : State) (i : Nat), (s.engine.slot i).stage = .writing ∧ (s.engine.slot i).action.width = 4 ∧
      (s.engine.slot i).action.kind = .swapIfEqual ∧ (s.engine.slot i).old = some (s.engine.slot i).action.opA :=
  ⟨⟨writing9, 2, by decide +kernel, by decide +kernel, by decide +kernel⟩,
    ⟨run (.actionReadAnswer 0 (.ok 0)) claimed12, 0, by decide +kernel, by decide +kernel, by decide +kernel,
      by decide +kernel⟩⟩

theorem witness_LineActionsChangeTheirLineAlone :
    (∃ (s : State) (i : Nat), (s.engine.slot i).stage = .line ∧ (s.engine.slot i).answer = none) ∧
      (∃ (s : State) (i : Nat), (s.engine.slot i).stage = .line ∧ (s.engine.slot i).answer = some .held) ∧
      (∃ s : State, s.inputs.mainSupply = false ∧ s.outputLevel 7 = none) ∧
      [(LineState.rest, Level.low), (.rest, .high), (.held, .low), (.held, .high), (.pulsing, .low), (.pulsing, .high)].map
        (fun p => (live.setLine 7 ⟨p.1, none, p.2⟩).outputLevel 7) =
        [some .low, some .high, some .high, some .low, some .high, some .low] :=
  ⟨⟨walking none [], 0, by decide +kernel, by decide +kernel⟩,
    ⟨{ live with engine := ⟨[(3, { ActionSlot.reset with stage := .line, answer := some .held })], [3], []⟩ }, 3,
      by decide +kernel, by decide +kernel⟩, ⟨{ live with inputs := ⟨false, true, false⟩ }, rfl, rfl⟩, by decide⟩

/-- Timer 200 FIRING at PT 2100 with its completion at the front of the returns. -/
def returning (x : TimerSlot) (status : ActionStatus) (matchFlag zeroFlag : Bool) : State :=
  { live.setTb (tbAt 2100 0) with
    store := { TimerStore.reset with slots := [(200, { x with state := .firing, generation := 3 })] }
    engine := ⟨[], [], [⟨200, 3, 0, .pt, 0, status, 1, matchFlag, zeroFlag, false⟩]⟩ }

/-- What the return leaves of timer 200: its state, deadline and fire count. -/
def returnOf (s : State) : SlotState × U64 × BitVec 32 :=
  let x := (run .completionReturn s).store.slot 200
  (x.state, x.deadline, x.fireCount)

/-- Timer 12's return, which arms its follow phase, and every other case of R31, its timer at a bound of its range: an error, a
cancel, the count limit, a zero under STOP_AT_ZERO; CATCHUP, and SKIP with its deadline now and one tick ahead; a condition that
does not hold; a one-shot; a follow phase's own firing, which is not counted. -/
theorem witness_CompletionReturnDecidesTheTimer :
    (∃ (s : State) (c : Completion), s.engine.returns = [c] ∧ (s.store.slot c.timer).state = .firing ∧
      (s.store.slot c.timer).follow.isSome = true ∧ c.matchFlag = true) ∧
    (∃ (s : State) (c : Completion), s.engine.returns = [c] ∧ (s.store.slot c.timer).state = .firing ∧
      (s.store.slot c.timer).period.isSome = true ∧ c.status = .readError) ∧
    let p := fun (pol : PeriodPolicy) (d : U64) => { TimerSlot.reset with deadline := d, period := some ⟨250, pol⟩ }
    let f : TimerSlot := { TimerSlot.reset with follow := some ⟨.ifMatch, 40, ⟨.note, 0, 0, 0, 0, 0⟩⟩ }
    [returning (p .catchup 1000) .readError false false, returning { p .catchup 1000 with cancelRequested := true } .ok false false,
      returning { p .catchup 1000 with countLimit := 1 } .ok false false,
      returning { p .catchup 1000 with stopAtZero := true } .ok false true, returning (p .catchup 1000) .ok false true,
      returning (p .skip 2100) .ok false false, returning (p .skip 2101) .ok false false, returning f .ok false false,
      returning f .ok true false, returning TimerSlot.reset .ok false false,
      returning { f with phase := .follow, fireCount := 1 } .ok true false].map returnOf =
      [(.free, 1000, 1), (.free, 1000, 1), (.free, 1000, 1), (.free, 1000, 1), (.armed, 1250, 1), (.armed, 2350, 1),
        (.armed, 2351, 1), (.free, 0, 1), (.armed, 2140, 1), (.free, 0, 1), (.free, 0, 1)] :=
  ⟨⟨run (.actionWriteAnswer 0 .ok) (run (.actionReadAnswer 0 (.ok 0)) claimed12),
      ⟨12, 7, 0, .pt, 2, .ok, 0, true, true, false⟩, by decide +kernel, by decide +kernel, by decide +kernel, rfl⟩,
    ⟨returning { TimerSlot.reset with period := some ⟨250, .skip⟩ } .readError false false,
      ⟨200, 3, 0, .pt, 0, .readError, 1, false, false, false⟩, rfl, rfl, rfl, rfl⟩, by decide +kernel⟩

/-- Report ring 3 of size 8, a record in flight to its last slot, one record short of its count. -/
def lastSlot : State :=
  live.setReport (live.report.setRing 3 { ReportRing.fresh 0x20000 8 true 3 100 0 with
    producer := 7, consumer := 6, unsignalled := 2, oldest := some 0, queue := [.event (.sourceLost 0 0)] })

theorem witness_WrittenRecordAdvancesTheProducer :
    ∃ (s : State) (n : Nat) (y : Report), (s.report.ring n).state = .active ∧ (s.report.ring n).queue = [y] ∧
      (s.report.ring n).intEnable = true ∧ (s.report.ring n).unsignalled + 1 = (s.report.ring n).coalesceCount :=
  ⟨lastSlot, 3, .event (.sourceLost 0 0), by decide +kernel, by decide +kernel, by decide +kernel, by decide +kernel⟩

/-- A write of ring 3, of ring 0, and of a ring deleted since. -/
theorem witness_FailedReportWriteFaultsTheRing :
    (∃ (s : State) (y : Report), (s.report.ring 3).state = .active ∧ (s.report.ring 3).queue = [y]) ∧
    (∃ (s : State) (y : Report), (s.report.ring 0).state = .active ∧ (s.report.ring 0).queue = [y]) ∧
    ∃ (s : State) (w : PortWrite), s.report.deletedWrites[0]? = some w :=
  ⟨⟨lastSlot, .event (.sourceLost 0 0), by decide +kernel, by decide +kernel⟩,
    ⟨live.setReport (live.report.setRing 0 ((live.report.ring 0).place (.event (.sourceLost 0 0)))), .event (.sourceLost 0 0),
      by decide +kernel, by decide +kernel⟩,
    ⟨live.setReport { live.report with deletedWrites := [⟨0x20000, 32, 0⟩] }, _, rfl⟩⟩

end Sys2Proof.Tests
end

section
/-!
SUPPORT. The checks of an ARM, said in the words of R12 to R16: the codes of its action blocks, each check as the statements word
it, and the record an accepted ARM gives its slot.
-/
namespace Sys2Proof.Machine

/-! ### Codes and action blocks against the words of R12 to R16 -/

/-- The number of an action kind (10, Action block). -/
def ActionKind.code : ActionKind → Byte
  | .note => 0x01
  | .load => 0x02
  | .store => 0x03
  | .setBits => 0x04
  | .clearBits => 0x05
  | .swapIfEqual => 0x06
  | .countDown => 0x07
  | .linePulse => 0x10
  | .lineSet => 0x11

theorem ActionKind.ofCode_eq_some_iff (b : Byte) (k : ActionKind) : ActionKind.ofCode b = some k ↔ b = k.code := by
  constructor
  · intro h
    unfold ActionKind.ofCode at h
    split_ifs at h <;> cases h <;> assumption
  · rintro rfl
    cases k <;> rfl

theorem ActionKind.ofCode_eq_none_iff (b : Byte) : ActionKind.ofCode b = none ↔
    b ∉ [0x01, 0x02, 0x03, 0x04, 0x05, 0x06, 0x07, 0x10, 0x11] := by
  unfold ActionKind.ofCode
  split_ifs <;> simp_all

theorem ActionKind.code_mem_memoryKinds (k : ActionKind) : k.code ∈ memoryKinds ↔ k.isMemory = true := by
  cases k <;> decide

theorem ReportPolicy.ofCode_isSome (b : Byte) : (ReportPolicy.ofCode b).isSome = !decide (3 < b.toNat) := by
  by_cases h : 3 < b.toNat
  · have hb : b ≠ 0 ∧ b ≠ 1 ∧ b ≠ 2 ∧ b ≠ 3 := by bv_omega
    simp only [ReportPolicy.ofCode, hb, h, if_false, Option.isSome_none, decide_true, Bool.not_true]
  · have hb : b = 0 ∨ b = 1 ∨ b = 2 ∨ b = 3 := by bv_omega
    rcases hb with rfl | rfl | rfl | rfl <;> rfl

theorem PeriodPolicy.ofCode_isSome (b : Byte) : (PeriodPolicy.ofCode b).isSome = !decide (1 < b.toNat) := by
  by_cases h : 1 < b.toNat
  · have hb : b ≠ 0 ∧ b ≠ 1 := by bv_omega
    simp only [PeriodPolicy.ofCode, hb, h, if_false, Option.isSome_none, decide_true, Bool.not_true]
  · have hb : b = 0 ∨ b = 1 := by bv_omega
    rcases hb with rfl | rfl <;> rfl

theorem Condition.ofCode_eq_none_iff (b : Byte) : Condition.ofCode b = none ↔ 4 < b.toNat := by
  by_cases h : 4 < b.toNat
  · have hb : b ≠ 0 ∧ b ≠ 1 ∧ b ≠ 2 ∧ b ≠ 3 ∧ b ≠ 4 := by bv_omega
    simp only [Condition.ofCode, hb, h, if_false]
  · have hb : b = 0 ∨ b = 1 ∨ b = 2 ∨ b = 3 ∨ b = 4 := by bv_omega
    rcases hb with rfl | rfl | rfl | rfl | rfl <;> simp [Condition.ofCode]

theorem LineValue.ofOperand_isSome_iff (a : U64) : (LineValue.ofOperand a).isSome = true ↔ a ∈ [1, 2, 3] := by
  unfold LineValue.ofOperand
  split_ifs <;> simp_all

theorem timerChecks_eq (ring : Nat) (wf : Bool) (timer : BitVec 16) :
    timerChecks ring wf timer = firstChecks ring (!wf) timer := rfl

theorem State.ackGeneration_eq (s : State) (timer : BitVec 16) : s.ackGeneration timer = generationShown s timer := rfl

theorem State.deadlineOf_eq (s : State) (absolute : Bool) (sc : Scale) (v : U64) :
    s.deadlineOf absolute sc v = deadlineGiven s absolute sc v := by
  cases sc <;> rfl

/-- An action block read as an action, said with the words of R15. -/
theorem ActionBlock.action_eq (b : ActionBlock) : b.action = if ActionInvalid b then none else
    (ActionKind.ofCode b.kind).map (fun k => ⟨k, b.width.toNat, b.target.toNat, b.offset, b.opA, b.opB⟩) := by
  unfold ActionBlock.action
  cases hk : ActionKind.ofCode b.kind with
  | none => simp
  | some k =>
    have hc := (ActionKind.ofCode_eq_some_iff _ _).1 hk
    have hite : ∀ (p q : Prop) [Decidable p] [Decidable q] (z : Option Action), (p ↔ ¬q) →
        (if p then z else none) = if q then none else z := fun p q _ _ z h => by simp only [h, ite_not]
    cases k with
    | note => simp [ActionInvalid, hc, ActionKind.code, memoryKinds]
    | linePulse | lineSet =>
      refine hite _ _ _ ?_
      simp [ActionInvalid, hc, ActionKind.code, memoryKinds, LineValue.ofOperand_isSome_iff, Config.numLines, Config.maxPulse]
      grind
    | _ =>
      refine hite _ _ _ ?_
      simp [ActionInvalid, hc, ActionKind.code, memoryKinds]
      tauto

/-- Check 6 refuses exactly the action blocks that R15 calls not valid. -/
theorem ActionBlock.action_eq_none_iff (b : ActionBlock) : b.action = none ↔ ActionInvalid b := by
  rw [ActionBlock.action_eq]
  by_cases h : ActionInvalid b
  · simp only [h, if_true]
  · have hk : ActionKind.ofCode b.kind ≠ none := fun hn => h (.inl ((ActionKind.ofCode_eq_none_iff _).1 hn))
    simp only [h, if_false, Option.map_eq_none_iff, hk]

/-- An action accepted is the one its block names. -/
theorem ActionBlock.named_of_action {b : ActionBlock} {a : Action} (h : b.action = some a) : ActionNamed b a := by
  rw [ActionBlock.action_eq] at h
  split at h
  · cases h
  · obtain ⟨k, hk, rfl⟩ := Option.map_eq_some_iff.1 h
    exact ⟨hk, rfl, rfl, rfl, rfl, rfl⟩

/-- An extension record read as a follow part. -/
theorem Extension.followPart_eq_some_iff (e : Extension) (f : FollowPart) : e.followPart = some f ↔
    e.action.action = some f.action ∧ Condition.ofCode e.condition = some f.condition ∧ f.delay = e.delay := by
  unfold Extension.followPart
  cases e.action.action <;> cases Condition.ofCode e.condition <;> cases f <;> simp
  tauto

theorem Extension.followPart_eq_none_iff (e : Extension) :
    e.followPart = none ↔ ActionInvalid e.action ∨ 4 < e.condition.toNat := by
  rw [← ActionBlock.action_eq_none_iff, ← Condition.ofCode_eq_none_iff]
  unfold Extension.followPart
  cases e.action.action <;> cases Condition.ofCode e.condition <;> simp

/-! ### The checks of an ARM (R12, R14, R16) -/

/-- Check 2 of an ARM, in the words of R12. -/
theorem ArmRequest.wellFormed_read (w : PostSlot) (second : Option PostSlot) :
    (ArmRequest.read w second).wellFormed w second = !armFormatBad w second := by
  simp only [ArmRequest.wellFormed, ArmRequest.read, armFormatBad, ReportPolicy.ofCode_isSome, PeriodPolicy.ofCode_isSome,
    PostSlot.followBit, Bool.not_or, Bool.not_not, Bool.not_and]
  congr 3
  by_cases h : PostSlot.bit w 1 4 = true
  · simp only [h, if_true, Option.isNone_some, Bool.not_true]
  · simp only [h, Bool.false_eq_true, if_false, Option.isNone_none, Bool.not_false, Bool.true_or]

/-- Check 4 (row 4 of R14). -/
theorem ArmRequest.conflicting_iff (q : ArmRequest) : q.conflicting = true ↔ ArmConflict q := by
  have hk : ActionKind.ofCode q.action.kind = some .countDown ↔ q.action.kind = 0x07 := ActionKind.ofCode_eq_some_iff _ _
  simp only [ArmRequest.conflicting, ArmConflict, Bool.or_eq_true, Bool.and_eq_true, decide_eq_true_eq, Config.maxPeriod,
    Bool.not_eq_true', ne_eq, hk, or_assoc, Nat.reducePow]
  rw [and_comm (a := q.periodic = false)]

/-- A policy code that passed check 2 is NONE exactly when it is 3. -/
theorem ArmRequest.reportPolicy_eq_none_iff {q : ArmRequest} (h : ¬3 < q.policy.toNat) :
    q.reportPolicy = .none ↔ q.policy = 0x03 := by
  have hb : q.policy = 0 ∨ q.policy = 1 ∨ q.policy = 2 ∨ q.policy = 3 := by bv_omega
  unfold ArmRequest.reportPolicy
  rcases hb with hb | hb | hb | hb <;> rw [hb] <;> decide

/-- Check 5 (row 5 of R14), its policy having passed check 2. -/
theorem ArmRequest.lacksReportRing_iff (s : State) {q : ArmRequest} (h : ¬3 < q.policy.toNat) :
    q.lacksReportRing s = true ↔ ArmLacksRing s q := by
  have hzero : q.reportRing = 0 ↔ q.reportRing.toNat < 1 := by bv_omega
  have hstop : ∀ x : ReportRing, x.running = false ↔ x.state = .absent ∨ x.state = .faulted := by
    intro x
    cases hx : x.state <;> simp [ReportRing.running, hx]
  simp only [ArmRequest.lacksReportRing, ArmLacksRing, Bool.and_eq_true, Bool.or_eq_true, decide_eq_true_eq,
    Bool.not_eq_true', ne_eq, ArmRequest.reportPolicy_eq_none_iff h, hzero, hstop, or_assoc]

/-- Check 6 (row 6 of R14). -/
theorem ArmRequest.badAction_iff (q : ArmRequest) : q.badAction = true ↔ ArmInvalid q := by
  unfold ArmRequest.badAction ArmInvalid
  rw [Bool.or_eq_true, Option.isNone_iff_eq_none, ActionBlock.action_eq_none_iff]
  cases q.ext with
  | none => simp
  | some e => simp only [Option.isNone_iff_eq_none, Extension.followPart_eq_none_iff, Option.any_some, Bool.or_eq_true,
      decide_eq_true_eq]

/-- A main action that passed check 6 is read as an action. -/
theorem ArmRequest.exists_mainAction {q : ArmRequest} (h : ¬ArmInvalid q) : ∃ a, q.action.action = some a :=
  Option.ne_none_iff_exists'.1 (mt (ActionBlock.action_eq_none_iff q.action).1 (not_or.1 h).1)

/-- An extension record that passed check 6 is read as a follow part. -/
theorem ArmRequest.exists_followPart {q : ArmRequest} {e : Extension} (h : ¬ArmInvalid q) (he : q.ext = some e) :
    ∃ f, e.followPart = some f := by
  have hext := (not_or.1 h).2
  rw [he, Option.any_some, Bool.or_eq_true, decide_eq_true_eq, decide_eq_true_eq, ← Extension.followPart_eq_none_iff] at hext
  exact Option.ne_none_iff_exists'.1 hext

/-- The access that a memory kind needs, by its number (R16, R107). -/
theorem Access.grants_eq_false_iff (acc : Access) {k : ActionKind} (hk : k.isMemory = true) : acc.grants k = false ↔
    (k.code = 0x02 ∧ acc = .write) ∨ (k.code = 0x03 ∧ acc = .read) ∨
      (k.code ≠ 0x02 ∧ k.code ≠ 0x03 ∧ acc ≠ .readWrite) := by
  cases k <;> cases acc <;> simp_all [Access.grants, ActionKind.code, ActionKind.isMemory]

/-- The region checks of an accepted action are those of its block (R16). -/
theorem State.regionCheck_of_action (s : State) {b : ActionBlock} {a : Action} (h : b.action = some a) :
    s.regionCheck a = regionStatus s b := by
  obtain ⟨hk, hwidth, htarget, hoffset, -, -⟩ := ActionBlock.named_of_action h
  have hc := (ActionKind.ofCode_eq_some_iff _ _).1 hk
  simp only [State.regionCheck, regionStatus, hwidth, htarget, hoffset, hc, ActionKind.code_mem_memoryKinds]
  by_cases hm : a.kind.isMemory = true
  · simp only [hm, ← Access.grants_eq_false_iff _ hm, Bool.not_eq_true']
    rfl
  · simp [hm]

/-- Check 7: the region checks of the two actions, each accepted by check 6. -/
theorem ArmRequest.regionChecks_eq (s : State) {q : ArmRequest} (h : ¬ArmInvalid q) :
    q.regionChecks s = armRegionStatus s q := by
  obtain ⟨a, ha⟩ := ArmRequest.exists_mainAction h
  have hm : (q.action.action.map s.regionCheck).getD .ok = regionStatus s q.action := by
    rw [ha]; exact State.regionCheck_of_action s ha
  unfold ArmRequest.regionChecks armRegionStatus
  simp only [hm]
  cases he : q.ext with
  | none => rfl
  | some e =>
    obtain ⟨f, hf⟩ := ArmRequest.exists_followPart h he
    have hfollow := State.regionCheck_of_action s ((Extension.followPart_eq_some_iff e f).1 hf).1
    simp only [hf, Option.map_some, Option.getD_some, hfollow]

/-- The common checks pass exactly when none of the three fails. -/
theorem firstChecks_eq_ok_iff (ring : Nat) (bad : Bool) (timer : BitVec 16) :
    firstChecks ring bad timer = .ok ↔ ring ≠ 0 ∧ bad = false ∧ timer.toNat ≤ 4095 := by
  unfold firstChecks
  split_ifs <;> simp_all

/-- An ARM that passed check 2 names a policy, and a period policy if it is periodic. -/
theorem ArmRequest.policies_of_format {w : PostSlot} {second : Option PostSlot} (h : armFormatBad w second = false) :
    ¬3 < (ArmRequest.read w second).policy.toNat ∧
      ((ArmRequest.read w second).periodic = true → ¬1 < (ArmRequest.read w second).periodPolicy.toNat) := by
  simp only [armFormatBad, Bool.or_eq_false_iff, Bool.and_eq_false_iff, decide_eq_false_iff_not] at h
  obtain ⟨⟨-, hpolicy⟩, hperiod⟩ := h
  refine ⟨hpolicy, fun hp => hperiod.resolve_left fun hf => ?_⟩
  rw [show (ArmRequest.read w second).periodic = PostSlot.bit w 1 3 from rfl, hf] at hp
  cases hp

/-- Checks 8 and 9 of an ARM. -/
theorem ArmRequest.lastChecks_eq (s : State) (q : ArmRequest) :
    (if q.stateCheck (s.store.slot q.timer.toNat) ≠ .ok then q.stateCheck (s.store.slot q.timer.toNat)
      else if q.refusePast ∧ s.deadlineOf q.absolute q.scale q.deadline ≤ s.tb.now q.scale then .deadlinePassed
      else .ok) = armLastChecks s q := by
  simp only [ArmRequest.stateCheck, armLastChecks, State.deadlineOf_eq]
  cases (s.store.slot q.timer.toNat).state <;> cases q.replace <;> simp

/-- The checks of an ARM, in their order, are those of R12 and R14. -/
theorem ArmRequest.check_eq_armStatus (s : State) (r : IntakeRecord) (w : PostSlot) :
    (ArmRequest.read w r.slot2).check r.ring w r.slot2 s = armStatus s r w := by
  simp only [ArmRequest.check, armStatus, timerChecks_eq, ArmRequest.wellFormed_read, Bool.not_not]
  by_cases h3 : firstChecks r.ring (armFormatBad w r.slot2) (ArmRequest.read w r.slot2).timer = .ok
  · obtain ⟨-, hformat, -⟩ := (firstChecks_eq_ok_iff _ _ _).1 h3
    obtain ⟨hpolicy, -⟩ := ArmRequest.policies_of_format hformat
    generalize ArmRequest.read w r.slot2 = q at *
    simp only [h3, ne_eq, not_true_eq_false, if_false, ArmRequest.conflicting_iff, ArmRequest.lacksReportRing_iff s hpolicy,
      ArmRequest.badAction_iff]
    by_cases h6 : ArmInvalid q
    · simp only [h6, if_true]
    · simp only [h6, if_false, ArmRequest.regionChecks_eq s h6, ← ArmRequest.lastChecks_eq]
  · simp only [h3, ne_eq, not_false_eq_true, if_true]

/-- What an ARM that passes every check has passed. -/
theorem armStatus_eq_ok {s : State} {r : IntakeRecord} {w : PostSlot} (h : armStatus s r w = .ok) :
    firstChecks r.ring (armFormatBad w r.slot2) (PostSlot.u16 w 2) = .ok ∧ ¬ArmInvalid (ArmRequest.read w r.slot2) ∧
      (s.store.slot (PostSlot.u16 w 2).toNat).state ≠ .firing := by
  unfold armStatus at h
  simp only at h
  split_ifs at h with h3 h4 h5 h6 h7
  · exact absurd h h3
  · exact absurd h h7
  · refine ⟨not_not.1 h3, h6, fun hf => ?_⟩
    unfold armLastChecks at h
    simp [show (ArmRequest.read w r.slot2).timer = PostSlot.u16 w 2 from rfl, hf] at h

/-- The record of an accepted ARM is the one R18 gives. -/
theorem ArmRequest.arming_armedBy {q : ArmRequest} (old : TimerSlot) (d seq : U64) (hpolicy : ¬3 < q.policy.toNat)
    (hperiod : q.periodic = true → ¬1 < q.periodPolicy.toNat) (hvalid : ¬ArmInvalid q) :
    ArmedBy q old.generation d seq { q.arming old d with seq := seq } := by
  obtain ⟨a, ha⟩ := ArmRequest.exists_mainAction hvalid
  have hreport : (ReportPolicy.ofCode q.policy).isSome = true := by simp [ReportPolicy.ofCode_isSome, hpolicy]
  obtain ⟨p, hp⟩ := Option.isSome_iff_exists.1 hreport
  refine ⟨⟨rfl, rfl, rfl, rfl, rfl, rfl⟩, ⟨rfl, rfl, rfl⟩, ⟨rfl, rfl, rfl⟩, ?_, ?_, ?_, ?_, ?_, fun he => ?_, fun e he => ?_⟩
  · cases hq : q.periodic <;> simp [ArmRequest.arming, hq]
  · cases hq : q.periodic with
    | false => simp [ArmRequest.arming, hq]
    | true =>
      have hpp : (PeriodPolicy.ofCode q.periodPolicy).isSome = true := by simp [PeriodPolicy.ofCode_isSome, hperiod hq]
      obtain ⟨pp, hpp⟩ := Option.isSome_iff_exists.1 hpp
      simp [ArmRequest.arming, hq, hpp]
  · simp [ArmRequest.arming, ArmRequest.reportPolicy, hp]
  · simp only [ArmRequest.arming, ArmRequest.reportPolicy_eq_none_iff hpolicy]
  · show ActionNamed q.action (q.action.action.getD Action.reset)
    rw [ha]
    exact ActionBlock.named_of_action ha
  · simp [ArmRequest.arming, he]
  · obtain ⟨f, hf⟩ := ArmRequest.exists_followPart hvalid he
    obtain ⟨haction, hcondition, hdelay⟩ := (Extension.followPart_eq_some_iff e f).1 hf
    exact ⟨f, by simp [ArmRequest.arming, he, hf], hcondition, hdelay, ActionBlock.named_of_action haction⟩

end Sys2Proof.Machine
end

section
/-!
SUPPORT. The four timer requests as the store takes them past, or refused by, the common checks; each said once, by the branch
that decides it (R11 to R27).
-/
namespace Sys2Proof.Machine

section Take
variable {s : State} {r : IntakeRecord} {w : PostSlot}

theorem AtOwner.exec_arm (h : AtOwner s .arm r w) : exec .arm s = .next (s.takeArm r w) := by
  show execArm s = _
  rw [execArm, h.eq]

theorem AtOwner.exec_cancel (h : AtOwner s .cancel r w) : exec .cancel s = .next (s.takeCancel r w) := by
  show execCancel s = _
  rw [execCancel, h.eq]

theorem AtOwner.exec_retime (h : AtOwner s .retime r w) : exec .retime s = .next (s.takeRetime r w) := by
  show execRetime s = _
  rw [execRetime, h.eq]

theorem AtOwner.exec_query (h : AtOwner s .query r w) : exec .query s = .next (s.takeQuery r w) := by
  show execQuery s = _
  rw [execQuery, h.eq]

end Take

variable (s : State) (r : IntakeRecord) (w : PostSlot)

/-- A timer number that passed the common checks names a slot, whose generation is shown. -/
theorem generationShown_of_ok {ring : Nat} {bad : Bool} {timer : BitVec 16} (h : firstChecks ring bad timer = .ok) :
    generationShown s timer = (s.store.slot timer.toNat).generation := by
  obtain ⟨-, -, ht⟩ := (firstChecks_eq_ok_iff _ _ _).1 h
  exact if_neg (Nat.not_lt.2 ht)

/-- The common checks give none of the statuses that the later checks of a request give. -/
theorem firstChecks_range (ring : Nat) (bad : Bool) (timer : BitVec 16) :
    firstChecks ring bad timer ∈ [Status.ok, .wrongRing, .badFormat, .badTimer] := by
  unfold firstChecks
  split_ifs <;> simp

theorem firstChecks_ne_deadlinePassed (ring : Nat) (bad : Bool) (timer : BitVec 16) :
    firstChecks ring bad timer ≠ .deadlinePassed := by
  intro hd
  have hr := firstChecks_range ring bad timer
  rw [hd] at hr
  revert hr
  decide

/-- A refused ARM (R11, R14). -/
theorem State.takeArm_refused (h : armStatus s r w ≠ .ok) :
    s.takeArm r w = s.answer r w (armStatus s r w) (.timerDeadline (PostSlot.u16 w 2) (generationShown s (PostSlot.u16 w 2))
      (if armStatus s r w = .deadlinePassed then
        deadlineGiven s (PostSlot.bit w 1 1) (PostSlot.scale w) (PostSlot.u64 w 8) else 0)) := by
  simp only [State.takeArm, ArmRequest.check_eq_armStatus, h, if_false, State.ackGeneration_eq, State.deadlineOf_eq,
    refusedDeadline]
  rfl

/-- An accepted ARM (R11, R18). -/
theorem State.takeArm_accepted (h : armStatus s r w = .ok) :
    let q := ArmRequest.read w r.slot2
    let d := deadlineGiven s q.absolute q.scale q.deadline
    let x := q.arming (s.store.slot q.timer.toNat) d
    s.takeArm r w = (s.armSlot q.timer.toNat x).answer r w .ok (.timerDeadline q.timer x.generation d) := by
  simp only [State.takeArm, ArmRequest.check_eq_armStatus, h, if_true, State.deadlineOf_eq]

/-- An ARM that a common check refuses (R11, R12). -/
theorem State.takeArm_refusedFirst
    (h : firstChecks r.ring (armFormatBad w r.slot2) (PostSlot.u16 w 2) ≠ .ok) :
    s.takeArm r w = s.answer r w (firstChecks r.ring (armFormatBad w r.slot2) (PostSlot.u16 w 2))
      (.timerDeadline (PostSlot.u16 w 2) (generationShown s (PostSlot.u16 w 2)) 0) := by
  have hst : armStatus s r w = firstChecks r.ring (armFormatBad w r.slot2) (PostSlot.u16 w 2) := if_pos h
  rw [State.takeArm_refused s r w (hst ▸ h), hst, if_neg (firstChecks_ne_deadlinePassed _ _ _)]

/-- A CANCEL that a common check refuses. -/
theorem State.takeCancel_refused
    (h : firstChecks r.ring (!PostSlot.reservedZero w (requestFields .cancel)) (PostSlot.u16 w 2) ≠ .ok) :
    s.takeCancel r w = s.answer r w (firstChecks r.ring (!PostSlot.reservedZero w (requestFields .cancel)) (PostSlot.u16 w 2))
      (.timerOnly (PostSlot.u16 w 2) (generationShown s (PostSlot.u16 w 2))) := by
  have hr := firstChecks_range r.ring (!PostSlot.reservedZero w (requestFields .cancel)) (PostSlot.u16 w 2)
  have hc : (CancelRequest.read w).check r.ring w (s.store.slot (PostSlot.u16 w 2).toNat) =
      firstChecks r.ring (!PostSlot.reservedZero w (requestFields .cancel)) (PostSlot.u16 w 2) := if_pos h
  simp only [State.takeCancel, show (CancelRequest.read w).timer = PostSlot.u16 w 2 from rfl, hc, State.ackGeneration_eq]
  generalize firstChecks r.ring _ (PostSlot.u16 w 2) = st at *
  cases st <;> simp_all

/-- A RETIME that a common check refuses. -/
theorem State.takeRetime_refused
    (h : firstChecks r.ring (!PostSlot.reservedZero w (requestFields .retime)) (PostSlot.u16 w 2) ≠ .ok) :
    s.takeRetime r w = s.answer r w (firstChecks r.ring (!PostSlot.reservedZero w (requestFields .retime)) (PostSlot.u16 w 2))
      (.timerDeadline (PostSlot.u16 w 2) (generationShown s (PostSlot.u16 w 2)) 0) := by
  have hc : ∀ x d now, (RetimeRequest.read w).check r.ring w x d now =
      firstChecks r.ring (!PostSlot.reservedZero w (requestFields .retime)) (PostSlot.u16 w 2) := fun _ _ _ => if_pos h
  simp only [State.takeRetime, show (RetimeRequest.read w).timer = PostSlot.u16 w 2 from rfl, hc, h, if_false, refusedDeadline,
    firstChecks_ne_deadlinePassed, State.ackGeneration_eq]

/-- A QUERY that a common check refuses. -/
theorem State.takeQuery_refused
    (h : firstChecks r.ring (!PostSlot.reservedZero w (requestFields .query)) (PostSlot.u16 w 2) ≠ .ok) :
    s.takeQuery r w = s.answer r w (firstChecks r.ring (!PostSlot.reservedZero w (requestFields .query)) (PostSlot.u16 w 2))
      (.snapshot (PostSlot.u16 w 2) (generationShown s (PostSlot.u16 w 2)) .free .main .pt 0 0) := if_neg h

/-- A QUERY that passes the common checks (R26, R27). -/
theorem State.takeQuery_accepted
    (h : firstChecks r.ring (!PostSlot.reservedZero w (requestFields .query)) (PostSlot.u16 w 2) = .ok) :
    let x := s.store.slot (PostSlot.u16 w 2).toNat
    s.takeQuery r w = s.answer r w .ok (.snapshot (PostSlot.u16 w 2) x.generation x.state x.phase x.scale
      (if x.state = .armed then x.deadline else 0) x.fireCount) := by
  intro x
  rw [← generationShown_of_ok s h]
  exact if_pos h

/-- An ARMED slot freed: its record, its queue and the references of its arming (R3, R21). -/
theorem State.freeSlot_spec (n : Nat) (hx : (s.store.slot n).state = .armed) :
    OnlyIn [.store, .regions, .report] s (s.freeSlot n) ∧ (s.freeSlot n).store = s.store.goFree n ∧
    (∀ k, (s.freeSlot n).region k =
      { s.region k with refs := (s.region k).refs - (s.store.slot n).namesRegion k }) ∧
    (∀ k, (s.freeSlot n).report.ring k =
      { s.report.ring k with refs := (s.report.ring k).refs - (s.store.slot n).namesRing k }) ∧
    (s.freeSlot n).report.hold = s.report.hold ∧
    (s.freeSlot n).report.deletedWrites = s.report.deletedWrites ∧
    (s.freeSlot n).report.intrPending = s.report.intrPending := by
  have hne : (s.store.slot n).state ≠ .free := by simp [hx]
  unfold State.freeSlot
  refine ⟨by simp [OnlyIn], by simp, fun k => ?_, fun k => ?_, by simp, by simp, by simp⟩
  · rw [TimerSlot.namesRegion_of _ hne, State.releaseRefs_region]; rfl
  · rw [TimerSlot.namesRing_of _ hne, State.releaseRefs_ring]; rfl

/-- A request answered from a state that differs from `s` in the Timer Store alone, or in nothing (R140). -/
theorem Answered.of_store (x : TimerStore) (st : Status) (res : AckResults) :
    Answered r w st res s ((s.setStore x).answer r w st res) := State.answer_answered (s.setStore x) r w st res

/-- A command that only answers the record in progress. -/
theorem exists_answered {c : Instr} {st : Status} {res : AckResults} (h : exec c s = .next (s.answer r w st res)) :
    ∃ t, exec c s = .next t ∧ Answered r w st res s t ∧ OnlyIn [.report, .posting] s t :=
  ⟨_, h, s.answer_answered r w st res, s.answer_onlyIn r w st res⟩

theorem OnlyIn.posting_eq {ps : List Part} {s t : State} (h : OnlyIn ps s t) (hp : Part.posting ∉ ps) :
    t.posting = s.posting := by
  obtain ⟨-, -, -, -, -, -, h7, -⟩ := h
  exact h7.resolve_left hp

/-- A request answered after references have changed: its acknowledgment is added all the same, and the counts stay as the
change left them (R140). -/
theorem State.answer_afterRefs {s u : State} (st : Status) (res : AckResults) (hpost : u.posting = s.posting)
    (hring : ∀ k, u.report.ring k = { s.report.ring k with refs := (u.report.ring k).refs })
    (hrest : u.report.hold = s.report.hold ∧ u.report.deletedWrites = s.report.deletedWrites ∧
      u.report.intrPending = s.report.intrPending) :
    AckAdded r.bound (.ack (ackOf r w) st res) s.report (u.answer r w st res).report ∧
    (∀ k, ((u.answer r w st res).report.ring k).refs = (u.report.ring k).refs) ∧
    (u.answer r w st res).posting = { s.posting with inProgress := none } := by
  obtain ⟨hhold, hdeleted, hintr⟩ := hrest
  obtain ⟨-, hrefs, -⟩ := u.answer_answered r w st res
  exact ⟨AckAdded.of_refs r.bound _ hring hhold hdeleted hintr, hrefs, by rw [State.answer_posting, hpost]⟩

section Cancel
variable (h : firstChecks r.ring (!PostSlot.reservedZero w (requestFields .cancel)) (PostSlot.u16 w 2) = .ok)
include h

/-- A CANCEL past the common checks, by the state of its slot and whether its generation matches (R22). -/
theorem CancelRequest.check_passed (x : TimerSlot) : (CancelRequest.read w).check r.ring w x =
    if x.state = .free then .notArmed
    else if PostSlot.bit w 1 0 = true ∨ PostSlot.byte w 4 = x.generation then
      if x.state = .armed then .ok else .cancelledAfterFire
    else .staleGeneration := by
  have h0 : timerChecks r.ring (PostSlot.reservedZero w (requestFields .cancel)) (CancelRequest.read w).timer = .ok := h
  simp only [CancelRequest.check, h0, ne_eq, not_true_eq_false, if_false]
  cases x.state
  · rfl
  · rfl
  · rfl

/-- A CANCEL past the common checks, as the store takes it. -/
theorem State.takeCancel_passed {n : Nat} {x : TimerSlot} {res : AckResults} (hn : n = (PostSlot.u16 w 2).toNat)
    (hx : x = s.store.slot n) (hres : res = .timerOnly (PostSlot.u16 w 2) x.generation) : s.takeCancel r w =
    if x.state = .free then s.answer r w .notArmed res
    else if PostSlot.bit w 1 0 = true ∨ PostSlot.byte w 4 = x.generation then
      if x.state = .armed then (s.freeSlot n).answer r w .ok res
      else (s.setStore (s.store.requestCancel n)).answer r w .cancelledAfterFire res
    else s.answer r w .staleGeneration res := by
  subst hn hx hres
  have hgen : s.ackGeneration (PostSlot.u16 w 2) = (s.store.slot (PostSlot.u16 w 2).toNat).generation :=
    generationShown_of_ok s h
  simp only [State.takeCancel, CancelRequest.check_passed r w h, show (CancelRequest.read w).timer = PostSlot.u16 w 2 from rfl,
    hgen]
  split_ifs <;> rfl

end Cancel

/-- The status of a RETIME past the common checks: the first check of R24 that fails, OK when none does. -/
def retimeStatus (s : State) (w : PostSlot) (x : TimerSlot) (d : U64) : Status :=
  if x.state = .free then .notArmed
  else if PostSlot.byte w 4 ≠ x.generation then .staleGeneration
  else if x.state = .firing then .busyFiring
  else if PostSlot.bit w 1 2 = true ∧ d ≤ s.tb.now x.scale then .deadlinePassed
  else .ok

theorem RetimeRequest.check_passed
    (h : firstChecks r.ring (!PostSlot.reservedZero w (requestFields .retime)) (PostSlot.u16 w 2) = .ok)
    (x : TimerSlot) (d : U64) :
    (RetimeRequest.read w).check r.ring w x d (s.tb.now x.scale) = retimeStatus s w x d := if_neg (not_not.2 h)

/-- A slot retimed: its deadline, its mark and its place, and nothing else (R25). -/
theorem State.retimeSlot_spec (n : Nat) (d : U64) :
    OnlyIn [.store, .disp] s (s.retimeSlot n d) ∧
    (∀ m, (s.retimeSlot n d).store.slot m =
      if m = n then { s.store.slot n with deadline := d, seq := s.store.nextSeq, stepped := false } else s.store.slot m) ∧
    (s.retimeSlot n d).store.nextSeq = s.store.nextSeq + 1 ∧
    n ∈ (s.retimeSlot n d).store.queue (s.store.slot n).scale ∧
    (∀ sc m, m ≠ n → (m ∈ (s.retimeSlot n d).store.queue sc ↔ m ∈ s.store.queue sc)) ∧
    Reoffered (s.retimeSlot n d) := by
  unfold State.retimeSlot
  refine ⟨by simp [OnlyIn], fun m => by simp, by simp, ?_, fun sc m hm => ?_, State.offer_reoffered _⟩
  · simp [TimerStore.mem_join_queue]
  · simp [TimerStore.mem_join_queue, hm]

/-- A RETIME past the common checks, as the store takes it (R24, R25). -/
theorem State.takeRetime_passed
    (h : firstChecks r.ring (!PostSlot.reservedZero w (requestFields .retime)) (PostSlot.u16 w 2) = .ok)
    {n : Nat} {x : TimerSlot} {d : U64} (hn : n = (PostSlot.u16 w 2).toNat) (hx : x = s.store.slot n)
    (hd : d = deadlineGiven s (PostSlot.bit w 1 1) x.scale (PostSlot.u64 w 8)) : s.takeRetime r w =
    if retimeStatus s w x d = .ok then
      (s.retimeSlot n d).answer r w .ok (.timerDeadline (PostSlot.u16 w 2) x.generation d)
    else s.answer r w (retimeStatus s w x d) (.timerDeadline (PostSlot.u16 w 2) x.generation
      (if retimeStatus s w x d = .deadlinePassed then d else 0)) := by
  subst hn hx hd
  have hgen : s.ackGeneration (PostSlot.u16 w 2) = (s.store.slot (PostSlot.u16 w 2).toNat).generation :=
    generationShown_of_ok s h
  simp only [State.takeRetime, show (RetimeRequest.read w).timer = PostSlot.u16 w 2 from rfl,
    RetimeRequest.check_passed s r w h, hgen, State.deadlineOf_eq, refusedDeadline]
  rfl

end Sys2Proof.Machine
end

section
/-!
SUPPORT. A claim taken by the store: what it hands over, and where the handed action goes (R9, R56 to R62).
-/
namespace Sys2Proof.Machine

variable (s : State)

/-- The action of a slot's phase (R9). -/
theorem TimerSlot.current_eq (x : TimerSlot) : x.current =
    if x.phase = .follow then ((x.follow.map FollowPart.action).getD x.mainAction) else x.mainAction := by
  unfold TimerSlot.current
  cases x.phase <;> cases x.follow <;> rfl

/-- A NOTE has no target (R52). -/
theorem State.targetOf_note {a : Action} (h : a.kind = .note) : s.targetOf a = none := by
  simp [State.targetOf, h, ActionKind.isMemory, ActionKind.isLine]

/-- A NOTE placed in an EMPTY action slot completes at once: the slot is EMPTY again (R62). -/
theorem ActionEngine.placeAction_note_spec (e : ActionEngine) (i : Nat) (x : ActionSlot) (h : x.action.kind = .note)
    (ht : x.target = none) :
    (∀ j, (e.placeAction i x).slot j = if j = i then ActionSlot.reset else e.slot j) ∧
    (e.placeAction i x).order = (e.order ++ [i]).filter (fun j => decide (j ≠ i)) ∧
    (e.placeAction i x).returns = e.returns ++
      [⟨x.timer, x.generation, x.tag, x.scale, x.lateness, x.status, 0, x.matchFlag, true, x.stepped⟩] := by
  have hp : e.placeAction i x = ({ e.setSlot i x with order := e.order ++ [i] } : ActionEngine).complete i
      { x with result := 0, zeroFlag := true } := by
    simp only [ActionEngine.placeAction, ht, ActionEngine.passes, if_true, ActionEngine.begin, h]
  rw [hp]
  refine ⟨fun j => ?_, rfl, rfl⟩
  rw [ActionEngine.complete_slot]
  split
  · rfl
  · rename_i hj
    exact (ActionEngine.slot_setSlot e i j x).trans (if_neg hj)

/-- The conflict test fails on an EMPTY slot's account of the others: some other occupied slot has the target (R55). -/
theorem ActionEngine.passes_eq_false_iff (e : ActionEngine) {i : Nat} (hi : (e.slot i).stage = .empty) (t : Option Target) :
    e.passes t = false ↔ ∃ k < 4, k ≠ i ∧ (e.slot k).stage ≠ .empty ∧ t ≠ none ∧ (e.slot k).target = t := by
  rw [← Bool.not_eq_true, ActionEngine.passes_iff]
  push Not
  constructor
  · rintro ⟨ht, k, hk, hs, hkt⟩
    exact ⟨k, hk, fun hki => hs (hki ▸ hi), hs, ht, hkt⟩
  · rintro ⟨k, hk, -, hs, ht, hkt⟩
    exact ⟨ht, k, hk, hs, hkt⟩

/-- A handed action placed in an EMPTY action slot: a NOTE completes at once; any other is HELD while another occupied slot has
its target, and begun otherwise (R57, R59, R62). -/
theorem ActionEngine.placeAction_spec (e : ActionEngine) (i : Nat) (y : ActionSlot) (hi : (e.slot i).stage = .empty)
    (hheld : y.stage = .held) (hnote : y.action.kind = .note → y.target = none) :
    let blocked := ∃ k < 4, k ≠ i ∧ (e.slot k).stage ≠ .empty ∧ y.target ≠ none ∧ (e.slot k).target = y.target
    let f := e.placeAction i y
    (∀ k, k ≠ i → f.slot k = e.slot k) ∧
    (y.action.kind = .note → f.slot i = ActionSlot.reset ∧ f.order = (e.order ++ [i]).filter (fun k => decide (k ≠ i)) ∧
      f.returns = e.returns ++
        [⟨y.timer, y.generation, y.tag, y.scale, y.lateness, y.status, 0, y.matchFlag, true, y.stepped⟩]) ∧
    (y.action.kind ≠ .note → f.order = e.order ++ [i] ∧ f.returns = e.returns ∧
      f.slot i = { y with stage := (f.slot i).stage } ∧ (blocked → (f.slot i).stage = .held) ∧
      (¬blocked → (f.slot i).stage = y.action.kind.firstStage)) := by
  intro blocked f
  have hpass : e.passes y.target = false ↔ blocked := e.passes_eq_false_iff hi y.target
  by_cases hk : y.action.kind = .note
  · obtain ⟨hslot, horder, hreturns⟩ := e.placeAction_note_spec i y hk (hnote hk)
    exact ⟨fun k hki => (hslot k).trans (if_neg hki), fun _ => ⟨(hslot i).trans (if_pos rfl), horder, hreturns⟩,
      fun hn => absurd hk hn⟩
  · obtain ⟨hslot, horder, hreturns⟩ := e.placeAction_other i y hk
    have hself : f.slot i = { y with stage := if e.passes y.target = true then y.action.kind.firstStage else y.stage } :=
      (hslot i).trans (if_pos rfl)
    refine ⟨fun k hki => (hslot k).trans (if_neg hki), fun hn => absurd hn hk, fun _ =>
      ⟨horder, hreturns, by rw [hself], fun hb => ?_, fun hb => ?_⟩⟩
    · simp [hself, hpass.2 hb, hheld]
    · simp [hself, Bool.eq_true_of_not_eq_false (mt hpass.1 hb)]

/-- A claim for a slot that is due finds an EMPTY action slot and is dispatched into it (R9, R56). -/
theorem exec_dispatchClaim_due {n i : Nat} (hc : s.disp.claim = some n) (hx : (s.store.slot n).state = .armed)
    (hd : (s.store.slot n).deadline ≤ s.tb.now (s.store.slot n).scale) (hi : s.engine.emptySlot = some i) :
    exec .dispatchClaim s = .next (((s.setEngine (s.engine.placeAction i (s.handed n))).setStore (s.store.fire n)).setDisp
      (s.disp.answered n)) := by
  have hdue : (s.store.slot n).due s.tb = true := by simp [TimerSlot.due, hx, hd]
  show execDispatchClaim s = _
  simp only [execDispatchClaim, hc, hdue, if_true, hi]

/-- A claim for a slot that is not due is refused (R9, R56). -/
theorem exec_dispatchClaim_refused {n : Nat} (hc : s.disp.claim = some n)
    (hx : (s.store.slot n).state ≠ .armed ∨ s.tb.now (s.store.slot n).scale < (s.store.slot n).deadline) :
    exec .dispatchClaim s = .next (s.setDisp (s.disp.answered n)) := by
  have hdue : (s.store.slot n).due s.tb = false := by
    simp only [TimerSlot.due, Bool.and_eq_false_iff, decide_eq_false_iff_not, BitVec.not_le]
    exact hx
  show execDispatchClaim s = _
  simp only [execDispatchClaim, hc, hdue, Bool.false_eq_true, if_false]

end Sys2Proof.Machine
end

section
/-!
SUPPORT. The statements about the timer requests and the claim, settled.
-/
namespace Sys2Proof.Machine

/-- Settles O15: each request in turn, its record answered with the status of the common checks. -/
theorem timerRequestsMeetTheCommonChecksFirst : Obligations.TimerRequestsMeetTheCommonChecksFirst := by
  unfold Obligations.TimerRequestsMeetTheCommonChecksFirst
  intro s r w op c bad hmem hown hbad
  simp only [List.mem_cons, Prod.mk.injEq, List.not_mem_nil, or_false] at hmem
  rcases hmem with ⟨rfl, rfl, rfl⟩ | ⟨rfl, rfl, rfl⟩ | ⟨rfl, rfl, rfl⟩ | ⟨rfl, rfl, rfl⟩
  · obtain ⟨t, ht, ha, ho⟩ := exists_answered s r w (hown.exec_arm.trans (congrArg _ (s.takeArm_refusedFirst r w hbad)))
    exact ⟨t, _, ht, ha, fun _ => rfl, by simp, by simp, ho⟩
  · obtain ⟨t, ht, ha, ho⟩ := exists_answered s r w (hown.exec_cancel.trans (congrArg _ (s.takeCancel_refused r w hbad)))
    exact ⟨t, _, ht, ha, by simp, fun _ => rfl, by simp, ho⟩
  · obtain ⟨t, ht, ha, ho⟩ := exists_answered s r w (hown.exec_retime.trans (congrArg _ (s.takeRetime_refused r w hbad)))
    exact ⟨t, _, ht, ha, fun _ => rfl, by simp, by simp, ho⟩
  · obtain ⟨t, ht, ha, ho⟩ := exists_answered s r w (hown.exec_query.trans (congrArg _ (s.takeQuery_refused r w hbad)))
    exact ⟨t, _, ht, ha, by simp, by simp, fun _ => rfl, ho⟩

/-- Settles O16: the checks of the model are those of R12 and R14 in their order, and a refusal only answers. -/
theorem armIsRefusedByItsFirstFailingCheck : Obligations.ArmIsRefusedByItsFirstFailingCheck := by
  unfold Obligations.ArmIsRefusedByItsFirstFailingCheck
  intro s r w hown hst
  exact exists_answered s r w (hown.exec_arm.trans (congrArg _ (s.takeArm_refused r w hst)))

/-- Settles O17: the accepted request's record arms the slot, and the acknowledgment is added beside the references. -/
theorem armAcceptedArmsTheSlot : Obligations.ArmAcceptedArmsTheSlot := by
  unfold Obligations.ArmAcceptedArmsTheSlot
  intro s r w hown hok q n old d
  obtain ⟨hfirst, hvalid, hfiring⟩ := armStatus_eq_ok hok
  obtain ⟨-, hformat, -⟩ := (firstChecks_eq_ok_iff _ _ _).1 hfirst
  obtain ⟨hpolicy, hperiod⟩ := ArmRequest.policies_of_format hformat
  have he := hown.exec_arm
  rw [State.takeArm_accepted s r w hok] at he
  obtain ⟨honly, hslot, hseq, hqueue, hothers, hoffer, hregion, hring, hrest⟩ := s.armSlot_spec (q.arming old d) n hfiring rfl
  have hself : (s.armSlot n (q.arming old d)).store.slot n = { q.arming old d with seq := s.store.nextSeq } :=
    (hslot n).trans (if_pos rfl)
  obtain ⟨hadded, hrefs, hposting⟩ := State.answer_afterRefs r w .ok (.timerDeadline q.timer (old.generation + 1) d)
    (honly.posting_eq (by decide)) (fun k => by rw [hring k]) hrest
  refine ⟨_, he, ?_, fun m hm => (hslot m).trans (if_neg hm), hseq, hqueue, hothers,
    hoffer.congr (fun _ => rfl) rfl rfl rfl, fun k => ?_, fun k => ?_, hadded, hposting,
    (honly.mono (by simp)).trans ((State.answer_onlyIn _ r w _ _).mono (by simp))⟩
  · rw [State.answer_store, hself]
    exact ArmRequest.arming_armedBy old d s.store.nextSeq hpolicy hperiod hvalid
  · rw [State.answer_store, hself]
    exact hregion k
  · rw [State.answer_store, hself]
    exact (hrefs k).trans (by rw [hring k]; rfl)

/-- Settles O18: the three refusals answer; a cancelled FIRING slot is marked, a cancelled ARMED slot freed. -/
theorem cancelIsDecidedByTheSlot : Obligations.CancelIsDecidedByTheSlot := by
  unfold Obligations.CancelIsDecidedByTheSlot
  intro s r w hown hok n x matching res
  have he := hown.exec_cancel
  rw [State.takeCancel_passed s r w hok (n := n) (x := x) (res := res) rfl rfl rfl] at he
  refine ⟨_, he, fun hx => ?_, fun hx hm => ?_, fun hx hm => ?_, fun hx hm => ?_⟩
  · rw [if_pos hx]
    exact ⟨s.answer_answered r w .notArmed res, s.answer_onlyIn r w .notArmed res⟩
  · rw [if_neg hx, if_neg hm]
    exact ⟨s.answer_answered r w .staleGeneration res, s.answer_onlyIn r w .staleGeneration res⟩
  · rw [if_neg (by simp [hx]), if_pos hm, if_neg (by simp [hx])]
    refine ⟨Answered.of_store s r w _ _ res, ?_, fun m hm => ?_, fun sc => ?_, ?_, ?_⟩
    · simp [n, x]
    · simp [n, hm]
    · simp
    · simp
    · simp [OnlyIn]
  · rw [if_neg (by simp [hx]), if_pos hm, if_pos hx]
    obtain ⟨honly, hstore, hregion, hring, hrest⟩ := s.freeSlot_spec n hx
    obtain ⟨hadded, hrefs, hposting⟩ := State.answer_afterRefs r w .ok res (honly.posting_eq (by decide))
      (fun k => by rw [hring k]) hrest
    refine ⟨?_, fun m hm => ?_, fun sc => ?_, ?_, hregion, fun k => (hrefs k).trans (by rw [hring k]), hadded, hposting,
      (honly.mono (by simp)).trans ((State.answer_onlyIn _ r w _ _).mono (by simp))⟩
    · simp [hstore, x]
    · simp [hstore, hm]
    · simp [hstore]
    · simp [hstore]

/-- Settles O19: a refusal only answers; an accepted request leaves its queue and joins it again at the new deadline. -/
theorem retimeMovesOnlyTheDeadline : Obligations.RetimeMovesOnlyTheDeadline := by
  unfold Obligations.RetimeMovesOnlyTheDeadline
  intro s r w hown hok n x d st
  have he := hown.exec_retime
  rw [State.takeRetime_passed s r w hok (n := n) (x := x) (d := d) rfl rfl rfl] at he
  have hst_eq : st = retimeStatus s w x d := rfl
  clear_value st
  subst hst_eq
  refine ⟨_, he, fun hst => ?_, fun hst => ?_⟩
  · rw [if_neg hst]
    exact ⟨s.answer_answered r w _ _, s.answer_onlyIn r w _ _⟩
  · rw [if_pos hst]
    obtain ⟨honly, hslot, hseq, hqueue, hothers, hoffer⟩ := s.retimeSlot_spec n d
    refine ⟨(hslot n).trans (if_pos rfl), fun m hm => (hslot m).trans (if_neg hm), hseq, hqueue, hothers,
      hoffer.congr (fun _ => rfl) rfl rfl rfl, State.answer_answered (s.retimeSlot n d) r w _ _,
      (honly.mono (by simp)).trans ((State.answer_onlyIn _ r w _ _).mono (by simp))⟩

/-- Settles O20: past the common checks a QUERY only answers, with the snapshot. -/
theorem queryShowsTheSlot : Obligations.QueryShowsTheSlot := by
  unfold Obligations.QueryShowsTheSlot
  intro s r w hown hok
  exact exists_answered s r w (hown.exec_query.trans (congrArg _ (s.takeQuery_accepted r w hok)))

/-- Settles O53: the slot fires and its action is placed in the EMPTY action slot found, or the claim is answered alone. -/
theorem claimDispatchesADueSlotAndRefusesOthers : Obligations.ClaimDispatchesADueSlotAndRefusesOthers := by
  unfold Obligations.ClaimDispatchesADueSlotAndRefusesOthers
  constructor
  · intro s n hc hfree x hx hd
    obtain ⟨i0, hi0, hempty0⟩ := hfree
    obtain ⟨i, hi⟩ := s.engine.emptySlot_isSome i0 hi0 hempty0
    obtain ⟨hi4, hempty⟩ := s.engine.emptySlot_some i hi
    refine ⟨_, exec_dispatchClaim_due s hc hx hd hi, by simp [OnlyIn], by simp [x], fun m hm => by simp [hm], by simp, by simp,
      rfl, rfl, i, hi4, hempty, ?_⟩
    rw [← TimerSlot.current_eq]
    exact s.engine.placeAction_spec i (s.handed n) hempty rfl s.targetOf_note
  · intro s n hc hx
    exact ⟨_, exec_dispatchClaim_refused s hc hx, s.setDisp_onlyIn _, rfl, rfl⟩

end Sys2Proof.Machine
end

section
/-!
SUPPORT. A completion return taken by the store: the case of R31 that decides it, the report handed in, and what becomes of the
slot.
-/
namespace Sys2Proof.Machine

/-! ### The cases of R31 -/

section Outcome
variable (x : TimerSlot) (c : Completion) (now : U64)

/-- Neither an error nor a cancel ends the timer, and the firing was the main action's: none of cases 1, 2 and 6 of R31. -/
def TimerSlot.GoesOn : Prop := c.status = .ok ∧ x.cancelRequested = false ∧ x.phase = .main

/-- The count limit is reached, or a STOP_AT_ZERO at zero (R35). -/
def TimerSlot.LimitReached : Prop :=
  (x.countLimit ≠ 0 ∧ x.counted = x.countLimit) ∨ (x.stopAtZero = true ∧ c.zeroFlag = true)

/-- The arming has a follow part, and its condition holds (R39). -/
def TimerSlot.ConditionHolds : Prop :=
  ∃ f, x.follow = some f ∧ (f.condition = .always ∨ (f.condition = .ifMatch ∧ c.matchFlag = true) ∨
    (f.condition = .ifNoMatch ∧ c.matchFlag = false) ∨ (f.condition = .ifZero ∧ c.zeroFlag = true) ∨
    (f.condition = .ifNonzero ∧ c.zeroFlag = false))

/-- A next period is due: a periodic timer that goes on short of its limit (case 3 of R31, R35). -/
def TimerSlot.NextDue : Prop := (x.GoesOn c ∧ x.period ≠ none) ∧ ¬x.LimitReached c

/-- The follow part decides: a timer that goes on, not periodic, with a follow part (case 4 of R31). -/
def TimerSlot.Following : Prop := x.GoesOn c ∧ x.period = none ∧ x.follow ≠ none

/-- The follow phase is due: the follow part decides, and its condition holds (R40). -/
def TimerSlot.FollowDue : Prop := x.Following c ∧ x.ConditionHolds c

variable {x c}

/-- The conditions of the follow part, in the words of R39. -/
theorem Condition.holds_iff (k : Condition) (m z : Bool) : k.holds m z = true ↔
    k = .always ∨ (k = .ifMatch ∧ m = true) ∨ (k = .ifNoMatch ∧ m = false) ∨ (k = .ifZero ∧ z = true) ∨
      (k = .ifNonzero ∧ z = false) := by
  cases k <;> simp [Condition.holds]

theorem TimerSlot.conditionHolds_iff {f : FollowPart} (hf : x.follow = some f) :
    x.ConditionHolds c ↔ f.condition.holds c.matchFlag c.zeroFlag = true := by
  simp [TimerSlot.ConditionHolds, hf, Condition.holds_iff]

theorem TimerSlot.exists_period_of_nextDue (h : x.NextDue c) : ∃ p, x.period = some p := by
  obtain ⟨⟨-, hperiod⟩, -⟩ := h
  exact Option.ne_none_iff_exists'.1 hperiod

theorem TimerSlot.phase_of_nextDue (h : x.NextDue c) : x.phase = .main := by
  obtain ⟨⟨⟨-, -, hphase⟩, -⟩, -⟩ := h
  exact hphase

theorem TimerSlot.not_following_of_nextDue (h : x.NextDue c) : ¬x.Following c := by
  obtain ⟨⟨-, hperiod⟩, -⟩ := h
  exact fun ⟨_, hnone, _⟩ => hperiod hnone

theorem TimerSlot.exists_follow_of_followDue (h : x.FollowDue c) : ∃ g, x.follow = some g := by
  obtain ⟨⟨-, -, hfollow⟩, -⟩ := h
  exact Option.ne_none_iff_exists'.1 hfollow

/-- Under either policy a next period is a deadline and a count of periods skipped (R36, R37). -/
theorem Period.next_eq_nextPeriod (p : Period) (previous : U64) : ∃ d k, p.next now previous = .nextPeriod d k := by
  unfold Period.next
  cases p.policy with
  | catchup => exact ⟨_, _, rfl⟩
  | skip => exact ⟨_, _, rfl⟩

theorem TimerSlot.outcome_of_nextDue (h : x.NextDue c) {p : Period} (hp : x.period = some p) :
    x.outcome c now = p.next now x.deadline := by
  obtain ⟨⟨⟨hstatus, hcancel, hphase⟩, -⟩, hlimit⟩ := h
  simp only [TimerSlot.outcome, hstatus, hcancel, hphase, hp, ne_eq, not_true_eq_false, if_false, Bool.false_eq_true]
  exact if_neg hlimit

theorem TimerSlot.outcome_of_followDue (h : x.FollowDue c) {g : FollowPart} (hg : x.follow = some g) :
    x.outcome c now = .followPhase (now + g.delay.setWidth 64) := by
  obtain ⟨⟨⟨hstatus, hcancel, hphase⟩, hperiod, -⟩, hholds⟩ := h
  simp only [TimerSlot.outcome, hstatus, hcancel, hphase, hperiod, hg, (TimerSlot.conditionHolds_iff hg).1 hholds, ne_eq,
    not_true_eq_false, if_false, if_true, Bool.false_eq_true]

theorem TimerSlot.not_goesOn_iff :
    ¬x.GoesOn c ↔ c.status ≠ .ok ∨ x.cancelRequested = true ∨ x.phase = .follow := by
  have hphase : ¬x.phase = .main ↔ x.phase = .follow := by cases x.phase <;> simp
  rw [TimerSlot.GoesOn, not_and_or, not_and_or, hphase, Bool.not_eq_false]

/-- With neither a next period nor a follow phase due the timer ends; the follow phase is skipped exactly when the follow part
decides (R31). -/
theorem TimerSlot.outcome_of_ends (hn : ¬x.NextDue c) (hf : ¬x.FollowDue c) :
    ∃ b, x.outcome c now = .ends b ∧ (b = true ↔ x.Following c) := by
  by_cases hgo : x.GoesOn c
  · obtain ⟨hstatus, hcancel, hphase⟩ := id hgo
    simp only [TimerSlot.outcome, hstatus, hcancel, hphase, ne_eq, not_true_eq_false, if_false, Bool.false_eq_true]
    cases hp : x.period with
    | some p =>
      have hlimit : x.LimitReached c := by_contra fun hl => hn ⟨⟨hgo, by simp [hp]⟩, hl⟩
      exact ⟨false, if_pos hlimit, by simp [TimerSlot.Following, hp]⟩
    | none =>
      cases hg : x.follow with
      | some g =>
        have hfollowing : x.Following c := ⟨hgo, hp, by simp [hg]⟩
        have hholds := mt (TimerSlot.conditionHolds_iff hg).2 fun h => hf ⟨hfollowing, h⟩
        exact ⟨true, if_neg hholds, by simp [hfollowing]⟩
      | none => exact ⟨false, rfl, by simp [TimerSlot.Following, hg]⟩
  · refine ⟨false, ?_, by simp [TimerSlot.Following, hgo]⟩
    rcases TimerSlot.not_goesOn_iff.1 hgo with hstatus | hcancel | hphase
    · simp [TimerSlot.outcome, hstatus]
    · simp [TimerSlot.outcome, hcancel]
    · simp [TimerSlot.outcome, hphase]

variable (x c) in
/-- What a completion return can decide, and when (R31). -/
theorem TimerSlot.outcome_cases :
    (x.NextDue c ∧ ¬x.FollowDue c ∧ ¬x.Following c ∧ ∃ d k, x.outcome c now = .nextPeriod d k) ∨
    (¬x.NextDue c ∧ x.FollowDue c ∧ x.ConditionHolds c ∧ ∃ d, x.outcome c now = .followPhase d) ∨
    (¬x.NextDue c ∧ ¬x.FollowDue c ∧ ∃ b, x.outcome c now = .ends b ∧ (b = true ↔ x.Following c)) := by
  by_cases hn : x.NextDue c
  · obtain ⟨p, hp⟩ := TimerSlot.exists_period_of_nextDue hn
    have hfollowing := TimerSlot.not_following_of_nextDue hn
    refine .inl ⟨hn, fun ⟨h, _⟩ => hfollowing h, hfollowing, ?_⟩
    rw [TimerSlot.outcome_of_nextDue now hn hp]
    exact Period.next_eq_nextPeriod now p x.deadline
  · by_cases hf : x.FollowDue c
    · obtain ⟨g, hg⟩ := TimerSlot.exists_follow_of_followDue hf
      obtain ⟨-, hholds⟩ := id hf
      exact .inr (.inl ⟨hn, hf, hholds, _, TimerSlot.outcome_of_followDue now hf hg⟩)
    · exact .inr (.inr ⟨hn, hf, TimerSlot.outcome_of_ends now hn hf⟩)

/-- The timer ends exactly when neither a next period nor a follow phase is due. -/
theorem TimerSlot.outcome_isFinal_iff : (x.outcome c now).isFinal = true ↔ ¬x.NextDue c ∧ ¬x.FollowDue c := by
  rcases x.outcome_cases c now with ⟨hn, -, -, d, k, ho⟩ | ⟨-, hf, -, d, ho⟩ | ⟨hn, hf, b, ho, -⟩
  · simp [ho, ReturnOutcome.isFinal, hn]
  · simp [ho, ReturnOutcome.isFinal, hf]
  · simp [ho, ReturnOutcome.isFinal, hn, hf]

/-- The FIRED report says that the follow phase was skipped exactly when its condition was tested and did not hold (R39, R41). -/
theorem TimerSlot.report_followSkipped_iff :
    (x.report c (x.outcome c now)).followSkipped = true ↔ x.Following c ∧ ¬x.ConditionHolds c := by
  rcases x.outcome_cases c now with ⟨-, -, hfollowing, d, k, ho⟩ | ⟨-, -, hholds, d, ho⟩ | ⟨-, hf, b, ho, hb⟩
  · simp [ho, TimerSlot.report, hfollowing]
  · simp [ho, TimerSlot.report, hholds]
  · have hskip : x.Following c → ¬x.ConditionHolds c := fun h hc => hf ⟨h, hc⟩
    rw [and_iff_left_of_imp hskip, ho]
    exact hb

/-- Periods are skipped only in a step to the next period (R44). -/
theorem TimerSlot.report_skipped_of_not_nextDue (h : ¬x.NextDue c) : (x.report c (x.outcome c now)).skipped = 0 := by
  rcases x.outcome_cases c now with ⟨hn, -⟩ | ⟨-, -, -, d, ho⟩ | ⟨-, -, b, ho, -⟩
  · exact absurd hn h
  · rw [ho]; rfl
  · rw [ho]; rfl

theorem TimerSlot.report_skipped_of_nextPeriod {o : ReturnOutcome} {d : U64} {k : Nat} (h : o = .nextPeriod d k) :
    (x.report c o).skipped = k := by
  rw [h]
  rfl

end Outcome

/-! ### The report, then the slot -/

/-- The report policies, in the words of R45. -/
theorem ReportPolicy.lets_iff (p : ReportPolicy) (status : ActionStatus) (final : Bool) : p.lets status final = true ↔
    p = .all ∨ (p = .final ∧ final = true) ∨ (p = .errorsAndFinal ∧ (status ≠ .ok ∨ final = true)) := by
  cases p <;> simp [ReportPolicy.lets]

variable (s : State)

/-- Handing in the report changes the Report Unit alone: it arrives at the slot's report ring where there is one and the policy
lets it through (R45, R46). -/
theorem State.handReport_spec (x : TimerSlot) (f : Fired) : ∃ mid, s.handReport x f = s.setReport mid ∧
    (∀ ring, x.reportRing = some ring → x.reportPolicy.lets f.status f.final = true →
      Arrived ring (.fired f) s.report mid) ∧
    (x.reportRing = none ∨ ¬x.reportPolicy.lets f.status f.final = true → mid = s.report) := by
  unfold State.handReport
  cases hr : x.reportRing with
  | none => exact ⟨s.report, rfl, by simp, fun _ => rfl⟩
  | some ring =>
    by_cases hl : x.reportPolicy.lets f.status f.final = true
    · refine ⟨s.report.take ring (.fired f), if_pos hl, fun r e _ => ?_, by simp [hl]⟩
      cases e
      exact ReportUnit.take_arrived _ _ _
    · exact ⟨s.report, if_neg hl, fun _ _ h => absurd h hl, fun _ => rfl⟩

/-- A slot that ends: its record, its queue and the references of its arming (R3, R21). -/
theorem State.settleSlot_ends_spec (n : Nat) {x : TimerSlot} (b : Bool) (hx : x.state ≠ .free) :
    let t := s.settleSlot n x (.ends b)
    OnlyIn [.store, .regions, .report] s t ∧ OtherSlotsKept n s t ∧
    t.store.slot n = { x with state := .free, cancelRequested := false, stepped := false } ∧
    (∀ sc, t.store.queue sc = (s.store.queue sc).filter (fun m => decide (m ≠ n))) ∧
    t.store.nextSeq = s.store.nextSeq ∧ t.disp = s.disp ∧
    (∀ k, t.region k = { s.region k with refs := (s.region k).refs - x.namesRegion k }) ∧
    (∀ k, t.report.ring k = { s.report.ring k with refs := (s.report.ring k).refs - x.namesRing k }) ∧
    t.report = { s.report with rings := t.report.rings } := by
  intro t
  have ht : t = (s.setStore ((s.store.setSlot n x).goFree n)).releaseRefs x := rfl
  rw [ht]
  refine ⟨by simp [OnlyIn], fun m hm => by simp [hm], by simp, fun sc => ?_, by simp, by simp, fun k => ?_, fun k => ?_, ?_⟩
  · rw [State.releaseRefs_store, State.setStore_store, TimerStore.goFree_queue]
    cases sc <;> rfl
  · rw [TimerSlot.namesRegion_of x hx, State.releaseRefs_region]
    rfl
  · rw [TimerSlot.namesRing_of x hx, State.releaseRefs_ring]
    rfl
  · rw [State.releaseRefs_report]
    cases x.reportRing <;> rfl

/-- A slot that joins its queue, after which the store offers its head runs again (R4, R8). -/
theorem State.joinSlot_spec (n : Nat) (y : TimerSlot) :
    let t := (s.setStore (s.store.join n y)).offer
    OnlyIn [.store, .disp] s t ∧ OtherSlotsKept n s t ∧ t.store.slot n = { y with seq := s.store.nextSeq } ∧
    n ∈ t.store.queue y.scale ∧ (∀ sc m, m ≠ n → (m ∈ t.store.queue sc ↔ m ∈ s.store.queue sc)) ∧
    t.store.nextSeq = s.store.nextSeq + 1 ∧ Reoffered t := by
  refine ⟨by simp [OnlyIn], fun m hm => by simp [hm], by simp, ?_, fun sc m hm => ?_, by simp, State.offer_reoffered _⟩
  · simp [TimerStore.mem_join_queue]
  · simp [TimerStore.mem_join_queue, hm]

/-- A slot that does not end joins the queue of its scale. -/
theorem State.settleSlot_joins (n : Nat) (x : TimerSlot) {o : ReturnOutcome} (ho : ¬o.isFinal = true) :
    ∃ y, y.scale = x.scale ∧ s.settleSlot n x o = (s.setStore (s.store.join n y)).offer := by
  cases o with
  | ends b => exact absurd rfl ho
  | nextPeriod d k => exact ⟨{ x with state := .armed, phase := .main, deadline := d }, rfl, rfl⟩
  | followPhase d => exact ⟨{ x with state := .armed, phase := .follow, deadline := d }, rfl, rfl⟩

/-- The record of a slot armed for its next period: its phase is MAIN, as it was. -/
theorem State.settleSlot_nextPeriod_slot (n : Nat) {x : TimerSlot} {o : ReturnOutcome} {d : U64} {k : Nat}
    (ho : o = .nextPeriod d k) (hx : x.phase = .main) :
    (s.settleSlot n x o).store.slot n = { x with state := .armed, deadline := d, seq := s.store.nextSeq } := by
  obtain ⟨-, -, hslot, -⟩ := s.joinSlot_spec n { x with state := .armed, phase := .main, deadline := d }
  rw [ho, hx]
  exact hslot

/-- The record of a slot armed for its follow phase (R40). -/
theorem State.settleSlot_followPhase_slot (n : Nat) (x : TimerSlot) {o : ReturnOutcome} {d : U64} (ho : o = .followPhase d) :
    (s.settleSlot n x o).store.slot n =
      { x with state := .armed, phase := .follow, deadline := d, seq := s.store.nextSeq } := by
  obtain ⟨-, -, hslot, -⟩ := s.joinSlot_spec n { x with state := .armed, phase := .follow, deadline := d }
  rw [ho]
  exact hslot

/-- Whatever becomes of the slot, it touches the store, the offers and the references, and no other slot. -/
theorem State.settleSlot_frame (n : Nat) {x : TimerSlot} (o : ReturnOutcome) (hx : x.state ≠ .free) :
    OnlyIn [.store, .disp, .regions, .report] s (s.settleSlot n x o) ∧ OtherSlotsKept n s (s.settleSlot n x o) := by
  by_cases ho : o.isFinal = true
  · cases o with
    | ends b =>
      obtain ⟨honly, hothers, -⟩ := s.settleSlot_ends_spec n b hx
      exact ⟨honly.mono (by simp), hothers⟩
    | nextPeriod | followPhase => cases ho
  · obtain ⟨y, -, he⟩ := s.settleSlot_joins n x ho
    obtain ⟨honly, hothers, -⟩ := s.joinSlot_spec n y
    rw [he]
    exact ⟨honly.mono (by simp), hothers⟩

/-- COMPLETION_RETURN on a FIRING slot takes the first return from the engine, hands in the report, and settles the slot with its
fire count raised, in that order (R31, R32, R46). -/
theorem exec_completionReturn_firing {c : Completion} {cs : List Completion} (hc : s.engine.returns = c :: cs)
    (hfiring : (s.store.slot c.timer).state = .firing) :
    let x := s.store.slot c.timer
    let o := x.outcome c (s.tb.now x.scale)
    let f := x.report c o
    ∃ mid, exec .completionReturn s = .next (((s.setEngine { s.engine with returns := cs }).setReport mid).settleSlot c.timer
        { x with fireCount := x.counted } o) ∧
      (∀ ring, x.reportRing = some ring → x.reportPolicy.lets f.status f.final = true →
        Arrived ring (.fired f) s.report mid) ∧
      (x.reportRing = none ∨ ¬x.reportPolicy.lets f.status f.final = true → mid = s.report) := by
  intro x o f
  obtain ⟨mid, hmid, harrived, hkept⟩ := (s.setEngine { s.engine with returns := cs }).handReport_spec x f
  refine ⟨mid, ?_, harrived, hkept⟩
  rw [← hmid]
  show execCompletionReturn s = _
  simp only [execCompletionReturn, hc, State.setEngine_store, hfiring, if_true]
  rfl

end Sys2Proof.Machine
end

section
/-!
SUPPORT. The statement about completion returns, settled.
-/
namespace Sys2Proof.Machine

/-- Settles O58: the report is handed in first; then the slot ends or joins its queue again, as the first case of R31 says. -/
theorem completionReturnDecidesTheTimer : Obligations.CompletionReturnDecidesTheTimer := by
  unfold Obligations.CompletionReturnDecidesTheTimer
  intro s c cs hc hfiring n x now count goesOn periodic following limit holds next follows handed
  let o := x.outcome c now
  let f := x.report c o
  let y : TimerSlot := { x with fireCount := count }
  have hy : y.state ≠ .free := fun h => absurd (hfiring.symm.trans h) (by decide)
  obtain ⟨mid, he, harrived, hkept⟩ := exec_completionReturn_firing s hc hfiring
  let u : State := (s.setEngine { s.engine with returns := cs }).setReport mid
  have hsu : OnlyIn [.engine, .report] s u := by simp [OnlyIn, u]
  obtain ⟨honly, hothers⟩ := u.settleSlot_frame n o hy
  have hlets : x.reportPolicy.lets f.status f.final = true ↔ handed f.final := ReportPolicy.lets_iff _ _ _
  refine ⟨u.settleSlot n y o, mid, f, he, (hsu.mono (by simp)).trans (honly.mono (by simp)), ?_, hothers,
    ⟨rfl, rfl, rfl, rfl, rfl, rfl, rfl, rfl, rfl, rfl, rfl, rfl, decide_eq_true_iff, TimerSlot.outcome_isFinal_iff now,
      TimerSlot.report_followSkipped_iff now⟩,
    fun ring hr hh => harrived ring hr (hlets.2 hh), fun h => hkept (h.imp_right (mt hlets.1)), ?_, ?_, ?_,
    TimerSlot.report_skipped_of_not_nextDue now, ?_⟩
  · obtain ⟨-, -, -, hengine, -⟩ := honly
    exact hengine.resolve_left (by decide)
  · intro hn hf
    obtain ⟨b, ho, -⟩ := TimerSlot.outcome_of_ends now hn hf
    obtain ⟨-, -, hspec⟩ := u.settleSlot_ends_spec n b hy
    rw [show o = .ends b from ho]
    exact hspec
  · rintro hn ⟨ticks, policy⟩ hp
    have ho : o = Period.next ⟨ticks, policy⟩ now x.deadline := TimerSlot.outcome_of_nextDue now hn hp
    have hphase : x.phase = .main := TimerSlot.phase_of_nextDue hn
    cases policy with
    | catchup => exact ⟨u.settleSlot_nextPeriod_slot n ho hphase, TimerSlot.report_skipped_of_nextPeriod ho⟩
    | skip => exact ⟨u.settleSlot_nextPeriod_slot n ho hphase, TimerSlot.report_skipped_of_nextPeriod ho⟩
  · intro hf g hg
    exact u.settleSlot_followPhase_slot n y (TimerSlot.outcome_of_followDue now hf hg)
  · intro h
    have hfinal : ¬o.isFinal = true := by
      rw [TimerSlot.outcome_isFinal_iff now]
      exact fun hh => h.elim hh.1 hh.2
    obtain ⟨z, hscale, hz⟩ := u.settleSlot_joins n y hfinal
    obtain ⟨⟨-, -, -, -, hregions, -, -, hreport, -⟩, -, -, hmem, hqueue, hseq, hoffer⟩ := u.joinSlot_spec n z
    rw [hscale] at hmem
    rw [hz]
    exact ⟨hmem, hqueue, hseq, hoffer, hregions.resolve_left (by decide), hreport.resolve_left (by decide)⟩

end Sys2Proof.Machine
end

section
/-!
SUPPORT. The Time Base's requests as it takes them: the codes of their fields and their checks in the words of R88 to R98, and
what each does past its checks, said once by the branch that decides it.
-/
namespace Sys2Proof.Machine

/-! ### Codes -/

theorem SourceChoice.ofCode_isNone_iff (b : Byte) : (SourceChoice.ofCode b).isNone = true ↔ 2 < b.toNat := by
  by_cases h : 2 < b.toNat
  · have hb : b ≠ 0 ∧ b ≠ 1 ∧ b ≠ 2 := by bv_omega
    simp only [SourceChoice.ofCode, hb, h, if_false, Option.isNone_none]
  · have hb : b = 0 ∨ b = 1 ∨ b = 2 := by bv_omega
    rcases hb with rfl | rfl | rfl <;> decide

theorem SourceChoice.ofCode_eq_keep_iff (b : Byte) : SourceChoice.ofCode b = some .keep ↔ b = 0 := by
  unfold SourceChoice.ofCode
  split_ifs <;> simp_all

theorem StepMode.ofCode_isNone_iff (b : Byte) : (StepMode.ofCode b).isNone = true ↔ 1 < b.toNat := by
  by_cases h : 1 < b.toNat
  · have hb : b ≠ 0 ∧ b ≠ 1 := by bv_omega
    simp only [StepMode.ofCode, hb, h, if_false, Option.isNone_none]
  · have hb : b = 0 ∨ b = 1 := by bv_omega
    rcases hb with rfl | rfl <;> decide

/-- A mode code that passed the checks of R93, as a mode. -/
theorem StepMode.ofCode_getD {b : Byte} (h : ¬1 < b.toNat) :
    (StepMode.ofCode b).getD .absolute = if b = 0 then .absolute else .relative := by
  have hb : b = 0 ∨ b = 1 := by bv_omega
  rcases hb with rfl | rfl <;> rfl

theorem onOffOfCode_eq_some_iff (b : Byte) (v : Bool) :
    onOffOfCode b = some v ↔ (b = 0 ∨ b = 1) ∧ v = decide (b = 1) := by
  unfold onOffOfCode
  by_cases h0 : b = 0
  · subst h0
    cases v <;> decide
  · by_cases h1 : b = 1
    · subst h1
      cases v <;> decide
    · simp only [h0, h1, if_false, reduceCtorEq, or_self, false_and]

theorem onOffOfCode_isNone_iff (b : Byte) : (onOffOfCode b).isNone = true ↔ 1 < b.toNat := by
  by_cases h : 1 < b.toNat
  · have hb : b ≠ 0 ∧ b ≠ 1 := by bv_omega
    simp only [onOffOfCode, hb, h, if_false, Option.isNone_none]
  · have hb : b = 0 ∨ b = 1 := by bv_omega
    rcases hb with rfl | rfl <;> decide

/-! ### Requests found at the Time Base -/

section Take
variable {s : State} {r : IntakeRecord} {w : PostSlot}

theorem AtOwner.exec_configureTimebase (h : AtOwner s .configureTimebase r w) :
    exec .configureTimebase s = .next (s.takeConfigure r w) := by
  show execConfigureTimebase s = _
  rw [execConfigureTimebase, h.eq]

theorem AtOwner.exec_setTrim (h : AtOwner s .setTrim r w) : exec .setTrim s = .next (s.takeSetTrim r w) := by
  show execSetTrim s = _
  rw [execSetTrim, h.eq]

theorem AtOwner.exec_setTime (h : AtOwner s .setTime r w) : exec .setTime s = .next (s.takeSetTime r w) := by
  show execSetTime s = _
  rw [execSetTime, h.eq]

theorem AtOwner.exec_setMarks (h : AtOwner s .setMarks r w) : exec .setMarks s = .next (s.takeSetMarks r w) := by
  show execSetMarks s = _
  rw [execSetMarks, h.eq]

theorem AtOwner.exec_readTime (h : AtOwner s .readTime r w) : exec .readTime s = .next (s.takeReadTime r w) := by
  show execReadTime s = _
  rw [execReadTime, h.eq]

end Take

variable (s : State) (r : IntakeRecord) (w : PostSlot)

/-- A request answered once the Time Base alone has changed (R140). -/
theorem State.answer_afterTb (x : TimeBase) (st : Status) (res : AckResults) :
    Answered r w st res s ((s.setTb x).answer r w st res) ∧
      OnlyIn [.tb, .report, .posting] s ((s.setTb x).answer r w st res) :=
  ⟨State.answer_answered (s.setTb x) r w st res,
    ((s.setTb_onlyIn x).mono (by simp)).trans ((State.answer_onlyIn _ r w st res).mono (by simp))⟩

/-- A record whose acknowledgment the Time Base defers ends without one (R140). -/
theorem State.endRecord_afterTb (x : TimeBase) :
    (s.setTb x).endRecord.posting = { s.posting with inProgress := none } ∧
      OnlyIn [.tb, .posting] s (s.setTb x).endRecord :=
  ⟨rfl, by simp [OnlyIn, State.endRecord]⟩

/-! ### CONFIGURE_TIMEBASE (R88, R89) -/

/-- The checks of R88 in the words of its table. -/
theorem ConfigureRequest.check_read (t : TimeBase) : (ConfigureRequest.read w).check w t =
    if PostSlot.reservedZero w (requestFields .configureTimebase) = false ∨ 2 < (PostSlot.byte w 2).toNat ∨
        65536 < (PostSlot.u32 w 4).toNat ∨ 65536 < (PostSlot.u32 w 8).toNat then .badFormat
    else if t.source = .qualifying ∧ PostSlot.byte w 2 ≠ 0 then .switchPending
    else .ok := by
  simp only [ConfigureRequest.check, ConfigureRequest.read, SourceChoice.ofCode_isNone_iff, ne_eq,
    SourceChoice.ofCode_eq_keep_iff, Bool.not_eq_true', Config.maxDivisor]

/-- The divisors after an accepted request: a field of 0 leaves its divisor (R88). -/
theorem TimeBase.setDivisors_read (t : TimeBase) : t.setDivisors (ConfigureRequest.read w) =
    { t with
      intDivisor := if (PostSlot.u32 w 4).toNat = 0 then t.intDivisor else (PostSlot.u32 w 4).toNat,
      extDivisor := if (PostSlot.u32 w 8).toNat = 0 then t.extDivisor else (PostSlot.u32 w 8).toNat } := by
  have hzero : ∀ (x : BitVec 32) (d : Nat), (if x = 0 then d else x.toNat) = if x.toNat = 0 then d else x.toNat :=
    fun x d => if_congr (by bv_omega) rfl rfl
  exact congrArg₂ (fun i e => { t with intDivisor := i, extDivisor := e }) (hzero _ _) (hzero _ _)

theorem State.takeConfigure_refused (h : (ConfigureRequest.read w).check w s.tb ≠ .ok) :
    s.takeConfigure r w = s.answer r w ((ConfigureRequest.read w).check w s.tb) s.tb.configResults := if_pos h

section Accepted
variable {s w} (h : (ConfigureRequest.read w).check w s.tb = .ok)
include h

/-- An accepted request: the divisors, then the source choice by the state found (R89). -/
theorem State.takeConfigure_accepted : s.takeConfigure r w =
    let tb := s.tb.setDivisors (ConfigureRequest.read w)
    match SourceChoice.ofCode (PostSlot.byte w 2), s.tb.source with
    | some .internal, .external =>
      (s.setTb { tb with source := .internal }.newCount).answer r w .ok { tb with source := .internal }.configResults
    | some .internal, .fallback =>
      (s.setTb { tb with source := .internal }).answer r w .ok { tb with source := .internal }.configResults
    | some .external, .internal => (s.setTb (tb.beginQualifying (ackOf r w))).endRecord
    | some .external, .fallback => (s.setTb (tb.beginQualifying (ackOf r w))).endRecord
    | _, _ => (s.setTb tb).answer r w .ok tb.configResults := by
  rw [State.takeConfigure, if_neg (not_not.2 h)]
  rfl

/-- EXTERNAL from INTERNAL or FALLBACK begins qualification (R85, R89). -/
theorem State.takeConfigure_qualifies (hc : PostSlot.byte w 2 = 2)
    (hs : s.tb.source = .internal ∨ s.tb.source = .fallback) : s.takeConfigure r w =
    (s.setTb ((s.tb.setDivisors (ConfigureRequest.read w)).beginQualifying (ackOf r w))).endRecord := by
  rw [State.takeConfigure_accepted r h, hc]
  rcases hs with hs | hs <;> rw [hs] <;> rfl

/-- INTERNAL from EXTERNAL is switched to at once, with a fresh count (R89). -/
theorem State.takeConfigure_leavesExternal (hc : PostSlot.byte w 2 = 1) (hs : s.tb.source = .external) :
    let tb := { s.tb.setDivisors (ConfigureRequest.read w) with source := .internal }.newCount
    s.takeConfigure r w = (s.setTb tb).answer r w .ok tb.configResults := by
  rw [State.takeConfigure_accepted r h, hc, hs]
  rfl

/-- INTERNAL from FALLBACK renames the source, the count kept (R89). -/
theorem State.takeConfigure_leavesFallback (hc : PostSlot.byte w 2 = 1) (hs : s.tb.source = .fallback) :
    let tb := { s.tb.setDivisors (ConfigureRequest.read w) with source := .internal }
    s.takeConfigure r w = (s.setTb tb).answer r w .ok tb.configResults := by
  rw [State.takeConfigure_accepted r h, hc, hs]
  rfl

/-- KEEP, and the choice of the source already in force, leave the source (R89). -/
theorem State.takeConfigure_keepsSource (hc : PostSlot.byte w 2 = 0 ∨
      (PostSlot.byte w 2 = 1 ∧ s.tb.source = .internal) ∨ (PostSlot.byte w 2 = 2 ∧ s.tb.source = .external)) :
    let tb := s.tb.setDivisors (ConfigureRequest.read w)
    s.takeConfigure r w = (s.setTb tb).answer r w .ok tb.configResults := by
  rw [State.takeConfigure_accepted r h]
  rcases hc with hc | ⟨hc, hs⟩ | ⟨hc, hs⟩
  · rw [hc]
    rfl
  · rw [hc, hs]
    rfl
  · rw [hc, hs]
    rfl

end Accepted

/-! ### SET_TRIM, SET_MARKS and READ_TIME (R91, R98, R99) -/

/-- The checks of R91: the range as a bound on either side. -/
theorem trimCheck_eq : trimCheck w =
    if PostSlot.reservedZero w (requestFields .setTrim) = false then .badFormat
    else if (PostSlot.u32 w 4).toInt < -1023 ∨ 1023 < (PostSlot.u32 w 4).toInt then .badTrim
    else .ok := by
  have hrange : ∀ v : Int, 1023 < v.natAbs ↔ v < -1023 ∨ 1023 < v := fun v => by omega
  simp only [trimCheck, PostSlot.trim, Config.maxTrim, hrange, Bool.not_eq_true']

theorem State.takeSetTrim_refused (h : trimCheck w ≠ .ok) :
    s.takeSetTrim r w = s.answer r w (trimCheck w) (.trim s.tb.trim s.tb.trim) := if_neg h

theorem State.takeSetTrim_accepted (h : trimCheck w = .ok) :
    s.takeSetTrim r w = (s.setTb { s.tb with trim := (PostSlot.u32 w 4).toInt, windowPos := 0 }).answer r w .ok
      (.trim s.tb.trim (PostSlot.u32 w 4).toInt) := if_pos h

/-- A SET_MARKS with a reserved field that is not zero, or a value that is neither 0 nor 1. -/
theorem State.takeSetMarks_refused (h : ¬(PostSlot.reservedZero w (requestFields .setMarks) = true ∧
      (PostSlot.byte w 2 = 0 ∨ PostSlot.byte w 2 = 1))) :
    s.takeSetMarks r w = s.answer r w .badFormat (.marks s.tb.marks) := by
  unfold State.takeSetMarks
  split
  · rename_i v hz hv
    exact absurd ⟨hz, ((onOffOfCode_eq_some_iff _ v).1 hv).1⟩ h
  · rfl

theorem State.takeSetMarks_accepted (hz : PostSlot.reservedZero w (requestFields .setMarks) = true)
    (hv : PostSlot.byte w 2 = 0 ∨ PostSlot.byte w 2 = 1) :
    s.takeSetMarks r w =
      (s.setTb { s.tb with marks := decide (PostSlot.byte w 2 = 1) }).answer r w .ok (.marks s.tb.marks) := by
  simp only [State.takeSetMarks, hz, (onOffOfCode_eq_some_iff _ _).2 ⟨hv, rfl⟩]

theorem State.takeReadTime_accepted (h : PostSlot.reservedZero w (requestFields .readTime) = true) :
    s.takeReadTime r w = s.answer r w .ok s.tb.snapshot := if_pos h

theorem State.takeReadTime_refused (h : PostSlot.reservedZero w (requestFields .readTime) = false) :
    s.takeReadTime r w = s.answer r w .badFormat .none := if_neg (Bool.eq_false_iff.1 h)

/-! ### SET_TIME (R92 to R97) -/

/-- The checks of R93 in the words of its table. -/
theorem SetTimeRequest.check_read (t : TimeBase) : (SetTimeRequest.read w).check w t =
    if PostSlot.reservedZero w (requestFields .setTime) = false ∨ 1 < (PostSlot.byte w 2).toNat ∨
        1 < (PostSlot.byte w 3).toNat ∨ (PostSlot.byte w 3 = 1 ∧ PostSlot.u32 w 4 = 0) then .badFormat
    else if t.pendingStep ≠ none ∧ PostSlot.bit w 1 0 = false then .stepPending
    else .ok := by
  have hon : ∀ b : Byte, onOffOfCode b = some true ↔ b = 1 := fun b =>
    (onOffOfCode_eq_some_iff b true).trans ⟨fun h => of_decide_eq_true h.2.symm, fun h => ⟨.inr h, (decide_eq_true h).symm⟩⟩
  simp only [SetTimeRequest.check, SetTimeRequest.read, StepMode.ofCode_isNone_iff, onOffOfCode_isNone_iff, hon,
    Option.isSome_iff_ne_none, Bool.not_eq_true']

/-- Ending a pending step changes the step and the Report Unit alone (R97). -/
theorem State.endReplaced_eq : s.endReplaced =
    (s.setTb { s.tb with pendingStep := none }).setReport s.endReplaced.report := by
  unfold State.endReplaced
  split
  · rename_i h
    rw [← h]
    rfl
  · rfl

theorem State.endReplaced_tb : s.endReplaced.tb = { s.tb with pendingStep := none } := by rw [State.endReplaced_eq]; rfl
theorem State.endReplaced_store : s.endReplaced.store = s.store := by rw [State.endReplaced_eq]; rfl
theorem State.endReplaced_posting : s.endReplaced.posting = s.posting := by rw [State.endReplaced_eq]; rfl
theorem State.endReplaced_onlyIn : OnlyIn [.tb, .report] s s.endReplaced := by
  rw [State.endReplaced_eq]
  simp [OnlyIn]

/-- The step ended, if there was one, is acknowledged REPLACED (R97). -/
theorem State.endReplaced_acknowledged : ReplacedAcknowledged s s.endReplaced.report := by
  unfold ReplacedAcknowledged State.endReplaced
  cases s.tb.pendingStep with
  | none => rfl
  | some p => exact s.report.handIn_added p.ack.bound (.ack p.ack .replaced (.step 0 0))

/-- OFFSET after a step, from PT after it (R92). -/
theorem TimeBase.stepped_eq (t : TimeBase) (mode : StepMode) (v : U64) :
    t.stepped mode v = { t with offset := (t.stepped mode v).pt - t.mt } := by
  have hoff : ∀ x : TimeBase, x.pt - x.mt = x.offset := fun x => by simp only [TimeBase.pt]; ring
  cases mode with
  | absolute => exact congrArg (fun o => { t with offset := o }) (hoff (t.stepped .absolute v)).symm
  | relative => exact congrArg (fun o => { t with offset := o }) (hoff (t.stepped .relative v)).symm

/-- A step applied to a state whose pending step has been taken off moves PT, marks and offers (R92, R5, R8). -/
theorem State.applyStep_steppedTo {s u : State} {mode : StepMode} {v p1 : U64}
    (htb : u.tb = { s.tb with pendingStep := none }) (hstore : u.store = s.store) (hp : (u.tb.stepped mode v).pt = p1) :
    SteppedTo p1 s (u.applyStep mode v) := by
  have hp0 : u.tb.pt = s.tb.pt := by rw [htb]; rfl
  refine ⟨?_, hp, fun n => ?_, fun sc => ?_, ?_, State.applyStep_reoffered _ _ _⟩
  · rw [State.applyStep_tb, TimeBase.stepped_eq, hp, htb]
  · rw [State.applyStep_store, TimerStore.markStep_slot, TimerSlot.markStep_eq, hp, hp0, hstore]
  · rw [State.applyStep_store, TimerStore.markStep_queue, hstore]
  · rw [State.applyStep_store, TimerStore.markStep_nextSeq, hstore]

/-- An answer after a step leaves what the step did. -/
theorem SteppedTo.answer {s t : State} {p1 : U64} (h : SteppedTo p1 s t) (st : Status) (res : AckResults) :
    SteppedTo p1 s (t.answer r w st res) := by
  obtain ⟨htb, hpt, hslot, hqueue, hseq, hoffer⟩ := h
  exact ⟨htb, hpt, hslot, hqueue, hseq, hoffer.congr (fun _ => rfl) rfl rfl rfl⟩

theorem State.applyStep_onlyIn (mode : StepMode) (v : U64) : OnlyIn [.tb, .store, .disp] s (s.applyStep mode v) := by
  simp [OnlyIn]

theorem State.takeSetTime_refused (h : (SetTimeRequest.read w).check w s.tb ≠ .ok) :
    s.takeSetTime r w = s.answer r w ((SetTimeRequest.read w).check w s.tb) (.step 0 0) := if_neg h

/-- An accepted request names a mode. -/
theorem SetTimeRequest.mode_of_ok {t : TimeBase} (h : (SetTimeRequest.read w).check w t = .ok) :
    (StepMode.ofCode (PostSlot.byte w 2)).getD .absolute = if PostSlot.byte w 2 = 0 then .absolute else .relative := by
  refine StepMode.ofCode_getD fun hmode => ?_
  rw [SetTimeRequest.check_read, if_pos (.inr (.inl hmode))] at h
  cases h

/-- An accepted IMMEDIATE step, no step pending any more, is applied and acknowledged (R93, R97). -/
theorem State.takeSetTime_immediate (h : (SetTimeRequest.read w).check w s.tb = .ok) (ht : PostSlot.byte w 3 = 0) :
    let t := s.endReplaced.applyStep (if PostSlot.byte w 2 = 0 then .absolute else .relative) (PostSlot.u64 w 8)
    s.takeSetTime r w = t.answer r w .ok (.step s.endReplaced.tb.pt t.tb.pt) := by
  have hoff : onOffOfCode (PostSlot.byte w 3) ≠ some true := by rw [ht]; decide
  rw [State.takeSetTime, if_pos h]
  exact (if_neg hoff).trans (by rw [← SetTimeRequest.mode_of_ok w h]; rfl)

/-- An accepted AT_ALIGN step becomes pending (R94). -/
theorem State.takeSetTime_atAlign (h : (SetTimeRequest.read w).check w s.tb = .ok) (ht : PostSlot.byte w 3 = 1) :
    s.takeSetTime r w = (s.endReplaced.setTb { s.endReplaced.tb with
      pendingStep := some ⟨if PostSlot.byte w 2 = 0 then .absolute else .relative, PostSlot.u64 w 8,
        s.endReplaced.tb.mt + (PostSlot.u32 w 4).setWidth 64, ackOf r w⟩ }).endRecord := by
  have hon : onOffOfCode (PostSlot.byte w 3) = some true := by rw [ht]; decide
  rw [State.takeSetTime, if_pos h]
  exact (if_pos hon).trans (by rw [← SetTimeRequest.mode_of_ok w h]; rfl)

end Sys2Proof.Machine
end

section
/-!
SUPPORT. Periods of the internal oscillator on an empty queue: one that only counts, and one that completes a tick.
-/
namespace Sys2Proof.Machine

variable {s : State}

/-- A period of a counting oscillator that drives ticks and completes no gap: the gap detector counts it, then the prescaler
takes it (R78, R84). -/
theorem State.idle_prescales (hend : s.resetEndsNext = false) (hcounts : s.oscillatorCounts = true)
    (hgap : s.tb.gapCount ≠ 63) (hsource : s.tb.source ≠ .external) :
    s.idle = (s.setTb s.tb.countGap).prescale false := by
  have hgap' : s.tb.gapCount + 1 ≠ Config.gapPeriods := fun h => hgap (Nat.succ.inj h)
  simp [State.idle, State.oscillatorPeriod, hend, hcounts, hgap', hsource]

/-- The cold state `k` periods on, before the first tick: the two counts stand at `k`. -/
def coldAfter (k : Nat) : State := State.reset.setTb { TimeBase.cold with prescaler := k, gapCount := k }

theorem coldAfter_idle {k : Nat} (hk : k < 32) :
    (coldAfter k).idle = ((coldAfter k).setTb { TimeBase.cold with prescaler := k, gapCount := k + 1 }).prescale false := by
  have hcount : (coldAfter k).tb.countGap = { TimeBase.cold with prescaler := k, gapCount := k + 1 } := by
    have hmin : min (k + 1) 64 = k + 1 := by omega
    exact congrArg (fun g => { TimeBase.cold with prescaler := k, gapCount := g }) hmin
  rw [← hcount]
  exact State.idle_prescales rfl rfl (show k ≠ 63 by omega) (show SourceState.internal ≠ .external by decide)

/-- The periods before the 32nd only count (R78, R101). -/
theorem iterate_idle_reset {k : Nat} (hk : k < 32) : State.idle^[k] State.reset = coldAfter k := by
  induction k with
  | zero => rfl
  | succ k ih =>
    rw [Function.iterate_succ_apply', ih (by omega), coldAfter_idle (by omega)]
    exact State.prescale_counts _ false (show k + 1 < 32 from hk)

/-- The 32nd period completes the first tick (R79, R101). -/
theorem iterate_idle_reset_firstTick : (State.idle^[32] State.reset).tb.mt = 1 := by
  rw [Function.iterate_succ_apply', iterate_idle_reset (by omega), coldAfter_idle (by omega),
    State.prescale_ticks _ false (show 32 ≤ 31 + 1 from le_rfl), State.tick_tb]
  rfl

end Sys2Proof.Machine
end

section
/-!
SUPPORT. The statements about the Time Base's requests and about the state that a cold reset leaves, settled.
-/
namespace Sys2Proof.Machine

/-- Settles O23: the checks are those of R88, and each choice goes by the source state found. -/
theorem configureTimebaseActsByTheSourceState : Obligations.ConfigureTimebaseActsByTheSourceState := by
  unfold Obligations.ConfigureTimebaseActsByTheSourceState
  intro s r w hown choice i e int' ext' st tb
  have hst : (ConfigureRequest.read w).check w s.tb = st := ConfigureRequest.check_read w s.tb
  have htb : s.tb.setDivisors (ConfigureRequest.read w) = tb := TimeBase.setDivisors_read w s.tb
  clear_value st
  subst hst
  refine ⟨_, hown.exec_configureTimebase, fun hne => ?_, fun hok hc hs => ?_, fun hok hc hs => ?_, fun hok hc hs => ?_,
    fun hok hc => ?_⟩
  · rw [State.takeConfigure_refused s r w hne]
    exact ⟨s.answer_answered r w _ _, s.answer_onlyIn r w _ _⟩
  · rw [State.takeConfigure_qualifies r hok hc hs, htb]
    exact ⟨rfl, s.endRecord_afterTb _⟩
  · rw [State.takeConfigure_leavesExternal r hok hc hs, htb]
    exact ⟨rfl, s.answer_afterTb r w _ _ _⟩
  · rw [State.takeConfigure_leavesFallback r hok hc hs, htb]
    exact ⟨rfl, s.answer_afterTb r w _ _ _⟩
  · rw [State.takeConfigure_keepsSource r hok hc, htb]
    exact ⟨rfl, s.answer_afterTb r w _ _ _⟩

/-- Settles O24: each of the three requests, refused or accepted, is answered at once. -/
theorem setTrimSetMarksAndReadTimeAnswerAtOnce : Obligations.SetTrimSetMarksAndReadTimeAnswerAtOnce := by
  unfold Obligations.SetTrimSetMarksAndReadTimeAnswerAtOnce
  refine ⟨?_, ?_, fun s r w hown => ?_⟩
  · intro s r w hown v st
    have hst : trimCheck w = st := trimCheck_eq w
    clear_value st
    subst hst
    refine ⟨_, hown.exec_setTrim, fun hne => ?_, fun hok => ?_⟩
    · rw [State.takeSetTrim_refused s r w hne]
      exact ⟨s.answer_answered r w _ _, s.answer_onlyIn r w _ _⟩
    · rw [State.takeSetTrim_accepted s r w hok]
      exact ⟨rfl, s.answer_afterTb r w _ _ _⟩
  · intro s r w hown ok
    refine ⟨_, hown.exec_setMarks, fun hno => ?_, fun ⟨hz, hv⟩ => ?_⟩
    · rw [State.takeSetMarks_refused s r w hno]
      exact ⟨s.answer_answered r w _ _, s.answer_onlyIn r w _ _⟩
    · rw [State.takeSetMarks_accepted s r w hz hv]
      exact ⟨rfl, s.answer_afterTb r w _ _ _⟩
  · refine ⟨_, hown.exec_readTime, ?_⟩
    cases hz : PostSlot.reservedZero w (requestFields .readTime) with
    | true =>
      rw [State.takeReadTime_accepted s r w hz]
      exact ⟨s.answer_onlyIn r w _ _, fun _ => s.answer_answered r w _ _, nofun⟩
    | false =>
      rw [State.takeReadTime_refused s r w hz]
      exact ⟨s.answer_onlyIn r w _ _, nofun, fun _ => s.answer_answered r w _ _⟩

/-- Settles O26: the pending step is ended first; the accepted step then acts on a state that differs from the one found in its
pending step and in the acknowledgment of that step alone. -/
theorem setTimeStepsNowOrAtTheEdge : Obligations.SetTimeStepsNowOrAtTheEdge := by
  unfold Obligations.SetTimeStepsNowOrAtTheEdge
  intro s r w hown mode timing timeout value p1 st
  have hst : (SetTimeRequest.read w).check w s.tb = st := SetTimeRequest.check_read w s.tb
  clear_value st
  subst hst
  have hp0 : s.endReplaced.tb.pt = s.tb.pt := by rw [State.endReplaced_tb]; rfl
  have hended : OnlyIn [.tb, .store, .disp, .report, .posting] s s.endReplaced := s.endReplaced_onlyIn.mono (by simp)
  refine ⟨_, s.endReplaced.report, hown.exec_setTime, fun hne => ?_, fun hok ht => ?_, fun hok ht => ?_⟩
  · rw [State.takeSetTime_refused s r w hne]
    exact ⟨s.answer_answered r w _ _, s.answer_onlyIn r w _ _⟩
  · have hp1 : (s.endReplaced.tb.stepped (if mode = 0 then .absolute else .relative) value).pt = p1 := by
      rw [TimeBase.stepped_pt, hp0]
      by_cases hm : mode = 0
      · simp only [p1, hm, if_true]
      · simp only [p1, hm, if_false]
    have hstep := State.applyStep_steppedTo s.endReplaced_tb s.endReplaced_store hp1
    rw [State.takeSetTime_immediate s r w hok ht, hp0, State.applyStep_tb, hp1]
    obtain ⟨hadded, hrefs, hposting⟩ := State.answer_answered
      (s.endReplaced.applyStep (if mode = 0 then .absolute else .relative) value) r w .ok (.step s.tb.pt p1)
    exact ⟨s.endReplaced_acknowledged, hadded, hrefs, hposting.trans (by rw [State.applyStep_posting, State.endReplaced_posting]),
      hstep.answer r w _ _, (hended.trans ((State.applyStep_onlyIn _ _ _).mono (by simp))).trans
        ((State.answer_onlyIn _ r w _ _).mono (by simp))⟩
  · rw [State.takeSetTime_atAlign s r w hok ht]
    obtain ⟨hposting, honly⟩ := s.endReplaced.endRecord_afterTb { s.endReplaced.tb with
      pendingStep := some ⟨if mode = 0 then .absolute else .relative, value, s.endReplaced.tb.mt + timeout.setWidth 64,
        ackOf r w⟩ }
    refine ⟨s.endReplaced_acknowledged, ?_, hposting.trans (by rw [State.endReplaced_posting]),
      (s.endReplaced_onlyIn.mono (by simp)).trans (honly.mono (by simp))⟩
    show ({ s.endReplaced.tb with pendingStep := _ } : TimeBase) = _
    rw [State.endReplaced_tb]

/-- Settles O3: the values are those of the reset records, and the first tick is counted period by period. -/
theorem coldResetLeavesTheResetValues : Obligations.ColdResetLeavesTheResetValues := by
  unfold Obligations.ColdResetLeavesTheResetValues
  have hslot : ∀ n, State.reset.store.slot n = TimerSlot.reset := fun _ => rfl
  have hfirst : ∀ k ≤ 32, (State.idle^[k] State.reset).tb.mt = if k = 32 then 1 else 0 := by
    intro k hk
    rcases Nat.lt_or_eq_of_le hk with hlt | rfl
    · rw [iterate_idle_reset hlt, if_neg (by omega)]
      rfl
    · exact iterate_idle_reset_firstTick
  refine ⟨fun n => ?_, rfl, rfl, rfl, rfl, rfl, fun _ => rfl, ?_, hfirst, fun _ => rfl, fun _ => rfl, fun _ => rfl, rfl, rfl,
    rfl, rfl, fun _ => rfl, rfl, rfl, rfl, ?_, rfl, rfl, rfl, rfl, rfl, rfl, rfl, rfl, rfl, rfl⟩
  · rw [hslot]
    simp [TimerSlot.reset, Action.reset]
  · exact ⟨rfl, rfl, by decide, rfl, rfl, rfl, rfl, rfl, rfl, rfl, rfl, rfl⟩
  · decide

end Sys2Proof.Machine
end

section
/-!
SUPPORT. The Region Table's requests as it takes them: their checks in the words of R109 and R110, and what each does
past its checks, said once by the branch that decides it.
-/
namespace Sys2Proof.Machine

theorem Access.ofCode_isNone_iff (b : Byte) : (Access.ofCode b).isNone = true ↔ b ∉ [1, 2, 3] := by
  unfold Access.ofCode
  split_ifs <;> simp_all

/-! ### Requests found at the Region Table -/

section Take
variable {s : State} {r : IntakeRecord} {w : PostSlot}

theorem AtOwner.exec_setRegion (h : AtOwner s .setRegion r w) : exec .setRegion s = .next (s.takeSetRegion r w) := by
  show execSetRegion s = _
  rw [execSetRegion, h.eq]

theorem AtOwner.exec_clearRegion (h : AtOwner s .clearRegion r w) : exec .clearRegion s = .next (s.takeClearRegion r w) := by
  show execClearRegion s = _
  rw [execClearRegion, h.eq]

end Take

variable (s : State) (r : IntakeRecord) (w : PostSlot)

/-- A region request answered once one region has changed (R111, R140). -/
theorem State.answer_afterRegion (n : Nat) (x : Region) (st : Status) (res : AckResults) :
    Answered r w st res s ((s.setRegion n x).answer r w st res) ∧
      OnlyIn [.regions, .report, .posting] s ((s.setRegion n x).answer r w st res) ∧
      (∀ k, k ≠ n → ((s.setRegion n x).answer r w st res).region k = s.region k) ∧
      ((s.setRegion n x).answer r w st res).region n = x :=
  ⟨State.answer_answered (s.setRegion n x) r w st res,
    ((s.setRegions_onlyIn _).mono (by simp)).trans ((State.answer_onlyIn _ r w st res).mono (by simp)),
    fun k hk => by simp [hk], by simp⟩

/-! ### SET_REGION (R109) -/

/-- The checks of R109 in the words of its table. -/
theorem SetRegionRequest.check_read : (SetRegionRequest.read w).check w s =
    if PostSlot.reservedZero w (requestFields .setRegion) = false ∨ PostSlot.byte w 3 ∉ [1, 2, 3] then .badFormat
    else if 63 < (PostSlot.byte w 2).toNat ∨ (PostSlot.u64 w 8).toNat % 8 ≠ 0 ∨ (PostSlot.u64 w 16).toNat < 8 ∨
        2 ^ 32 < (PostSlot.u64 w 16).toNat ∨ (PostSlot.u64 w 16).toNat % 8 ≠ 0 ∨
        2 ^ 64 < (PostSlot.u64 w 8).toNat + (PostSlot.u64 w 16).toNat then .badRegion
    else if (s.region (PostSlot.byte w 2).toNat).refs ≠ 0 then .inUse
    else .ok := by
  simp only [SetRegionRequest.check, SetRegionRequest.read, Access.ofCode_isNone_iff, Bool.not_eq_true']
  rfl

/-- An accepted request's access code names an access, and the region it makes has that access. -/
theorem SetRegionRequest.region_of_ok (h : (SetRegionRequest.read w).check w s = .ok) :
    ∃ acc, Access.ofCode (PostSlot.byte w 3) = some acc ∧
      (SetRegionRequest.read w).region = ⟨true, PostSlot.u64 w 8, (PostSlot.u64 w 16).toNat, acc, 0⟩ := by
  cases hacc : Access.ofCode (PostSlot.byte w 3) with
  | none => simp [SetRegionRequest.check, SetRegionRequest.read, hacc] at h
  | some acc => exact ⟨acc, rfl, by simp [SetRegionRequest.region, SetRegionRequest.read, hacc]⟩

theorem State.takeSetRegion_refused (h : (SetRegionRequest.read w).check w s ≠ .ok) : s.takeSetRegion r w =
    s.answer r w ((SetRegionRequest.read w).check w s) (s.regionResults (PostSlot.byte w 2)) :=
  congrArg (fun u : State => u.answer r w ((SetRegionRequest.read w).check w s) (u.regionResults (PostSlot.byte w 2)))
    (if_neg h)

theorem State.takeSetRegion_accepted (h : (SetRegionRequest.read w).check w s = .ok) : s.takeSetRegion r w =
    (s.setRegion (PostSlot.byte w 2).toNat (SetRegionRequest.read w).region).answer r w ((SetRegionRequest.read w).check w s)
      ((s.setRegion (PostSlot.byte w 2).toNat (SetRegionRequest.read w).region).regionResults (PostSlot.byte w 2)) :=
  congrArg (fun u : State => u.answer r w ((SetRegionRequest.read w).check w s) (u.regionResults (PostSlot.byte w 2)))
    (if_pos h)

/-! ### CLEAR_REGION (R110) -/

/-- The checks of R110 in the words of its table. -/
theorem State.clearRegionCheck_eq : s.clearRegionCheck w =
    if PostSlot.reservedZero w (requestFields .clearRegion) = false then .badFormat
    else if 63 < (PostSlot.byte w 2).toNat then .badRegion
    else if (s.region (PostSlot.byte w 2).toNat).valid = true ∧ (s.region (PostSlot.byte w 2).toNat).refs ≠ 0 then .inUse
    else .ok := by
  simp only [State.clearRegionCheck, Bool.not_eq_true']
  rfl

/-- A request that is refused, or that names an INVALID region. -/
theorem State.takeClearRegion_keeps
    (h : ¬(s.clearRegionCheck w = .ok ∧ (s.region (PostSlot.byte w 2).toNat).valid = true)) :
    s.takeClearRegion r w = s.answer r w (s.clearRegionCheck w) (s.regionResults (PostSlot.byte w 2)) :=
  congrArg (fun u : State => u.answer r w (s.clearRegionCheck w) (u.regionResults (PostSlot.byte w 2))) (if_neg h)

/-- An accepted request that names a VALID region. -/
theorem State.takeClearRegion_clears
    (h : s.clearRegionCheck w = .ok ∧ (s.region (PostSlot.byte w 2).toNat).valid = true) : s.takeClearRegion r w =
    (s.setRegion (PostSlot.byte w 2).toNat Region.reset).answer r w (s.clearRegionCheck w)
      ((s.setRegion (PostSlot.byte w 2).toNat Region.reset).regionResults (PostSlot.byte w 2)) :=
  congrArg (fun u : State => u.answer r w (s.clearRegionCheck w) (u.regionResults (PostSlot.byte w 2))) (if_pos h)

end Sys2Proof.Machine
end

section
/-!
SUPPORT. The statement about the Region Table's requests, settled.
-/
namespace Sys2Proof.Machine

/-- Settles O21: each request by its checks, and CLEAR_REGION also by the region found. The results are read from the table the
answer leaves, which is the table answered from (R111). -/
theorem regionRequestsSetAndClearUnreferencedRegions : Obligations.RegionRequestsSetAndClearUnreferencedRegions := by
  unfold Obligations.RegionRequestsSetAndClearUnreferencedRegions
  refine ⟨?_, ?_⟩
  · intro s r w hown number n base length st
    have hst : (SetRegionRequest.read w).check w s = st := SetRegionRequest.check_read s w
    clear_value st
    subst hst
    by_cases hok : (SetRegionRequest.read w).check w s = .ok
    · obtain ⟨acc, hacc, hregion⟩ := SetRegionRequest.region_of_ok s w hok
      refine ⟨_, acc, hown.exec_setRegion, ?_⟩
      rw [State.takeSetRegion_accepted s r w hok, hregion]
      obtain ⟨hanswered, honly, hothers, hn⟩ := s.answer_afterRegion r w n ⟨true, base, length, acc, 0⟩ _ _
      exact ⟨honly, hothers, fun hne => absurd hok hne, fun _ => ⟨hacc, hn⟩, hanswered⟩
    · refine ⟨_, .read, hown.exec_setRegion, ?_⟩
      rw [State.takeSetRegion_refused s r w hok]
      exact ⟨(s.answer_onlyIn r w _ _).mono (by simp), fun _ _ => rfl, fun _ => rfl, fun h => absurd h hok,
        s.answer_answered r w _ _⟩
  · intro s r w hown number n st
    have hst : s.clearRegionCheck w = st := s.clearRegionCheck_eq w
    clear_value st
    subst hst
    refine ⟨_, hown.exec_clearRegion, ?_⟩
    by_cases hclears : s.clearRegionCheck w = .ok ∧ (s.region n).valid = true
    · rw [State.takeClearRegion_clears s r w hclears]
      obtain ⟨hanswered, honly, hothers, hn⟩ := s.answer_afterRegion r w n Region.reset _ _
      exact ⟨honly, hothers, fun hkept => by simp [hclears] at hkept, fun _ _ => hn, hanswered⟩
    · rw [State.takeClearRegion_keeps s r w hclears]
      exact ⟨(s.answer_onlyIn r w _ _).mono (by simp), fun _ _ => rfl, fun _ => rfl,
        fun hok hvalid => absurd ⟨hok, hvalid⟩ hclears, s.answer_answered r w _ _⟩

end Sys2Proof.Machine
end

section
/-!
SUPPORT. What the steps of a failed intake read and of a tail doorbell do, each said once: the arbiter's positions after a take,
the administration fault, the doorbell error record, the fetch error as a whole (R128, R134, R135, R141, R142, R182, R183).
-/
namespace Sys2Proof.Machine

/-! ### The arbiter's positions (R134, R135) -/

/-- The positions do not touch the rings. -/
@[simp] theorem PostingUnit.ring_noteTake (p : PostingUnit) (n : Nat) (b : Bool) (k : Nat) :
    (p.noteTake n b).ring k = p.ring k := by
  unfold PostingUnit.noteTake
  split <;> rfl

/-- After a take whose ring has been updated within its class, the positions are those of R134 and R135. -/
theorem PostingUnit.noteTake_positions (p : PostingUnit) (n : Nat) (x : PostRing) (b : Bool)
    (hx : x.ringClass = (p.ring n).ringClass) : PositionsFollow n b p ((p.setRing n x).noteTake n b) := by
  unfold PositionsFollow PostingUnit.noteTake
  rw [PostingUnit.ring_setRing, if_pos rfl, hx]
  cases (p.ring n).ringClass
  case administration => exact ⟨rfl, rfl, rfl⟩
  case high => exact ⟨rfl, rfl, rfl⟩
  case normal => exact ⟨rfl, rfl, rfl⟩

/-! ### The administration fault and the doorbell error record (R182, R183) -/

variable (s : State)

theorem State.setAdminFault_onlyIn (f : AdminFault) : OnlyIn [.window] s (s.setAdminFault f) := s.setWindow_onlyIn _

/-- A fault already set keeps its cause (R182). -/
theorem State.setAdminFault_window (f : AdminFault) : (s.setAdminFault f).window =
    if s.window.adminFault = none then { s.window with adminFault := some f } else s.window := by
  rw [State.setAdminFault, State.setWindow_window]
  rcases hf : s.window.adminFault with _ | g
  · rfl
  · rw [if_neg (Option.some_ne_none g), Option.getD_some, ← hf]

theorem State.doorbellError_onlyIn (ring : BitVec 4) (kind : BitVec 2) : OnlyIn [.window] s (s.doorbellError ring kind) :=
  s.setWindow_onlyIn _

/-- A doorbell error is recorded as R183 says. -/
theorem State.doorbellError_recorded (ring : BitVec 4) (kind : BitVec 2) :
    ErrorRecorded ring kind s (s.doorbellError ring kind) := by
  refine ⟨fun hnone => ?_, fun e hsome => ?_⟩
  · rw [State.doorbellError, State.setWindow_window, hnone]
  · rw [State.doorbellError, State.setWindow_window, hsome]

/-! ### Fetch errors (R141, R142) -/

/-- The opcode that a FETCH_ERROR acknowledgment carries: that of the first slot where it was read, else 0. -/
def IntakeRecord.opcodeRead (r : IntakeRecord) : Byte :=
  match r.slot1 with
  | some w => PostSlot.byte w 0
  | none => 0

/-- The state at a fetch error before any administration fault is set: the ring stalled, the FETCH_ERROR acknowledgment handed
in, the record ended. -/
def State.stallRing (s : State) (r : IntakeRecord) : State :=
  let p := s.posting.ring r.ring
  ((s.setPosting ((s.posting.setRing r.ring { p with state := .stalled }).noteTake r.ring r.normalEligible)).handIn
    ⟨r.ring, r.bound, r.opcodeRead, p.head, p.head⟩ .fetchError .none).endRecord

variable (r : IntakeRecord)

/-- An ERROR answers a record being fetched with a fetch error. -/
theorem exec_intakeReadAnswer_error {s : State} {r : IntakeRecord} (hr : s.posting.inProgress = some r)
    (hstage : r.stage = .fetching) : exec (.intakeReadAnswer .error) s = .next (s.fetchError r) := by
  show execIntakeReadAnswer .error s = _
  simp [execIntakeReadAnswer, hr, hstage]

/-- A fetch error on ring 0 sets the administration fault, and one on another ring does not (R141). -/
theorem State.fetchError_eq : s.fetchError r =
    if r.ring = 0 then (s.stallRing r).setAdminFault .postRingFetch else s.stallRing r := rfl

@[simp] theorem State.stallRing_window : (s.stallRing r).window = s.window := rfl

theorem State.stallRing_onlyIn : OnlyIn [.posting, .report] s (s.stallRing r) := by
  simp [OnlyIn, State.stallRing, State.endRecord]

theorem State.fetchError_onlyIn : OnlyIn [.posting, .report, .window] s (s.fetchError r) := by
  have hstall := (s.stallRing_onlyIn r).mono (qs := [.posting, .report, .window]) (by simp)
  rw [State.fetchError_eq]
  split
  · exact hstall.trans ((State.setAdminFault_onlyIn _ _).mono (by simp))
  · exact hstall

/-- The record ends, the ring stalls, and the arbiter's positions follow (R134, R135, R141). -/
theorem State.fetchError_posting : (s.fetchError r).posting =
    { (s.posting.setRing r.ring { s.posting.ring r.ring with state := .stalled }).noteTake r.ring r.normalEligible with
      inProgress := none } := by
  rw [State.fetchError_eq]
  split <;> rfl

/-- The FETCH_ERROR acknowledgment uses the record's reservation, its new head the ring's head as it was (R141). -/
theorem State.fetchError_report : (s.fetchError r).report = s.report.handIn r.bound
    (.ack ⟨r.ring, r.bound, r.opcodeRead, (s.posting.ring r.ring).head, (s.posting.ring r.ring).head⟩ .fetchError .none) := by
  rw [State.fetchError_eq]
  split <;> rfl

theorem State.fetchError_window : (s.fetchError r).window =
    if r.ring = 0 ∧ s.window.adminFault = none then { s.window with adminFault := some .postRingFetch } else s.window := by
  rw [State.fetchError_eq]
  by_cases h0 : r.ring = 0
  · rw [if_pos h0, State.setAdminFault_window]
    exact if_congr (iff_and_self.mpr fun _ => h0) rfl rfl
  · rw [if_neg h0]
    exact (if_neg fun h => h0 h.1).symm

/-- Every ring but the one stalled is as it was, and of that one only its state differs. -/
theorem State.fetchError_ring (k : Nat) : (s.fetchError r).posting.ring k =
    if k = r.ring then { s.posting.ring r.ring with state := .stalled } else s.posting.ring k := by
  rw [State.fetchError_posting]
  exact (PostingUnit.ring_noteTake _ _ _ k).trans (PostingUnit.ring_setRing _ _ k _)

/-! ### Tail doorbells (R128) -/

variable {ring : BitVec 4} {value : BitVec 16}

/-- A tail doorbell that names a ring reaches the Posting Unit while doorbells are taken (R184). -/
theorem exec_postingTailDoorbell {s : State} (hring : ring.toNat ≤ 8) (hready : s.window.ready = true)
    (henabled : s.window.enabled = true) : exec (.postingTailDoorbell ring value) s = .next (s.tailDoorbell ring value) := by
  show execPostingTailDoorbell ring value s = _
  simp [execPostingTailDoorbell, Window.takesDoorbells, hready, henabled,
    Nat.not_lt.mpr hring]

/-- A tail below the size of a ring that is present is accepted (R128). -/
theorem State.tailDoorbell_accepted (hpresent : (s.posting.ring ring.toNat).state ≠ .absent)
    (hvalue : value.toNat < (s.posting.ring ring.toNat).size) : s.tailDoorbell ring value =
    s.setPosting (s.posting.setRing ring.toNat { s.posting.ring ring.toNat with tail := value.toNat }) :=
  if_pos ⟨hpresent, hvalue⟩

/-- Any other tail doorbell is a doorbell error (R128, R183). -/
theorem State.tailDoorbell_refused
    (h : (s.posting.ring ring.toNat).state = .absent ∨ (s.posting.ring ring.toNat).size ≤ value.toNat) :
    s.tailDoorbell ring value = s.doorbellError ring kindPostingTail :=
  if_neg fun ⟨hpresent, hvalue⟩ => h.elim hpresent (Nat.not_le.mpr hvalue)

end Sys2Proof.Machine
end

section
/-!
SUPPORT. The statements about a failed intake read and about tail doorbells, settled.
-/
namespace Sys2Proof.Machine

/-- Settles O40: the failed read is a fetch error, read part by part. -/
theorem fetchErrorStallsTheRing : Obligations.FetchErrorStallsTheRing := by
  unfold Obligations.FetchErrorStallsTheRing
  intro s r hr hstage p opcode
  obtain ⟨hadded, hrefs⟩ := ReportUnit.handIn_added s.report r.bound
    (.ack ⟨r.ring, r.bound, opcode, p.head, p.head⟩ .fetchError .none)
  have hopcode : r.opcodeRead = opcode := rfl
  have hreport := s.fetchError_report r
  rw [hopcode] at hreport
  rw [← hreport] at hadded hrefs
  refine ⟨s.fetchError r, exec_intakeReadAnswer_error hr hstage, s.fetchError_onlyIn r, s.fetchError_ring r, ?positions, ?ended,
    hadded, hrefs, s.fetchError_window r⟩
  case positions =>
    rw [State.fetchError_posting]
    exact PostingUnit.noteTake_positions s.posting r.ring { p with state := .stalled } r.normalEligible rfl
  case ended => rw [State.fetchError_posting]

/-- Settles O42: the doorbell is accepted or refused by the ring found and the value, and the two cases exclude each other. -/
theorem tailDoorbellSetsTheTailOrIsRefused : Obligations.TailDoorbellSetsTheTailOrIsRefused := by
  unfold Obligations.TailDoorbellSetsTheTailOrIsRefused
  intro s ring value hring hready henabled p
  refine ⟨_, exec_postingTailDoorbell hring hready henabled, fun hpresent hvalue => ?accepted, fun hbad => ?refused⟩
  case accepted =>
    rw [State.tailDoorbell_accepted s hpresent hvalue]
    exact ⟨s.setPosting_onlyIn _, fun k => PostingUnit.ring_setRing _ _ k _, rfl⟩
  case refused =>
    rw [State.tailDoorbell_refused s hbad]
    exact ⟨s.doorbellError_onlyIn ring _, s.doorbellError_recorded ring _⟩

end Sys2Proof.Machine
end

section
/-!
SUPPORT. What CREATE_REPORT_RING and the consumer doorbell do at the Report Unit: their checks in the words of R166 and R153,
the results of R168, and the effect of each by the branch that decides it.
-/
namespace Sys2Proof.Machine

/-! ### CREATE_REPORT_RING (R166, R168) -/

theorem onOffOfCode_isNone_iff_not_mem (b : Byte) : (onOffOfCode b).isNone = true ↔ b ∉ [0, 1] := by
  have hcodes : b ∈ [(0 : Byte), 1] ↔ ¬1 < b.toNat := by
    simp only [List.mem_cons, List.not_mem_nil, or_false]
    bv_omega
  rw [onOffOfCode_isNone_iff, hcodes, not_not]

theorem ringNumberOk_iff (b : Byte) : ringNumberOk b = true ↔ ¬(b.toNat < 1 ∨ 8 < b.toNat) := by
  simp only [ringNumberOk, Bool.and_eq_true, decide_eq_true_eq, not_or, Nat.not_lt]

/-- The results of a CREATE_REPORT_RING: those of the ring named, with lost count 0 (R168). -/
theorem ReportRing.results_noLost (x : ReportRing) (number : Byte) : (x.results number 0).noLost =
    if number.toNat < 1 ∨ 8 < number.toNat then .reportRing number .absent 0 0 0 0 0
    else .reportRing number x.state x.producer x.consumer x.refs 0 0 := by
  simp only [ReportRing.results, ringNumberOk_iff, ite_not]
  split_ifs <;> rfl

/-- A CREATE_REPORT_RING at its owner is taken by the Report Unit. -/
theorem AtOwner.exec_createReportRing {s : State} {r : IntakeRecord} {w : PostSlot} (h : AtOwner s .createReportRing r w) :
    exec .createReportRing s = .next (s.takeCreateReport r w) := by
  show execCreateReportRing s = _
  rw [execCreateReportRing, h.eq]

variable (s : State) (r : IntakeRecord) (w : PostSlot)

/-- The checks of R166 in the words of its table. -/
theorem CreateReportRequest.check_read : (CreateReportRequest.read w).check w s =
    if PostSlot.reservedZero w (requestFields .createReportRing) = false ∨ PostSlot.byte w 3 ∉ [0, 1] then .badFormat
    else if (PostSlot.byte w 2).toNat < 1 ∨ 8 < (PostSlot.byte w 2).toNat ∨ (PostSlot.u64 w 8).toNat % 32 ≠ 0 ∨
        (PostSlot.u32 w 16).toNat < 4 ∨ 4096 < (PostSlot.u32 w 16).toNat ∨
        2 ^ 64 < (PostSlot.u64 w 8).toNat + 32 * (PostSlot.u32 w 16).toNat ∨ (PostSlot.byte w 4).toNat < 1 ∨
        64 < (PostSlot.byte w 4).toNat ∨ 2 ^ 24 < (PostSlot.u32 w 20).toNat then .badRingParams
    else if (s.report.ring (PostSlot.byte w 2).toNat).state ≠ .absent then .ringExists
    else .ok := by
  have hnumber (b : Byte) : ringNumberOk b = false ↔ b.toNat < 1 ∨ 8 < b.toNat := by
    rw [← Bool.not_eq_true, ringNumberOk_iff, not_not]
  simp only [CreateReportRequest.check, CreateReportRequest.read, onOffOfCode_isNone_iff_not_mem, Bool.not_eq_true', hnumber,
    or_assoc]
  rfl

/-- An accepted request's interrupt enable is one of its two codes, so the ring it makes has every field of R166. -/
theorem CreateReportRequest.ring_of_ok (h : (CreateReportRequest.read w).check w s = .ok) :
    (CreateReportRequest.read w).ring =
      { state := .active, base := PostSlot.u64 w 8, size := (PostSlot.u32 w 16).toNat, producer := 0, phase := true,
        consumer := 0, queue := [], reserved := 0, lost := 0, intEnable := decide (PostSlot.byte w 3 = 1),
        coalesceCount := (PostSlot.byte w 4).toNat, coalesceTime := (PostSlot.u32 w 20).toNat, unsignalled := 0,
        oldest := none, refs := 0 } := by
  have henable : onOffOfCode (PostSlot.byte w 3) = some (decide (PostSlot.byte w 3 = 1)) := by
    cases hcode : onOffOfCode (PostSlot.byte w 3) with
    | none => simp [CreateReportRequest.check, CreateReportRequest.read, hcode] at h
    | some v => rw [((onOffOfCode_eq_some_iff _ v).1 hcode).2]
  simp only [CreateReportRequest.ring, CreateReportRequest.read, henable, Option.getD_some]
  rfl

/-- The Report Unit a CREATE_REPORT_RING is answered from: with the ring it makes where it is accepted, else as it is. -/
def State.reportCreated (s : State) (w : PostSlot) : ReportUnit :=
  if (CreateReportRequest.read w).check w s = .ok then
    s.report.setRing (PostSlot.byte w 2).toNat (CreateReportRequest.read w).ring
  else s.report

theorem State.reportCreated_refused (h : (CreateReportRequest.read w).check w s ≠ .ok) : s.reportCreated w = s.report :=
  if_neg h

theorem State.reportCreated_accepted (h : (CreateReportRequest.read w).check w s = .ok) : s.reportCreated w =
    s.report.setRing (PostSlot.byte w 2).toNat (CreateReportRequest.read w).ring := if_pos h

/-- The request is answered with the results of the ring named as it is once the request has been accepted or refused. -/
theorem State.takeCreateReport_eq : s.takeCreateReport r w =
    (s.setReport (s.reportCreated w)).answer r w ((CreateReportRequest.read w).check w s)
      (((s.reportCreated w).ring (PostSlot.byte w 2).toNat).results (PostSlot.byte w 2) 0).noLost := by
  unfold State.takeCreateReport State.reportCreated
  by_cases h : (CreateReportRequest.read w).check w s = .ok
  · simp only [if_pos h]
    rfl
  · simp only [if_neg h]
    rfl

/-- A request answered once the Report Unit is `mid`: the acknowledgment is added to `mid` and the record ends (R140). -/
theorem State.answer_afterReport (mid : ReportUnit) (st : Status) (res : AckResults) :
    let t := (s.setReport mid).answer r w st res
    OnlyIn [.report, .posting] s t ∧ t.posting = { s.posting with inProgress := none } ∧
      AckAdded r.bound (.ack (ackOf r w) st res) mid t.report ∧ SameRingRefs mid t.report := by
  obtain ⟨hadded, hrefs, hposting⟩ := State.answer_answered (s.setReport mid) r w st res
  exact ⟨((s.setReport_onlyIn mid).mono (by simp)).trans (State.answer_onlyIn _ r w st res), hposting, hadded, hrefs⟩

/-! ### Consumer doorbells (R153) -/

/-- The span of R153: a value below the size of a ring that is present, no further from the consumer than the producer is. -/
theorem ReportRing.acceptsConsumer_iff (x : ReportRing) (v : Nat) : x.acceptsConsumer v = true ↔
    x.state ≠ .absent ∧ v < x.size ∧ (v + x.size - x.consumer) % x.size ≤ (x.producer + x.size - x.consumer) % x.size := by
  simp only [ReportRing.acceptsConsumer, Bool.and_eq_true, decide_eq_true_eq, and_assoc]
  rfl

variable {ring : BitVec 4} {value : BitVec 16}

/-- A consumer doorbell that names a ring reaches the Report Unit while doorbells are taken (R184). -/
theorem exec_reportConsumerDoorbell {s : State} (hring : ring.toNat ≤ 8) (hready : s.window.ready = true)
    (henabled : s.window.enabled = true) :
    exec (.reportConsumerDoorbell ring value) s = .next (s.consumerDoorbell ring value) := by
  show execReportConsumerDoorbell ring value s = _
  simp [execReportConsumerDoorbell, Window.takesDoorbells, hready, henabled, Nat.not_lt.mpr hring]

/-- The Report Unit at a consumer doorbell accepted, before any return of space: the consumer is the value. -/
def State.consumerMoved (s : State) (ring : BitVec 4) (value : BitVec 16) : ReportUnit :=
  s.report.setRing ring.toNat { s.report.ring ring.toNat with consumer := value.toNat }

/-- An accepted consumer doorbell changes the Report Unit: the consumer moves, and space returns where it moved (R153, R159). -/
theorem State.consumerDoorbell_accepted (h : (s.report.ring ring.toNat).acceptsConsumer value.toNat = true) :
    s.consumerDoorbell ring value = s.setReport
      (if (s.report.ring ring.toNat).releases value.toNat = 0 then s.consumerMoved ring value
      else (s.consumerMoved ring value).returnSpace ring.toNat s.tb.mt) := if_pos h

/-- Any other consumer doorbell is a doorbell error (R153, R183). -/
theorem State.consumerDoorbell_refused (h : ¬(s.report.ring ring.toNat).acceptsConsumer value.toNat = true) :
    s.consumerDoorbell ring value = s.doorbellError ring kindReportConsumer := if_neg h

/-- Moving the consumer leaves the ring's state. -/
theorem State.consumerMoved_state :
    ((s.consumerMoved ring value).ring ring.toNat).state = (s.report.ring ring.toNat).state := by
  rw [State.consumerMoved, ReportUnit.ring_setRing, if_pos rfl]

/-- Records released from a ring that is ACTIVE or LOSSY return their space. -/
theorem State.consumerDoorbell_returns (hacc : (s.report.ring ring.toNat).acceptsConsumer value.toNat = true)
    (hmoved : (s.report.ring ring.toNat).releases value.toNat ≠ 0)
    (hrun : (s.report.ring ring.toNat).state = .active ∨ (s.report.ring ring.toNat).state = .lossy) :
    SpaceReturned ring.toNat s.tb.mt (s.consumerMoved ring value) (s.consumerDoorbell ring value).report := by
  rw [State.consumerDoorbell_accepted s hacc, if_neg hmoved]
  exact ReportUnit.returnSpace_returned _ _ _ (by rwa [State.consumerMoved_state])

/-- A doorbell that releases nothing, or on a FAULTED ring, moves the consumer alone. -/
theorem State.consumerDoorbell_only_moves (hacc : (s.report.ring ring.toNat).acceptsConsumer value.toNat = true)
    (h : (s.report.ring ring.toNat).releases value.toNat = 0 ∨ (s.report.ring ring.toNat).state = .faulted) :
    (s.consumerDoorbell ring value).report = s.consumerMoved ring value := by
  rw [State.consumerDoorbell_accepted s hacc, State.setReport_report]
  by_cases hmoved : (s.report.ring ring.toNat).releases value.toNat = 0
  · exact if_pos hmoved
  · have hfaulted := h.resolve_left hmoved
    rw [if_neg hmoved]
    exact ReportUnit.returnSpace_stopped _ _ _ (by rw [ReportRing.running, State.consumerMoved_state, hfaulted]; rfl)

end Sys2Proof.Machine
end

section
/-!
SUPPORT. The statements about CREATE_REPORT_RING and about consumer doorbells, settled.
-/
namespace Sys2Proof.Machine

/-- Settles O36: the answer is given from the rings with the new one where the request is accepted, else from the rings found. -/
theorem createReportRingMakesTheRingActive : Obligations.CreateReportRingMakesTheRingActive := by
  unfold Obligations.CreateReportRingMakesTheRingActive
  intro s r w hown number n base size count time st
  have hst : (CreateReportRequest.read w).check w s = st := CreateReportRequest.check_read s w
  clear_value st
  subst hst
  have htake := s.takeCreateReport_eq r w
  rw [ReportRing.results_noLost] at htake
  obtain ⟨honly, hposting, hadded, hrefs⟩ := s.answer_afterReport r w (s.reportCreated w) _ _
  refine ⟨_, s.reportCreated w, hown.exec_createReportRing.trans (congrArg _ htake), honly, hposting,
    s.reportCreated_refused w, fun hok => ?accepted, hadded, hrefs⟩
  case accepted =>
    rw [State.reportCreated_accepted s w hok, CreateReportRequest.ring_of_ok s w hok]
    exact ⟨rfl, RingBecomes.of_setRing _ n _⟩

/-- Settles O43: accepted by the span of R153, the doorbell moves the consumer, and space returns where records are released. -/
theorem consumerDoorbellReleasesWrittenRecords : Obligations.ConsumerDoorbellReleasesWrittenRecords := by
  unfold Obligations.ConsumerDoorbellReleasesWrittenRecords
  intro s ring value hring hready henabled n x v released accepted
  have haccepted : x.acceptsConsumer v = true ↔ accepted := x.acceptsConsumer_iff v
  refine ⟨_, s.consumerMoved ring value, exec_reportConsumerDoorbell hring hready henabled, fun h => ?accepted,
    fun h => ?refused⟩
  case accepted =>
    have hacc := haccepted.2 h
    refine ⟨?_, RingBecomes.of_setRing _ n _, rfl, s.consumerDoorbell_returns hacc, s.consumerDoorbell_only_moves hacc⟩
    rw [State.consumerDoorbell_accepted s hacc]
    exact s.setReport_onlyIn _
  case refused =>
    rw [State.consumerDoorbell_refused s (mt haccepted.1 h)]
    exact ⟨s.doorbellError_onlyIn ring _, s.doorbellError_recorded ring _⟩

end Sys2Proof.Machine
end

section
/-!
SUPPORT. What ENABLE does, each branch said once: its checks in the words of R180, no effect while READY is 0 or enabled, the state
an enable that passes makes, the fault of one refused (R126, R150, R177, R179, R180, R182).
-/
namespace Sys2Proof.Machine

/-- The checks of R180 in the words of its table. -/
theorem Window.enablePasses_iff (w : Window) : w.enablePasses = true ↔
    w.adminPostBase.toNat % 64 = 0 ∧ w.adminPostBase.toNat + 64 * w.adminPostSize.toNat ≤ 2 ^ 64 ∧
      w.adminReportBase.toNat % 32 = 0 ∧ w.adminReportBase.toNat + 32 * w.adminReportSize.toNat ≤ 2 ^ 64 ∧
      4 ≤ w.adminPostSize.toNat ∧ w.adminPostSize.toNat ≤ 256 ∧
      4 ≤ w.adminReportSize.toNat ∧ w.adminReportSize.toNat ≤ 256 := by
  simp only [Window.enablePasses, Bool.and_eq_true, decide_eq_true_eq, and_assoc]
  rfl

variable {s : State}

/-- No reset is about to end while READY is 1. -/
theorem not_resetAboutToEnd_of_ready (hready : s.window.ready = true) : ¬ResetAboutToEnd s :=
  fun ⟨hnotReady, _⟩ => Bool.false_ne_true (hnotReady.symm.trans hready)

/-- ENABLE has no effect while the controller is enabled or READY is 0 (R177, R179). -/
theorem exec_enable_ignored (hreset : ¬ResetAboutToEnd s) (h : s.window.enabled = true ∨ s.window.ready = false) :
    exec .enable s = .next s := by
  have hidle : ¬(s.window.ready = true ∧ s.window.enabled = false) := fun ⟨hready, hoff⟩ =>
    h.elim (fun hon => Bool.false_ne_true (hoff.symm.trans hon)) fun hnot => Bool.false_ne_true (hnot.symm.trans hready)
  show execEnable s = _
  rw [execEnable, State.afterReset_same hreset, if_neg hidle]

/-- ENABLE out of reset and not enabled is decided by the checks (R180). -/
theorem exec_enable_decided (hready : s.window.ready = true) (hoff : s.window.enabled = false) :
    exec .enable s = .next (if s.window.enablePasses then s.enabled else s.setAdminFault .enableRefused) := by
  show execEnable s = _
  rw [execEnable, State.afterReset_ready hready, if_pos ⟨hready, hoff⟩]

variable (s)

theorem State.enabled_window : s.enabled.window =
    { s.window with enabled := true, adminFault := s.window.faultAfterEnable } := rfl

theorem State.enabled_posting : s.enabled.posting = s.posting.setRing 0 s.window.postRing0 := rfl

theorem State.enabled_report : s.enabled.report = s.report.setRing 0 s.window.reportRing0 := rfl

theorem State.enabled_onlyIn : OnlyIn [.posting, .report, .window] s s.enabled := by
  have hwindow := s.setWindow_onlyIn { s.window with enabled := true, adminFault := s.window.faultAfterEnable }
  exact ((hwindow.mono (by simp)).trans ((State.setPosting_onlyIn _ _).mono (by simp))).trans
    ((State.setReport_onlyIn _ _).mono (by simp))

/-- Once an enable has passed, another has no effect (R179). -/
theorem State.exec_enable_enabled (hready : s.window.ready = true) : exec .enable s.enabled = .next s.enabled :=
  exec_enable_ignored (not_resetAboutToEnd_of_ready (s := s.enabled) hready) (.inl rfl)

/-- The fault of a refused enable is set where none is, and nothing else of the register window differs (R180, R182). -/
theorem State.setAdminFault_window_fault (f : AdminFault) : (s.setAdminFault f).window =
    { s.window with adminFault := if s.window.adminFault = none then some f else s.window.adminFault } := by
  rw [State.setAdminFault_window]
  split <;> rfl

end Sys2Proof.Machine
end

section
/-!
SUPPORT. The statement about ENABLE, settled.
-/
namespace Sys2Proof.Machine

/-- Settles O45: decided by the checks of R180, ENABLE makes the state enabled, read part by part, or sets the fault alone. -/
theorem enableMakesTheAdministrationRings : Obligations.EnableMakesTheAdministrationRings := by
  unfold Obligations.EnableMakesTheAdministrationRings
  refine ⟨fun s => exec_enable_ignored, ?_⟩
  intro s hready hoff w passes
  have hpasses : w.enablePasses = true ↔ passes := w.enablePasses_iff
  refine ⟨_, exec_enable_decided hready hoff, fun h => ?passed, fun h => ?refused⟩
  case passed =>
    rw [if_pos (hpasses.2 h), State.enabled_posting, State.enabled_report]
    exact ⟨s.enabled_onlyIn, s.enabled_window, fun k => PostingUnit.ring_setRing s.posting 0 k _, rfl, rfl,
      RingBecomes.of_setRing s.report 0 _, s.exec_enable_enabled hready⟩
  case refused =>
    rw [if_neg (mt hpasses.1 h)]
    exact ⟨s.setAdminFault_onlyIn _, s.setAdminFault_window_fault _⟩

end Sys2Proof.Machine
end

section
/-!
SUPPORT. The frame of every command: the parts of the state it can change, said once for all of them, and the requests as one
family: each is found at its owner and taken, or nothing but the end of a reset comes of it.
-/
namespace Sys2Proof.Machine

/-! ### The requests as one family (R139) -/

/-- The opcode of the request that a command takes. -/
def requestOpcode : Instr → Option Opcode
  | .arm => some .arm
  | .cancel => some .cancel
  | .retime => some .retime
  | .query => some .query
  | .setRegion => some .setRegion
  | .clearRegion => some .clearRegion
  | .configureTimebase => some .configureTimebase
  | .setTrim => some .setTrim
  | .setTime => some .setTime
  | .setMarks => some .setMarks
  | .readTime => some .readTime
  | .setLineRest => some .setLineRest
  | .createPostRing => some .createPostRing
  | .deletePostRing => some .deletePostRing
  | .resumePostRing => some .resumePostRing
  | .createReportRing => some .createReportRing
  | .deleteReportRing => some .deleteReportRing
  | _ => none

/-- A request taken by its owner. -/
def State.takeRequest (s : State) (op : Opcode) (r : IntakeRecord) (w : PostSlot) : State :=
  match op with
  | .arm => s.takeArm r w
  | .cancel => s.takeCancel r w
  | .retime => s.takeRetime r w
  | .query => s.takeQuery r w
  | .setRegion => s.takeSetRegion r w
  | .clearRegion => s.takeClearRegion r w
  | .configureTimebase => s.takeConfigure r w
  | .setTrim => s.takeSetTrim r w
  | .setTime => s.takeSetTime r w
  | .setMarks => s.takeSetMarks r w
  | .readTime => s.takeReadTime r w
  | .setLineRest => s.takeSetLineRest r w
  | .createPostRing => s.takeCreatePost r w
  | .deletePostRing => s.takeDeletePost r w
  | .resumePostRing => s.takeResumePost r w
  | .createReportRing => s.takeCreateReport r w
  | .deleteReportRing => s.takeDeleteReport r w
  | .extension => s

/-- A request command takes the record found at its owner; with none there nothing but the end of a reset comes of it (log
entries 3, 7 and 12). -/
theorem exec_request {c : Instr} {op : Opcode} (hc : requestOpcode c = some op) (s : State) :
    (∃ r w, AtOwner s op r w ∧ exec c s = .next (s.takeRequest op r w)) ∨
      (s.atOwner op = none ∧ exec c s = .next s.afterReset) := by
  cases ho : s.atOwner op with
  | none =>
    refine .inr ⟨rfl, ?_⟩
    cases c <;> cases hc <;>
      simp only [exec, execArm, execCancel, execRetime, execQuery, execSetRegion, execClearRegion, execConfigureTimebase,
        execSetTrim, execSetTime, execSetMarks, execReadTime, execSetLineRest, execCreatePostRing, execDeletePostRing,
        execResumePostRing, execCreateReportRing, execDeleteReportRing, ho]
  | some p =>
    obtain ⟨r, w⟩ := p
    refine .inl ⟨r, w, AtOwner.of_some ho, ?_⟩
    cases c <;> cases hc <;>
      simp only [exec, execArm, execCancel, execRetime, execQuery, execSetRegion, execClearRegion, execConfigureTimebase,
        execSetTrim, execSetTime, execSetMarks, execReadTime, execSetLineRest, execCreatePostRing, execDeletePostRing,
        execResumePostRing, execCreateReportRing, execDeleteReportRing, ho, State.takeRequest]

end Sys2Proof.Machine
end

section
/-!
SUPPORT. The parts of the state that each command can change.
-/
namespace Sys2Proof.Machine

/-- The parts that taking a request can change. -/
def requestParts : Opcode → List Part
  | .arm => [.store, .disp, .regions, .report, .posting]
  | .cancel => [.store, .regions, .report, .posting]
  | .retime => [.store, .disp, .report, .posting]
  | .setRegion | .clearRegion => [.regions, .report, .posting]
  | .configureTimebase | .setTrim | .setMarks => [.tb, .report, .posting]
  | .setTime => [.tb, .store, .disp, .report, .posting]
  | .setLineRest => [.lines, .report, .posting]
  | .query | .readTime | .createPostRing | .deletePostRing | .resumePostRing | .createReportRing | .deleteReportRing =>
    [.report, .posting]
  | .extension => []

/-- The parts that a reset or the loss of a supply can change. -/
abbrev resetParts : List Part := [.tb, .store, .disp, .engine, .regions, .lines, .posting, .report, .window, .inputs, .mem]

/-- The parts that a command can change, the end of a reset that comes first aside (log entry 12). -/
def commandParts : Instr → List Part
  | .arm => requestParts .arm
  | .cancel => requestParts .cancel
  | .retime => requestParts .retime
  | .query => requestParts .query
  | .setRegion => requestParts .setRegion
  | .clearRegion => requestParts .clearRegion
  | .configureTimebase => requestParts .configureTimebase
  | .setTrim => requestParts .setTrim
  | .setTime => requestParts .setTime
  | .setMarks => requestParts .setMarks
  | .readTime => requestParts .readTime
  | .setLineRest => requestParts .setLineRest
  | .createPostRing => requestParts .createPostRing
  | .deletePostRing => requestParts .deletePostRing
  | .resumePostRing => requestParts .resumePostRing
  | .createReportRing => requestParts .createReportRing
  | .deleteReportRing => requestParts .deleteReportRing
  | .tick | .sourceQualified | .sourceSwitch | .qualificationTimeout | .refclkGap | .alignTimeout | .pulseEnd _
  | .coalesceTimeExpiry _ | .refclkEdge => clockParts
  | .alignEdge => [.tb, .store, .disp, .report]
  | .intakeChoice => [.posting, .report]
  | .intakeReadAnswer _ | .enable => [.posting, .report, .window]
  | .postingTailDoorbell _ _ => [.posting, .window]
  | .reportConsumerDoorbell _ _ => [.report, .window]
  | .intrPendingClear _ => [.report]
  | .reportWriteAnswer _ _ => [.mem, .report, .window]
  | .dispatchWalk => [.disp]
  | .dispatchClaim => [.store, .disp, .engine]
  | .heldActionBegin _ | .actionReadAnswer _ _ | .lineAnswer _ => [.engine]
  | .actionWriteAnswer _ _ => [.engine, .mem]
  | .lineRequest _ => [.engine, .lines]
  | .completionReturn => [.store, .disp, .engine, .regions, .report]
  | .resetRelease => [.window, .inputs]
  | .abandonedAnswer _ _ _ => [.window, .mem]
  | .functionReset _ | .resetAssert | .mainSupplyLoss _ | .mainSupplyReturn | .coldReset _ => resetParts
  | .keepAliveSupplyLoss => [.inputs, .tb, .lines]
  | .doorbellNoRing _ _ _ | .adminPostBaseWrite _ | .adminReportBaseWrite _ | .adminSizesWrite _ | .doorbellErrorClear _
  | .intrMaskWrite _ => [.window]
  | .registerWriteOther _ _ _ => []

/-! ### Frames combine -/

section Combine
variable {ps : List Part} {s : State}

theorem OnlyIn.ite {P : Prop} [Decidable P] {t u : State} (ht : P → OnlyIn ps s t) (hu : ¬P → OnlyIn ps s u) :
    OnlyIn ps s (if P then t else u) := by
  split
  · exact ht ‹_›
  · exact hu ‹_›

/-- An answer at the end of what a request does. -/
theorem OnlyIn.answer {t : State} (r : IntakeRecord) (w : PostSlot) (st : Status) (res : AckResults)
    (hreport : Part.report ∈ ps) (hposting : Part.posting ∈ ps) (h : OnlyIn ps s t) :
    OnlyIn ps s (t.answer r w st res) :=
  h.trans ((State.answer_onlyIn t r w st res).mono (by simp [hreport, hposting]))

/-- Nothing differs between two states but, at most, the parts listed and the end of a reset that came first. -/
def Framed (ps : List Part) (s t : State) : Prop := OnlyIn ps s t ∨ OnlyIn ps s.afterReset t

theorem Framed.ended (ps : List Part) (s : State) : Framed ps s s.afterReset := .inr (.refl _ _)

theorem Framed.same (ps : List Part) (s : State) : Framed ps s s := .inl (.refl _ _)

theorem Framed.onlyIn {t : State} (h : Framed ps s t) : OnlyIn (.window :: ps) s t := by
  rcases h with h | h
  · exact h.mono (List.subset_cons_self _ _)
  · exact (State.afterReset_onlyIn.mono (by simp)).trans (h.mono (List.subset_cons_self _ _))

theorem Framed.ite {P : Prop} [Decidable P] {t u : State} (ht : P → Framed ps s t) (hu : ¬P → Framed ps s u) :
    Framed ps s (if P then t else u) := by
  split
  · exact ht ‹_›
  · exact hu ‹_›

/-- A command that acts under a condition, once a reset about to end has ended. -/
theorem Framed.whenEnded {P : Prop} [Decidable P] {t : State} (h : OnlyIn ps s.afterReset t) :
    Framed ps s (if P then t else s.afterReset) := .ite (fun _ => .inr h) (fun _ => .ended _ _)

end Combine

/-! ### Requests -/

section Requests
variable (s : State) (r : IntakeRecord) (w : PostSlot)

theorem State.removeArming_onlyIn (n : Nat) : OnlyIn [.store, .regions, .report] s (s.removeArming n) := by
  unfold State.removeArming
  exact .ite (fun _ => by simp [OnlyIn]) (fun _ => .refl _ _)

theorem State.armSlot_onlyIn (n : Nat) (x : TimerSlot) :
    OnlyIn [.store, .disp, .regions, .report] s (s.armSlot n x) :=
  ((s.removeArming_onlyIn n).mono (by simp)).trans (by simp [OnlyIn, State.armSlot])

theorem State.setRest_onlyIn (q : LineRestRequest) (l : List Nat) : OnlyIn [.lines] s (s.setRest q l) := by
  induction l generalizing s with
  | nil => exact .refl _ _
  | cons n l ih => exact (OnlyIn.ite (fun _ => by simp [OnlyIn]) (fun _ => .refl _ _)).trans (ih _)

theorem State.takeConfigure_onlyIn : OnlyIn [.tb, .report, .posting] s (s.takeConfigure r w) := by
  unfold State.takeConfigure
  dsimp only
  refine .ite (fun _ => .answer r w _ _ (by simp) (by simp) (.refl _ _)) (fun _ => ?_)
  split <;> simp [OnlyIn, State.endRecord]

theorem State.takeSetTime_onlyIn : OnlyIn [.tb, .store, .disp, .report, .posting] s (s.takeSetTime r w) := by
  unfold State.takeSetTime
  refine .ite (fun _ => (s.endReplaced_onlyIn.mono (by simp)).trans ?_)
    (fun _ => .answer r w _ _ (by simp) (by simp) (.refl _ _))
  unfold State.setTime
  refine .ite (fun _ => by simp [OnlyIn, State.endRecord]) (fun _ => .answer r w _ _ (by simp) (by simp) ?_)
  exact (State.applyStep_onlyIn _ _ _).mono (by simp)

/-- What taking a request can change. -/
theorem State.takeRequest_onlyIn (op : Opcode) : OnlyIn (requestParts op) s (s.takeRequest op r w) := by
  cases op
  case arm =>
    exact .ite (fun _ => .answer r w _ _ (by simp [requestParts]) (by simp [requestParts])
        ((s.armSlot_onlyIn _ _).mono (by simp [requestParts])))
      (fun _ => .answer r w _ _ (by simp [requestParts]) (by simp [requestParts]) (.refl _ _))
  case cancel =>
    simp only [State.takeRequest, State.takeCancel]
    split <;> simp [OnlyIn, requestParts, State.freeSlot]
  case retime =>
    exact .ite (fun _ => by simp [OnlyIn, requestParts, State.retimeSlot])
      (fun _ => by simp [OnlyIn, requestParts])
  case query => exact .ite (fun _ => by simp [OnlyIn, requestParts]) (fun _ => by simp [OnlyIn, requestParts])
  case setRegion =>
    exact .answer r w _ _ (by simp [requestParts]) (by simp [requestParts])
      (.ite (fun _ => by simp [OnlyIn, requestParts]) (fun _ => .refl _ _))
  case clearRegion =>
    exact .answer r w _ _ (by simp [requestParts]) (by simp [requestParts])
      (.ite (fun _ => by simp [OnlyIn, requestParts]) (fun _ => .refl _ _))
  case configureTimebase => exact s.takeConfigure_onlyIn r w
  case setTrim => exact .ite (fun _ => by simp [OnlyIn, requestParts]) (fun _ => by simp [OnlyIn, requestParts])
  case setTime => exact s.takeSetTime_onlyIn r w
  case setMarks =>
    simp only [State.takeRequest, State.takeSetMarks]
    split <;> simp [OnlyIn, requestParts]
  case readTime => exact .ite (fun _ => by simp [OnlyIn, requestParts]) (fun _ => by simp [OnlyIn, requestParts])
  case setLineRest =>
    exact .answer r w _ _ (by simp [requestParts]) (by simp [requestParts])
      (.ite (fun _ => (s.setRest_onlyIn _ _).mono (by simp [requestParts])) (fun _ => .refl _ _))
  case createPostRing =>
    exact .answer r w _ _ (by simp [requestParts]) (by simp [requestParts])
      (.ite (fun _ => by simp [OnlyIn, requestParts]) (fun _ => .refl _ _))
  case deletePostRing => exact .ite (fun _ => by simp [OnlyIn, requestParts]) (fun _ => by simp [OnlyIn, requestParts])
  case resumePostRing =>
    exact .answer r w _ _ (by simp [requestParts]) (by simp [requestParts])
      (.ite (fun _ => by simp [OnlyIn, requestParts]) (fun _ => .refl _ _))
  case createReportRing =>
    exact .answer r w _ _ (by simp [requestParts]) (by simp [requestParts])
      (.ite (fun _ => by simp [OnlyIn, requestParts]) (fun _ => .refl _ _))
  case deleteReportRing => exact .ite (fun _ => by simp [OnlyIn, requestParts]) (fun _ => by simp [OnlyIn, requestParts])
  case extension => exact .refl _ _

end Requests

/-! ### The clock -/

section Clock
variable (s : State)

theorem State.timeMark_onlyIn (b : Bool) : OnlyIn [.report] s (s.timeMark b) := by
  unfold State.timeMark
  exact .ite (fun _ => s.setReport_onlyIn _) (fun _ => .refl _ _)

theorem State.applyPending_onlyIn (p : PendingStep) : OnlyIn [.tb, .store, .disp, .report] s (s.applyPending p) := by
  have hstep := (s.setTb { s.tb with pendingStep := none }).applyStep_onlyIn p.mode p.value
  exact (((s.setTb_onlyIn _).mono (by simp)).trans (hstep.mono (qs := [.tb, .store, .disp, .report]) (by simp))).trans
    (by simp [OnlyIn, State.applyPending])

end Clock

/-! ### The intake, rings, completion and resets -/

section Rest
variable (s : State)

theorem State.decodeRecord_onlyIn (r : IntakeRecord) (w : PostSlot) (o : Option PostSlot) :
    OnlyIn [.posting, .report] s (s.decodeRecord r w o) := by
  unfold State.decodeRecord
  exact .ite (fun _ => by simp [OnlyIn]) (fun _ => by simp [OnlyIn])

theorem State.withdraw_onlyIn (r : IntakeRecord) : OnlyIn [.posting, .report] s (s.withdraw r) := by
  simp [OnlyIn, State.withdraw, State.endRecord]

theorem State.firstSlotRead_onlyIn (r : IntakeRecord) (w : PostSlot) : OnlyIn [.posting, .report] s (s.firstSlotRead r w) := by
  unfold State.firstSlotRead
  exact .ite (fun _ => s.decodeRecord_onlyIn r w none)
    (fun _ => .ite (fun _ => by simp [OnlyIn]) (fun _ => s.withdraw_onlyIn r))

theorem State.takeReturn_onlyIn (c : Completion) : OnlyIn [.store, .disp, .regions, .report] s (s.takeReturn c) := by
  have hreport : ∀ x f, OnlyIn [.report] s (s.handReport x f) := by
    intro x f
    unfold State.handReport
    split
    · exact .refl _ _
    · exact .ite (fun _ => s.setReport_onlyIn _) (fun _ => .refl _ _)
  have hsettle : ∀ (u : State) n x o, OnlyIn [.store, .disp, .regions, .report] u (u.settleSlot n x o) := by
    intro u n x o
    cases o <;> simp [OnlyIn, State.settleSlot]
  exact ((hreport _ _).mono (by simp)).trans (hsettle _ _ _ _)

theorem State.ringFault_onlyIn (n : Nat) : OnlyIn [.report, .window] s (s.ringFault n) := by
  unfold State.ringFault
  exact .ite (fun _ => by simp [OnlyIn, State.setAdminFault]) (fun _ => by simp [OnlyIn])

theorem State.ringWriteAnswered_onlyIn (n : Nat) (w : PortWrite) (a : WriteAnswer) :
    OnlyIn [.mem, .report, .window] s (s.ringWriteAnswered n w a) := by
  cases a with
  | ok => simp [OnlyIn, State.ringWriteAnswered]
  | error landed =>
    exact ((s.setMem_onlyIn (Memory.settle w (.error landed) s.mem)).mono (by simp)).trans
      ((State.ringFault_onlyIn _ n).mono (by simp))

theorem State.landOp_onlyIn (op : PortOp) (landed : BitVec 32) : OnlyIn [.mem] s (s.landOp op landed) := by
  unfold State.landOp
  split
  · exact s.setMem_onlyIn _
  · exact .refl _ _

theorem State.pending_onlyIn {t : State} (h : t.pending = s.pending) : OnlyIn resetParts s t := by simp [OnlyIn, h]

theorem State.takeReset_pending (c : ResetCause) : (s.takeReset c).pending = s.pending := by simp [State.takeReset]

end Rest

/-! ### Each command -/

/-- The frame of a request command. -/
theorem request_framed {c : Instr} {op : Opcode} (hc : requestOpcode c = some op)
    (hp : commandParts c = requestParts op) (s : State) : ∃ t, exec c s = .next t ∧ Framed (commandParts c) s t := by
  rw [hp]
  rcases exec_request hc s with ⟨r, w, -, h⟩ | ⟨-, h⟩
  · exact ⟨_, h, .inl (s.takeRequest_onlyIn r w op)⟩
  · exact ⟨_, h, .ended _ _⟩

/-- Every command answers with a next state that differs from the state before in the command's parts alone, but for the end of a
reset. -/
theorem exec_framed (c : Instr) (s : State) : ∃ t, exec c s = .next t ∧ Framed (commandParts c) s t := by
  cases c
  case arm | cancel | retime | query | setRegion | clearRegion | configureTimebase | setTrim | setTime | setMarks | readTime
      | setLineRest | createPostRing | deletePostRing | resumePostRing | createReportRing | deleteReportRing =>
    exact request_framed rfl rfl s
  case tick | sourceSwitch | qualificationTimeout | alignTimeout | pulseEnd | coalesceTimeExpiry =>
    exact ⟨_, rfl, .whenEnded (State.completeTick_onlyIn _ _)⟩
  case sourceQualified => exact ⟨_, rfl, .whenEnded (State.refclkEdge_onlyIn _ false)⟩
  case refclkGap => exact ⟨_, rfl, .whenEnded (State.oscillatorPeriod_onlyIn _ false false)⟩
  case refclkEdge => exact ⟨_, rfl, .inr (State.refclkEdge_onlyIn _ false)⟩
  case alignEdge =>
    refine ⟨_, rfl, .whenEnded ?_⟩
    split
    · exact (State.applyPending_onlyIn _ _).trans ((State.timeMark_onlyIn _ true).mono (by simp))
    · exact (State.timeMark_onlyIn _ false).mono (by simp [commandParts])
  case intakeChoice =>
    refine ⟨_, rfl, ?_⟩
    split
    · split
      · exact .inl (by simp [OnlyIn, commandParts, State.beginTake])
      · exact .same _ _
    · exact .ended _ _
  case intakeReadAnswer a =>
    refine ⟨_, rfl, ?_⟩
    split
    · exact .ended _ _
    · refine .ite (fun _ => .same _ _) (fun _ => .inl ?_)
      split
      · exact s.fetchError_onlyIn _
      · exact (s.firstSlotRead_onlyIn _ _).mono (by simp [commandParts])
      · exact (s.decodeRecord_onlyIn _ _ _).mono (by simp [commandParts])
  case postingTailDoorbell ring v =>
    refine ⟨_, rfl, .whenEnded (.ite (fun _ => ?_) (fun _ => .ite (fun _ => ?_) (fun _ => ?_)))⟩
    · exact (State.doorbellError_onlyIn _ _ _).mono (by simp [commandParts])
    · exact (State.setPosting_onlyIn _ _).mono (by simp [commandParts])
    · exact (State.doorbellError_onlyIn _ _ _).mono (by simp [commandParts])
  case reportConsumerDoorbell ring v =>
    refine ⟨_, rfl, .whenEnded (.ite (fun _ => ?_) (fun _ => .ite (fun _ => ?_) (fun _ => ?_)))⟩
    · exact (State.doorbellError_onlyIn _ _ _).mono (by simp [commandParts])
    · exact (State.setReport_onlyIn _ _).mono (by simp [commandParts])
    · exact (State.doorbellError_onlyIn _ _ _).mono (by simp [commandParts])
  case doorbellNoRing ring kind v => exact ⟨_, rfl, .whenEnded (State.doorbellError_onlyIn _ _ _)⟩
  case enable =>
    refine ⟨_, rfl, .whenEnded (.ite (fun _ => State.enabled_onlyIn _) (fun _ => ?_))⟩
    exact (State.setAdminFault_onlyIn _ _).mono (by simp [commandParts])
  case functionReset b =>
    exact ⟨_, rfl, .inl (State.pending_onlyIn s (by split <;> simp [State.takeReset_pending]))⟩
  case resetAssert =>
    exact ⟨_, rfl, .inl (State.pending_onlyIn s
      (by split <;> [rfl; split <;> simp [State.takeReset_pending, State.setPin]]))⟩
  case resetRelease =>
    exact ⟨_, rfl, .inl (((s.setInputs_onlyIn _).mono (by simp [commandParts])).trans
      (State.endReset_onlyIn.mono (by simp [commandParts])))⟩
  case abandonedAnswer k ok landed =>
    refine ⟨_, rfl, ?_⟩
    split
    · exact .ended _ _
    · exact .inl ((((s.landOp_onlyIn _ _).mono (by simp [commandParts])).trans
        ((State.setWindow_onlyIn _ _).mono (by simp [commandParts]))).trans
        (State.endReset_onlyIn.mono (by simp [commandParts])))
  case mainSupplyLoss l =>
    refine ⟨_, rfl, .inl (State.pending_onlyIn s ?_)⟩
    split
    · dsimp only
      split <;> simp [State.loseKeepAlive]
    · rfl
  case mainSupplyReturn =>
    exact ⟨_, rfl, .inl (State.pending_onlyIn s (by split <;> simp [State.takeReset_pending]))⟩
  case coldReset k =>
    exact ⟨_, rfl, .inl (State.pending_onlyIn s (by split <;> simp [State.endReset_eq, State.loseKeepAlive]))⟩
  case keepAliveSupplyLoss =>
    refine ⟨_, rfl, .inr (.ite (fun _ => ?_) (fun _ => ?_))⟩
    · exact (State.setInputs_onlyIn _ _).mono (by simp [commandParts])
    · simp [OnlyIn, commandParts, State.loseKeepAlive]
  case adminPostBaseWrite | adminReportBaseWrite | adminSizesWrite | doorbellErrorClear | intrMaskWrite =>
    exact ⟨_, rfl, .whenEnded (State.setWindow_onlyIn _ _)⟩
  case intrPendingClear v => exact ⟨_, rfl, .whenEnded (State.setReport_onlyIn _ _)⟩
  case registerWriteOther o n v => exact ⟨_, rfl, .ended _ _⟩
  case dispatchWalk =>
    refine ⟨_, rfl, ?_⟩
    split
    · exact .inl (s.setDisp_onlyIn _)
    · exact .ended _ _
  case dispatchClaim =>
    refine ⟨_, rfl, ?_⟩
    split
    · exact .ended _ _
    · refine .ite (fun _ => ?_) (fun _ => .inl ((s.setDisp_onlyIn _).mono (by simp [commandParts])))
      split
      · exact .same _ _
      · exact .inl (by simp [OnlyIn, commandParts])
  case heldActionBegin i =>
    exact ⟨_, rfl, .ite (fun _ => .ite (fun _ => .inl (s.setEngine_onlyIn _)) (fun _ => .same _ _)) (fun _ => .ended _ _)⟩
  case actionReadAnswer i a =>
    refine ⟨_, rfl, .ite (fun _ => ?_) (fun _ => .ended _ _)⟩
    split <;> exact .inl (s.setEngine_onlyIn _)
  case actionWriteAnswer i a =>
    exact ⟨_, rfl, .ite (fun _ => .inl (by simp [OnlyIn, commandParts])) (fun _ => .ended _ _)⟩
  case lineRequest i =>
    exact ⟨_, rfl, .ite (fun _ => .inl (by simp [OnlyIn, commandParts])) (fun _ => .ended _ _)⟩
  case lineAnswer i =>
    refine ⟨_, rfl, ?_⟩
    split
    · exact .inl (s.setEngine_onlyIn _)
    · exact .ended _ _
  case completionReturn =>
    refine ⟨_, rfl, ?_⟩
    split
    · exact .ended _ _
    · exact .inl (((s.setEngine_onlyIn _).mono (by simp [commandParts])).trans
        (.ite (fun _ => (State.takeReturn_onlyIn _ _).mono (by simp [commandParts])) (fun _ => .refl _ _)))
  case reportWriteAnswer wr a =>
    refine ⟨_, rfl, ?_⟩
    split
    · split
      · exact .ite (fun _ => .inl (s.ringWriteAnswered_onlyIn _ _ _)) (fun _ => .same _ _)
      · exact .ended _ _
    · split
      · exact .inl (by simp [OnlyIn, commandParts, State.deletedWriteAnswered])
      · exact .ended _ _

/-- Settles O2. -/
theorem everyCommandAnswersAndKeepsTheQueue : Obligations.EveryCommandAnswersAndKeepsTheQueue := by
  intro c s
  obtain ⟨t, h, hframe⟩ := exec_framed c s
  exact ⟨t, h, hframe.onlyIn.pending_eq⟩

/-! ### What every step keeps -/

/-- A step on an empty queue idles; any other runs the command in front on the queue's rest. -/
theorem step_cases {s t : State} (h : step s = .next t) :
    (s.pending = [] ∧ t = s.idle) ∨ ∃ c rest, s.pending = c :: rest ∧ exec c (s.setPending rest) = .next t := by
  unfold step at h
  split at h
  · rename_i hp
    exact .inl ⟨hp, (Host.Outcome.next.inj h).symm⟩
  · rename_i c rest hp
    exact .inr ⟨c, rest, hp, h⟩

/-- What does not look at the queue, and what every command and every idle step keeps, every step keeps. -/
theorem step_keeps {P : State → Prop} (hqueue : ∀ s q, P s → P (s.setPending q)) (hidle : ∀ s, P s → P s.idle)
    (hexec : ∀ c s t, P s → exec c s = .next t → P t) {s t : State} (hs : P s) (h : step s = .next t) : P t := by
  rcases step_cases h with ⟨-, rfl⟩ | ⟨c, rest, -, h⟩
  · exact hidle s hs
  · exact hexec c _ t (hqueue s rest hs) h

/-- The frame of a command that has been answered. -/
theorem exec_frame {c : Instr} {s t : State} (h : exec c s = .next t) : Framed (commandParts c) s t := by
  obtain ⟨u, hu, hframe⟩ := exec_framed c s
  rw [h] at hu
  exact Host.Outcome.next.inj hu ▸ hframe

/-- An idle step ends a reset or changes what the clock changes. -/
theorem State.idle_framed (s : State) : Framed clockParts s s.idle := by
  unfold State.idle
  split
  · rename_i h
    rw [← show s.afterReset = s.endReset from if_pos h]
    exact .ended _ _
  · exact .inl (s.oscillatorPeriod_onlyIn false false)

/-! Parts outside a frame are as they were. -/

section Kept
variable {ps : List Part} {s t : State} (h : OnlyIn ps s t)
include h

theorem OnlyIn.tb_eq (hp : Part.tb ∉ ps) : t.tb = s.tb := h.1.resolve_left hp
theorem OnlyIn.store_eq (hp : Part.store ∉ ps) : t.store = s.store := h.2.1.resolve_left hp
theorem OnlyIn.disp_eq (hp : Part.disp ∉ ps) : t.disp = s.disp := h.2.2.1.resolve_left hp
theorem OnlyIn.engine_eq (hp : Part.engine ∉ ps) : t.engine = s.engine := h.2.2.2.1.resolve_left hp
theorem OnlyIn.regions_eq (hp : Part.regions ∉ ps) : t.regions = s.regions := h.2.2.2.2.1.resolve_left hp
theorem OnlyIn.lines_eq (hp : Part.lines ∉ ps) : t.lines = s.lines := h.2.2.2.2.2.1.resolve_left hp
theorem OnlyIn.report_eq (hp : Part.report ∉ ps) : t.report = s.report := h.2.2.2.2.2.2.2.1.resolve_left hp
theorem OnlyIn.window_eq (hp : Part.window ∉ ps) : t.window = s.window := h.2.2.2.2.2.2.2.2.1.resolve_left hp
theorem OnlyIn.inputs_eq (hp : Part.inputs ∉ ps) : t.inputs = s.inputs := h.2.2.2.2.2.2.2.2.2.1.resolve_left hp
theorem OnlyIn.mem_eq (hp : Part.mem ∉ ps) : t.mem = s.mem := h.2.2.2.2.2.2.2.2.2.2.1.resolve_left hp

end Kept

section KeptFramed
variable {ps : List Part} {s t : State} (h : Framed ps s t)
include h

theorem Framed.tb_eq (hp : Part.tb ∉ ps) : t.tb = s.tb := h.onlyIn.tb_eq (by simp [hp])
theorem Framed.store_eq (hp : Part.store ∉ ps) : t.store = s.store := h.onlyIn.store_eq (by simp [hp])
theorem Framed.disp_eq (hp : Part.disp ∉ ps) : t.disp = s.disp := h.onlyIn.disp_eq (by simp [hp])
theorem Framed.engine_eq (hp : Part.engine ∉ ps) : t.engine = s.engine := h.onlyIn.engine_eq (by simp [hp])
theorem Framed.regions_eq (hp : Part.regions ∉ ps) : t.regions = s.regions := h.onlyIn.regions_eq (by simp [hp])
theorem Framed.lines_eq (hp : Part.lines ∉ ps) : t.lines = s.lines := h.onlyIn.lines_eq (by simp [hp])
theorem Framed.posting_eq (hp : Part.posting ∉ ps) : t.posting = s.posting := OnlyIn.posting_eq h.onlyIn (by simp [hp])
theorem Framed.report_eq (hp : Part.report ∉ ps) : t.report = s.report := h.onlyIn.report_eq (by simp [hp])
theorem Framed.inputs_eq (hp : Part.inputs ∉ ps) : t.inputs = s.inputs := h.onlyIn.inputs_eq (by simp [hp])
theorem Framed.mem_eq (hp : Part.mem ∉ ps) : t.mem = s.mem := h.onlyIn.mem_eq (by simp [hp])

/-- Outside its frame a command leaves the register window alone, or ends a reset. -/
theorem Framed.window_eq (hp : Part.window ∉ ps) : t.window = s.window ∨ t.window = s.afterReset.window :=
  h.imp (fun h => h.window_eq hp) (fun h => h.window_eq hp)

end KeptFramed

end Sys2Proof.Machine
end

section
/-!
SUPPORT. The commands that take a reset or lose a supply as one family: each leaves the blocks alone or puts them in their reset
state (R28, R51, R75, R114, R122, R148, R172, R173).
-/
namespace Sys2Proof.Machine

/-- The commands by which the blocks of the main domain can be reset. -/
def isResetCommand : Instr → Bool
  | .functionReset _ | .resetAssert | .mainSupplyLoss _ | .mainSupplyReturn | .coldReset _ => true
  | _ => false

/-- Between two states the blocks of the main domain have been reset, and the controller is not enabled. -/
structure ResetTo (s t : State) : Prop where
  store : t.store = TimerStore.reset
  disp : t.disp = Dispatcher.reset
  engine : t.engine = ActionEngine.reset
  regions : t.regions = []
  posting : t.posting = PostingUnit.reset
  report : t.report = ReportUnit.reset
  lines : t.lines = s.resetBlocks.lines ∨ t.lines = []
  tb : t.tb = s.tb.functionReset ∨ t.tb = s.tb.mainLoss ∨ t.tb = TimeBase.cold
  enabled : t.window.enabled = false
  mem : t.mem = s.mem ∨ ∃ ws ls, t.mem = Memory.landAll ws ls s.mem

/-- Between two states nothing differs but the inputs and what the register window holds of a reset in progress. -/
def SettledOnly (s t : State) : Prop := OnlyIn [.window, .inputs] s t ∧ t.window.enabled = s.window.enabled

section
variable {s : State}

theorem ResetTo.of_takeReset (c : ResetCause) : ResetTo s (s.takeReset c) where
  store := by simp [State.takeReset]
  disp := by simp [State.takeReset]
  engine := by simp [State.takeReset]
  regions := by simp [State.takeReset]
  posting := by simp [State.takeReset]
  report := by simp [State.takeReset]
  lines := .inl (by simp [State.takeReset])
  tb := .inl (by simp [State.takeReset])
  enabled := by simp [State.takeReset, Window.functionReset]
  mem := .inl (by simp [State.takeReset])

/-- The reset lines depend on the lines alone. -/
theorem State.resetLines_lines_congr (l : List Nat) {a b : State} (h : a.lines = b.lines) :
    (a.resetLines l).lines = (b.resetLines l).lines := by
  induction l generalizing a b with
  | nil => exact h
  | cons n l ih => exact ih (by simp [State.setLine, State.line_congr h n, h])

theorem State.resetBlocks_lines_congr {a b : State} (h : a.lines = b.lines) :
    a.resetBlocks.lines = b.resetBlocks.lines := by
  unfold State.resetBlocks
  exact State.resetLines_lines_congr _ (by simpa using h)

/-- Where nothing but the window and the inputs differs first, the blocks are reset all the same. -/
theorem ResetTo.after {u t : State} (hf : OnlyIn [.window, .inputs] s u) (h : ResetTo u t) : ResetTo s t := by
  have htb := hf.tb_eq (by simp)
  have hlines := State.resetBlocks_lines_congr (hf.lines_eq (by simp))
  have hmem := hf.mem_eq (by simp)
  refine ⟨h.store, h.disp, h.engine, h.regions, h.posting, h.report, ?_, ?_, h.enabled, ?_⟩
  · rw [← hlines]; exact h.lines
  · rw [← htb]; exact h.tb
  · rw [← hmem]; exact h.mem

theorem SettledOnly.refl (s : State) : SettledOnly s s := ⟨.refl _ _, rfl⟩

theorem State.afterReset_enabled : s.afterReset.window.enabled = s.window.enabled := by
  rw [State.afterReset_eq, Ended]; split <;> rfl

theorem State.endReset_enabled : s.endReset.window.enabled = s.window.enabled := by
  rw [State.endReset_eq, State.setWindow_window]

theorem SettledOnly.afterReset : SettledOnly s s.afterReset :=
  ⟨State.afterReset_onlyIn.mono (by simp), State.afterReset_enabled⟩

end

/-- A command that can reset the blocks leaves them alone or resets them all. -/
theorem exec_reset_cases {c : Instr} {s t : State} (hc : isResetCommand c = true) (h : exec c s = .next t) :
    SettledOnly s t ∨ ResetTo s t := by
  cases c <;> cases hc <;> cases h
  case functionReset b =>
    split
    · exact .inr (.after (State.afterReset_onlyIn.mono (by simp)) (.of_takeReset _))
    · exact .inl .afterReset
  case resetAssert =>
    split
    · exact .inl (.refl s)
    · split
      · exact .inr (.after ((s.setInputs_onlyIn _).mono (by simp)) (.of_takeReset _))
      · exact .inl ⟨(s.setInputs_onlyIn _).mono (by simp), rfl⟩
  case mainSupplyLoss l =>
    split
    · refine .inr ?_
      dsimp only
      split
      · exact ⟨by simp, by simp, by simp, by simp, by simp, by simp, .inl (by simp), .inr (.inl (by simp)), by
          simp [Window.unpowered, Window.cold],
          .inr ⟨_, _, by simp; rfl⟩⟩
      · exact ⟨by simp [State.loseKeepAlive], by simp [State.loseKeepAlive], by simp [State.loseKeepAlive],
          by simp [State.loseKeepAlive], by simp [State.loseKeepAlive], by simp [State.loseKeepAlive], .inr rfl,
          .inr (.inr rfl), rfl, .inr ⟨_, _, rfl⟩⟩
    · exact .inl (.refl s)
  case mainSupplyReturn =>
    split
    · exact .inr (.after (by simp [OnlyIn]) (.of_takeReset _))
    · exact .inl .afterReset
  case coldReset k =>
    split
    · refine .inr ?_
      rw [State.endReset_eq]
      exact ⟨by simp [State.loseKeepAlive], by simp [State.loseKeepAlive], by simp [State.loseKeepAlive],
          by simp [State.loseKeepAlive], by simp [State.loseKeepAlive], by simp [State.loseKeepAlive], .inr rfl,
          .inr (.inr rfl), rfl, .inl (by simp [State.loseKeepAlive])⟩
    · exact .inl .afterReset

/-- The loss of the keep-alive supply loses the Time Base and the rest levels or leaves them alone (R100). -/
theorem exec_keepAliveSupplyLoss_cases {s t : State} (h : exec .keepAliveSupplyLoss s = .next t) :
    SettledOnly s t ∨ (OnlyIn [.window, .inputs, .tb, .lines] s t ∧ t.window.enabled = s.window.enabled ∧
      t.tb = TimeBase.cold ∧ t.lines = []) := by
  cases h
  dsimp only
  split
  · exact .inl ⟨Framed.onlyIn (.inr (State.setInputs_onlyIn _ _)), State.afterReset_enabled⟩
  · exact .inr ⟨Framed.onlyIn (.inr (by simp [OnlyIn, State.loseKeepAlive])), State.afterReset_enabled, rfl, rfl⟩

end Sys2Proof.Machine
end

section
/-!
SUPPORT. The commands of the clock as one family: what each of the clock's few operations keeps, each of its commands and each
idle step keeps. And the Time Base's ranges, which those operations keep.
-/
namespace Sys2Proof.Machine

/-! ### The clock's commands as one family -/

/-- The commands that are a period of the oscillator or an edge of REFCLK. -/
def isClockCommand : Instr → Bool
  | .tick | .sourceQualified | .sourceSwitch | .qualificationTimeout | .refclkGap | .alignTimeout | .pulseEnd _
  | .coalesceTimeExpiry _ | .refclkEdge => true
  | _ => false

/-- What each operation of the clock keeps: the counts of the gap detector, of edges and of the prescaler, a tick, and what a gap
does (R78, R84, R85, R87). -/
structure ClockKeeps (P : State → Prop) : Prop where
  countGap : ∀ s, P s → P (s.setTb s.tb.countGap)
  edge : ∀ s, P s → P (s.setTb { s.tb with gapCount := 0 })
  countEdge : ∀ s, P s → s.tb.source = .qualifying →
    P (s.setTb { s.tb with pendingSwitch := s.tb.pendingSwitch.map PendingSwitch.countEdge })
  restart : ∀ s, P s → s.tb.source = .qualifying →
    P (s.setTb { s.tb with pendingSwitch := s.tb.pendingSwitch.map PendingSwitch.restart })
  count : ∀ s, P s → s.tb.prescaler + 1 < s.tb.divInUse → P (s.setTb { s.tb with prescaler := s.tb.prescaler + 1 })
  tick : ∀ s b, P s → P (s.tick b)
  fallBack : ∀ s, P s → s.tb.source = .external → P s.fallBack

namespace ClockKeeps
variable {P : State → Prop} (hP : ClockKeeps P)
include hP

theorem prescale {s : State} (b : Bool) (h : P s) : P (s.prescale b) := by
  by_cases hd : s.tb.divInUse ≤ s.tb.prescaler + 1
  · rw [s.prescale_ticks b hd]
    exact hP.tick s b h
  · rw [s.prescale_counts b (Nat.not_le.1 hd)]
    exact hP.count s h (Nat.not_le.1 hd)

theorem gap {s : State} (h : P s) : P s.gap := by
  unfold State.gap
  split
  · exact hP.restart s h ‹_›
  · exact hP.fallBack s h ‹_›
  · exact h
  · exact h

theorem oscillatorPeriod {s : State} (a b : Bool) (h : P s) : P (s.oscillatorPeriod a b) := by
  have hcount := hP.countGap s h
  have hgap : ∀ (Q : Prop) [Decidable Q] {u : State}, P u → P (if Q then u.gap else u) := by
    intro Q _ u hu
    split
    · exact hP.gap hu
    · exact hu
  have hticks : ∀ (Q : Prop) [Decidable Q] {u : State}, P u → P (if Q then u.prescale b else u) := by
    intro Q _ u hu
    split
    · exact hP.prescale b hu
    · exact hu
  unfold State.oscillatorPeriod
  split
  · dsimp only
    split
    · exact hgap _ (hticks _ hcount)
    · exact hticks _ (hgap _ hcount)
  · exact h

theorem refclkEdge {s : State} (b : Bool) (h : P s) : P (s.refclkEdge b) := by
  have hedge := hP.edge s h
  unfold State.refclkEdge
  split
  · dsimp only
    split
    · exact hP.countEdge _ hedge ‹_›
    · exact hP.prescale b hedge
    · exact hedge
    · exact hedge
  · exact h

theorem completeTick {s : State} (b : Bool) (h : P s) : P (s.completeTick b) := by
  unfold State.completeTick
  split
  · exact hP.refclkEdge b h
  · exact hP.oscillatorPeriod true b h

/-- A command of the clock, once a reset about to end has ended. -/
theorem exec {c : Instr} {s t : State} (hc : isClockCommand c = true) (hs : P s.afterReset)
    (h : exec c s = .next t) : P t := by
  have hite : ∀ (Q : Prop) [Decidable Q] {u : State}, P u → P (if Q then u else s.afterReset) := by
    intro Q _ u hu
    split
    · exact hu
    · exact hs
  cases c <;> cases hc <;> cases h
  case tick | sourceSwitch | qualificationTimeout | alignTimeout | pulseEnd | coalesceTimeExpiry =>
    exact hite _ (hP.completeTick _ hs)
  case sourceQualified => exact hite _ (hP.refclkEdge _ hs)
  case refclkGap => exact hite _ (hP.oscillatorPeriod _ _ hs)
  case refclkEdge => exact hP.refclkEdge _ hs

/-- A step on an empty queue. -/
theorem idle {s : State} (hend : P s.afterReset) (h : P s) : P s.idle := by
  unfold State.idle
  split
  · rename_i he
    rw [State.afterReset, if_pos he] at hend
    exact hend
  · exact hP.oscillatorPeriod _ _ h

end ClockKeeps

/-! ### The ranges of the Time Base -/

namespace TimeBase.Lawful
variable {t : TimeBase}

/-- Outside QUALIFYING no switch is pending (R85). -/
theorem no_switch (h : t.Lawful) (hs : t.source ≠ .qualifying) : t.pendingSwitch = none := by
  simpa using fun hp => hs (h.qualifying.2 hp)

theorem functionReset_source (h : t.Lawful) : t.functionReset.source ≠ .qualifying := by
  cases hp : t.pendingSwitch with
  | none =>
    have : t.source ≠ .qualifying := fun hs => absurd (h.qualifying.1 hs) (by simp [hp])
    simpa [TimeBase.functionReset, hp] using this
  | some p => simp only [TimeBase.functionReset, hp, PendingSwitch.returnState]; split <;> simp

/-- The count begun again (R79). -/
theorem newCount (h : t.Lawful) : t.newCount.Lawful := by
  obtain ⟨h1, h2, h3, h4, h5, h6, h7, h8, h9⟩ := h
  have hdiv : 1 ≤ t.drivingDivisor ∧ t.drivingDivisor ≤ 65536 := by
    unfold TimeBase.drivingDivisor
    split <;> assumption
  exact ⟨h1, h2, hdiv, Nat.lt_of_lt_of_le Nat.zero_lt_one hdiv.1, h5, h6, h7, h8, h9⟩

/-- A source other than QUALIFYING with no switch pending. -/
theorem setSource (h : t.Lawful) {src : SourceState} (hsrc : src ≠ .qualifying) :
    ({ t with source := src, pendingSwitch := none } : TimeBase).Lawful :=
  ⟨h.intDivisor, h.extDivisor, h.divInUse, h.prescaler, h.gapCount, h.windowPos, h.trim, by simp [hsrc], by simp⟩

/-- A pending switch exchanged for another with counts in their ranges. -/
theorem setSwitch (h : t.Lawful) (f : PendingSwitch → PendingSwitch)
    (hf : ∀ p, t.pendingSwitch = some p → (f p).edges ≤ 1024 ∧ (f p).ticks < 65536) :
    ({ t with pendingSwitch := t.pendingSwitch.map f } : TimeBase).Lawful :=
  ⟨h.intDivisor, h.extDivisor, h.divInUse, h.prescaler, h.gapCount, h.windowPos, h.trim, by simpa using h.qualifying,
    fun p hp => by
      obtain ⟨q, hq, rfl⟩ := Option.map_eq_some_iff.1 hp
      exact hf q hq⟩

theorem advance (h : t.Lawful) : t.advance.Lawful :=
  ⟨h.intDivisor, h.extDivisor, h.divInUse, h.prescaler, h.gapCount, Nat.mod_lt _ (by decide), h.trim, h.qualifying, h.switch⟩

theorem setStep (h : t.Lawful) (p : Option PendingStep) : ({ t with pendingStep := p } : TimeBase).Lawful :=
  ⟨h.intDivisor, h.extDivisor, h.divInUse, h.prescaler, h.gapCount, h.windowPos, h.trim, h.qualifying, h.switch⟩

theorem setMarks (h : t.Lawful) (b : Bool) : ({ t with marks := b } : TimeBase).Lawful :=
  ⟨h.intDivisor, h.extDivisor, h.divInUse, h.prescaler, h.gapCount, h.windowPos, h.trim, h.qualifying, h.switch⟩

theorem setTrim (h : t.Lawful) {x : Int} (hx : x.natAbs ≤ 1023) :
    ({ t with trim := x, windowPos := 0 } : TimeBase).Lawful :=
  ⟨h.intDivisor, h.extDivisor, h.divInUse, h.prescaler, h.gapCount, by simp, by dsimp only; omega, h.qualifying, h.switch⟩

theorem stepped (h : t.Lawful) (mode : StepMode) (v : U64) : (t.stepped mode v).Lawful := by
  cases mode <;>
    exact ⟨h.intDivisor, h.extDivisor, h.divInUse, h.prescaler, h.gapCount, h.windowPos, h.trim, h.qualifying, h.switch⟩

theorem functionReset (h : t.Lawful) : t.functionReset.Lawful :=
  ⟨h.intDivisor, h.extDivisor, h.divInUse, h.prescaler, h.gapCount, h.windowPos, h.trim,
    by simpa [TimeBase.functionReset] using h.functionReset_source, by simp [TimeBase.functionReset]⟩

theorem mainLoss (h : t.Lawful) : t.mainLoss.Lawful := by
  unfold TimeBase.mainLoss
  dsimp only
  split
  · exact (h.functionReset.setSource (src := .fallback) (by simp)).newCount
  · exact h.functionReset

theorem cold : TimeBase.cold.Lawful := by
  constructor <;> simp [TimeBase.cold, Config.coldInternalDivisor, Config.coldExternalDivisor]

/-- The configured divisors after a request whose divisors pass its checks (R88). -/
theorem setDivisors (h : t.Lawful) {q : ConfigureRequest} (hi : q.intDivisor.toNat ≤ 65536) (he : q.extDivisor.toNat ≤ 65536) :
    (t.setDivisors q).Lawful := by
  have hdiv : ∀ (v : BitVec 32) (d : Nat), v.toNat ≤ 65536 → 1 ≤ d ∧ d ≤ 65536 →
      1 ≤ (if v = 0 then d else v.toNat) ∧ (if v = 0 then d else v.toNat) ≤ 65536 := by
    intro v d hv hd
    split
    · exact hd
    · exact ⟨by bv_omega, hv⟩
  exact ⟨hdiv _ _ hi h.intDivisor, hdiv _ _ he h.extDivisor, h.divInUse, h.prescaler, h.gapCount, h.windowPos, h.trim,
    h.qualifying, h.switch⟩

theorem beginQualifying (h : t.Lawful) (a : AckHead) : (t.beginQualifying a).Lawful :=
  ⟨h.intDivisor, h.extDivisor, h.divInUse, h.prescaler, by simp [TimeBase.beginQualifying], h.windowPos, h.trim,
    by simp [TimeBase.beginQualifying], by simp [TimeBase.beginQualifying]⟩

end TimeBase.Lawful

section Ticks
variable {s : State}

theorem State.switchAtTick_lawful (h : s.tb.Lawful) : s.switchAtTick.tb.Lawful := by
  unfold State.switchAtTick
  split
  · exact h
  · rename_i p hp
    split
    · exact h.setSource (by simp)
    · split
      · exact h.setSource (by unfold PendingSwitch.returnState; split <;> simp)
      · rename_i ht
        have := h.setSwitch (fun p => { p with ticks := p.ticks + 1 }) (fun q hq =>
          ⟨(h.switch q hq).1, by cases hp.symm.trans hq; exact Nat.not_le.1 ht⟩)
        rwa [hp] at this

theorem State.alignAtTick_lawful (h : s.tb.Lawful) : s.alignAtTick.tb.Lawful := by
  rw [State.alignAtTick_eq]
  exact h.setStep _

theorem State.tick_lawful (b : Bool) (h : s.tb.Lawful) : (s.tick b).tb.Lawful := by
  have hmid : (s.midTick b).tb.Lawful := by
    cases b
    · exact State.alignAtTick_lawful (State.switchAtTick_lawful (s := s.setTb s.tb.advance) h.advance)
    · exact State.switchAtTick_lawful (State.alignAtTick_lawful (s := s.setTb s.tb.advance) h.advance)
  rw [State.tick_eq, State.offer_tb, State.ringsAtTick, State.setReport_tb, State.linesAtTick_tb]
  exact hmid.newCount

theorem clockKeeps_lawful : ClockKeeps (fun s => s.tb.Lawful) where
  countGap s h := ⟨h.intDivisor, h.extDivisor, h.divInUse, h.prescaler, by simp [TimeBase.countGap], h.windowPos, h.trim,
    h.qualifying, h.switch⟩
  edge s h := ⟨h.intDivisor, h.extDivisor, h.divInUse, h.prescaler, by simp, h.windowPos, h.trim, h.qualifying, h.switch⟩
  countEdge s h _ := h.setSwitch _ (fun p hp => ⟨by simp [PendingSwitch.countEdge], (h.switch p hp).2⟩)
  restart s h _ := h.setSwitch _ (fun p hp => ⟨by simp [PendingSwitch.restart], (h.switch p hp).2⟩)
  count s h hc := ⟨h.intDivisor, h.extDivisor, h.divInUse, hc, h.gapCount, h.windowPos, h.trim, h.qualifying, h.switch⟩
  tick s b h := State.tick_lawful b h
  fallBack s h hs := by
    have := (h.setSource (src := .fallback) (by simp)).newCount
    rwa [← h.no_switch (by simp [hs])] at this

end Ticks

/-! ### The Time Base's requests and resets -/

/-- The divisors of a CONFIGURE_TIMEBASE that passes its checks (R88). -/
theorem ConfigureRequest.divisors_of_ok {q : ConfigureRequest} {w : PostSlot} {t : TimeBase} (h : q.check w t = .ok) :
    q.intDivisor.toNat ≤ 65536 ∧ q.extDivisor.toNat ≤ 65536 := by
  unfold ConfigureRequest.check at h
  split at h
  · cases h
  · rename_i hc
    simp only [not_or, Nat.not_lt] at hc
    exact ⟨hc.2.2.1, hc.2.2.2⟩

/-- The trim of a SET_TRIM that passes its checks (R91). -/
theorem trim_of_ok {w : PostSlot} (h : trimCheck w = .ok) : (PostSlot.trim w).natAbs ≤ 1023 := by
  unfold trimCheck at h
  split at h
  · cases h
  · split at h
    · cases h
    · exact Nat.not_lt.1 ‹_›

section Requests
variable {s : State} {r : IntakeRecord} {w : PostSlot} (h : s.tb.Lawful)
include h

theorem State.takeConfigure_lawful : (s.takeConfigure r w).tb.Lawful := by
  unfold State.takeConfigure
  dsimp only
  split
  · exact h
  · rename_i hok
    obtain ⟨hi, he⟩ := ConfigureRequest.divisors_of_ok (not_not.1 hok)
    have hd := h.setDivisors hi he
    split
    · rename_i hs
      have := (hd.setSource (src := .internal) (by simp)).newCount
      rwa [← hd.no_switch (by simp [hs])] at this
    · rename_i hs
      have := hd.setSource (src := .internal) (by simp)
      rwa [← hd.no_switch (by simp [hs])] at this
    · exact hd.beginQualifying _
    · exact hd.beginQualifying _
    · exact hd

theorem State.takeSetTime_lawful : (s.takeSetTime r w).tb.Lawful := by
  unfold State.takeSetTime
  dsimp only
  split
  · have hr : s.endReplaced.tb.Lawful := s.endReplaced_tb ▸ h.setStep none
    unfold State.setTime
    split
    · exact hr.setStep _
    · exact hr.stepped _ _
  · exact h

theorem State.takeRequest_lawful (op : Opcode) : (s.takeRequest op r w).tb.Lawful := by
  have hframe := s.takeRequest_onlyIn r w op
  by_cases hp : Part.tb ∈ requestParts op
  · cases op <;> simp [requestParts] at hp
    case configureTimebase => exact State.takeConfigure_lawful h
    case setTrim =>
      simp only [State.takeRequest, State.takeSetTrim]
      split
      · rename_i hok
        exact h.setTrim (trim_of_ok hok)
      · exact h
    case setMarks =>
      simp only [State.takeRequest, State.takeSetMarks]
      split
      · exact h.setMarks _
      · exact h
    case setTime => exact State.takeSetTime_lawful h
  · exact hframe.tb_eq hp ▸ h

end Requests

theorem State.timeMark_tb (s : State) (b : Bool) : (s.timeMark b).tb = s.tb := (s.timeMark_onlyIn b).tb_eq (by simp)

theorem exec_alignEdge_lawful {s t : State} (h : s.tb.Lawful) (he : exec .alignEdge s = .next t) : t.tb.Lawful := by
  rw [← State.afterReset_tb] at h
  cases he
  split
  · split
    · rw [State.timeMark_tb]
      exact (h.setStep none).stepped _ _
    · rwa [State.timeMark_tb]
  · exact h

theorem exec_lawful {c : Instr} {s t : State} (h : s.tb.Lawful) (he : exec c s = .next t) : t.tb.Lawful := by
  have hend : s.afterReset.tb.Lawful := by rwa [State.afterReset_tb]
  cases hc : requestOpcode c with
  | some op =>
    rcases exec_request hc s with ⟨r, w, -, e⟩ | ⟨-, e⟩ <;> cases e.symm.trans he
    · exact State.takeRequest_lawful h op
    · exact hend
  | none =>
    by_cases hk : isClockCommand c = true
    · exact clockKeeps_lawful.exec hk hend he
    by_cases hr : isResetCommand c = true
    · rcases exec_reset_cases hr he with ⟨hf, -⟩ | hreset
      · exact hf.tb_eq (by simp) ▸ h
      · rcases hreset.tb with e | e | e <;> rw [e]
        · exact h.functionReset
        · exact h.mainLoss
        · exact .cold
    by_cases hp : Part.tb ∈ commandParts c
    · cases c <;> simp [commandParts] at hp <;> simp [requestOpcode, isClockCommand, isResetCommand] at hc hk hr
      case alignEdge => exact exec_alignEdge_lawful h he
      case keepAliveSupplyLoss =>
        rcases exec_keepAliveSupplyLoss_cases he with ⟨hf, -⟩ | ⟨-, -, e, -⟩
        · exact hf.tb_eq (by simp) ▸ h
        · exact e ▸ .cold
    · exact (exec_frame he).tb_eq hp ▸ h

/-- Settles O6: the requests, the clock's operations and the resets each keep the ranges; no other command changes the Time
Base. -/
theorem stepsKeepTheTimeBaseInRange : Obligations.StepsKeepTheTimeBaseInRange := fun _ _ =>
  step_keeps (P := fun s => s.tb.Lawful) (fun _ _ h => h) (fun s h => clockKeeps_lawful.idle (by rwa [State.afterReset_tb]) h)
    (fun _ _ _ => exec_lawful)

end Sys2Proof.Machine
end

section
/-!
SUPPORT. The law of enabling, READY and resets in progress: what a command leaves of it outside the resets, and each reset and
supply event.
-/
namespace Sys2Proof.Machine

/-- Nothing that the law of enabling, READY and resets speaks of differs between two states. -/
structure SameControl (s t : State) : Prop where
  inputs : t.inputs = s.inputs
  enabled : t.window.enabled = s.window.enabled
  ready : t.window.ready = s.window.ready
  cause : t.window.resetCause = s.window.resetCause
  inProgress : t.window.resetInProgress = s.window.resetInProgress
  awaited : t.window.awaited = s.window.awaited

namespace SameControl
variable {s t : State}

theorem refl (s : State) : SameControl s s := ⟨rfl, rfl, rfl, rfl, rfl, rfl⟩

theorem of_onlyIn {ps : List Part} (h : OnlyIn ps s t) (hw : Part.window ∉ ps) (hi : Part.inputs ∉ ps) : SameControl s t := by
  have e := h.window_eq hw
  exact ⟨h.inputs_eq hi, by rw [e], by rw [e], by rw [e], by rw [e], by rw [e]⟩

theorem ite {P : Prop} [Decidable P] {u : State} (ht : SameControl s t) (hu : SameControl s u) :
    SameControl s (if P then t else u) := by
  split
  · exact ht
  · exact hu

theorem windowLaw (h : SameControl s t) (hl : s.WindowLaw) : t.WindowLaw := by
  obtain ⟨h1, h2, h3, h4, h5, h6⟩ := h
  obtain ⟨l1, l2, l3, l4, l5⟩ := hl
  exact ⟨by rwa [h2, h3], by rwa [h1, h3, h5, h6], by rwa [h1, h3, h5], by rwa [h1, h4, h5, h6], by rwa [h5, h6]⟩

end SameControl

/-- The commands that the law of enabling, READY and resets turns on. -/
def isControlCommand : Instr → Bool
  | .enable | .functionReset _ | .resetAssert | .resetRelease | .abandonedAnswer _ _ _ | .mainSupplyLoss _
  | .mainSupplyReturn | .coldReset _ | .keepAliveSupplyLoss => true
  | _ => false

/-- Every other command keeps what the law speaks of, but that a reset about to end may end. -/
theorem exec_sameControl {c : Instr} {s t : State} (hc : isControlCommand c = false) (h : exec c s = .next t) :
    SameControl s t ∨ SameControl s.afterReset t := by
  by_cases hw : Part.window ∈ commandParts c
  · cases c <;> simp [commandParts, requestParts] at hw <;> simp [isControlCommand] at hc
    case intakeReadAnswer a =>
      cases h
      split
      · exact .inr (.refl _)
      · refine .inl (.ite (.refl s) ?_)
        split
        · rw [State.fetchError_eq]
          exact .ite ⟨rfl, rfl, rfl, rfl, rfl, rfl⟩ (.of_onlyIn (s.stallRing_onlyIn _) (by simp) (by simp))
        · exact .of_onlyIn (s.firstSlotRead_onlyIn _ _) (by simp) (by simp)
        · exact .of_onlyIn (s.decodeRecord_onlyIn _ _ _) (by simp) (by simp)
    case postingTailDoorbell ring v =>
      cases h
      exact .inr (.ite (.ite ⟨rfl, rfl, rfl, rfl, rfl, rfl⟩ (.ite ⟨rfl, rfl, rfl, rfl, rfl, rfl⟩ ⟨rfl, rfl, rfl, rfl, rfl, rfl⟩))
        (.refl _))
    case reportConsumerDoorbell ring v =>
      cases h
      exact .inr (.ite (.ite ⟨rfl, rfl, rfl, rfl, rfl, rfl⟩ (.ite ⟨rfl, rfl, rfl, rfl, rfl, rfl⟩ ⟨rfl, rfl, rfl, rfl, rfl, rfl⟩))
        (.refl _))
    case doorbellNoRing | adminPostBaseWrite | adminReportBaseWrite | adminSizesWrite | doorbellErrorClear | intrMaskWrite =>
      cases h
      exact .inr (.ite ⟨rfl, rfl, rfl, rfl, rfl, rfl⟩ (.refl _))
    case reportWriteAnswer wr a =>
      cases h
      split
      · split
        · refine .inl (.ite ?_ (.refl s))
          cases a
          · exact ⟨rfl, rfl, rfl, rfl, rfl, rfl⟩
          · exact .ite ⟨rfl, rfl, rfl, rfl, rfl, rfl⟩ ⟨rfl, rfl, rfl, rfl, rfl, rfl⟩
        · exact .inr (.refl _)
      · split
        · exact .inl ⟨rfl, rfl, rfl, rfl, rfl, rfl⟩
        · exact .inr (.refl _)
  · have hi : Part.inputs ∉ commandParts c := by
      cases c <;> simp [commandParts, requestParts] at hw ⊢
      all_goals cases hc
    exact (exec_frame h).imp (fun h => .of_onlyIn h hw hi) (fun h => .of_onlyIn h hw hi)

namespace State.WindowLaw
variable {s : State} (h : s.WindowLaw)
include h

theorem mainSupply_of_ready (hr : s.window.ready = true) : s.inputs.mainSupply = true := by
  by_contra hm
  simpa [hr] using (h.unpowered (by simpa using hm)).1

theorem mainSupply_of_inProgress (hr : s.window.resetInProgress = true) : s.inputs.mainSupply = true := by
  by_contra hm
  simpa [hr] using (h.unpowered (by simpa using hm)).2.1

/-- The end of a reset (R174). -/
theorem endReset : s.endReset.WindowLaw := by
  unfold State.endReset
  split
  · rename_i hc
    obtain ⟨hp, ha, -⟩ := hc
    exact ⟨fun _ => rfl, fun hm => absurd ((h.mainSupply_of_inProgress hp).symm.trans hm) (by decide), fun _ => rfl,
      fun e => absurd e Bool.false_ne_true, fun _ => ha⟩
  · exact h

theorem afterReset : s.afterReset.WindowLaw := by
  unfold State.afterReset
  split
  · exact h.endReset
  · exact h

end State.WindowLaw

/-- The register window without power (log entry 14). -/
theorem State.WindowLaw.of_unpowered {s : State} (hm : s.inputs.mainSupply = false) (hw : s.window = Window.unpowered) :
    s.WindowLaw := by
  constructor <;> rw [hw] <;> simp [hm, Window.unpowered, Window.cold]

/-- The taking of a reset with a cause other than COLD while the main supply is present (R173). -/
theorem State.WindowLaw.of_takeReset {s : State} {c : ResetCause} (hm : s.inputs.mainSupply = true) (hc : c ≠ .cold) :
    (s.takeReset c).WindowLaw := by
  have hi : (s.takeReset c).inputs = s.inputs := by simp [State.takeReset]
  have hw : (s.takeReset c).window = s.window.functionReset c s.outstanding := rfl
  constructor <;> simp [hw, hi, Window.functionReset, hm, hc]

/-- The operations that await their answers have no part in the law but that there are none outside a reset. -/
theorem State.WindowLaw.setAwaited {s : State} (h : s.WindowLaw) {ops : List PortOp}
    (hp : s.window.resetInProgress = true) (ho : s.window.awaited = [] → ops = []) :
    (s.setWindow { s.window with awaited := ops }).WindowLaw :=
  ⟨h.enabled, fun hm => absurd ((h.mainSupply_of_inProgress hp).symm.trans hm) (by decide),
    h.powered, fun a b => ⟨(h.cold a b).1, ho (h.cold a b).2⟩, fun e => absurd (hp.symm.trans e) (by decide)⟩

theorem exec_windowLaw {c : Instr} {s t : State} (h : s.WindowLaw) (he : exec c s = .next t) : t.WindowLaw := by
  have ha := h.afterReset
  by_cases hc : isControlCommand c = true
  · cases c <;> simp [isControlCommand] at hc
    case enable =>
      cases he
      split
      · rename_i hr
        split
        · exact ⟨fun _ => hr.1, fun hm => absurd ((ha.mainSupply_of_ready hr.1).symm.trans hm) (by decide),
            ha.powered, ha.cold, ha.awaited⟩
        · exact SameControl.windowLaw (s := s.afterReset) ⟨rfl, rfl, rfl, rfl, rfl, rfl⟩ ha
      · exact ha
    case functionReset b =>
      cases he
      split
      · exact .of_takeReset (ha.mainSupply_of_ready ‹_›) (by simp)
      · exact ha
    case resetAssert =>
      cases he
      split
      · exact h
      · split
        · rename_i hm
          exact .of_takeReset hm.1 (by simp)
        · exact ⟨h.enabled, h.unpowered, h.powered, fun a b => ⟨rfl, (h.cold a b).2⟩, h.awaited⟩
    case resetRelease =>
      cases he
      by_cases hcold : s.window.resetInProgress = true ∧ s.window.awaited = []
      · rw [State.endReset, if_pos ⟨hcold.1, hcold.2, rfl⟩]
        exact ⟨fun _ => rfl, fun hm => absurd ((h.mainSupply_of_inProgress hcold.1).symm.trans hm) (by decide),
          fun _ => rfl, fun e => absurd e Bool.false_ne_true, fun _ => hcold.2⟩
      · rw [State.endReset, if_neg (fun e => hcold ⟨e.1, e.2.1⟩)]
        exact ⟨h.enabled, h.unpowered, h.powered, fun a b => absurd ⟨a, (h.cold a b).2⟩ hcold, h.awaited⟩
    case abandonedAnswer k ok l =>
      cases he
      split
      · exact ha
      · rename_i op hop
        have hp : s.window.resetInProgress = true := by
          by_contra hn
          simp [h.awaited (by simpa using hn)] at hop
        have hland : (s.landOp op l).WindowLaw := (SameControl.of_onlyIn (s.landOp_onlyIn op l) (by simp) (by simp)).windowLaw h
        have hwin : (s.landOp op l).window = s.window := (s.landOp_onlyIn op l).window_eq (by simp)
        dsimp only
        refine (hland.setAwaited (by rwa [hwin]) ?_).endReset
        intro e
        rw [e]
        rfl
    case mainSupplyLoss l =>
      cases he
      split
      · dsimp only
        split <;> exact .of_unpowered rfl rfl
      · exact h
    case mainSupplyReturn =>
      cases he
      split
      · exact .of_takeReset rfl (by split <;> simp)
      · exact ha
    case coldReset k =>
      cases he
      split
      · have hpin : s.resetBlocks.loseKeepAlive.inputs.resetPin = s.inputs.resetPin := by simp [State.loseKeepAlive]
        cases hp : s.inputs.resetPin
        · rw [State.endReset, if_pos ⟨rfl, rfl, hpin.trans hp⟩]
          exact ⟨fun _ => rfl, fun hm => absurd hm.symm Bool.false_ne_true, fun _ => rfl, fun e =>
            absurd e Bool.false_ne_true, fun _ => rfl⟩
        · exact State.WindowLaw.endReset ⟨fun e => absurd e Bool.false_ne_true, fun hm => absurd hm.symm Bool.false_ne_true,
            fun _ => rfl,
            fun _ _ => ⟨hpin.trans hp, rfl⟩, fun _ => rfl⟩
      · exact ha
    case keepAliveSupplyLoss =>
      cases he
      have hk : ∀ i : Inputs, i.mainSupply = s.afterReset.inputs.mainSupply → i.resetPin = s.afterReset.inputs.resetPin →
          (s.afterReset.setInputs i).WindowLaw :=
        fun i hm hp => ⟨ha.enabled, by simpa [hm] using ha.unpowered, by simpa [hm] using ha.powered,
          by simpa [hp] using ha.cold, ha.awaited⟩
      split
      · exact hk _ rfl rfl
      · exact SameControl.windowLaw (s := s.afterReset.setInputs _) ⟨rfl, rfl, rfl, rfl, rfl, rfl⟩ (hk _ rfl rfl)
  · rcases exec_sameControl (by simpa using hc) he with e | e
    · exact e.windowLaw h
    · exact e.windowLaw ha

/-- Settles O7: outside the resets nothing the law speaks of changes but that a reset ends; each reset and supply event meets it
anew. -/
theorem stepsKeepTheWindowLaw : Obligations.StepsKeepTheWindowLaw := fun _ _ =>
  step_keeps (P := State.WindowLaw) (fun _ _ h => ⟨h.enabled, h.unpowered, h.powered, h.cold, h.awaited⟩)
    (fun s h => s.idle_framed.elim (fun e => (SameControl.of_onlyIn e (by simp) (by simp)).windowLaw h)
      (fun e => (SameControl.of_onlyIn e (by simp) (by simp)).windowLaw h.afterReset))
    (fun _ _ _ => exec_windowLaw)

end Sys2Proof.Machine
end

section
/-!
SUPPORT. The expiry queues: what taking a slot off its queue and putting it on one keep of their law, and the commands that do
either.
-/
namespace Sys2Proof.Machine

/-- One store has the queues and slots of another, but that slot `n` is on no queue of it. -/
structure OffQueue (n : Nat) (t u : TimerStore) : Prop where
  queue : ∀ sc, u.queue sc = (t.queue sc).filter (fun m => decide (m ≠ n))
  slot : ∀ m, m ≠ n → u.slot m = t.slot m

theorem OffQueue.leave (t : TimerStore) (n : Nat) : OffQueue n t (t.leave n) :=
  ⟨fun sc => by simp, fun m _ => by simp⟩

namespace TimerStore.QueueLaw
variable {t u : TimerStore} {n : Nat} (h : t.QueueLaw)
include h

/-- The law looks at the queues, and at each slot's state, scale, deadline and insertion sequence. -/
theorem congr (hq : ∀ sc, u.queue sc = t.queue sc) (hs : ∀ m, (u.slot m).state = (t.slot m).state ∧
    (u.slot m).scale = (t.slot m).scale ∧ (u.slot m).deadline = (t.slot m).deadline ∧ (u.slot m).seq = (t.slot m).seq) :
    u.QueueLaw := by
  refine ⟨fun sc m => ?_, fun sc => ?_, fun sc => ?_⟩
  · rw [hq, (hs m).1, (hs m).2.1]
    exact h.members sc m
  · rw [hq]
    exact h.once sc
  · rw [hq]
    refine (h.inOrder sc).imp (fun {a b} hab => ?_)
    rwa [TimerSlot.before_congr (hs b).2.2.1 (hs b).2.2.2 (hs a).2.2.1 (hs a).2.2.2]

/-- A slot that is not ARMED is on no queue. -/
theorem offQueue_self (hn : (t.slot n).state ≠ .armed) : OffQueue n t t := by
  refine ⟨fun sc => (List.filter_eq_self.2 fun m hm => ?_).symm, fun _ _ => rfl⟩
  have := ((h.members sc m).1 hm).1
  exact decide_eq_true (fun e => hn (e ▸ this))

theorem offQueue_members (hu : OffQueue n t u) (sc : Scale) (m : Nat) :
    m ∈ u.queue sc ↔ m ≠ n ∧ (t.slot m).state = .armed ∧ (t.slot m).scale = sc := by
  rw [hu.queue, List.mem_filter, h.members, decide_eq_true_eq]
  tauto

theorem offQueue_inOrder (hu : OffQueue n t u) (sc : Scale) :
    (u.queue sc).Pairwise (fun a b => (t.slot b).before (t.slot a) = false) := by
  rw [hu.queue]
  exact (h.inOrder sc).sublist List.filter_sublist

/-- A slot off its queue and no longer ARMED (R3, R9). -/
theorem removed (hu : OffQueue n t u) (hn : (u.slot n).state ≠ .armed) : u.QueueLaw := by
  have hne : ∀ sc m, m ∈ u.queue sc → m ≠ n := fun sc m hm => ((h.offQueue_members hu sc m).1 hm).1
  refine ⟨fun sc m => ?_, fun sc => ?_, fun sc => ?_⟩
  · rw [h.offQueue_members hu]
    by_cases hm : m = n
    · subst hm
      simp [hn]
    · rw [hu.slot m hm]
      simp [hm]
  · rw [hu.queue]
    exact (h.once sc).filter _
  · refine (h.offQueue_inOrder hu sc).imp_of_mem (fun ha hb hab => ?_)
    rwa [hu.slot _ (hne sc _ ha), hu.slot _ (hne sc _ hb)]

/-- A slot off its queue joins the queue of its scale (R4, R6, R7). -/
theorem joined (hu : OffQueue n t u) {x : TimerSlot} (hx : x.state = .armed) : (u.join n x).QueueLaw := by
  have hne : ∀ sc m, m ∈ u.queue sc → m ≠ n := fun sc m hm => ((h.offQueue_members hu sc m).1 hm).1
  have hslot : ∀ m, (u.join n x).slot m = (u.setSlot n { x with seq := u.nextSeq }).slot m := fun m => by simp
  refine ⟨fun sc m => ?_, fun sc => ?_, fun sc => ?_⟩
  · rw [TimerStore.mem_join_queue, h.offQueue_members hu, TimerStore.join_slot]
    by_cases hm : m = n
    · subst hm
      simp [hx, eq_comm]
    · simp [hm, hu.slot m hm]
  · rw [TimerStore.join_queue]
    have hnodup : (u.queue sc).Nodup := by
      rw [hu.queue]
      exact (h.once sc).filter _
    split
    · exact TimerStore.nodup_place _ n hnodup (fun hm => hne sc n hm rfl)
    · exact hnodup
  · have hkept : (u.queue sc).Pairwise (fun a b => ((u.setSlot n { x with seq := u.nextSeq }).slot b).before
        ((u.setSlot n { x with seq := u.nextSeq }).slot a) = false) := by
      refine (h.offQueue_inOrder hu sc).imp_of_mem (fun ha hb hab => ?_)
      have hna := hne sc _ ha
      have hnb := hne sc _ hb
      rwa [TimerStore.slot_setSlot, TimerStore.slot_setSlot, if_neg hna, if_neg hnb, hu.slot _ hna, hu.slot _ hnb]
    simp only [hslot]
    rw [TimerStore.join_queue]
    split
    · exact TimerStore.place_inOrder _ n hkept
    · exact hkept

theorem goFree : (t.goFree n).QueueLaw :=
  h.removed (n := n) ⟨fun sc => by simp, fun m hm => by simp [hm]⟩ (by simp)

theorem fire : (t.fire n).QueueLaw :=
  h.removed (n := n) ⟨fun sc => by simp, fun m hm => by simp [hm]⟩ (by simp)

theorem markStep (p0 p1 : U64) : (t.markStep p0 p1).QueueLaw := h.congr (fun sc => by simp) (fun m => by simp)

theorem requestCancel : (t.requestCancel n).QueueLaw := by
  refine h.congr (fun sc => by simp) (fun m => ?_)
  rw [TimerStore.requestCancel_slot]
  split
  · rename_i e
    subst e
    simp
  · simp

end TimerStore.QueueLaw

theorem TimerStore.QueueLaw.reset : TimerStore.reset.QueueLaw :=
  ⟨fun sc m => by cases sc <;> simp [TimerStore.reset, TimerStore.queue, TimerStore.slot, TimerSlot.reset],
    fun sc => by cases sc <;> exact List.nodup_nil, fun sc => by cases sc <;> exact List.Pairwise.nil⟩

/-! ### The commands -/

/-- A RETIME that passes its checks finds its slot ARMED (R24). -/
theorem RetimeRequest.armed_of_ok {q : RetimeRequest} {ring : Nat} {w : PostSlot} {x : TimerSlot} {d now : U64}
    (hq : q.check ring w x d now = .ok) : x.state = .armed := by
  unfold RetimeRequest.check at hq
  cases hx : x.state with
  | armed => rfl
  | free =>
    simp only [hx] at hq
    split at hq
    · exact absurd hq ‹_›
    · cases hq
  | firing =>
    simp only [hx] at hq
    split at hq
    · exact absurd hq ‹_›
    · simp only [reduceCtorEq, if_false, if_true] at hq
      split at hq <;> cases hq

section Commands
variable {s : State} (h : s.store.QueueLaw)
include h

/-- The store without the old arming of a slot that is not FIRING (R19). -/
theorem State.removeArming_offQueue (n : Nat) : OffQueue n s.store (s.removeArming n).store := by
  unfold State.removeArming
  split
  · rw [State.releaseRefs_store, State.setStore_store]
    exact .leave _ _
  · exact h.offQueue_self ‹_›

theorem State.armSlot_queueLaw (n : Nat) {x : TimerSlot} (hx : x.state = .armed) : (s.armSlot n x).store.QueueLaw := by
  simp only [State.armSlot, State.offer_store, State.setStore_store, State.addRefs_store]
  exact h.joined (State.removeArming_offQueue h n) hx

theorem State.takeRequest_queueLaw (op : Opcode) (r : IntakeRecord) (w : PostSlot) :
    (s.takeRequest op r w).store.QueueLaw := by
  by_cases hp : Part.store ∈ requestParts op
  · cases op <;> simp [requestParts] at hp
    case arm =>
      simp only [State.takeRequest, State.takeArm]
      split
      · exact State.armSlot_queueLaw h _ rfl
      · exact h
    case cancel =>
      simp only [State.takeRequest, State.takeCancel]
      split
      · simp only [State.answer_store, State.freeSlot, State.releaseRefs_store, State.setStore_store]
        exact h.goFree
      · exact h.requestCancel
      · exact h
    case retime =>
      simp only [State.takeRequest, State.takeRetime]
      split
      · rename_i hok
        exact h.joined (.leave _ _) (RetimeRequest.armed_of_ok hok)
      · exact h
    case setTime =>
      simp only [State.takeRequest, State.takeSetTime]
      split
      · have hr : s.endReplaced.store.QueueLaw := s.endReplaced_store ▸ h
        unfold State.setTime
        split
        · exact hr
        · exact hr.markStep _ _
      · exact h
  · rw [(s.takeRequest_onlyIn r w op).store_eq hp]
    exact h

/-- A completion return taken by the slot it names, which is FIRING (R31). -/
theorem State.takeReturn_queueLaw (c : Completion) (hc : (s.store.slot c.timer).state = .firing) :
    (s.takeReturn c).store.QueueLaw := by
  have hreport : ∀ x f, (s.handReport x f).store = s.store := by
    intro x f
    obtain ⟨mid, e, -⟩ := s.handReport_spec x f
    rw [e, State.setReport_store]
  have hoff : OffQueue c.timer s.store s.store := h.offQueue_self (by simp [hc])
  unfold State.takeReturn
  dsimp only
  cases (s.store.slot c.timer).outcome c (s.tb.now (s.store.slot c.timer).scale) with
  | ends b =>
    simp only [State.settleSlot, State.releaseRefs_store, State.setStore_store, hreport]
    exact h.removed (n := c.timer) ⟨fun sc => by simp, fun m hm => by simp [hm]⟩ (by simp)
  | nextPeriod d k =>
    simp only [State.settleSlot, State.offer_store, State.setStore_store, hreport]
    exact h.joined hoff rfl
  | followPhase d =>
    simp only [State.settleSlot, State.offer_store, State.setStore_store, hreport]
    exact h.joined hoff rfl

end Commands

theorem exec_queueLaw {c : Instr} {s t : State} (h : s.store.QueueLaw) (he : exec c s = .next t) : t.store.QueueLaw := by
  cases hc : requestOpcode c with
  | some op =>
    rcases exec_request hc s with ⟨r, w, -, e⟩ | ⟨-, e⟩ <;> cases e.symm.trans he
    · exact State.takeRequest_queueLaw h op r w
    · rwa [State.afterReset_store]
  | none =>
    by_cases hr : isResetCommand c = true
    · rcases exec_reset_cases hr he with ⟨hf, -⟩ | hreset
      · rw [hf.store_eq (by simp)]
        exact h
      · rw [hreset.store]
        exact .reset
    by_cases hp : Part.store ∈ commandParts c
    · cases c <;> simp [commandParts] at hp <;> simp [requestOpcode, isResetCommand] at hc hr
      case alignEdge =>
        cases he
        rw [← State.afterReset_store] at h
        have hmark : ∀ (u : State) b, (u.timeMark b).store = u.store := fun u b => (u.timeMark_onlyIn b).store_eq (by simp)
        split
        · split
          · rw [hmark]
            exact h.markStep _ _
          · rwa [hmark]
        · exact h
      case dispatchClaim =>
        cases he
        split
        · rwa [State.afterReset_store]
        · split
          · split
            · exact h
            · exact h.fire
          · exact h
      case completionReturn =>
        cases he
        split
        · rwa [State.afterReset_store]
        · dsimp only
          split
          · refine State.takeReturn_queueLaw ?_ _ ‹_›
            exact h
          · exact h
    · rw [(exec_frame he).store_eq hp]
      exact h

/-- Settles O9: every command that touches the store takes a slot off its queue, puts one on it in its place, or changes no
queue. -/
theorem stepsKeepArmedSlotsOnTheirQueues : Obligations.StepsKeepArmedSlotsOnTheirQueues := fun _ _ =>
  step_keeps (P := fun s => s.store.QueueLaw) (fun _ _ h => h)
    (fun s h => by rw [s.idle_framed.store_eq (by simp)]; exact h) (fun _ _ _ => exec_queueLaw)

end Sys2Proof.Machine
end

section
/-!
SUPPORT. The action slots: what completing, beginning and placing an action keep of the order of dispatch, and the commands
that do so.
-/
namespace Sys2Proof.Machine

/-- What stands before a slot in the order of dispatch was dispatched before it. -/
theorem mem_dispatchedBefore {a b : Nat} {l : List Nat} (h : [a, b].Sublist l) (hl : l.Nodup) : a ∈ dispatchedBefore b l := by
  unfold dispatchedBefore
  induction l with
  | nil => cases h
  | cons c l ih =>
    rw [List.nodup_cons] at hl
    cases h with
    | cons _ h =>
      have hcb : c ≠ b := fun e => hl.1 (e ▸ h.subset (by simp))
      rw [List.takeWhile_cons_of_pos (by simpa using hcb)]
      exact List.mem_cons_of_mem _ (ih h hl.2)
    | cons_cons _ h =>
      have hab : a ≠ b := fun e => hl.1 (e ▸ h.subset (by simp))
      rw [List.takeWhile_cons_of_pos (by simpa using hab)]
      exact List.mem_cons_self ..

namespace ActionEngine.OrderLaw
variable {e f : ActionEngine} {i : Nat} (h : e.OrderLaw)
include h

/-- An action that may begin has no action dispatched before it on its target (R57). -/
theorem no_earlier {a : Nat} (hab : [a, i].Sublist e.order) (hta : (e.slot a).target ≠ none)
    (ht : (e.slot i).target = (e.slot a).target) : e.mayBegin i = false := by
  obtain ⟨t, hat⟩ := Option.ne_none_iff_exists'.1 hta
  have hocc := (h.occupied a).1 (hab.subset (by simp))
  have hholds := (e.holdsTarget_iff _ t).2 ⟨a, mem_dispatchedBefore hab h.once, hocc, hat⟩
  unfold ActionEngine.mayBegin
  rw [ht, hat]
  simp [hholds]

/-- The order of the slots as it was, and one slot's record exchanged: still occupied, its target the same, and begun only if it
had begun or no action dispatched before it has its target. -/
theorem setSlot {x : ActionSlot} (hi : (e.slot i).stage ≠ .empty) (hx : x.stage ≠ .empty)
    (ht : x.target = (e.slot i).target)
    (hb : (e.slot i).stage ≠ .held ∨ e.mayBegin i = true) : (e.setSlot i x).OrderLaw := by
  have htarget : ∀ j, ((e.setSlot i x).slot j).target = (e.slot j).target := by
    intro j
    rw [ActionEngine.slot_setSlot]
    split
    · rename_i hj
      rw [hj, ht]
    · rfl
  refine ⟨fun j => ?_, h.numbered, h.once, ?_⟩
  · rw [ActionEngine.setSlot_order, h.occupied, ActionEngine.slot_setSlot]
    split
    · rename_i hj
      simp [hj, hi, hx]
    · rfl
  · rw [ActionEngine.setSlot_order, List.pairwise_iff_forall_sublist]
    intro a b hab hta htb
    rw [htarget] at hta
    rw [htarget, htarget] at htb
    have hheld := List.pairwise_iff_forall_sublist.1 h.oneBegun hab hta htb
    rw [ActionEngine.slot_setSlot]
    split
    · rename_i hbi
      subst hbi
      rcases hb with hb | hb
      · exact absurd hheld hb
      · rw [h.no_earlier hab hta htb] at hb
        cases hb
    · exact hheld

/-- An action's completion (R72). -/
theorem complete (x : ActionSlot) : (e.complete i x).OrderLaw := by
  refine ⟨fun j => ?_, fun j hj => ?_, ?_, ?_⟩
  · rw [ActionEngine.complete_order, List.mem_filter, h.occupied, ActionEngine.complete_slot, decide_eq_true_eq]
    by_cases hj : j = i
    · simp [hj, ActionSlot.reset]
    · simp [hj]
  · rw [ActionEngine.complete_order, List.mem_filter] at hj
    exact h.numbered j hj.1
  · exact h.once.filter _
  · rw [ActionEngine.complete_order]
    refine (h.oneBegun.sublist List.filter_sublist).imp_of_mem (fun ha hb hab => ?_)
    have hna := of_decide_eq_true (List.mem_filter.1 ha).2
    have hnb := of_decide_eq_true (List.mem_filter.1 hb).2
    rwa [ActionEngine.complete_slot, ActionEngine.complete_slot, if_neg hna, if_neg hnb]

/-- The law looks at the order and the occupied slots alone. -/
theorem congr (ho : f.order = e.order)
    (hs : ∀ j, f.slot j = e.slot j ∨ ((f.slot j).stage = .empty ∧ (e.slot j).stage = .empty)) : f.OrderLaw := by
  have hkept : ∀ j ∈ e.order, f.slot j = e.slot j := fun j hj =>
    (hs j).resolve_right (fun hempty => (h.occupied j).1 hj hempty.2)
  refine ⟨fun j => ?_, by rw [ho]; exact h.numbered, by rw [ho]; exact h.once, ?_⟩
  · rw [ho, h.occupied]
    rcases hs j with e | ⟨e₁, e₂⟩
    · rw [e]
    · simp [e₁, e₂]
  · rw [ho]
    refine h.oneBegun.imp_of_mem (fun ha hb hab => ?_)
    rwa [hkept _ ha, hkept _ hb]

/-- A HELD action begun once it may (R57, R59). -/
theorem begin (hi : (e.slot i).stage ≠ .empty) (hb : e.mayBegin i = true) : (e.begin i (e.slot i)).OrderLaw := by
  by_cases hk : (e.slot i).action.kind = .note
  · rw [ActionEngine.begin_note e i _ hk]
    exact h.complete _
  · rw [ActionEngine.begin_other e i _ hk]
    exact h.setSlot hi (ActionKind.firstStage_ne _).1 rfl (.inr hb)

/-- A handed action in an EMPTY slot at the end of the order, HELD where its target is occupied (R57, R59). -/
theorem place {x : ActionSlot} (hi : i < 4) (hempty : (e.slot i).stage = .empty) (hx : x.stage = .held)
    (hnote : x.action.kind = .note → x.target = none) : (e.placeAction i x).OrderLaw := by
  have hnew : i ∉ e.order := fun hm => (h.occupied i).1 hm hempty
  by_cases hk : x.action.kind = .note
  · obtain ⟨hslot, horder, -⟩ := ActionEngine.placeAction_note_spec e i x hk (hnote hk)
    refine h.congr ?_ (fun j => ?_)
    · rw [horder, List.filter_append, List.filter_eq_self.2 (fun j hj => decide_eq_true (ne_of_mem_of_not_mem hj hnew))]
      simp
    · rw [hslot]
      split
      · rename_i hj
        exact .inr ⟨rfl, hj ▸ hempty⟩
      · exact .inl rfl
  · obtain ⟨hslot, horder, -⟩ := ActionEngine.placeAction_other e i x hk
    have hkept : ∀ j ∈ e.order, (e.placeAction i x).slot j = e.slot j := by
      intro j hj
      rw [hslot, if_neg (ne_of_mem_of_not_mem hj hnew)]
    refine ⟨fun j => ?_, fun j hj => ?_, ?_, ?_⟩
    · rw [horder, List.mem_append, List.mem_singleton, h.occupied, hslot]
      by_cases hj : j = i
      · subst hj
        simp only [or_true, if_true, true_iff]
        split
        · exact (ActionKind.firstStage_ne _).1
        · simp [hx]
      · simp [hj]
    · rw [horder, List.mem_append, List.mem_singleton] at hj
      exact hj.elim (h.numbered j) (fun hji => hji ▸ hi)
    · rw [horder]
      exact List.nodup_append.2 ⟨h.once, by simp, fun a ha b hb => by
        rw [List.mem_singleton.1 hb]
        exact fun hab => hnew (hab ▸ ha)⟩
    · rw [horder, List.pairwise_append]
      refine ⟨h.oneBegun.imp_of_mem (fun ha hb hab => ?_), by simp, fun a ha b hb hta htb => ?_⟩
      · rwa [hkept _ ha, hkept _ hb]
      · rw [List.mem_singleton.1 hb] at htb ⊢
        rw [hkept a ha] at hta htb
        rw [hslot, if_pos rfl] at htb ⊢
        have hp : ¬e.passes x.target = true := fun hp => by
          rcases (e.passes_iff x.target).1 hp with hn | hn
          · exact hta (htb.symm.trans hn)
          · exact hn a (h.numbered a ha) ((h.occupied a).1 ha) htb.symm
        dsimp only
        rw [if_neg hp, hx]

end ActionEngine.OrderLaw

theorem ActionEngine.OrderLaw.reset : ActionEngine.reset.OrderLaw :=
  ⟨fun i => by simp [ActionEngine.reset, ActionEngine.slot, ActionSlot.reset], fun i hi => by simp [ActionEngine.reset] at hi,
    List.nodup_nil, List.Pairwise.nil⟩

/-- The action handed over for a NOTE has no target (R52). -/
theorem State.handed_target_note (s : State) (n : Nat) (h : (s.handed n).action.kind = .note) : (s.handed n).target = none :=
  s.targetOf_note h

theorem exec_orderLaw {c : Instr} {s t : State} (h : s.engine.OrderLaw) (he : exec c s = .next t) : t.engine.OrderLaw := by
  have hend : s.afterReset.engine.OrderLaw := by rwa [State.afterReset_engine]
  by_cases hr : isResetCommand c = true
  · rcases exec_reset_cases hr he with ⟨hf, -⟩ | hreset
    · rw [hf.engine_eq (by simp)]
      exact h
    · rw [hreset.engine]
      exact .reset
  by_cases hp : Part.engine ∈ commandParts c
  · cases c <;> simp [commandParts, requestParts] at hp <;> simp [isResetCommand] at hr
    case dispatchClaim =>
      cases he
      split
      · exact hend
      · rename_i n _
        split
        · split
          · exact h
          · rename_i i hi
            obtain ⟨hlt, hempty⟩ := ActionEngine.emptySlot_some _ _ hi
            exact h.place hlt hempty rfl (s.handed_target_note n)
        · exact h
    case heldActionBegin i =>
      cases he
      split
      · rename_i hheld
        split
        · exact h.begin (by simp [hheld]) ‹_›
        · exact h
      · exact hend
    case actionReadAnswer i a =>
      cases he
      split
      · rename_i hreading
        split
        · unfold State.setEngine ActionEngine.readOk
          dsimp only
          split
          · exact h.setSlot (by simp [hreading]) (by simp) rfl (.inl (by simp [hreading]))
          · exact h.complete _
        · exact h.complete _
      · exact hend
    case actionWriteAnswer i a =>
      cases he
      split
      · exact h.complete _
      · exact hend
    case lineRequest i =>
      cases he
      split
      · rename_i hline
        exact h.setSlot (by simp [hline.1]) (by simp [hline.1]) rfl (.inl (by simp [hline.1]))
      · exact hend
    case lineAnswer i =>
      cases he
      split
      · exact h.complete _
      · exact hend
    case completionReturn =>
      cases he
      split
      · exact hend
      · rename_i c cs _
        have hpop : ({ s.engine with returns := cs } : ActionEngine).OrderLaw := h.congr rfl (fun _ => .inl rfl)
        dsimp only
        split
        · rw [(State.takeReturn_onlyIn _ c).engine_eq (by simp)]
          exact hpop
        · exact hpop
  · rw [(exec_frame he).engine_eq hp]
    exact h

/-- Settles O10: every command that touches the action slots completes, begins or places an action, or goes on with one that has
begun. -/
theorem stepsKeepOneBegunActionPerTarget : Obligations.StepsKeepOneBegunActionPerTarget := fun _ _ =>
  step_keeps (P := fun s => s.engine.OrderLaw) (fun _ _ h => h)
    (fun s h => by rw [s.idle_framed.engine_eq (by simp)]; exact h) (fun _ _ _ => exec_orderLaw)

end Sys2Proof.Machine
end

section
/-!
SUPPORT. The FIRING slots and the actions and completion returns on their way: what each command makes of both (R9, R10).
-/
namespace Sys2Proof.Machine

/-! ### The timers in flight -/

namespace ActionEngine
variable {e : ActionEngine} {i : Nat}

/-- A slot's record exchanged for another of the same timer. -/
theorem timers_setSlot {x : ActionSlot} (hx : x.timer = (e.slot i).timer) : (e.setSlot i x).timers = e.timers := by
  unfold ActionEngine.timers
  congr 1
  refine List.map_congr_left (fun j _ => ?_)
  rw [ActionEngine.slot_setSlot]
  split
  · rename_i hj
    rw [hx, hj]
  · rfl

/-- An action that completes is no longer in flight; its completion return is on its way (R72). -/
theorem timers_complete (h : e.OrderLaw) (hi : (e.slot i).stage ≠ .empty) {x : ActionSlot}
    (hx : x.timer = (e.slot i).timer) : (e.complete i x).timers.Perm e.timers := by
  have hmem : i ∈ e.order := (h.occupied i).2 hi
  have horder : e.order.Perm (i :: e.order.filter (fun j => decide (j ≠ i))) := by
    have := List.perm_cons_erase hmem
    have hfun : (fun j => j != i) = (fun j => decide (j ≠ i)) := by
      funext j
      simp [bne, beq_eq_decide]
    rwa [h.once.erase_eq_filter i, hfun] at this
  have hslots : (e.order.filter (fun j => decide (j ≠ i))).map (fun j => ((e.complete i x).slot j).timer) =
      (e.order.filter (fun j => decide (j ≠ i))).map (fun j => (e.slot j).timer) :=
    List.map_congr_left (fun j hj => by
      rw [ActionEngine.complete_slot, if_neg (of_decide_eq_true (List.mem_filter.1 hj).2)])
  unfold ActionEngine.timers
  rw [ActionEngine.complete_order, ActionEngine.complete_returns, hslots, List.map_append, ← List.append_assoc]
  refine List.perm_append_comm.trans ?_
  have := (horder.map (fun j => (e.slot j).timer)).append_right (e.returns.map Completion.timer)
  exact (by simpa [hx] using this.symm)

/-- An action handed over is in flight or its completion return is on its way, beside those that were (R57, R62). -/
theorem timers_placeAction (h : e.OrderLaw) (hempty : (e.slot i).stage = .empty) {x : ActionSlot}
    (hnote : x.action.kind = .note → x.target = none) : (e.placeAction i x).timers.Perm (x.timer :: e.timers) := by
  have hnew : i ∉ e.order := fun hm => (h.occupied i).1 hm hempty
  have hkept : (∀ j, j ≠ i → (e.placeAction i x).slot j = e.slot j) →
      e.order.map (fun j => ((e.placeAction i x).slot j).timer) = e.order.map (fun j => (e.slot j).timer) :=
    fun hs => List.map_congr_left (fun j hj => by rw [hs j (ne_of_mem_of_not_mem hj hnew)])
  unfold ActionEngine.timers
  by_cases hk : x.action.kind = .note
  · obtain ⟨hslot, horder, hreturns⟩ := ActionEngine.placeAction_note_spec e i x hk (hnote hk)
    have hsame : (e.order ++ [i]).filter (fun j => decide (j ≠ i)) = e.order := by
      rw [List.filter_append, List.filter_eq_self.2 (fun j hj => decide_eq_true (ne_of_mem_of_not_mem hj hnew))]
      simp
    rw [horder, hreturns, hsame, hkept (fun j hj => by rw [hslot, if_neg hj]), List.map_append, ← List.append_assoc]
    exact List.perm_append_comm
  · obtain ⟨hslot, horder, hreturns⟩ := ActionEngine.placeAction_other e i x hk
    rw [horder, hreturns, List.map_append, hkept (fun j hj => by rw [hslot, if_neg hj])]
    simp only [List.map_cons, List.map_nil, hslot, if_true, List.append_assoc]
    exact List.perm_middle

end ActionEngine

/-! ### The law -/

namespace State.FiringLaw
variable {s t : State} (h : s.FiringLaw)
include h

/-- The law looks at the timers in flight, in any order, and at which slots are FIRING. -/
theorem congr (he : t.engine.timers.Perm s.engine.timers)
    (hs : ∀ n, (t.store.slot n).state = .firing ↔ (s.store.slot n).state = .firing) : t.FiringLaw :=
  ⟨fun n => by rw [he.mem_iff, h.firing, hs], he.nodup_iff.2 h.once⟩

theorem of_store (he : t.engine = s.engine)
    (hs : ∀ n, (t.store.slot n).state = .firing ↔ (s.store.slot n).state = .firing) : t.FiringLaw :=
  h.congr (by rw [he]) hs

theorem of_engine (he : t.engine.timers.Perm s.engine.timers) (hs : t.store = s.store) : t.FiringLaw :=
  h.congr he (fun n => by rw [hs])

end State.FiringLaw

/-! ### The requests change no FIRING slot's state -/

section Requests
variable (s : State) (r : IntakeRecord) (w : PostSlot)

theorem CancelRequest.armed_of_ok {q : CancelRequest} {ring : Nat} {w : PostSlot} {x : TimerSlot}
    (h : q.check ring w x = .ok) : x.state = .armed := by
  unfold CancelRequest.check at h
  dsimp only at h
  split at h
  · exact absurd h ‹_›
  · split at h
    · cases h
    · assumption
    · split at h <;> cases h

theorem State.takeRequest_firing (op : Opcode) (n : Nat) :
    ((s.takeRequest op r w).store.slot n).state = .firing ↔ (s.store.slot n).state = .firing := by
  by_cases hp : Part.store ∈ requestParts op
  · cases op <;> simp [requestParts] at hp
    case arm =>
      simp only [State.takeRequest]
      by_cases hok : armStatus s r w = .ok
      · obtain ⟨-, -, hfree⟩ := armStatus_eq_ok hok
        rw [State.takeArm_accepted s r w hok, State.answer_store]
        have hslot := (State.armSlot_spec s ((ArmRequest.read w r.slot2).arming (s.store.slot (PostSlot.u16 w 2).toNat)
          (deadlineGiven s (PostSlot.bit w 1 1) (PostSlot.scale w) (PostSlot.u64 w 8))) _ hfree rfl).2.1 n
        refine iff_of_eq (congrArg (TimerSlot.state · = .firing) hslot) |>.trans ?_
        split
        · rename_i hn
          subst hn
          exact iff_of_false (by simp [ArmRequest.arming]) hfree
        · rfl
      · rw [State.takeArm_refused s r w hok, State.answer_store]
    case cancel =>
      simp only [State.takeRequest, State.takeCancel]
      split
      · rename_i hok
        have harmed := CancelRequest.armed_of_ok hok
        simp only [State.answer_store, State.freeSlot, State.releaseRefs_store, State.setStore_store,
          TimerStore.goFree_slot]
        split
        · rename_i hn
          subst hn
          simp [harmed]
        · rfl
      · simp only [State.answer_store, State.setStore_store, TimerStore.requestCancel_slot]
        split
        · rename_i hn
          rw [hn]
        · rfl
      · rfl
    case retime =>
      simp only [State.takeRequest, State.takeRetime]
      split
      · rename_i hok
        have harmed := RetimeRequest.armed_of_ok hok
        rw [State.answer_store, (State.retimeSlot_spec _ _ _).2.1]
        split
        · rename_i hn
          rw [hn]
        · rfl
      · rfl
    case setTime =>
      simp only [State.takeRequest, State.takeSetTime]
      split
      · unfold State.setTime
        split
        · rw [← s.endReplaced_store]
          rfl
        · rw [← s.endReplaced_store]
          simp
      · rfl
  · rw [(s.takeRequest_onlyIn r w op).store_eq hp]

end Requests

/-! ### Dispatch and return -/

/-- A claim on a due slot: the slot is FIRING and its action in flight (R9, R57). -/
theorem State.FiringLaw.dispatched {s t : State} {n i : Nat} (h : s.FiringLaw) (ho : s.engine.OrderLaw)
    (hn : (s.store.slot n).state = .armed) (hi : s.engine.emptySlot = some i)
    (he : t.engine = s.engine.placeAction i (s.handed n)) (hs : t.store = s.store.fire n) : t.FiringLaw := by
  obtain ⟨-, hempty⟩ := ActionEngine.emptySlot_some _ _ hi
  have hperm := ActionEngine.timers_placeAction ho hempty (s.handed_target_note n)
  have hnew : n ∉ s.engine.timers := fun hm => by simpa [hn] using (h.firing n).1 hm
  rw [← he] at hperm
  refine ⟨fun m => ?_, hperm.nodup_iff.2 (List.nodup_cons.2 ⟨hnew, h.once⟩)⟩
  rw [hperm.mem_iff, List.mem_cons, h.firing, hs, TimerStore.fire_slot]
  by_cases hm : m = n
  · subst hm
    simp [State.handed]
  · simp [State.handed, hm]

/-- A completion return taken: the slot it names is not FIRING any more (R31). -/
theorem State.takeReturn_state (s : State) (c : Completion) :
    (∀ m, m ≠ c.timer → (s.takeReturn c).store.slot m = s.store.slot m) ∧
      ((s.takeReturn c).store.slot c.timer).state ≠ .firing := by
  have hreport : ∀ x f, (s.handReport x f).store = s.store := by
    intro x f
    obtain ⟨mid, e, -⟩ := s.handReport_spec x f
    rw [e, State.setReport_store]
  unfold State.takeReturn
  dsimp only
  cases (s.store.slot c.timer).outcome c (s.tb.now (s.store.slot c.timer).scale) with
  | ends b =>
    simp only [State.settleSlot, State.releaseRefs_store, State.setStore_store, hreport]
    exact ⟨fun m hm => by simp [hm], by simp⟩
  | nextPeriod d k =>
    simp only [State.settleSlot, State.offer_store, State.setStore_store, hreport]
    exact ⟨fun m hm => by simp [hm], by simp⟩
  | followPhase d =>
    simp only [State.settleSlot, State.offer_store, State.setStore_store, hreport]
    exact ⟨fun m hm => by simp [hm], by simp⟩

/-- The oldest completion return taken off its list and taken by its slot (R10). -/
theorem State.FiringLaw.returned {s t : State} {c : Completion} {cs : List Completion} (h : s.FiringLaw)
    (hr : s.engine.returns = c :: cs) (he : t.engine = { s.engine with returns := cs })
    (hothers : ∀ m, m ≠ c.timer → t.store.slot m = s.store.slot m) (hc : (t.store.slot c.timer).state ≠ .firing) :
    t.FiringLaw := by
  have hperm : s.engine.timers.Perm (c.timer :: t.engine.timers) := by
    have hslot : ∀ j, t.engine.slot j = s.engine.slot j := fun j => ActionEngine.slot_congr (by rw [he]) j
    have horder : t.engine.order = s.engine.order := by rw [he]
    have hreturns : t.engine.returns = cs := by rw [he]
    simp only [ActionEngine.timers, hslot, horder, hreturns, hr, List.map_cons]
    exact List.perm_middle
  have hnodup := List.nodup_cons.1 (hperm.nodup_iff.1 h.once)
  refine ⟨fun m => ?_, hnodup.2⟩
  by_cases hm : m = c.timer
  · subst hm
    exact iff_of_false hnodup.1 hc
  · rw [hothers m hm, ← h.firing, hperm.mem_iff, List.mem_cons]
    simp [hm]

theorem exec_firingLaw {c : Instr} {s t : State} (ho : s.engine.OrderLaw) (h : s.FiringLaw) (he : exec c s = .next t) :
    t.FiringLaw := by
  have hend : s.afterReset.FiringLaw := h.of_engine (by rw [State.afterReset_engine]) (by rw [State.afterReset_store])
  cases hc : requestOpcode c with
  | some op =>
    rcases exec_request hc s with ⟨r, w, -, e⟩ | ⟨-, e⟩ <;> cases e.symm.trans he
    · have hengine : (s.takeRequest op r w).engine = s.engine :=
        (s.takeRequest_onlyIn r w op).engine_eq (by cases op <;> simp [requestParts])
      exact h.of_store hengine (s.takeRequest_firing r w op)
    · exact hend
  | none =>
    by_cases hr : isResetCommand c = true
    · rcases exec_reset_cases hr he with ⟨hf, -⟩ | hreset
      · exact h.of_engine (by rw [hf.engine_eq (by simp)]) (hf.store_eq (by simp))
      · refine ⟨fun n => ?_, ?_⟩ <;> rw [hreset.engine]
        · rw [hreset.store]
          simp [ActionEngine.timers, ActionEngine.reset, TimerStore.reset, TimerStore.slot, TimerSlot.reset]
        · exact List.nodup_nil
    by_cases hp : Part.engine ∈ commandParts c ∨ Part.store ∈ commandParts c
    · cases c <;> simp [commandParts, requestParts] at hp <;> simp [requestOpcode, isResetCommand] at hc hr
      case alignEdge =>
        have hframe := exec_frame he
        refine h.of_store (hframe.engine_eq (by simp [commandParts])) (fun n => ?_)
        cases he
        have hmark : ∀ (u : State) b, (u.timeMark b).store = u.store := fun u b => (u.timeMark_onlyIn b).store_eq (by simp)
        split
        · split
          · rw [hmark]
            simp [State.applyPending]
          · rw [hmark, State.afterReset_store]
        · rw [State.afterReset_store]
      case dispatchClaim =>
        cases he
        split
        · exact hend
        · split
          · rename_i hdue
            split
            · exact h
            · exact h.dispatched ho (by simp [TimerSlot.due] at hdue; exact hdue.1) ‹_› rfl rfl
          · exact h.of_store rfl (fun _ => Iff.rfl)
      case heldActionBegin i =>
        cases he
        split
        · rename_i hheld
          split
          · refine h.of_engine ?_ rfl
            by_cases hk : (s.engine.slot i).action.kind = .note
            · rw [State.setEngine_engine, ActionEngine.begin_note _ _ _ hk]
              exact ActionEngine.timers_complete ho (by simp [hheld]) rfl
            · rw [State.setEngine_engine, ActionEngine.begin_other _ _ _ hk]
              exact .of_eq (ActionEngine.timers_setSlot (by rfl))
          · exact h
        · exact hend
      case actionReadAnswer i a =>
        cases he
        split
        · rename_i hreading
          have hocc : (s.engine.slot i).stage ≠ .empty := by simp [hreading]
          split
          · refine h.of_engine ?_ rfl
            rw [State.setEngine_engine, ActionEngine.readOk]
            dsimp only
            split
            · exact .of_eq (ActionEngine.timers_setSlot (by rfl))
            · exact ActionEngine.timers_complete ho hocc rfl
          · exact h.of_engine (ActionEngine.timers_complete ho hocc rfl) rfl
        · exact hend
      case actionWriteAnswer i a =>
        cases he
        split
        · rename_i hwriting
          exact h.of_engine (ActionEngine.timers_complete ho (by simp [hwriting]) rfl) rfl
        · exact hend
      case lineRequest i =>
        cases he
        split
        · exact h.of_engine (.of_eq (ActionEngine.timers_setSlot (by rfl))) rfl
        · exact hend
      case lineAnswer i =>
        cases he
        split
        · rename_i hline _
          exact h.of_engine (ActionEngine.timers_complete ho (by simp [hline]) rfl) rfl
        · exact hend
      case completionReturn =>
        cases he
        split
        · exact hend
        · rename_i c cs hreturns
          dsimp only
          split
          · obtain ⟨hothers, hstate⟩ := (s.setEngine { s.engine with returns := cs }).takeReturn_state c
            exact h.returned hreturns ((State.takeReturn_onlyIn _ c).engine_eq (by simp)) hothers hstate
          · exact h.returned hreturns rfl (fun _ _ => rfl) ‹_›
    · have hframe := exec_frame he
      rw [not_or] at hp
      exact h.of_engine (by rw [hframe.engine_eq hp.1]) (hframe.store_eq hp.2)

/-- Settles O11: a claim puts a slot and its action in flight together, a completion return takes both away together, and no other
command changes which slots are FIRING or which timers are in flight. -/
theorem stepsKeepOneActionPerFiringSlot : Obligations.StepsKeepOneActionPerFiringSlot := fun s t ho h hstep =>
  (step_keeps (P := fun s => s.engine.OrderLaw ∧ s.FiringLaw) (fun _ _ h => ⟨h.1, h.2.of_store rfl (fun _ => Iff.rfl)⟩)
    (fun s h => by
      have hengine := s.idle_framed.engine_eq (by simp)
      exact ⟨hengine ▸ h.1, h.2.of_engine (by rw [hengine]) (s.idle_framed.store_eq (by simp))⟩)
    (fun _ _ _ h he => ⟨exec_orderLaw h.1 he, exec_firingLaw h.1 h.2 he⟩) ⟨ho, h⟩ hstep).2

end Sys2Proof.Machine
end

section
/-!
SUPPORT. The canonical form of the numbered records and of the bytes of memory: each operation on a block keeps it, and so
does each command.
-/
namespace Sys2Proof.Machine

/-! ### The blocks -/

/-- Each numbered list and the bytes of memory are in canonical form, part by part. -/
structure State.Canonical (s : State) : Prop where
  store : Map.wf TimerSlot.reset s.store.slots = true
  engine : Map.wf ActionSlot.reset s.engine.slots = true
  regions : Map.wf Region.reset s.regions = true
  lines : Map.wf LineRec.reset s.lines = true
  posting : Map.wf PostRing.reset s.posting.rings = true
  report : Map.wf ReportRing.reset s.report.rings = true
  mem : Memory.wf s.mem = true

theorem State.canonical_iff {s : State} : s.canonical = true ↔ s.Canonical := by
  simp only [State.canonical, Bool.and_eq_true]
  exact ⟨fun ⟨⟨⟨⟨⟨⟨h1, h2⟩, h3⟩, h4⟩, h5⟩, h6⟩, h7⟩ => ⟨h1, h2, h3, h4, h5, h6, h7⟩,
    fun h => ⟨⟨⟨⟨⟨⟨h.store, h.engine⟩, h.regions⟩, h.lines⟩, h.posting⟩, h.report⟩, h.mem⟩⟩

section Store
variable {t : TimerStore} (h : Map.wf TimerSlot.reset t.slots = true)
include h

theorem TimerStore.wf_setSlot (n : Nat) (x : TimerSlot) : Map.wf TimerSlot.reset (t.setSlot n x).slots = true :=
  Map.wf_set _ n x h

theorem TimerStore.wf_join (n : Nat) (x : TimerSlot) : Map.wf TimerSlot.reset (t.join n x).slots = true := by
  have hslots : (t.join n x).slots = (t.setSlot n { x with seq := t.nextSeq }).slots := by
    unfold TimerStore.join
    cases x.scale <;> rfl
  rw [hslots]
  exact TimerStore.wf_setSlot h n _

/-- Marking exchanges records in their places, and none for the reset record. -/
theorem TimerStore.wf_markStep (p0 p1 : U64) : Map.wf TimerSlot.reset (t.markStep p0 p1).slots = true := by
  rw [Map.wf_iff] at h ⊢
  obtain ⟨hsorted, hne⟩ := h
  have hkeys : ∀ (f : TimerSlot → TimerSlot) (m : List (Nat × TimerSlot)) (lo : Nat),
      Map.sortedFrom lo (m.map (fun p => (p.1, f p.2))) = Map.sortedFrom lo m := by
    intro f m
    induction m with
    | nil => exact fun _ => rfl
    | cons p m ih => exact fun lo => by simp [Map.sortedFrom, ih]
  refine ⟨(hkeys _ _ _).trans hsorted, fun p hp => ?_⟩
  obtain ⟨q, hq, rfl⟩ := List.mem_map.1 hp
  intro hmark
  have hstate : q.2.state = .free := by
    have := congrArg TimerSlot.state hmark
    rwa [TimerSlot.markStep_state] at this
  refine hne q hq ?_
  dsimp only at hmark
  rwa [TimerSlot.markStep, if_neg (by simp [hstate])] at hmark

end Store

section Engine
variable {e : ActionEngine} (h : Map.wf ActionSlot.reset e.slots = true)
include h

theorem ActionEngine.wf_setSlot (i : Nat) (x : ActionSlot) : Map.wf ActionSlot.reset (e.setSlot i x).slots = true :=
  Map.wf_set _ i x h

theorem ActionEngine.wf_complete (i : Nat) (x : ActionSlot) : Map.wf ActionSlot.reset (e.complete i x).slots = true :=
  ActionEngine.wf_setSlot h i ActionSlot.reset

theorem ActionEngine.wf_begin (i : Nat) (x : ActionSlot) : Map.wf ActionSlot.reset (e.begin i x).slots = true := by
  unfold ActionEngine.begin
  split
  · exact ActionEngine.wf_complete h i _
  all_goals exact ActionEngine.wf_setSlot h i _

theorem ActionEngine.wf_placeAction (i : Nat) (x : ActionSlot) : Map.wf ActionSlot.reset (e.placeAction i x).slots = true := by
  have hset : Map.wf ActionSlot.reset (e.setSlot i x).slots = true := ActionEngine.wf_setSlot h i x
  unfold ActionEngine.placeAction
  dsimp only
  split
  · exact ActionEngine.wf_begin (e := { e.setSlot i x with order := e.order ++ [i] }) hset i x
  · exact hset

theorem ActionEngine.wf_readOk (i : Nat) (v : U64) : Map.wf ActionSlot.reset (e.readOk i v).slots = true := by
  unfold ActionEngine.readOk
  dsimp only
  split
  · exact ActionEngine.wf_setSlot h i _
  · exact ActionEngine.wf_complete h i _

end Engine

section Report
variable {r : ReportUnit} (h : Map.wf ReportRing.reset r.rings = true)
include h

theorem ReportUnit.wf_setRing (n : Nat) (x : ReportRing) : Map.wf ReportRing.reset (r.setRing n x).rings = true :=
  Map.wf_set _ n x h

theorem ReportUnit.wf_handIn (n : Nat) (x : Report) : Map.wf ReportRing.reset (r.handIn n x).rings = true := by
  unfold ReportUnit.handIn
  dsimp only
  split
  · exact ReportUnit.wf_setRing h n _
  · split
    · exact ReportUnit.wf_setRing h n _
    · exact h

theorem ReportUnit.wf_take (n : Nat) (x : Report) : Map.wf ReportRing.reset (r.take n x).rings = true := by
  unfold ReportUnit.take
  dsimp only
  split
  · exact h
  · exact h
  · exact ReportUnit.wf_setRing h n _
  · split
    · exact ReportUnit.wf_setRing h n _
    · split
      · exact h
      · exact ReportUnit.wf_setRing h n _

theorem ReportUnit.wf_returnSpace (n : Nat) (mt : U64) : Map.wf ReportRing.reset (r.returnSpace n mt).rings = true := by
  have hmoved : Map.wf ReportRing.reset (r.moveHeld n).rings = true := ReportUnit.wf_setRing h n _
  unfold ReportUnit.returnSpace
  split
  · unfold ReportUnit.placeLoss
    dsimp only
    split
    · exact ReportUnit.wf_setRing hmoved n _
    · exact hmoved
  · exact h

theorem ReportUnit.wf_written (n : Nat) (mt : U64) : Map.wf ReportRing.reset (r.written n mt).rings = true := by
  unfold ReportUnit.written
  dsimp only
  split <;> exact ReportUnit.wf_setRing h n _

theorem ReportUnit.wf_foldl_ringAtTick (mt : U64) (l : List Nat) :
    Map.wf ReportRing.reset (l.foldl (fun r n => r.ringAtTick mt n) r).rings = true := by
  induction l generalizing r with
  | nil => exact h
  | cons n l ih =>
    refine ih (r := r.ringAtTick mt n) ?_
    unfold ReportUnit.ringAtTick
    split
    · exact ReportUnit.wf_setRing h n _
    · exact h

end Report

/-! ### The state -/

namespace State.Canonical
variable {s : State} (h : s.Canonical)
include h

theorem setTb (x : TimeBase) : (s.setTb x).Canonical := ⟨h.store, h.engine, h.regions, h.lines, h.posting, h.report, h.mem⟩
theorem setDisp (x : Dispatcher) : (s.setDisp x).Canonical :=
  ⟨h.store, h.engine, h.regions, h.lines, h.posting, h.report, h.mem⟩
theorem setWindow (x : Window) : (s.setWindow x).Canonical :=
  ⟨h.store, h.engine, h.regions, h.lines, h.posting, h.report, h.mem⟩
theorem setInputs (x : Inputs) : (s.setInputs x).Canonical :=
  ⟨h.store, h.engine, h.regions, h.lines, h.posting, h.report, h.mem⟩
theorem setStore {x : TimerStore} (hx : Map.wf TimerSlot.reset x.slots = true) : (s.setStore x).Canonical :=
  ⟨hx, h.engine, h.regions, h.lines, h.posting, h.report, h.mem⟩
theorem setEngine {x : ActionEngine} (hx : Map.wf ActionSlot.reset x.slots = true) : (s.setEngine x).Canonical :=
  ⟨h.store, hx, h.regions, h.lines, h.posting, h.report, h.mem⟩
theorem setPosting {x : PostingUnit} (hx : Map.wf PostRing.reset x.rings = true) : (s.setPosting x).Canonical :=
  ⟨h.store, h.engine, h.regions, h.lines, hx, h.report, h.mem⟩
theorem setReport {x : ReportUnit} (hx : Map.wf ReportRing.reset x.rings = true) : (s.setReport x).Canonical :=
  ⟨h.store, h.engine, h.regions, h.lines, h.posting, hx, h.mem⟩
theorem setMem {x : List Host.Cell} (hx : Memory.wf x = true) : (s.setMem x).Canonical :=
  ⟨h.store, h.engine, h.regions, h.lines, h.posting, h.report, hx⟩
theorem setRegion (n : Nat) (x : Region) : (s.setRegion n x).Canonical :=
  ⟨h.store, h.engine, Map.wf_set _ n x h.regions, h.lines, h.posting, h.report, h.mem⟩
theorem setLine (n : Nat) (x : LineRec) : (s.setLine n x).Canonical :=
  ⟨h.store, h.engine, h.regions, Map.wf_set _ n x h.lines, h.posting, h.report, h.mem⟩
theorem setPostRing (n : Nat) (x : PostRing) : (s.setPosting (s.posting.setRing n x)).Canonical :=
  h.setPosting (Map.wf_set _ n x h.posting)
theorem setReportRing (n : Nat) (x : ReportRing) : (s.setReport (s.report.setRing n x)).Canonical :=
  h.setReport (Map.wf_set _ n x h.report)

/-- What changes nothing but the Time Base, the Dispatcher, the window and the inputs. -/
theorem of_onlyIn {ps : List Part} {t : State} (hf : OnlyIn ps s t) (hps : ∀ p ∈ ps, p ∈ [Part.tb, .disp, .window, .inputs]) :
    t.Canonical := by
  have hout : ∀ p : Part, p ∉ [Part.tb, .disp, .window, .inputs] → p ∉ ps := fun p hp hin => hp (hps p hin)
  exact ⟨by rw [hf.store_eq (hout _ (by simp))]; exact h.store, by rw [hf.engine_eq (hout _ (by simp))]; exact h.engine,
    by rw [hf.regions_eq (hout _ (by simp))]; exact h.regions, by rw [hf.lines_eq (hout _ (by simp))]; exact h.lines,
    by rw [OnlyIn.posting_eq hf (hout _ (by simp))]; exact h.posting, by rw [hf.report_eq (hout _ (by simp))]; exact h.report,
    by rw [hf.mem_eq (hout _ (by simp))]; exact h.mem⟩

theorem afterReset : s.afterReset.Canonical := h.of_onlyIn State.afterReset_onlyIn (by simp)

omit h in
theorem ite {P : Prop} [Decidable P] {t u : State} (ht : t.Canonical) (hu : u.Canonical) :
    State.Canonical (if P then t else u) := by
  split
  · exact ht
  · exact hu

theorem handIn (a : AckHead) (st : Status) (res : AckResults) : (s.handIn a st res).Canonical :=
  h.setReport (ReportUnit.wf_handIn h.report _ _)

/-- A slot leaves the queues and its references are released. -/
theorem leave (n : Nat) : (s.setStore (s.store.leave n)).Canonical := h.setStore h.store

theorem endRecord : s.endRecord.Canonical := h.setPosting h.posting

theorem answer (r : IntakeRecord) (w : PostSlot) (st : Status) (res : AckResults) : (s.answer r w st res).Canonical :=
  (h.handIn _ st res).endRecord

theorem take (n : Nat) (x : Report) : (s.setReport (s.report.take n x)).Canonical :=
  h.setReport (ReportUnit.wf_take h.report n x)

theorem foldl_addRegionRef (l : List Nat) : (l.foldl State.addRegionRef s).Canonical := by
  induction l generalizing s with
  | nil => exact h
  | cons n l ih => exact ih (h.setRegion _ _)

theorem foldl_releaseRegionRef (l : List Nat) : (l.foldl State.releaseRegionRef s).Canonical := by
  induction l generalizing s with
  | nil => exact h
  | cons n l ih => exact ih (h.setRegion _ _)

theorem addRefs (x : TimerSlot) : (s.addRefs x).Canonical := by
  have hregions := h.foldl_addRegionRef x.regionRefs
  unfold State.addRefs
  cases x.reportRing with
  | none => exact hregions
  | some n => exact hregions.setReportRing _ _

theorem releaseRefs (x : TimerSlot) : (s.releaseRefs x).Canonical := by
  have hregions := h.foldl_releaseRegionRef x.regionRefs
  unfold State.releaseRefs
  cases x.reportRing with
  | none => exact hregions
  | some n => exact hregions.setReportRing _ _

theorem offer : s.offer.Canonical := h.setDisp _

theorem applyStep (mode : StepMode) (v : U64) : (s.applyStep mode v).Canonical :=
  ((h.setTb _).setStore (TimerStore.wf_markStep h.store _ _)).offer

/-! Requests. -/

theorem deleteRing (n : Nat) : (s.setReport (s.report.deleteRing n)).Canonical :=
  h.setReport (x := s.report.deleteRing n) (h.setReportRing n ReportRing.reset).report

theorem freeSlot (n : Nat) : (s.freeSlot n).Canonical :=
  (h.setStore (TimerStore.wf_setSlot (h.leave n).store n _)).releaseRefs _

theorem armSlot (n : Nat) (x : TimerSlot) : (s.armSlot n x).Canonical := by
  have hremoved : (s.removeArming n).Canonical := by
    unfold State.removeArming
    split
    · exact (h.leave n).releaseRefs _
    · exact h
  have hadded := hremoved.addRefs x
  exact (hadded.setStore (TimerStore.wf_join hadded.store _ _)).offer

theorem setRest (q : LineRestRequest) (l : List Nat) : (s.setRest q l).Canonical := by
  induction l generalizing s with
  | nil => exact h
  | cons n l ih =>
    refine ih ?_
    split
    · exact h.setLine _ _
    · exact h

theorem takeRequest (op : Opcode) (r : IntakeRecord) (w : PostSlot) : (s.takeRequest op r w).Canonical := by
  cases op
  case arm =>
    simp only [State.takeRequest, State.takeArm]
    split
    · exact (h.armSlot _ _).answer r w _ _
    · exact h.answer r w _ _
  case cancel =>
    simp only [State.takeRequest, State.takeCancel]
    split
    · exact (h.freeSlot _).answer r w _ _
    · exact (h.setStore (TimerStore.wf_setSlot h.store _ _)).answer r w _ _
    · exact h.answer r w _ _
  case retime =>
    simp only [State.takeRequest, State.takeRetime]
    split
    · exact (h.setStore (TimerStore.wf_join (t := s.store.leave _) h.store _ _)).offer.answer r w _ _
    · exact h.answer r w _ _
  case query =>
    simp only [State.takeRequest, State.takeQuery]
    split <;> exact h.answer r w _ _
  case setRegion => exact (ite (h.setRegion _ _) h).answer r w _ _
  case clearRegion => exact (ite (h.setRegion _ _) h).answer r w _ _
  case configureTimebase =>
    simp only [State.takeRequest, State.takeConfigure]
    split
    · exact h.answer r w _ _
    · split
      · exact (h.setTb _).answer r w _ _
      · exact (h.setTb _).answer r w _ _
      · exact (h.setTb _).endRecord
      · exact (h.setTb _).endRecord
      · exact (h.setTb _).answer r w _ _
  case setTrim =>
    simp only [State.takeRequest, State.takeSetTrim]
    split
    · exact (h.setTb _).answer r w _ _
    · exact h.answer r w _ _
  case setTime =>
    simp only [State.takeRequest, State.takeSetTime]
    split
    · have hreplaced : s.endReplaced.Canonical := by
        unfold State.endReplaced
        split
        · exact h
        · exact (h.setTb _).handIn _ _ _
      unfold State.setTime
      split
      · exact (hreplaced.setTb _).endRecord
      · exact (hreplaced.applyStep _ _).answer r w _ _
    · exact h.answer r w _ _
  case setMarks =>
    simp only [State.takeRequest, State.takeSetMarks]
    split
    · exact (h.setTb _).answer r w _ _
    · exact h.answer r w _ _
  case readTime =>
    simp only [State.takeRequest, State.takeReadTime]
    split <;> exact h.answer r w _ _
  case setLineRest => exact (ite (h.setRest _ _) h).answer r w _ _
  case createPostRing =>
    refine (ite ?_ h).answer r w _ _
    exact (h.setPostRing _ _).setReportRing _ _
  case deletePostRing =>
    simp only [State.takeRequest, State.takeDeletePost]
    split
    · exact ((h.setPostRing _ _).setReportRing _ _).answer r w _ _
    · exact h.answer r w _ _
  case resumePostRing => exact (ite (h.setPostRing _ _) h).answer r w _ _
  case createReportRing => exact (ite (h.setReportRing _ _) h).answer r w _ _
  case deleteReportRing =>
    simp only [State.takeRequest, State.takeDeleteReport]
    split
    · exact (h.deleteRing _).answer r w _ _
    · exact h.answer r w _ _
  case extension => exact h

/-! The clock. -/

theorem linesAtTick (l : List Nat) : (s.linesAtTick l).Canonical := by
  induction l generalizing s with
  | nil => exact h
  | cons n l ih => exact ih (h.setLine _ _)

theorem switchAtTick : s.switchAtTick.Canonical := by
  unfold State.switchAtTick
  split
  · exact h
  · split
    · exact (h.setTb _).handIn _ _ _
    · split
      · exact (h.setTb _).handIn _ _ _
      · exact h.setTb _

theorem alignAtTick : s.alignAtTick.Canonical := by
  unfold State.alignAtTick
  split
  · exact h
  · split
    · exact (h.setTb _).handIn _ _ _
    · exact h

theorem tick (b : Bool) : (s.tick b).Canonical := by
  have hmid : (s.midTick b).Canonical := by
    cases b
    · exact (h.setTb _).switchAtTick.alignAtTick
    · exact (h.setTb _).alignAtTick.switchAtTick
  rw [State.tick_eq]
  have hlines := (hmid.setTb (s.midTick b).tb.newCount).linesAtTick (List.range 8)
  exact (hlines.setReport (ReportUnit.wf_foldl_ringAtTick hlines.report _ _)).offer

theorem timeMark (b : Bool) : (s.timeMark b).Canonical := ite (h.take _ _) h

/-! The intake, rings and returns. -/

theorem noteTake (n : Nat) (x : PostRing) (b : Bool) :
    (s.setPosting ((s.posting.setRing n x).noteTake n b)).Canonical := by
  refine h.setPosting ?_
  have hrings : ((s.posting.setRing n x).noteTake n b).rings = (s.posting.setRing n x).rings := by
    unfold PostingUnit.noteTake
    split <;> rfl
  rw [hrings]
  exact (h.setPostRing n x).posting

theorem decodeRecord (r : IntakeRecord) (w : PostSlot) (o : Option PostSlot) : (s.decodeRecord r w o).Canonical := by
  have hnoted := h.noteTake r.ring
    { s.posting.ring r.ring with
      head := ((s.posting.ring r.ring).head + if o.isSome then 2 else 1) % (s.posting.ring r.ring).size, headNeed := 1 }
    r.normalEligible
  exact ite (hnoted.setPosting hnoted.posting) (hnoted.answer _ w _ _)

theorem reserve {n : Nat} {x : ReportUnit} (hx : s.report.reserve n = some x) : (s.setReport x).Canonical := by
  obtain ⟨-, -, rfl⟩ := ReportUnit.reserve_some _ _ hx
  exact h.setReportRing _ _

theorem withdraw (r : IntakeRecord) : (s.withdraw r).Canonical := by
  have hring := h.setPostRing r.ring { s.posting.ring r.ring with headNeed := 2 }
  exact (hring.setReport (ReportUnit.wf_returnSpace (h.setReportRing r.bound _).report _ _)).endRecord

theorem firstSlotRead (r : IntakeRecord) (w : PostSlot) : (s.firstSlotRead r w).Canonical :=
  ite (h.decodeRecord r w none) (ite (h.setPosting h.posting) (h.withdraw r))

theorem fetchError (r : IntakeRecord) : (s.fetchError r).Canonical := by
  rw [State.fetchError_eq]
  have hstall : (s.stallRing r).Canonical := ((h.noteTake _ _ _).handIn _ _ _).endRecord
  exact ite (hstall.setWindow _) hstall

theorem settleSlot (n : Nat) (x : TimerSlot) (o : ReturnOutcome) : (s.settleSlot n x o).Canonical := by
  cases o with
  | ends b => exact (h.setStore (TimerStore.wf_setSlot (t := (s.store.setSlot n x).leave n)
    (TimerStore.wf_setSlot h.store n x) n _)).releaseRefs _
  | nextPeriod d k => exact (h.setStore (TimerStore.wf_join h.store _ _)).offer
  | followPhase d => exact (h.setStore (TimerStore.wf_join h.store _ _)).offer

theorem takeReturn (c : Completion) : (s.takeReturn c).Canonical := by
  unfold State.takeReturn
  refine settleSlot (s := s.handReport _ _) ?_ _ _ _
  unfold State.handReport
  split
  · exact h
  · exact ite (h.take _ _) h

theorem ringWriteAnswered (n : Nat) (w : PortWrite) (a : WriteAnswer) : (s.ringWriteAnswered n w a).Canonical := by
  have hmem := h.setMem (Memory.wf_settle w a h.mem)
  have hfault := hmem.setReport (x := s.report.faultRing n)
    (h.setReportRing n { s.report.ring n with state := .faulted, queue := [] }).report
  cases a with
  | ok => exact hmem.setReport (ReportUnit.wf_written h.report _ _)
  | error l => exact ite (hfault.setWindow _) (hmem.setReport (ReportUnit.wf_take hfault.report _ _))

end State.Canonical

theorem clockKeeps_canonical : ClockKeeps State.Canonical where
  countGap _ h := h.setTb _
  edge _ h := h.setTb _
  countEdge _ h _ := h.setTb _
  restart _ h _ := h.setTb _
  count _ h _ := h.setTb _
  tick _ b h := h.tick b
  fallBack _ h _ := (h.setTb _).take _ _

/-- The lines after a reset of the blocks. -/
theorem State.Canonical.resetBlocks_lines {s : State} (h : s.Canonical) :
    Map.wf LineRec.reset s.resetBlocks.lines = true := by
  have hlines : ∀ (l : List Nat) (u : State), Map.wf LineRec.reset u.lines = true →
      Map.wf LineRec.reset (u.resetLines l).lines = true := by
    intro l
    induction l with
    | nil => exact fun u hu => hu
    | cons n l ih => exact fun u hu => ih _ (Map.wf_set _ n _ hu)
  exact hlines _ _ h.lines

theorem ResetTo.canonical {s t : State} (hr : ResetTo s t) (h : s.Canonical) : t.Canonical := by
  refine ⟨by rw [hr.store]; rfl, by rw [hr.engine]; rfl, by rw [hr.regions]; rfl, ?_, by rw [hr.posting]; rfl,
    by rw [hr.report]; rfl, ?_⟩
  · rcases hr.lines with e | e <;> rw [e]
    · exact h.resetBlocks_lines
    · rfl
  · rcases hr.mem with e | ⟨ws, ls, e⟩ <;> rw [e]
    · exact h.mem
    · exact Memory.wf_landAll ws ls h.mem

theorem exec_canonical {c : Instr} {s t : State} (h : s.Canonical) (he : exec c s = .next t) : t.Canonical := by
  have hend := h.afterReset
  cases hc : requestOpcode c with
  | some op =>
    rcases exec_request hc s with ⟨r, w, -, e⟩ | ⟨-, e⟩ <;> cases e.symm.trans he
    · exact h.takeRequest op r w
    · exact hend
  | none =>
    by_cases hk : isClockCommand c = true
    · exact clockKeeps_canonical.exec hk hend he
    by_cases hr : isResetCommand c = true
    · exact (exec_reset_cases hr he).elim (fun hf => h.of_onlyIn hf.1 (by simp)) (fun hreset => hreset.canonical h)
    by_cases hp : ∀ p ∈ commandParts c, p ∈ [Part.tb, .disp, .window, .inputs]
    · exact (exec_frame he).elim (fun hf => h.of_onlyIn hf hp) (fun hf => hend.of_onlyIn hf hp)
    cases c <;> simp [commandParts] at hp <;> simp [requestOpcode, isClockCommand, isResetCommand] at hc hk hr
    case intakeChoice =>
      cases he
      split
      · rename_i n _ _
        split
        · rename_i report hreserve
          exact (h.reserve hreserve).setPosting h.posting
        · exact h
      · exact hend
    case intakeReadAnswer a =>
      cases he
      split
      · exact hend
      · rename_i r _
        refine State.Canonical.ite h ?_
        cases a with
        | error => exact h.fetchError r
        | ok w =>
          cases r.slot1 with
          | none => exact h.firstSlotRead r w
          | some v => exact h.decodeRecord r v (some w)
    case postingTailDoorbell n v =>
      cases he
      exact .ite (.ite (hend.setWindow _) (.ite (hend.setPostRing _ _) (hend.setWindow _))) hend
    case reportConsumerDoorbell n v =>
      cases he
      refine .ite (.ite (hend.setWindow _) (.ite (hend.setReport ?_) (hend.setWindow _))) hend
      split
      · exact (hend.setReportRing _ _).report
      · exact ReportUnit.wf_returnSpace (hend.setReportRing _ _).report _ _
    case enable =>
      cases he
      exact .ite (.ite (((hend.setWindow _).setPostRing 0 _).setReportRing 0 _) (hend.setWindow _)) hend
    case abandonedAnswer i b l =>
      cases he
      split
      · exact hend
      · rename_i op _
        have hland : (s.landOp op l).Canonical := by
          unfold State.landOp
          split
          · exact h.setMem (Memory.wf_land _ _ h.mem)
          · exact h
        exact (hland.setWindow _).of_onlyIn State.endReset_onlyIn (by simp)
    case intrPendingClear v =>
      cases he
      exact .ite (hend.setReport hend.report) hend
    case alignEdge =>
      cases he
      refine .ite ?_ hend
      split
      · exact (((hend.setTb _).applyStep _ _).handIn _ _ _).timeMark true
      · exact hend.timeMark false
    case dispatchClaim =>
      cases he
      split
      · exact hend
      · refine .ite ?_ (h.setDisp _)
        split
        · exact h
        · exact ((h.setEngine (ActionEngine.wf_placeAction h.engine _ _)).setStore
            (TimerStore.wf_setSlot (h.leave _).store _ _)).setDisp _
    case heldActionBegin i =>
      cases he
      exact .ite (.ite (h.setEngine (ActionEngine.wf_begin h.engine _ _)) h) hend
    case actionReadAnswer i a =>
      cases he
      refine .ite ?_ hend
      cases a with
      | ok v => exact h.setEngine (ActionEngine.wf_readOk h.engine _ _)
      | error => exact h.setEngine (ActionEngine.wf_complete h.engine _ _)
    case actionWriteAnswer i a =>
      cases he
      exact .ite ((h.setMem (Memory.wf_settle _ _ h.mem)).setEngine (ActionEngine.wf_complete h.engine _ _)) hend
    case lineRequest i =>
      cases he
      exact .ite ((h.setLine _ _).setEngine (ActionEngine.wf_setSlot h.engine _ _)) hend
    case lineAnswer i =>
      cases he
      split
      · exact h.setEngine (ActionEngine.wf_complete h.engine _ _)
      · exact hend
    case completionReturn =>
      cases he
      split
      · exact hend
      · rename_i cs _
        have hpopped := h.setEngine (x := { s.engine with returns := cs }) h.engine
        exact .ite (hpopped.takeReturn _) hpopped
    case reportWriteAnswer x a =>
      cases he
      cases x with
      | ring n =>
        dsimp only
        split
        · exact .ite (h.ringWriteAnswered n _ a) h
        · exact hend
      | deleted k =>
        dsimp only
        split
        · exact (h.setMem (Memory.wf_settle _ _ h.mem)).setReport h.report
        · exact hend
    case keepAliveSupplyLoss =>
      rcases exec_keepAliveSupplyLoss_cases he with ⟨hf, -⟩ | ⟨hf, -, -, hlines⟩
      · exact h.of_onlyIn hf (by simp)
      · exact ⟨by rw [hf.store_eq (by simp)]; exact h.store, by rw [hf.engine_eq (by simp)]; exact h.engine,
          by rw [hf.regions_eq (by simp)]; exact h.regions, by rw [hlines]; rfl,
          by rw [OnlyIn.posting_eq hf (by simp)]; exact h.posting, by rw [hf.report_eq (by simp)]; exact h.report,
          by rw [hf.mem_eq (by simp)]; exact h.mem⟩

/-- Settles O5: a record is only ever set in its place, and a byte of memory only ever landed. -/
theorem stepsKeepTheCanonicalForm : Obligations.StepsKeepTheCanonicalForm := by
  intro s t h hstep
  rw [State.canonical_iff] at h ⊢
  exact step_keeps (P := State.Canonical)
    (fun _ _ h => ⟨h.store, h.engine, h.regions, h.lines, h.posting, h.report, h.mem⟩)
    (fun s h => clockKeeps_canonical.idle h.afterReset h) (fun _ _ _ => exec_canonical) h hstep

end Sys2Proof.Machine
end

section
/-!
SUPPORT. Reference counts as sums over the numbered records: what naming one record's links in place of another's does to the
sums, and the two laws of the counts carried over.
-/
namespace Sys2Proof.Machine

/-! ### Sums over numbered records -/

/-- The sum of a quantity over the records listed. -/
def Map.total {α : Type} (f : α → Nat) (m : List (Nat × α)) : Nat := (m.map (fun p => f p.2)).sum

section Total
variable {α : Type} {d : α} {f : α → Nat}

theorem Map.find_below {m : List (Nat × α)} {lo j : Nat} (h : Map.sortedFrom lo m = true) (hj : j < lo) :
    Map.find m j = none := by
  induction m generalizing lo with
  | nil => rfl
  | cons p m ih =>
    obtain ⟨k, v⟩ := p
    simp only [Map.sortedFrom, Bool.and_eq_true, decide_eq_true_eq] at h
    rw [Map.find_cons, if_neg (by omega), ih h.2 (by omega)]

/-- With nothing for the record not listed, the sum runs over all numbers below a bound of those listed. -/
theorem Map.total_eq_sum_range (hf : f d = 0) {m : List (Nat × α)} {lo N : Nat} (h : Map.sortedFrom lo m = true)
    (hN : ∀ p ∈ m, p.1 < N) : Map.total f m = ∑ j ∈ Finset.range N, f (Map.get d m j) := by
  induction m generalizing lo with
  | nil => simp [Map.total, Map.get, Map.find, hf]
  | cons p m ih =>
    obtain ⟨k, v⟩ := p
    simp only [Map.sortedFrom, Bool.and_eq_true, decide_eq_true_eq] at h
    have hnone : Map.find m k = none := Map.find_below h.2 (by omega)
    have hget : ∀ j, f (Map.get d ((k, v) :: m) j) = (if j = k then f v else 0) + f (Map.get d m j) := by
      intro j
      by_cases hj : j = k
      · subst hj
        simp [Map.get, Map.find_cons, hnone, hf]
      · simp [Map.get, Map.find_cons, hj]
    have htail := ih h.2 (fun q hq => hN q (List.mem_cons_of_mem _ hq))
    have hk : k < N := hN (k, v) List.mem_cons_self
    have hcons : Map.total f ((k, v) :: m) = f v + Map.total f m := by simp [Map.total]
    simp only [hget, Finset.sum_add_distrib, Finset.sum_ite_eq', Finset.mem_range, hk, if_true, hcons, htail]

theorem Map.exists_bound (m : List (Nat × α)) : ∃ N, ∀ p ∈ m, p.1 < N := by
  induction m with
  | nil => exact ⟨0, by simp⟩
  | cons p m ih =>
    obtain ⟨N, hN⟩ := ih
    refine ⟨max (p.1 + 1) N, fun q hq => ?_⟩
    rcases List.mem_cons.1 hq with rfl | hq
    · omega
    · have := hN q hq
      omega

variable [DecidableEq α] {m m' : List (Nat × α)} (hf : f d = 0) (hm : Map.wf d m = true)
include hf hm

theorem Map.get_le_total (n : Nat) : f (Map.get d m n) ≤ Map.total f m := by
  obtain ⟨N, hN⟩ := Map.exists_bound m
  rw [Map.total_eq_sum_range hf (N := max N (n + 1)) ((Map.wf_iff d m).1 hm).1
    (fun p hp => (hN p hp).trans_le (Nat.le_max_left _ _))]
  exact Finset.single_le_sum (f := fun j => f (Map.get d m j)) (fun _ _ => Nat.zero_le _)
    (Finset.mem_range.2 (Nat.lt_of_lt_of_le (Nat.lt_succ_self n) (Nat.le_max_right _ _)))

/-- Lists that agree but for one record differ in their sums by that record's. -/
theorem Map.total_exchange (hm' : Map.wf d m' = true) (n : Nat)
    (hothers : ∀ j, j ≠ n → f (Map.get d m' j) = f (Map.get d m j)) :
    Map.total f m' + f (Map.get d m n) = Map.total f m + f (Map.get d m' n) := by
  obtain ⟨N, hN⟩ := Map.exists_bound m
  obtain ⟨N', hN'⟩ := Map.exists_bound m'
  have hn : n ∈ Finset.range (N + N' + n + 1) := Finset.mem_range.2 (by omega)
  have hbound : ∀ p ∈ m, p.1 < N + N' + n + 1 := fun p hp => by have := hN p hp; omega
  have hbound' : ∀ p ∈ m', p.1 < N + N' + n + 1 := fun p hp => by have := hN' p hp; omega
  rw [Map.total_eq_sum_range hf ((Map.wf_iff d m).1 hm).1 hbound,
    Map.total_eq_sum_range hf ((Map.wf_iff d m').1 hm').1 hbound', ← Finset.add_sum_erase _ _ hn,
    ← Finset.add_sum_erase (Finset.range _) (fun j => f (Map.get d m j)) hn,
    Finset.sum_congr rfl (fun j hj => hothers j (Finset.ne_of_mem_erase hj))]
  omega

end Total

/-! ### What counts toward the references -/

/-- Two records of a slot name the same regions and the same report ring, as often. -/
def SameNames (x y : TimerSlot) : Prop := (∀ k, y.namesRegion k = x.namesRegion k) ∧ ∀ k, y.namesRing k = x.namesRing k

theorem SameNames.refl (x : TimerSlot) : SameNames x x := ⟨fun _ => rfl, fun _ => rfl⟩

theorem SameNames.trans {x y z : TimerSlot} (h : SameNames x y) (h' : SameNames y z) : SameNames x z :=
  ⟨fun k => (h'.1 k).trans (h.1 k), fun k => (h'.2 k).trans (h.2 k)⟩

/-- The names depend on being FREE or not, the actions and the report ring. -/
theorem SameNames.of_fields {x y : TimerSlot} (hstate : y.state = .free ↔ x.state = .free) (hmain : y.mainAction = x.mainAction)
    (hfollow : y.follow = x.follow) (hring : y.reportRing = x.reportRing) : SameNames x y := by
  have hrefs : y.regionRefs = x.regionRefs := by rw [TimerSlot.regionRefs, TimerSlot.regionRefs, hmain, hfollow]
  exact ⟨fun k => by simp only [TimerSlot.namesRegion, hstate, hrefs], fun k => by
    simp only [TimerSlot.namesRing, ne_eq, hstate, hring]⟩

/-- Is a posting ring bound to the report ring (R165)? -/
def PostRing.binds (x : PostRing) (k : Nat) : Nat := if x.state ≠ .absent ∧ x.bound = k then 1 else 0

/-- Every report ring keeps its count and is ABSENT or not as it was. -/
def ReportUnit.SameRefs (r r' : ReportUnit) : Prop :=
  ∀ k, (r'.ring k).refs = (r.ring k).refs ∧ ((r'.ring k).state = .absent ↔ (r.ring k).state = .absent)

section Sums
variable {t t' : TimerStore} (h : Map.wf TimerSlot.reset t.slots = true)
include h

theorem TimerStore.namesRegion_le_uses (n k : Nat) : (t.slot n).namesRegion k ≤ t.regionUses k :=
  Map.get_le_total (f := fun x => x.namesRegion k) (d := TimerSlot.reset) rfl h n

theorem TimerStore.namesRing_le_uses (n k : Nat) : (t.slot n).namesRing k ≤ t.ringUses k :=
  Map.get_le_total (f := fun x => x.namesRing k) (d := TimerSlot.reset) rfl h n

variable (h' : Map.wf TimerSlot.reset t'.slots = true)
include h'

theorem TimerStore.regionUses_exchange (n : Nat) (hothers : ∀ m, m ≠ n → SameNames (t.slot m) (t'.slot m)) (k : Nat) :
    t'.regionUses k + (t.slot n).namesRegion k = t.regionUses k + (t'.slot n).namesRegion k :=
  Map.total_exchange (f := fun x => x.namesRegion k) (d := TimerSlot.reset) rfl h h' n (fun m hm => (hothers m hm).1 k)

theorem TimerStore.ringUses_exchange (n : Nat) (hothers : ∀ m, m ≠ n → SameNames (t.slot m) (t'.slot m)) (k : Nat) :
    t'.ringUses k + (t.slot n).namesRing k = t.ringUses k + (t'.slot n).namesRing k :=
  Map.total_exchange (f := fun x => x.namesRing k) (d := TimerSlot.reset) rfl h h' n (fun m hm => (hothers m hm).2 k)

end Sums

section PostingSums
variable {p p' : PostingUnit} (h : Map.wf PostRing.reset p.rings = true)
include h

theorem PostingUnit.binds_le_uses (n k : Nat) : (p.ring n).binds k ≤ p.ringUses k :=
  Map.get_le_total (f := fun x => x.binds k) (d := PostRing.reset) rfl h n

theorem PostingUnit.ringUses_exchange (h' : Map.wf PostRing.reset p'.rings = true) (n : Nat)
    (hothers : ∀ m, m ≠ n → ∀ k, (p'.ring m).binds k = (p.ring m).binds k) (k : Nat) :
    p'.ringUses k + (p.ring n).binds k = p.ringUses k + (p'.ring n).binds k :=
  Map.total_exchange (f := fun x => x.binds k) (d := PostRing.reset) rfl h h' n (fun m hm => hothers m hm k)

end PostingSums

/-! ### The laws carried over -/

section Laws
variable {s t : State} (hs : s.Canonical) (ht : t.Canonical)
include hs ht

/-- One slot's arming may be exchanged, its names moving the counts. -/
theorem State.RegionRefLaw.exchange (h : s.RegionRefLaw) (n : Nat)
    (hothers : ∀ m, m ≠ n → SameNames (s.store.slot m) (t.store.slot m))
    (hrefs : ∀ k, (t.region k).refs = (s.region k).refs - (s.store.slot n).namesRegion k + (t.store.slot n).namesRegion k)
    (hvalid : ∀ k, (t.region k).refs ≠ 0 → (t.region k).valid = true) : t.RegionRefLaw where
  count k := by
    have huses := TimerStore.regionUses_exchange hs.store ht.store n hothers k
    have hle := TimerStore.namesRegion_le_uses hs.store n k
    have hcount := h.count k
    rw [hrefs k]
    omega
  valid := hvalid

/-- One slot's arming and one posting ring's binding may be exchanged, their names moving the counts. -/
theorem State.RingRefLaw.exchange (h : s.RingRefLaw) (n p : Nat)
    (hslots : ∀ m, m ≠ n → SameNames (s.store.slot m) (t.store.slot m))
    (hrings : ∀ m, m ≠ p → ∀ k, (t.posting.ring m).binds k = (s.posting.ring m).binds k)
    (hrefs : ∀ k, (t.report.ring k).refs + (s.store.slot n).namesRing k + (s.posting.ring p).binds k =
      (s.report.ring k).refs + (t.store.slot n).namesRing k + (t.posting.ring p).binds k)
    (habsent : ∀ k, (t.report.ring k).state = .absent → (t.report.ring k).refs = 0)
    (hfetch : ∀ r, t.posting.inProgress = some r → r.stage = .fetching → (t.posting.ring r.ring).state = .active) :
    t.RingRefLaw where
  count k := by
    have hslotUses := TimerStore.ringUses_exchange hs.store ht.store n hslots k
    have hpostUses := PostingUnit.ringUses_exchange hs.posting ht.posting p hrings k
    have hcount := h.count k
    have hmove := hrefs k
    omega
  absent := habsent
  fetching := hfetch

/-- Nothing the counts speak of changes. -/
theorem State.RingRefLaw.congr (h : s.RingRefLaw) (hslots : ∀ m, SameNames (s.store.slot m) (t.store.slot m))
    (hrings : ∀ m k, (t.posting.ring m).binds k = (s.posting.ring m).binds k) (hreport : s.report.SameRefs t.report)
    (hfetch : ∀ r, t.posting.inProgress = some r → r.stage = .fetching → (t.posting.ring r.ring).state = .active) :
    t.RingRefLaw :=
  h.exchange hs ht 0 0 (fun m _ => hslots m) (fun m _ => hrings m)
    (fun k => by rw [(hreport k).1, (hslots 0).2 k, hrings 0 k])
    (fun k hk => (hreport k).1.trans (h.absent k ((hreport k).2.1 hk))) hfetch

end Laws

/-! ### Two forms that a command's change takes -/

/-- What the counts speak of is kept: the slots name what they named, the regions stand, the report rings keep their counts, the
posting rings are bound as they were, and the record in progress is the one it was or none. -/
structure LinksKept (s t : State) : Prop where
  slots : ∀ m, SameNames (s.store.slot m) (t.store.slot m)
  region : ∀ k, t.region k = s.region k
  report : s.report.SameRefs t.report
  posting : ∀ k, (t.posting.ring k).bound = (s.posting.ring k).bound ∧ (t.posting.ring k).state = (s.posting.ring k).state
  record : t.posting.inProgress = s.posting.inProgress ∨ t.posting.inProgress = none

/-- The arming of slot `n` is exchanged: the counts move by what its record names before and after, and it comes to name only
VALID regions and a running ring. -/
structure Rearmed (n : Nat) (s t : State) : Prop where
  others : ∀ m, m ≠ n → SameNames (s.store.slot m) (t.store.slot m)
  region : ∀ k, t.region k =
    { s.region k with refs := (s.region k).refs - (s.store.slot n).namesRegion k + (t.store.slot n).namesRegion k }
  refs : ∀ k, (t.report.ring k).refs =
    (s.report.ring k).refs - (s.store.slot n).namesRing k + (t.store.slot n).namesRing k
  present : ∀ k, (t.report.ring k).state = .absent ↔ (s.report.ring k).state = .absent
  posting : ∀ k, (t.posting.ring k).bound = (s.posting.ring k).bound ∧ (t.posting.ring k).state = (s.posting.ring k).state
  record : t.posting.inProgress = s.posting.inProgress ∨ t.posting.inProgress = none
  newRegion : ∀ k, (t.store.slot n).namesRegion k ≠ 0 → (s.region k).valid = true
  newRing : ∀ k, (t.store.slot n).namesRing k ≠ 0 → (s.report.ring k).state ≠ .absent

theorem PostRing.binds_congr {x y : PostRing} (h : y.bound = x.bound ∧ y.state = x.state) (k : Nat) : y.binds k = x.binds k := by
  rw [PostRing.binds, PostRing.binds, h.1, h.2]

section
variable {s t : State} (hs : s.Canonical) (ht : t.Canonical)
include hs ht

theorem LinksKept.regionRefLaw (hk : LinksKept s t) (h : s.RegionRefLaw) : t.RegionRefLaw := by
  refine h.exchange hs ht 0 (fun m _ => hk.slots m) (fun k => ?_) (fun k => by rw [hk.region k]; exact h.valid k)
  have hle := TimerStore.namesRegion_le_uses hs.store 0 k
  have hcount := h.count k
  rw [hk.region k, (hk.slots 0).1 k]
  omega

theorem LinksKept.ringRefLaw (hk : LinksKept s t) (h : s.RingRefLaw) : t.RingRefLaw := by
  refine h.congr hs ht hk.slots (fun m k => PostRing.binds_congr (hk.posting m) k) hk.report (fun r hr hstage => ?_)
  rw [(hk.posting r.ring).2]
  rcases hk.record with e | e
  · exact h.fetching r (e ▸ hr) hstage
  · rw [e] at hr
    cases hr

variable {n : Nat} (hk : Rearmed n s t)
include hk

theorem Rearmed.regionRefLaw (h : s.RegionRefLaw) : t.RegionRefLaw := by
  refine h.exchange hs ht n hk.others (fun k => by rw [hk.region k]) (fun k hne => ?_)
  rw [hk.region k] at hne ⊢
  by_cases hnew : (t.store.slot n).namesRegion k = 0
  · refine h.valid k fun hzero => hne ?_
    show (s.region k).refs - _ + _ = 0
    rw [hzero, hnew, Nat.zero_sub]
  · exact hk.newRegion k hnew

theorem Rearmed.ringRefLaw (h : s.RingRefLaw) : t.RingRefLaw := by
  refine h.exchange hs ht n 0 hk.others (fun m _ k => PostRing.binds_congr (hk.posting m) k) (fun k => ?_)
    (fun k habsent => ?_) (fun r hr hstage => ?_)
  · have hle := TimerStore.namesRing_le_uses hs.store n k
    have hcount := h.count k
    rw [PostRing.binds_congr (hk.posting 0) k, hk.refs k]
    omega
  · have hold := (hk.present k).1 habsent
    have hnew : (t.store.slot n).namesRing k = 0 := by
      by_contra hne
      exact hk.newRing k hne hold
    rw [hk.refs k, h.absent k hold, hnew, Nat.zero_sub]
  · rw [(hk.posting r.ring).2]
    rcases hk.record with e | e
    · exact h.fetching r (e ▸ hr) hstage
    · rw [e] at hr
      cases hr

end

/-! ### The Report Unit's operations keep the counts -/

namespace ReportUnit.SameRefs
variable {r r' r'' : ReportUnit}

theorem refl (r : ReportUnit) : r.SameRefs r := fun _ => ⟨rfl, .rfl⟩

theorem trans (h : r.SameRefs r') (h' : r'.SameRefs r'') : r.SameRefs r'' :=
  fun k => ⟨(h' k).1.trans (h k).1, (h' k).2.trans (h k).2⟩

theorem of_rings (h : r'.rings = r.rings) : r.SameRefs r' := fun k => by
  rw [ReportUnit.ring, h]
  exact ⟨rfl, .rfl⟩

/-- One ring set to a record with its count, ABSENT or not as it was. -/
theorem of_setRing {n : Nat} {x : ReportRing} (h : ∀ k, r'.ring k = if k = n then x else r.ring k)
    (hx : x.refs = (r.ring n).refs ∧ (x.state = .absent ↔ (r.ring n).state = .absent)) : r.SameRefs r' := by
  intro k
  rw [h k]
  split
  · next hk => rw [hk]; exact hx
  · exact ⟨rfl, .rfl⟩

theorem setRing (n : Nat) {x : ReportRing} (hx : x.refs = (r.ring n).refs ∧ (x.state = .absent ↔ (r.ring n).state = .absent)) :
    r.SameRefs (r.setRing n x) := of_setRing (fun k => ReportUnit.ring_setRing _ _ k _) hx

variable (r) (n : Nat)

theorem handIn (x : Report) : r.SameRefs (r.handIn n x) := fun k => by
  rw [ReportUnit.handIn_ring]
  exact ⟨rfl, .rfl⟩

theorem take (x : Report) : r.SameRefs (r.take n x) := by
  unfold ReportUnit.take
  dsimp only
  split
  · exact .refl r
  · exact .refl r
  · exact .setRing n ⟨rfl, .rfl⟩
  · rename_i hactive
    split
    · exact .setRing n ⟨rfl, .rfl⟩
    · split
      · exact .refl r
      · exact .setRing n ⟨rfl, by simp [hactive]⟩

theorem returnSpace (mt : U64) : r.SameRefs (r.returnSpace n mt) := by
  have hmoved : r.SameRefs (r.moveHeld n) := of_setRing (fun k => ReportUnit.moveHeld_ring _ _ k) ⟨rfl, .rfl⟩
  unfold ReportUnit.returnSpace
  split
  · refine hmoved.trans ?_
    unfold ReportUnit.placeLoss
    dsimp only
    split
    · rename_i h
      have hstate : ((r.moveHeld n).ring n).state ≠ .absent := by rw [h.1]; decide
      exact .setRing n ⟨rfl, ⟨fun e => (nomatch e), fun e => absurd e hstate⟩⟩
    · exact .refl _
  · exact .refl r

theorem foldl_ringAtTick (mt : U64) (l : List Nat) : r.SameRefs (l.foldl (fun r n => r.ringAtTick mt n) r) := by
  induction l generalizing r with
  | nil => exact .refl r
  | cons n l ih =>
    refine SameRefs.trans (fun k => ?_) (ih (r.ringAtTick mt n))
    rw [ReportUnit.ringAtTick_ring]
    split <;> exact ⟨rfl, .rfl⟩

theorem written (mt : U64) : r.SameRefs (r.written n mt) := by
  have hadvance : ∀ x : ReportRing, x.advance.refs = x.refs ∧ x.advance.state = x.state := fun x => ⟨rfl, rfl⟩
  have hcount : ∀ x : ReportRing, (x.countWritten mt).refs = x.refs ∧ (x.countWritten mt).state = x.state := by
    intro x
    unfold ReportRing.countWritten
    split <;> exact ⟨rfl, rfl⟩
  have hwritten := hcount ({ r.ring n with queue := (r.ring n).queue.tail }.advance)
  have hset : ∀ x : ReportRing, x.refs = (r.ring n).refs → x.state = (r.ring n).state → r.SameRefs (r.setRing n x) :=
    fun x hrefs hstate => .setRing n ⟨hrefs, by rw [hstate]⟩
  unfold ReportUnit.written
  dsimp only
  split
  · exact hset _ hwritten.1 hwritten.2
  · exact hset _ hwritten.1 hwritten.2

theorem faultRing (h : (r.ring n).running = true) : r.SameRefs (r.faultRing n) := by
  have hstate : (r.ring n).state ≠ .absent := fun e => by simp [ReportRing.running, e] at h
  have hset : r.SameRefs (r.setRing n { r.ring n with state := .faulted, queue := [] }) :=
    .setRing n ⟨rfl, ⟨fun e => (nomatch e), fun e => absurd e hstate⟩⟩
  exact fun k => hset k

end ReportUnit.SameRefs

end Sys2Proof.Machine
end

section
/-!
SUPPORT. What each command does to the reference counts and to what they count: it keeps the links, or exchanges one slot's
arming, but for the requests of regions and rings, the arbiter, the intake's reads and the enabling.
-/
namespace Sys2Proof.Machine

/-! ### The links through the state's operations -/

/-- The record in progress ended or kept, twice. -/
theorem record_trans {a b c : Option IntakeRecord} (h : b = a ∨ b = none) (h' : c = b ∨ c = none) : c = a ∨ c = none := by
  rcases h' with rfl | rfl
  · exact h
  · exact .inr rfl

namespace LinksKept
variable {s u : State}

theorem refl (s : State) : LinksKept s s := ⟨fun _ => .refl _, fun _ => rfl, .refl _, fun _ => ⟨rfl, rfl⟩, .inl rfl⟩

variable (h : LinksKept s u)
include h

theorem setTb (x : TimeBase) : LinksKept s (u.setTb x) := ⟨h.slots, h.region, h.report, h.posting, h.record⟩
theorem setDisp (x : Dispatcher) : LinksKept s (u.setDisp x) := ⟨h.slots, h.region, h.report, h.posting, h.record⟩
theorem setEngine (x : ActionEngine) : LinksKept s (u.setEngine x) := ⟨h.slots, h.region, h.report, h.posting, h.record⟩
theorem setWindow (x : Window) : LinksKept s (u.setWindow x) := ⟨h.slots, h.region, h.report, h.posting, h.record⟩
theorem setMem (x : List Host.Cell) : LinksKept s (u.setMem x) := ⟨h.slots, h.region, h.report, h.posting, h.record⟩
theorem setLine (n : Nat) (x : LineRec) : LinksKept s (u.setLine n x) := ⟨h.slots, h.region, h.report, h.posting, h.record⟩
theorem offer : LinksKept s u.offer := h.setDisp _

theorem setReport {x : ReportUnit} (hx : u.report.SameRefs x) : LinksKept s (u.setReport x) :=
  ⟨h.slots, h.region, h.report.trans hx, h.posting, h.record⟩

theorem setStore {x : TimerStore} (hx : ∀ m, SameNames (u.store.slot m) (x.slot m)) : LinksKept s (u.setStore x) :=
  ⟨fun m => (h.slots m).trans (hx m), h.region, h.report, h.posting, h.record⟩

/-- A slot's record set to one that names the same. -/
theorem setSlot {x : TimerStore} {n : Nat} {y : TimerSlot} (hx : ∀ m, x.slot m = if m = n then y else u.store.slot m)
    (hy : SameNames (u.store.slot n) y) : LinksKept s (u.setStore x) :=
  h.setStore fun m => by
    rw [hx m]
    split
    · next e => rw [e]; exact hy
    · exact .refl _

theorem endRecord : LinksKept s u.endRecord := ⟨h.slots, h.region, h.report, h.posting, .inr rfl⟩

theorem handIn (a : AckHead) (st : Status) (res : AckResults) : LinksKept s (u.handIn a st res) :=
  h.setReport (.handIn _ _ _)

theorem answer (r : IntakeRecord) (w : PostSlot) (st : Status) (res : AckResults) : LinksKept s (u.answer r w st res) :=
  (h.handIn _ st res).endRecord

theorem take (n : Nat) (x : Report) : LinksKept s (u.setReport (u.report.take n x)) := h.setReport (.take _ n x)

theorem applyStep (mode : StepMode) (v : U64) : LinksKept s (u.applyStep mode v) :=
  ((h.setTb _).setStore fun m => by
    rw [State.setTb_store, TimerStore.markStep_slot, TimerSlot.markStep_eq]
    exact .of_fields .rfl rfl rfl rfl).offer

theorem trans {t : State} (h' : LinksKept u t) : LinksKept s t :=
  ⟨fun m => (h.slots m).trans (h'.slots m), fun k => (h'.region k).trans (h.region k), h.report.trans h'.report,
    fun k => ⟨(h'.posting k).1.trans (h.posting k).1, (h'.posting k).2.trans (h.posting k).2⟩, record_trans h.record h'.record⟩

theorem setIntr (x : BitVec 9) : LinksKept s (u.setReport { u.report with intrPending := x }) := h.setReport (.of_rings rfl)

theorem of_slots {ps : List Part} {t : State} (hf : OnlyIn ps u t) (hslots : ∀ m, SameNames (u.store.slot m) (t.store.slot m))
    (hps : ∀ p ∈ [Part.regions, .report, .posting], p ∉ ps) : LinksKept s t := by
  have hregions := hf.regions_eq (hps _ (by simp))
  have hreport := hf.report_eq (hps _ (by simp))
  have hposting := OnlyIn.posting_eq hf (hps _ (by simp))
  exact ⟨fun m => (h.slots m).trans (hslots m), by simpa only [State.region, hregions] using h.region,
    by rw [hreport]; exact h.report, by rw [hposting]; exact h.posting, by rw [hposting]; exact h.record⟩

theorem of_onlyIn {ps : List Part} {t : State} (hf : OnlyIn ps u t)
    (hps : ∀ p ∈ [Part.store, .regions, .report, .posting], p ∉ ps) : LinksKept s t :=
  h.of_slots hf (fun m => by rw [hf.store_eq (hps _ (by simp))]; exact .refl _) (fun p hp => hps p (by simp_all))

theorem linesAtTick (l : List Nat) : LinksKept s (u.linesAtTick l) := by
  induction l generalizing u with
  | nil => exact h
  | cons n l ih => exact ih (h.setLine _ _)

theorem switchAtTick : LinksKept s u.switchAtTick := by
  unfold State.switchAtTick
  split
  · exact h
  · split
    · exact (h.setTb _).handIn _ _ _
    · split
      · exact (h.setTb _).handIn _ _ _
      · exact h.setTb _

theorem alignAtTick : LinksKept s u.alignAtTick := by
  unfold State.alignAtTick
  split
  · exact h
  · split
    · exact (h.setTb _).handIn _ _ _
    · exact h

theorem tick (b : Bool) : LinksKept s (u.tick b) := by
  have hmid : LinksKept s (u.midTick b) := by
    cases b
    · exact (h.setTb _).switchAtTick.alignAtTick
    · exact (h.setTb _).alignAtTick.switchAtTick
  rw [State.tick_eq]
  exact (((hmid.setTb (u.midTick b).tb.newCount).linesAtTick (List.range 8)).setReport (.foldl_ringAtTick _ _ _)).offer

theorem timeMark (b : Bool) : LinksKept s (u.timeMark b) := by
  unfold State.timeMark
  split
  · exact h.take _ _
  · exact h

theorem afterReset : LinksKept s u.afterReset := h.of_onlyIn State.afterReset_onlyIn (by simp)

end LinksKept

theorem clockKeeps_linksKept (s : State) : ClockKeeps (LinksKept s) where
  countGap _ h := h.setTb _
  edge _ h := h.setTb _
  countEdge _ h _ := h.setTb _
  restart _ h _ := h.setTb _
  count _ h _ := h.setTb _
  tick _ b h := h.tick b
  fallBack _ h _ := (h.setTb _).take _ _

namespace Rearmed
variable {n : Nat} {s u t : State}

/-- What keeps the links may come before. -/
theorem after (hk : LinksKept s u) (h : Rearmed n u t) : Rearmed n s t where
  others m hm := (hk.slots m).trans (h.others m hm)
  region k := by rw [h.region k, hk.region k, (hk.slots n).1 k]
  refs k := by rw [h.refs k, (hk.report k).1, (hk.slots n).2 k]
  present k := (h.present k).trans (hk.report k).2
  posting k := ⟨(h.posting k).1.trans (hk.posting k).1, (h.posting k).2.trans (hk.posting k).2⟩
  record := record_trans hk.record h.record
  newRegion k hne := hk.region k ▸ h.newRegion k hne
  newRing k hne := fun e => h.newRing k hne ((hk.report k).2.2 e)

/-- What keeps the links may come after. -/
theorem kept (h : Rearmed n s u) (hk : LinksKept u t) : Rearmed n s t where
  others m hm := (h.others m hm).trans (hk.slots m)
  region k := by rw [hk.region k, h.region k, (hk.slots n).1 k]
  refs k := by rw [(hk.report k).1, h.refs k, (hk.slots n).2 k]
  present k := (hk.report k).2.trans (h.present k)
  posting k := ⟨(hk.posting k).1.trans (h.posting k).1, (hk.posting k).2.trans (h.posting k).2⟩
  record := record_trans h.record hk.record
  newRegion k hne := h.newRegion k ((hk.slots n).1 k ▸ hne)
  newRing k hne := h.newRing k ((hk.slots n).2 k ▸ hne)

end Rearmed

/-! ### Requests -/

section Requests
variable {s : State}

/-- A slot goes FREE and names nothing any more. -/
theorem State.freeSlot_rearmed {n : Nat} (hx : (s.store.slot n).state = .armed) : Rearmed n s (s.freeSlot n) := by
  obtain ⟨hf, hstore, hregion, hring, -⟩ := s.freeSlot_spec n hx
  have hfree : ((s.freeSlot n).store.slot n).state = .free := by rw [hstore]; simp
  have hposting := OnlyIn.posting_eq hf (by simp)
  exact {
    others := fun m hm => by rw [hstore, TimerStore.goFree_slot, if_neg hm]; exact .refl _
    region := fun k => by rw [hregion k, TimerSlot.namesRegion_free _ hfree, Nat.add_zero]
    refs := fun k => by rw [hring k, TimerSlot.namesRing_free _ hfree, Nat.add_zero]
    present := fun k => by rw [hring k]
    posting := fun k => by rw [hposting]; exact ⟨rfl, rfl⟩
    record := .inl (by rw [hposting])
    newRegion := fun k hne => absurd (TimerSlot.namesRegion_free _ hfree k) hne
    newRing := fun k hne => absurd (TimerSlot.namesRing_free _ hfree k) hne }

/-- An action's region, once checked, is VALID. -/
theorem State.valid_of_regionCheck {a : Action} (h : s.regionCheck a = .ok) (hk : a.kind.isMemory = true) :
    (s.region a.target).valid = true := by
  unfold State.regionCheck at h
  by_contra hv
  simp [hk, Bool.eq_false_of_not_eq_true hv] at h

/-- The actions of an ARM whose check 7 passes name VALID regions. -/
theorem ArmRequest.valid_of_regionChecks {q : ArmRequest} (h : q.regionChecks s = .ok) (old : TimerSlot) (d : U64) {k : Nat}
    (hk : k ∈ (q.arming old d).regionRefs) : (s.region k).valid = true := by
  unfold ArmRequest.regionChecks at h
  dsimp only at h
  split at h
  · exact absurd h ‹_›
  · rename_i hmain
    rw [ne_eq, not_not] at hmain
    unfold TimerSlot.regionRefs at hk
    rw [List.mem_append] at hk
    rcases hk with hk | hk
    · split at hk
      · rename_i hmem
        rw [List.mem_singleton.1 hk]
        cases ha : q.action.action with
        | none =>
          rw [show (q.arming old d).mainAction = Action.reset by simp [ArmRequest.arming, ha]] at hmem
          exact absurd hmem (by decide)
        | some a =>
          have hact : (q.arming old d).mainAction = a := by simp [ArmRequest.arming, ha]
          rw [hact] at hmem ⊢
          exact State.valid_of_regionCheck (by simpa [ha] using hmain) hmem
      · cases hk
    · split at hk
      · rename_i f hf
        obtain ⟨e, he, hef⟩ := Option.bind_eq_some_iff.1 (show q.ext.bind Extension.followPart = some f from hf)
        split at hk
        · rename_i hmem
          rw [List.mem_singleton.1 hk]
          exact State.valid_of_regionCheck (by simpa [he, hef] using h) hmem
        · cases hk
      · cases hk

/-- The report ring of an ARM whose check 5 passes is not ABSENT. -/
theorem ArmRequest.present_of_check {q : ArmRequest} (h : ¬q.lacksReportRing s = true) (old : TimerSlot) (d : U64) {k : Nat}
    (hk : (q.arming old d).reportRing = some k) : (s.report.ring k).state ≠ .absent := by
  intro habsent
  unfold ArmRequest.arming at hk
  dsimp only at hk
  split at hk
  · cases hk
  · rename_i hpolicy
    cases hk
    exact h (by simp [ArmRequest.lacksReportRing, hpolicy, ReportRing.running, habsent])

/-- The checks 5, 7 and 8 of an ARM that passes them all. -/
theorem ArmRequest.checks_of_ok {q : ArmRequest} {ring : Nat} {w : PostSlot} {o : Option PostSlot}
    (h : q.check ring w o s = .ok) :
    ¬q.lacksReportRing s = true ∧ q.regionChecks s = .ok ∧ q.stateCheck (s.store.slot q.timer.toNat) = .ok := by
  simp only [ArmRequest.check] at h
  split_ifs at h with h3 h4 h5 h6 h7 h8
  · exact absurd h ‹_›
  · exact absurd h ‹_›
  · exact absurd h ‹_›
  · exact ⟨h5, not_not.1 h7, not_not.1 h8⟩

/-- The slot of an ARM whose check 8 passes is not FIRING. -/
theorem ArmRequest.not_firing_of_check {q : ArmRequest} {x : TimerSlot} (h : q.stateCheck x = .ok) : x.state ≠ .firing := by
  intro hf
  simp [ArmRequest.stateCheck, hf] at h

/-- An accepted ARM exchanges its slot's arming. -/
theorem State.armSlot_rearmed {q : ArmRequest} (hring : ¬q.lacksReportRing s = true) (hregions : q.regionChecks s = .ok)
    (hstate : q.stateCheck (s.store.slot q.timer.toNat) = .ok) (d : U64) :
    Rearmed q.timer.toNat s (s.armSlot q.timer.toNat (q.arming (s.store.slot q.timer.toNat) d)) := by
  generalize hx : q.arming (s.store.slot q.timer.toNat) d = x
  have harmed : x.state = .armed := by rw [← hx]; rfl
  obtain ⟨hf, hslot, -, -, -, -, hregion, hrings, -⟩ :=
    s.armSlot_spec x q.timer.toNat (ArmRequest.not_firing_of_check hstate) harmed
  have hnames : SameNames x ((s.armSlot q.timer.toNat x).store.slot q.timer.toNat) := by
    rw [hslot, if_pos rfl]
    exact .of_fields .rfl rfl rfl rfl
  have hne : x.state ≠ .free := by rw [harmed]; decide
  have hposting := OnlyIn.posting_eq hf (by simp)
  exact {
    others := fun m hm => by rw [hslot m, if_neg hm]; exact .refl _
    region := fun k => by rw [hregion k, hnames.1 k]
    refs := fun k => by rw [hrings k, hnames.2 k]
    present := fun k => by rw [hrings k]
    posting := fun k => by rw [hposting]; exact ⟨rfl, rfl⟩
    record := .inl (by rw [hposting])
    newRegion := fun k hk => by
      rw [hnames.1 k, TimerSlot.namesRegion_of x hne] at hk
      exact ArmRequest.valid_of_regionChecks hregions _ d (hx ▸ List.count_pos_iff.1 (Nat.pos_of_ne_zero hk))
    newRing := fun k hk => by
      rw [hnames.2 k, TimerSlot.namesRing_of x hne] at hk
      exact ArmRequest.present_of_check hring _ d (hx ▸ (by_contra fun h => hk (if_neg h))) }

theorem State.retimeSlot_links (n : Nat) (d : U64) : LinksKept s (s.retimeSlot n d) := by
  obtain ⟨hf, hslot, -⟩ := s.retimeSlot_spec n d
  refine (LinksKept.refl s).of_slots hf (fun m => ?_) (by simp)
  rw [hslot m]
  split
  · next e => rw [e]; exact .of_fields .rfl rfl rfl rfl
  · exact .refl _

/-- The requests that register regions and rings. -/
def isLinkRequest : Opcode → Bool
  | .setRegion | .clearRegion | .createPostRing | .deletePostRing | .resumePostRing | .createReportRing | .deleteReportRing =>
    true
  | _ => false

/-- What a request's owner does: it keeps the links, or exchanges one slot's arming. -/
theorem State.takeRequest_links {op : Opcode} (hop : isLinkRequest op = false) (r : IntakeRecord) (w : PostSlot) :
    LinksKept s (s.takeRequest op r w) ∨ ∃ n, Rearmed n s (s.takeRequest op r w) := by
  have hs := LinksKept.refl s
  cases op <;> cases hop
  case arm =>
    simp only [State.takeRequest, State.takeArm]
    split
    · rename_i h
      obtain ⟨hring, hregions, hstate⟩ := ArmRequest.checks_of_ok h
      exact .inr ⟨_, (State.armSlot_rearmed hring hregions hstate _).kept ((LinksKept.refl _).answer r w _ _)⟩
    · exact .inl (hs.answer r w _ _)
  case cancel =>
    simp only [State.takeRequest, State.takeCancel]
    split
    · rename_i h
      exact .inr ⟨_, (State.freeSlot_rearmed (CancelRequest.armed_of_ok h)).kept ((LinksKept.refl _).answer r w _ _)⟩
    · exact .inl ((hs.setSlot (TimerStore.requestCancel_slot _ _) (.of_fields .rfl rfl rfl rfl)).answer r w _ _)
    · exact .inl (hs.answer r w _ _)
  case retime =>
    simp only [State.takeRequest, State.takeRetime]
    split
    · refine .inl (LinksKept.answer ?_ r w _ _)
      exact State.retimeSlot_links _ _
    · exact .inl (hs.answer r w _ _)
  case query =>
    simp only [State.takeRequest, State.takeQuery]
    split <;> exact .inl (hs.answer r w _ _)
  case configureTimebase =>
    refine .inl ?_
    simp only [State.takeRequest, State.takeConfigure]
    split
    · exact hs.answer r w _ _
    · split
      · exact (hs.setTb _).answer r w _ _
      · exact (hs.setTb _).answer r w _ _
      · exact (hs.setTb _).endRecord
      · exact (hs.setTb _).endRecord
      · exact (hs.setTb _).answer r w _ _
  case setTrim =>
    refine .inl ?_
    simp only [State.takeRequest, State.takeSetTrim]
    split
    · exact (hs.setTb _).answer r w _ _
    · exact hs.answer r w _ _
  case setTime =>
    refine .inl ?_
    simp only [State.takeRequest, State.takeSetTime]
    split
    · have hreplaced : LinksKept s s.endReplaced := by
        unfold State.endReplaced
        split
        · exact hs
        · exact (hs.setTb _).handIn _ _ _
      unfold State.setTime
      split
      · exact (hreplaced.setTb _).endRecord
      · exact (hreplaced.applyStep _ _).answer r w _ _
    · exact hs.answer r w _ _
  case setMarks =>
    refine .inl ?_
    simp only [State.takeRequest, State.takeSetMarks]
    split
    · exact (hs.setTb _).answer r w _ _
    · exact hs.answer r w _ _
  case readTime =>
    refine .inl ?_
    simp only [State.takeRequest, State.takeReadTime]
    split <;> exact hs.answer r w _ _
  case setLineRest =>
    refine .inl (LinksKept.answer ?_ r w _ _)
    split
    · exact hs.of_onlyIn (State.setRest_onlyIn _ _ _) (by simp)
    · exact hs
  case extension => exact .inl hs

end Requests

/-! ### Commands -/

section Commands
variable {s t : State}

/-- A report handed in keeps the links. -/
theorem State.handReport_links (x : TimerSlot) (f : Fired) : LinksKept s (s.handReport x f) := by
  unfold State.handReport
  split
  · exact .refl s
  · split
    · exact (LinksKept.refl s).take _ _
    · exact .refl s

/-- A return settles its slot: it ends and names nothing any more, or it is ARMED again and names what it named. -/
theorem State.settleSlot_links {n : Nat} {x : TimerSlot} (hx : (s.store.slot n).state = .firing)
    (hsame : ∃ k, x = { s.store.slot n with fireCount := k }) (o : ReturnOutcome) :
    LinksKept s (s.settleSlot n x o) ∨ Rearmed n s (s.settleSlot n x o) := by
  obtain ⟨k, rfl⟩ := hsame
  have hjoin : ∀ y : TimerSlot, y.state = .armed → y.mainAction = (s.store.slot n).mainAction →
      y.follow = (s.store.slot n).follow → y.reportRing = (s.store.slot n).reportRing →
      LinksKept s (s.setStore (s.store.join n y)).offer := fun y hy hmain hfollow hring =>
    ((LinksKept.refl s).setSlot (fun m => TimerStore.join_slot _ n y m)
      (.of_fields (x := s.store.slot n) (y := { y with seq := s.store.nextSeq })
        ⟨fun e => absurd (hy.symm.trans e) (by decide), fun e => absurd (hx.symm.trans e) (by decide)⟩ hmain hfollow hring)).offer
  cases o with
  | nextPeriod d k => exact .inl (hjoin _ rfl rfl rfl rfl)
  | followPhase d => exact .inl (hjoin _ rfl rfl rfl rfl)
  | ends b =>
    have hne : (s.store.slot n).state ≠ .free := by rw [hx]; decide
    obtain ⟨hf, hothers, hslot, -, -, -, hregion, hring, -⟩ :=
      s.settleSlot_ends_spec n (x := { s.store.slot n with fireCount := k }) b hne
    generalize s.settleSlot n _ (.ends b) = u at *
    have hfree : (u.store.slot n).state = .free := by rw [hslot]
    have hposting := OnlyIn.posting_eq hf (by simp)
    have hnames : SameNames (s.store.slot n) { s.store.slot n with fireCount := k } := .of_fields .rfl rfl rfl rfl
    exact .inr {
      others := fun m hm => by rw [hothers m hm]; exact .refl _
      region := fun k => by rw [hregion k, hnames.1 k, TimerSlot.namesRegion_free _ hfree, Nat.add_zero]
      refs := fun k => by rw [hring k, hnames.2 k, TimerSlot.namesRing_free _ hfree, Nat.add_zero]
      present := fun k => by rw [hring k]
      posting := fun k => by rw [hposting]; exact ⟨rfl, rfl⟩
      record := .inl (by rw [hposting])
      newRegion := fun k hk => absurd (TimerSlot.namesRegion_free _ hfree k) hk
      newRing := fun k hk => absurd (TimerSlot.namesRing_free _ hfree k) hk }

/-- The commands that register regions and rings, and those of the intake. -/
def isLinkCommand (c : Instr) : Bool :=
  match requestOpcode c with
  | some op => isLinkRequest op
  | none =>
    match c with
    | .intakeChoice | .intakeReadAnswer _ | .enable => true
    | _ => false

/-- A completion return taken. -/
theorem State.takeReturn_links (h : LinksKept s t) {c : Completion} (hx : (t.store.slot c.timer).state = .firing) :
    LinksKept s (t.takeReturn c) ∨ ∃ n, Rearmed n s (t.takeReturn c) := by
  unfold State.takeReturn
  dsimp only
  generalize hf : (t.store.slot c.timer).report c _ = f
  generalize (t.store.slot c.timer).outcome c _ = o
  have hreport := h.trans (State.handReport_links (t.store.slot c.timer) f)
  have hstore : (t.handReport (t.store.slot c.timer) f).store = t.store := by
    obtain ⟨mid, e, -⟩ := t.handReport_spec (t.store.slot c.timer) f
    rw [e, State.setReport_store]
  rcases State.settleSlot_links (s := t.handReport (t.store.slot c.timer) f) (n := c.timer)
    (x := { t.store.slot c.timer with fireCount := (t.store.slot c.timer).counted }) (by rw [hstore]; exact hx)
    ⟨_, by rw [hstore]⟩ o with hk | hk
  · exact .inl (hreport.trans hk)
  · exact .inr ⟨_, hk.after hreport⟩

theorem exec_completionReturn_links (he : exec .completionReturn s = .next t) :
    LinksKept s t ∨ ∃ n, Rearmed n s t := by
  cases he
  have hs := LinksKept.refl s
  split
  · exact .inl hs.afterReset
  · rename_i c cs _
    dsimp only
    split
    · rename_i hfiring
      exact State.takeReturn_links (hs.setEngine { s.engine with returns := cs }) hfiring
    · exact .inl (hs.setEngine _)

/-- A due slot is FIRING once claimed, and names what it named. -/
theorem State.fire_links {n : Nat} (hdue : (s.store.slot n).due s.tb = true) (x : ActionEngine) :
    LinksKept s ((s.setEngine x).setStore (s.store.fire n)) := by
  have harmed : (s.store.slot n).state ≠ .free := by
    intro e
    simp [TimerSlot.due, e] at hdue
  refine (LinksKept.refl s).of_slots (ps := [.engine, .store]) (by simp [OnlyIn]) (fun m => ?_) (by simp)
  rw [State.setStore_store, TimerStore.fire_slot]
  split
  · next e =>
    rw [e]
    exact .of_fields ⟨fun e => (nomatch e), fun e => absurd e harmed⟩ rfl rfl rfl
  · exact .refl _

theorem State.tailDoorbell_links (h : LinksKept s t) (n : BitVec 4) (v : BitVec 16) : LinksKept s (t.tailDoorbell n v) := by
  unfold State.tailDoorbell
  dsimp only
  split
  · refine ⟨h.slots, h.region, h.report, fun k => ?_, h.record⟩
    rw [State.setPosting_posting, PostingUnit.ring_setRing]
    split
    · next e => rw [e]; exact h.posting n.toNat
    · exact h.posting k
  · exact h.setWindow _

theorem State.consumerDoorbell_links (h : LinksKept s t) (n : BitVec 4) (v : BitVec 16) :
    LinksKept s (t.consumerDoorbell n v) := by
  unfold State.consumerDoorbell
  have hset : t.report.SameRefs (t.report.setRing n.toNat { t.report.ring n.toNat with consumer := v.toNat }) :=
    .setRing _ ⟨rfl, .rfl⟩
  dsimp only
  split
  · refine h.setReport ?_
    split
    · exact hset
    · exact hset.trans (.returnSpace _ _ _)
  · exact h.setWindow _

theorem State.ringWriteAnswered_links (h : LinksKept s t) {n : Nat} (hrun : (t.report.ring n).running = true) (w : PortWrite)
    (a : WriteAnswer) : LinksKept s (t.ringWriteAnswered n w a) := by
  have hmem := h.setMem (Memory.settle w a t.mem)
  have hfault := hmem.setReport (x := t.report.faultRing n) (.faultRing _ n hrun)
  cases a with
  | ok => exact hmem.setReport (.written _ n _)
  | error l =>
    show LinksKept s (if n = 0 then _ else _)
    split
    · exact hfault.setWindow _
    · exact hmem.setReport ((ReportUnit.SameRefs.faultRing _ n hrun).trans (.take _ _ _))

/-- A pending step applied at an ALIGN edge keeps the links. -/
theorem State.applyPending_links (h : LinksKept s t) (p : PendingStep) : LinksKept s (t.applyPending p) :=
  ((h.setTb _).applyStep _ _).handIn _ _ _

/-- What a command other than a reset does: it keeps the links, or exchanges one slot's arming. -/
theorem exec_links {c : Instr} (hl : isLinkCommand c = false) (hr : isResetCommand c = false) (he : exec c s = .next t) :
    LinksKept s t ∨ ∃ n, Rearmed n s t := by
  have hs := LinksKept.refl s
  have hend := hs.afterReset
  have hite : ∀ {P : Prop} [Decidable P] {a b : State}, LinksKept s a → LinksKept s b → LinksKept s (if P then a else b) := by
    intro P _ a b ha hb
    split
    · exact ha
    · exact hb
  cases hc : requestOpcode c with
  | some op =>
    rcases exec_request hc s with ⟨r, w, -, e⟩ | ⟨-, e⟩ <;> cases e.symm.trans he
    · exact State.takeRequest_links (by simpa [isLinkCommand, hc] using hl) r w
    · exact .inl hend
  | none =>
    by_cases hk : isClockCommand c = true
    · exact .inl ((clockKeeps_linksKept s).exec hk hend he)
    by_cases hp : ∀ p ∈ [Part.store, .regions, .report, .posting], p ∉ commandParts c
    · exact .inl ((exec_frame he).elim (fun hf => hs.of_onlyIn hf hp) (fun hf => hend.of_onlyIn hf hp))
    cases c <;> simp [commandParts] at hp <;> simp [requestOpcode, isClockCommand, isResetCommand, isLinkCommand] at hc hk hr hl
    case postingTailDoorbell n v =>
      refine .inl ?_
      cases he
      exact hite (hite (hend.setWindow _) (State.tailDoorbell_links hend n v)) hend
    case reportConsumerDoorbell n v =>
      refine .inl ?_
      cases he
      exact hite (hite (hend.setWindow _) (State.consumerDoorbell_links hend n v)) hend
    case intrPendingClear v =>
      refine .inl ?_
      cases he
      exact hite (hend.setIntr _) hend
    case alignEdge =>
      refine .inl ?_
      cases he
      refine hite ?_ hend
      split
      · exact (State.applyPending_links hend _).timeMark true
      · exact hend.timeMark false
    case dispatchClaim =>
      refine .inl ?_
      cases he
      split
      · exact hend
      · split
        · rename_i hdue
          split
          · exact hs
          · exact (State.fire_links hdue _).setDisp _
        · exact hs.setDisp _
    case completionReturn => exact exec_completionReturn_links he
    case reportWriteAnswer x a =>
      refine .inl ?_
      cases he
      cases x with
      | ring n =>
        dsimp only
        split
        · split
          · exact State.ringWriteAnswered_links hs ‹_› _ a
          · exact hs
        · exact hend
      | deleted k =>
        dsimp only
        split
        · exact (hs.setMem _).setReport (.of_rings rfl)
        · exact hend

end Commands
end Sys2Proof.Machine
end

section
/-!
SUPPORT. O13 and O14: the requests of regions and rings, the intake's reads and the enabling, one by one, and the laws of the
reference counts over every step.
-/
namespace Sys2Proof.Machine

/-! ### O13: regions -/

theorem State.RegionRefLaw.congr {s t : State} (h : s.RegionRefLaw) (hstore : t.store = s.store)
    (hregions : t.regions = s.regions) :
    t.RegionRefLaw := by
  have hregion : ∀ k, t.region k = s.region k := fun k => by rw [State.region, hregions]; rfl
  exact ⟨fun k => by rw [hregion, hstore]; exact h.count k, fun k => by rw [hregion]; exact h.valid k⟩

theorem State.RegionRefLaw.reset {s : State} (hstore : s.store = TimerStore.reset) (hregions : s.regions = []) :
    s.RegionRefLaw := by
  have hregion : ∀ k, s.region k = Region.reset := fun k => by rw [State.region, hregions]; rfl
  exact ⟨fun k => by rw [hregion, hstore]; rfl, fun k h => by rw [hregion] at h; exact absurd rfl h⟩

section Regions
variable {s : State}

/-- An unreferenced region may be set to any record without references. -/
theorem State.RegionRefLaw.setRegion (h : s.RegionRefLaw) {n : Nat} (hn : (s.region n).refs = 0) {x : Region} (hx : x.refs = 0) :
    (s.setRegion n x).RegionRefLaw := by
  have hregion : ∀ k, (s.setRegion n x).region k = if k = n then x else s.region k := fun k => by simp
  refine ⟨fun k => ?_, fun k hk => ?_⟩
  · rw [hregion k]
    split
    · next e => rw [hx, ← hn, ← e]; exact h.count k
    · exact h.count k
  · rw [hregion k] at hk ⊢
    split at hk
    · exact absurd hx hk
    · next e => rw [if_neg e]; exact h.valid k hk

theorem SetRegionRequest.unreferenced_of_ok {q : SetRegionRequest} {w : PostSlot} (h : q.check w s = .ok) :
    (s.region q.number.toNat).refs = 0 := by
  unfold SetRegionRequest.check at h
  split_ifs at h with h1 h2 h3
  exact not_not.1 h3

theorem State.unreferenced_of_clearRegionCheck {w : PostSlot} (h : s.clearRegionCheck w = .ok)
    (hv : (s.region (PostSlot.number w).toNat).valid = true) : (s.region (PostSlot.number w).toNat).refs = 0 := by
  unfold State.clearRegionCheck at h
  dsimp only at h
  split_ifs at h with h1 h2 h3
  exact by_contra fun hne => h3 ⟨hv, hne⟩

theorem State.RegionRefLaw.takeSetRegion (h : s.RegionRefLaw) (r : IntakeRecord) (w : PostSlot) :
    (s.takeSetRegion r w).RegionRefLaw := by
  by_cases hok : (SetRegionRequest.read w).check w s = .ok
  · rw [State.takeSetRegion_accepted s r w hok]
    exact State.RegionRefLaw.congr (s := s.setRegion (PostSlot.byte w 2).toNat (SetRegionRequest.read w).region)
      (h.setRegion (SetRegionRequest.unreferenced_of_ok hok) rfl) rfl rfl
  · rw [State.takeSetRegion_refused s r w hok]
    exact h.congr rfl rfl

theorem State.RegionRefLaw.takeClearRegion (h : s.RegionRefLaw) (r : IntakeRecord) (w : PostSlot) :
    (s.takeClearRegion r w).RegionRefLaw := by
  by_cases hok : s.clearRegionCheck w = .ok ∧ (s.region (PostSlot.byte w 2).toNat).valid = true
  · rw [State.takeClearRegion_clears s r w hok]
    exact State.RegionRefLaw.congr (s := s.setRegion (PostSlot.byte w 2).toNat Region.reset)
      (h.setRegion (State.unreferenced_of_clearRegionCheck hok.1 hok.2) rfl) rfl rfl
  · rw [State.takeClearRegion_keeps s r w hok]
    exact h.congr rfl rfl

end Regions

theorem exec_regionRefLaw {c : Instr} {s t : State} (hs : s.Canonical) (h : s.RegionRefLaw) (he : exec c s = .next t) :
    t.RegionRefLaw := by
  have ht := exec_canonical hs he
  by_cases hr : isResetCommand c = true
  · rcases exec_reset_cases hr he with ⟨hf, -⟩ | hreset
    · exact h.congr (hf.store_eq (by simp)) (hf.regions_eq (by simp))
    · exact .reset hreset.store hreset.regions
  by_cases hl : isLinkCommand c = true
  · by_cases hp : Part.store ∈ commandParts c ∨ Part.regions ∈ commandParts c
    · cases c <;> simp [isLinkCommand, isLinkRequest, requestOpcode] at hl <;> simp [commandParts, requestParts] at hp
      case setRegion =>
        rcases exec_request (c := .setRegion) rfl s with ⟨r, w, -, e⟩ | ⟨-, e⟩ <;> cases e.symm.trans he
        · exact h.takeSetRegion r w
        · exact h.congr State.afterReset_store State.afterReset_regions
      case clearRegion =>
        rcases exec_request (c := .clearRegion) rfl s with ⟨r, w, -, e⟩ | ⟨-, e⟩ <;> cases e.symm.trans he
        · exact h.takeClearRegion r w
        · exact h.congr State.afterReset_store State.afterReset_regions
    · have hf := exec_frame he
      exact h.congr (hf.store_eq (fun e => hp (.inl e))) (hf.regions_eq (fun e => hp (.inr e)))
  · rcases exec_links (Bool.eq_false_of_not_eq_true hl) (Bool.eq_false_of_not_eq_true hr) he with hk | ⟨n, hk⟩
    · exact hk.regionRefLaw hs ht h
    · exact hk.regionRefLaw hs ht h

theorem State.idle_links (s : State) : LinksKept s s.idle :=
  (clockKeeps_linksKept s).idle (LinksKept.refl s).afterReset (.refl s)

/-- A law that holds of canonical states, and that every command and a step on an empty queue keep, is kept by every step. -/
theorem step_keeps_canonical {P : State → Prop} (hqueue : ∀ s q, P s → P (s.setPending q))
    (hidle : ∀ s, s.Canonical → s.idle.Canonical → P s → P s.idle)
    (hexec : ∀ c s t, s.Canonical → P s → exec c s = .next t → P t) {s t : State} (hc : s.canonical = true) (hs : P s)
    (h : step s = .next t) : P t := by
  have ht : ∀ u : State, step s = .next u → u.Canonical := fun u hu =>
    State.canonical_iff.1 (stepsKeepTheCanonicalForm s u hc hu)
  rw [State.canonical_iff] at hc
  rcases step_cases h with ⟨-, rfl⟩ | ⟨c, rest, -, he⟩
  · exact hidle s hc (ht _ h) hs
  · exact hexec c (s.setPending rest) t ⟨hc.store, hc.engine, hc.regions, hc.lines, hc.posting, hc.report, hc.mem⟩
      (hqueue s rest hs) he

/-- Settles O13: the counts move with the one arming that a command exchanges, and only an unreferenced region is set or
cleared. -/
theorem stepsKeepRegionReferenceCounts : Obligations.StepsKeepRegionReferenceCounts := fun _ _ =>
  step_keeps_canonical (P := State.RegionRefLaw) (fun _ _ h => h.congr rfl rfl)
    (fun s hs hidle h => s.idle_links.regionRefLaw hs hidle h) (fun _ _ _ => exec_regionRefLaw)

/-! ### O14: report rings -/

/-- A posting ring past a record taken from its head (R137). -/
def PostRing.past (x : PostRing) (len : Nat) : PostRing := { x with head := (x.head + len) % x.size, headNeed := 1 }

/-- The rings after a record read whole: its ring is past it. -/
theorem State.decodeRecord_ring (s : State) (r : IntakeRecord) (w : PostSlot) (o : Option PostSlot) (k : Nat) :
    (s.decodeRecord r w o).posting.ring k =
      if k = r.ring then (s.posting.ring r.ring).past (if o.isSome then 2 else 1) else s.posting.ring k := by
  have hring := (PostingUnit.ring_noteTake (s.posting.setRing r.ring ((s.posting.ring r.ring).past (if o.isSome then 2 else 1)))
    r.ring r.normalEligible k).trans (PostingUnit.ring_setRing _ _ k _)
  unfold State.decodeRecord
  dsimp only
  split <;> exact hring

section Rings
variable {s : State} (hs : s.Canonical) (h : s.RingRefLaw)

theorem State.RingRefLaw.reset (hstore : s.store = TimerStore.reset) (hposting : s.posting = PostingUnit.reset)
    (hreport : s.report = ReportUnit.reset) : s.RingRefLaw := by
  refine ⟨fun k => by rw [hstore, hposting, hreport]; rfl, fun k _ => by rw [hreport]; rfl, fun r hr => ?_⟩
  rw [hposting] at hr
  cases hr

include hs h

/-- An answer keeps the counts. -/
theorem State.RingRefLaw.answer (r : IntakeRecord) (w : PostSlot) (st : Status) (res : AckResults) :
    (s.answer r w st res).RingRefLaw :=
  ((LinksKept.refl s).answer r w st res).ringRefLaw hs (hs.answer r w st res) h

omit hs in
/-- No count is of a region. -/
theorem State.RingRefLaw.setRegion (n : Nat) (x : Region) : (s.setRegion n x).RingRefLaw := ⟨h.count, h.absent, h.fetching⟩

/-- One posting ring set, while no record is being fetched, the counts moving with its binding. -/
theorem State.RingRefLaw.setPostRing {n : Nat} {x : PostRing} {rep : ReportUnit}
    (hrep : Map.wf ReportRing.reset rep.rings = true)
    (hrefs : ∀ k, (rep.ring k).refs + (s.posting.ring n).binds k = (s.report.ring k).refs + x.binds k)
    (habsent : ∀ k, (rep.ring k).state = .absent → (rep.ring k).refs = 0)
    (hfetch : ∀ r, s.posting.inProgress = some r → r.stage ≠ .fetching) :
    ((s.setPosting (s.posting.setRing n x)).setReport rep).RingRefLaw := by
  have hring : ∀ k, (s.posting.setRing n x).ring k = if k = n then x else s.posting.ring k :=
    fun k => PostingUnit.ring_setRing _ _ k _
  refine h.exchange hs ((hs.setPostRing n x).setReport hrep) 0 n (fun m _ => .refl _) (fun m hm k => ?_) (fun k => ?_) habsent
    (fun r hr hstage => absurd hstage (hfetch r hr))
  · show ((s.posting.setRing n x).ring m).binds k = _
    rw [hring, if_neg hm]
  · show (rep.ring k).refs + (s.store.slot 0).namesRing k + _ = _ + (s.store.slot 0).namesRing k +
      ((s.posting.setRing n x).ring n).binds k
    rw [hring, if_pos rfl]
    have := hrefs k
    omega

/-- One posting ring set to a record bound as it was, ACTIVE if it was. -/
theorem State.RingRefLaw.rebound {t : State} (ht : t.Canonical) {n : Nat} {x : PostRing}
    (hx : ∀ k, x.binds k = (s.posting.ring n).binds k) (hslots : t.store = s.store)
    (hring : ∀ k, t.posting.ring k = if k = n then x else s.posting.ring k) (hreport : s.report.SameRefs t.report)
    (hfetch : ∀ r, t.posting.inProgress = some r → r.stage = .fetching → (t.posting.ring r.ring).state = .active) :
    t.RingRefLaw := by
  refine h.congr hs ht (fun m => by rw [hslots]; exact .refl _) (fun m k => ?_) hreport hfetch
  rw [hring m]
  split
  · next e => rw [e]; exact hx k
  · rfl

/-- A report ring that nothing references may be set to any record without references. -/
theorem State.RingRefLaw.setReportRing {n : Nat} (hn : (s.report.ring n).refs = 0) {rep : ReportUnit}
    (hrep : Map.wf ReportRing.reset rep.rings = true) {x : ReportRing} (hx : x.refs = 0)
    (hring : ∀ k, rep.ring k = if k = n then x else s.report.ring k) : (s.setReport rep).RingRefLaw := by
  refine h.exchange hs (hs.setReport hrep) 0 0 (fun m _ => .refl _) (fun m _ k => rfl) (fun k => ?_) (fun k => ?_) h.fetching
  · have hk : (rep.ring k).refs = (s.report.ring k).refs := by
      rw [hring k]
      split
      · next e => rw [e, hx, hn]
      · rfl
    show (rep.ring k).refs + _ + _ = _
    rw [hk]
    rfl
  · show (rep.ring k).state = .absent → (rep.ring k).refs = 0
    rw [hring k]
    split
    · exact fun _ => hx
    · exact h.absent k

/-! Requests. -/

variable (r : IntakeRecord) (w : PostSlot) (howned : ∀ r, s.posting.inProgress = some r → r.stage ≠ .fetching)

include howned in
theorem State.RingRefLaw.takeCreatePost : (s.takeCreatePost r w).RingRefLaw := by
  unfold State.takeCreatePost
  dsimp only
  split
  · rename_i hok
    have hchecks : (s.posting.ring (CreatePostRequest.read w).number.toNat).state = .absent ∧
        (s.report.ring (CreatePostRequest.read w).reportRing.toNat).running = true := by
      unfold CreatePostRequest.check at hok
      split_ifs at hok with h1 h2 h3 h4
      exact ⟨not_not.1 h3, by simpa using h4⟩
    generalize CreatePostRequest.read w = q at *
    have hrep : Map.wf ReportRing.reset (s.report.addRef q.reportRing.toNat).rings = true :=
      ReportUnit.wf_setRing hs.report _ _
    refine State.RingRefLaw.answer ((hs.setPostRing _ _).setReport hrep) ?_ r w _ _
    refine h.setPostRing hs hrep (fun k => ?_) (fun k hk => ?_) howned
    · rw [ReportUnit.addRef_ring]
      simp [PostRing.binds, hchecks.1, CreatePostRequest.ring, eq_comm]
    · rw [ReportUnit.addRef_ring] at hk ⊢
      by_cases e : k = q.reportRing.toNat
      · rw [← e, ReportRing.running, show (s.report.ring k).state = .absent from hk] at hchecks
        exact absurd hchecks.2 (by decide)
      · simp only [e, if_false, Nat.add_zero]
        exact h.absent k hk
  · exact h.answer hs r w _ _

include howned in
theorem State.RingRefLaw.takeDeletePost : (s.takeDeletePost r w).RingRefLaw := by
  unfold State.takeDeletePost
  dsimp only
  split
  · rename_i hok
    have hpresent : (s.posting.ring (PostSlot.number w).toNat).state ≠ .absent := by
      unfold State.deletePostCheck at hok
      split_ifs at hok with h1 h2 h3
      exact h3
    generalize (PostSlot.number w).toNat = n at *
    have hrep : Map.wf ReportRing.reset (s.report.releaseRef (s.posting.ring n).bound).rings = true :=
      ReportUnit.wf_setRing hs.report _ _
    refine State.RingRefLaw.answer ((hs.setPostRing _ _).setReport hrep) ?_ r w _ _
    have hle : ∀ k, (s.posting.ring n).binds k ≤ (s.report.ring k).refs := fun k => by
      rw [h.count k]
      exact (PostingUnit.binds_le_uses hs.posting n k).trans (Nat.le_add_right _ _)
    refine h.setPostRing hs hrep (fun k => ?_) (fun k hk => ?_) howned
    · have hk := hle k
      rw [ReportUnit.releaseRef_ring]
      simp only [PostRing.binds, hpresent, ne_eq, not_false_eq_true, true_and, PostRing.reset] at hk ⊢
      by_cases e : k = (s.posting.ring n).bound
      · simp only [← e, if_true] at hk ⊢
        simp only [not_true_eq_false, false_and, if_false]
        omega
      · simp [e, Ne.symm e]
    · rw [ReportUnit.releaseRef_ring] at hk ⊢
      show (s.report.ring k).refs - _ = 0
      rw [h.absent k hk, Nat.zero_sub]
  · exact h.answer hs r w _ _

include howned in
theorem State.RingRefLaw.takeResumePost : (s.takeResumePost r w).RingRefLaw := by
  unfold State.takeResumePost
  dsimp only
  split
  · rename_i hok
    have hpresent : (s.posting.ring (PostSlot.number w).toNat).state ≠ .absent := by
      unfold State.resumePostCheck at hok
      split_ifs at hok with h1 h2 h3
      exact h3
    generalize (PostSlot.number w).toNat = n at *
    have hcanonical := hs.setPostRing n { s.posting.ring n with state := .active, headNeed := 1 }
    refine State.RingRefLaw.answer hcanonical ?_ r w _ _
    exact h.rebound hs hcanonical (fun k => by simp [PostRing.binds, hpresent]) rfl
      (fun k => PostingUnit.ring_setRing _ _ k _) (.refl _) (fun r hr hstage => absurd hstage (howned r hr))
  · exact h.answer hs r w _ _

theorem State.RingRefLaw.takeCreateReport : (s.takeCreateReport r w).RingRefLaw := by
  unfold State.takeCreateReport
  dsimp only
  split
  · rename_i hok
    have habsent : (s.report.ring (CreateReportRequest.read w).number.toNat).state = .absent := by
      unfold CreateReportRequest.check at hok
      split_ifs at hok with h1 h2 h3
      exact not_not.1 h3
    have hrep := (hs.setReportRing (CreateReportRequest.read w).number.toNat (CreateReportRequest.read w).ring).report
    exact State.RingRefLaw.answer (hs.setReport hrep)
      (h.setReportRing hs (h.absent _ habsent) hrep rfl (fun k => ReportUnit.ring_setRing _ _ k _)) r w _ _
  · exact h.answer hs r w _ _

theorem State.RingRefLaw.takeDeleteReport : (s.takeDeleteReport r w).RingRefLaw := by
  unfold State.takeDeleteReport
  dsimp only
  split
  · rename_i hok
    have hfree : (s.report.ring (PostSlot.number w).toNat).refs = 0 := by
      unfold State.deleteReportCheck at hok
      dsimp only at hok
      split_ifs at hok with h1 h2 h3 h4
      exact not_not.1 h4
    have hcanonical := hs.deleteRing (PostSlot.number w).toNat
    exact State.RingRefLaw.answer hcanonical (h.setReportRing hs hfree hcanonical.report (x := ReportRing.reset) rfl
      (fun k => ReportUnit.ring_setRing s.report _ k ReportRing.reset)) r w _ _
  · exact h.answer hs r w _ _

include howned in
/-- The requests of regions and rings keep the counts. -/
theorem State.RingRefLaw.takeRequest {op : Opcode} (hop : isLinkRequest op = true) : (s.takeRequest op r w).RingRefLaw := by
  cases op <;> cases hop
  case setRegion =>
    simp only [State.takeRequest, State.takeSetRegion]
    split
    · exact (h.setRegion _ _).answer (hs.setRegion _ _) r w _ _
    · exact h.answer hs r w _ _
  case clearRegion =>
    simp only [State.takeRequest, State.takeClearRegion]
    split
    · exact (h.setRegion _ _).answer (hs.setRegion _ _) r w _ _
    · exact h.answer hs r w _ _
  case createPostRing => exact h.takeCreatePost hs r w howned
  case deletePostRing => exact h.takeDeletePost hs r w howned
  case resumePostRing => exact h.takeResumePost hs r w howned
  case createReportRing => exact h.takeCreateReport hs r w
  case deleteReportRing => exact h.takeDeleteReport hs r w

/-! The intake. -/

omit r w in
/-- A ring whose record is in progress, ACTIVE in being fetched. -/
theorem State.RingRefLaw.beginTake {n : Nat} (hn : (s.posting.ring n).state = .active) {rep : ReportUnit}
    (hrep : s.report.reserve (s.posting.ring n).bound = some rep) : (s.beginTake n rep).RingRefLaw := by
  obtain ⟨-, -, rfl⟩ := ReportUnit.reserve_some _ _ hrep
  refine h.congr hs ((hs.reserve hrep).setPosting hs.posting) (fun m => .refl _) (fun m k => rfl) ?_ (fun r hr _ => ?_)
  · exact .setRing _ ⟨rfl, .rfl⟩
  · cases hr
    exact hn

/-- A record read whole is at its owner or answered, its ring as it was but for its head. -/
theorem State.RingRefLaw.decodeRecord (o : Option PostSlot) : (s.decodeRecord r w o).RingRefLaw := by
  have hring := s.decodeRecord_ring r w o
  have hreport : s.report.SameRefs (s.decodeRecord r w o).report := by
    unfold State.decodeRecord
    dsimp only
    split
    · exact .refl _
    · exact .handIn _ _ _
  refine h.rebound hs (hs.decodeRecord r w o) (x := (s.posting.ring r.ring).past (if o.isSome then 2 else 1)) (fun k => rfl)
    ((s.decodeRecord_onlyIn r w o).store_eq (by simp)) hring hreport (fun r' hr' hstage => ?_)
  unfold State.decodeRecord at hr'
  dsimp only at hr'
  split at hr'
  · cases hr'
    cases hstage
  · cases hr'

omit w in
theorem State.RingRefLaw.withdraw : (s.withdraw r).RingRefLaw := by
  have hback : s.report.SameRefs (s.report.handBack r.bound s.tb.mt) :=
    ReportUnit.SameRefs.trans (r' := s.report.setRing r.bound
      { s.report.ring r.bound with reserved := (s.report.ring r.bound).reserved - 1 }) (.setRing _ ⟨rfl, .rfl⟩)
        (.returnSpace _ _ _)
  exact h.rebound hs (hs.withdraw r) (x := { s.posting.ring r.ring with headNeed := 2 }) (fun k => rfl) rfl
    (fun k => PostingUnit.ring_setRing s.posting r.ring k _) hback
    (fun r hr _ => by cases hr)

omit w in
theorem State.RingRefLaw.fetchError (hr : s.posting.inProgress = some r) (hstage : r.stage = .fetching) :
    (s.fetchError r).RingRefLaw := by
  have hactive := h.fetching r hr hstage
  have hstall : (s.stallRing r).RingRefLaw := by
    refine h.rebound hs (((hs.noteTake _ _ _).handIn _ _ _).endRecord) (n := r.ring)
      (x := { s.posting.ring r.ring with state := .stalled }) (fun k => ?_) rfl (fun k => ?_) (.handIn _ _ _)
      (fun r hr _ => by cases hr)
    · simp [PostRing.binds, hactive]
    · exact (PostingUnit.ring_noteTake _ _ _ k).trans (PostingUnit.ring_setRing _ _ k _)
  rw [State.fetchError_eq]
  split
  · exact ⟨hstall.count, hstall.absent, hstall.fetching⟩
  · exact hstall

theorem State.RingRefLaw.firstSlotRead (hr : s.posting.inProgress = some r) (hstage : r.stage = .fetching) :
    (s.firstSlotRead r w).RingRefLaw := by
  unfold State.firstSlotRead
  split
  · exact h.decodeRecord hs r w none
  · split
    · exact h.congr hs (hs.setPosting hs.posting) (fun m => .refl _) (fun m k => rfl) (.refl _)
        (fun r' hr' _ => by cases hr'; exact h.fetching r hr hstage)
    · exact h.withdraw hs r

end Rings

/-- The enabling makes the administration rings, the one bound to the other. -/
theorem State.RingRefLaw.enabled {s : State} (hstore : s.store = TimerStore.reset) (hposting : s.posting = PostingUnit.reset)
    (hreport : s.report = ReportUnit.reset) : s.enabled.RingRefLaw := by
  have hring : ∀ k, (s.report.setRing 0 s.window.reportRing0).ring k = if k = 0 then s.window.reportRing0 else s.report.ring k :=
    fun k => ReportUnit.ring_setRing _ _ k _
  have hreset : ∀ k, s.report.ring k = ReportRing.reset := fun k => by rw [hreport]; rfl
  have huses : ∀ k, (s.posting.setRing 0 s.window.postRing0).ringUses k = if k = 0 then 1 else 0 := by
    intro k
    have hne : s.window.postRing0 ≠ PostRing.reset := fun e => nomatch congrArg PostRing.state e
    have hrings : (s.posting.setRing 0 s.window.postRing0).rings = [(0, s.window.postRing0)] := by
      rw [hposting]
      exact if_neg (t := Map.erase [] 0) hne
    rw [PostingUnit.ringUses, hrings]
    by_cases hk : k = 0
    · subst hk; rfl
    · simp [Window.postRing0, Ne.symm hk, hk]
  refine ⟨fun k => ?_, fun k hk => ?_, fun r hr => ?_⟩
  · show ((s.report.setRing 0 s.window.reportRing0).ring k).refs =
      (s.posting.setRing 0 s.window.postRing0).ringUses k + s.store.ringUses k
    rw [hring, huses, hstore, hreset]
    split <;> rfl
  · change ((s.report.setRing 0 s.window.reportRing0).ring k).state = _ at hk
    show ((s.report.setRing 0 s.window.reportRing0).ring k).refs = 0
    rw [hring, hreset] at hk ⊢
    split at hk
    · cases hk
    · next e => rw [if_neg e]; rfl
  · rw [show s.enabled.posting.inProgress = s.posting.inProgress from rfl, hposting] at hr
    cases hr

/-- The arbiter's choice is eligible. -/
theorem State.choice_eligible {s : State} {n : Nat} (h : s.choice = some n) : s.eligible n = true := by
  have hsearch : ∀ c last, s.search c last = some n → s.eligible n = true := by
    intro c last h
    have h' := List.find?_some h
    rw [State.eligibleOf, Bool.and_eq_true] at h'
    exact h'.1
  unfold State.choice at h
  split at h
  · cases h
    assumption
  · split at h
    · exact hsearch _ _ h
    · split at h
      · rename_i h'
        cases h
        exact hsearch _ _ h'
      · exact hsearch _ _ h

theorem State.choice_active {s : State} {n : Nat} (h : s.choice = some n) : (s.posting.ring n).state = .active := by
  have heligible := State.choice_eligible h
  simp only [State.eligible, Bool.and_eq_true, decide_eq_true_eq] at heligible
  exact heligible.1.1.1.1

theorem exec_ringRefLaw {c : Instr} {s t : State} (hs : s.Canonical) (hidle : s.IdleLaw) (h : s.RingRefLaw)
    (he : exec c s = .next t) : t.RingRefLaw := by
  have ht := exec_canonical hs he
  have hend : s.afterReset.RingRefLaw := (LinksKept.refl s).afterReset.ringRefLaw hs hs.afterReset h
  by_cases hr : isResetCommand c = true
  · rcases exec_reset_cases hr he with ⟨hf, -⟩ | hreset
    · exact ((LinksKept.refl s).of_onlyIn hf (by simp)).ringRefLaw hs ht h
    · exact .reset hreset.store hreset.posting hreset.report
  by_cases hl : isLinkCommand c = true
  · cases hc : requestOpcode c with
    | some op =>
      rcases exec_request hc s with ⟨r, w, hown, e⟩ | ⟨-, e⟩ <;> cases e.symm.trans he
      · refine h.takeRequest hs r w (fun r' hr' hstage => ?_) (by simpa [isLinkCommand, hc] using hl)
        cases hown.1.symm.trans hr'
        exact absurd (hown.2.1.symm.trans hstage) (by decide)
      · exact hend
    | none =>
      cases c <;> simp [isLinkCommand, requestOpcode] at hl hc
      case intakeChoice =>
        cases he
        split
        · split
          · exact h.beginTake hs (State.choice_active ‹_›) ‹_›
          · exact h
        · exact hend
      case intakeReadAnswer a =>
        cases he
        split
        · exact hend
        · rename_i r hr'
          split
          · exact h
          · rename_i hstage
            rw [ne_eq, not_not] at hstage
            cases a with
            | error => exact h.fetchError hs r hr' hstage
            | ok w =>
              cases hslot : r.slot1 with
              | none => exact h.firstSlotRead hs r w hr' hstage
              | some v => exact h.decodeRecord hs r v (some w)
      case enable =>
        cases he
        split
        · rename_i hoff
          have hoff := State.afterReset_enabled.symm.trans hoff.2
          split
          · exact .enabled (State.afterReset_store.trans (hidle.store hoff)) (State.afterReset_posting.trans (hidle.posting hoff))
              (State.afterReset_report.trans (hidle.report hoff))
          · exact ⟨hend.count, hend.absent, hend.fetching⟩
        · exact hend
  · rcases exec_links (Bool.eq_false_of_not_eq_true hl) (Bool.eq_false_of_not_eq_true hr) he with hk | ⟨n, hk⟩
    · exact hk.ringRefLaw hs ht h
    · exact hk.ringRefLaw hs ht h

/-- Settles O14: the counts move with the one arming or the one binding that a command exchanges. -/
theorem stepsKeepReportRingReferenceCounts : Obligations.StepsKeepReportRingReferenceCounts := by
  intro s t hc hidle h hstep
  have ht := State.canonical_iff.1 (stepsKeepTheCanonicalForm s t hc hstep)
  rw [State.canonical_iff] at hc
  rcases step_cases hstep with ⟨-, rfl⟩ | ⟨c, rest, -, he⟩
  · exact s.idle_links.ringRefLaw hc ht h
  · exact exec_ringRefLaw (s := s.setPending rest)
      ⟨hc.store, hc.engine, hc.regions, hc.lines, hc.posting, hc.report, hc.mem⟩
      ⟨hidle.store, hidle.disp, hidle.engine, hidle.regions, hidle.posting, hidle.report, hidle.lines, hidle.deferred⟩
      ⟨h.count, h.absent, h.fetching⟩ he

end Sys2Proof.Machine
end

section
/-!
SUPPORT. The blocks of the main domain while the controller is not enabled: in their reset state they have nothing for a
command to act on.
-/
namespace Sys2Proof.Machine

/-- The blocks of the main domain are in their reset state and nothing is deferred. -/
structure State.Quiet (s : State) : Prop where
  store : s.store = TimerStore.reset
  disp : s.disp = Dispatcher.reset
  engine : s.engine = ActionEngine.reset
  regions : s.regions = []
  posting : s.posting = PostingUnit.reset
  report : s.report = ReportUnit.reset
  lines : ∀ n < 8, (s.line n).state = .rest ∧ (s.line n).pulseEnd = none
  step : s.tb.pendingStep = none
  switch : s.tb.pendingSwitch = none
  marks : s.tb.marks = false

theorem State.idleLaw_iff {s : State} : s.IdleLaw ↔ (s.window.enabled = false → s.Quiet) := by
  constructor
  · intro h e
    obtain ⟨hstep, hswitch, hmarks⟩ := h.deferred e
    exact ⟨h.store e, h.disp e, h.engine e, h.regions e, h.posting e, h.report e, h.lines e, hstep, hswitch, hmarks⟩
  · exact fun h => ⟨fun e => (h e).store, fun e => (h e).disp, fun e => (h e).engine, fun e => (h e).regions,
      fun e => (h e).posting, fun e => (h e).report, fun e => (h e).lines, fun e => ⟨(h e).step, (h e).switch, (h e).marks⟩⟩

/-- With nothing pending a tick's middle is the advance of the Time Base. -/
theorem State.midTick_alone {s : State} (hstep : s.tb.pendingStep = none) (hswitch : s.tb.pendingSwitch = none) (b : Bool) :
    s.midTick b = s.setTb s.tb.advance := by
  have halign : (s.setTb s.tb.advance).alignAtTick = s.setTb s.tb.advance :=
    State.alignAtTick_waits _ (fun p hp => nomatch hstep.symm.trans hp)
  have hswitch' : (s.setTb s.tb.advance).switchAtTick = s.setTb s.tb.advance := State.switchAtTick_none _ hswitch
  cases b
  · show (s.setTb s.tb.advance).switchAtTick.alignAtTick = _
    rw [hswitch', halign]
  · show (s.setTb s.tb.advance).alignAtTick.switchAtTick = _
    rw [halign, hswitch']

namespace State.Quiet
variable {s t : State} (h : s.Quiet)
include h

/-- The Time Base changes and nothing is deferred. -/
theorem setTb {x : TimeBase} (hstep : x.pendingStep = none) (hswitch : x.pendingSwitch = none) (hmarks : x.marks = false) :
    (s.setTb x).Quiet := ⟨h.store, h.disp, h.engine, h.regions, h.posting, h.report, h.lines, hstep, hswitch, hmarks⟩

theorem of_parts {ps : List Part} (hf : OnlyIn ps s t) (hps : ∀ p ∈ ps, p ∈ [Part.window, .inputs, .mem, .lines, .report])
    (hreport : t.report = ReportUnit.reset) (hlines : ∀ n < 8, t.line n = s.line n) : t.Quiet := by
  have hout : ∀ p : Part, p ∉ [Part.window, .inputs, .mem, .lines, .report] → p ∉ ps := fun p hp hin => hp (hps p hin)
  have htb := hf.tb_eq (hout _ (by simp))
  exact ⟨(hf.store_eq (hout _ (by simp))).trans h.store, (hf.disp_eq (hout _ (by simp))).trans h.disp,
    (hf.engine_eq (hout _ (by simp))).trans h.engine, (hf.regions_eq (hout _ (by simp))).trans h.regions,
    (OnlyIn.posting_eq hf (hout _ (by simp))).trans h.posting, hreport,
    fun n hn => by rw [hlines n hn]; exact h.lines n hn, by rw [htb]; exact h.step, by rw [htb]; exact h.switch,
    by rw [htb]; exact h.marks⟩

theorem of_onlyIn {ps : List Part} (hf : OnlyIn ps s t) (hps : ∀ p ∈ ps, p ∈ [Part.window, .inputs, .mem]) : t.Quiet := by
  have hout : ∀ p : Part, p ∉ [Part.window, .inputs, .mem] → p ∉ ps := fun p hp hin => hp (hps p hin)
  exact h.of_parts hf (fun p hp => List.mem_append_left [Part.lines, .report] (hps p hp))
    ((hf.report_eq (hout _ (by simp))).trans h.report)
    (fun n _ => State.line_congr (hf.lines_eq (hout _ (by simp))) n)

theorem afterReset : s.afterReset.Quiet := h.of_onlyIn State.afterReset_onlyIn (by simp)

theorem offer : s.offer.Quiet := by
  refine ⟨h.store, ?_, h.engine, h.regions, h.posting, h.report, h.lines, h.step, h.switch, h.marks⟩
  rw [State.offer, State.setDisp_disp, h.disp, h.store]
  rfl

theorem linesAtTick (l : List Nat) : (s.linesAtTick l).Quiet := by
  refine h.of_parts (ps := [.lines]) (by rw [State.linesAtTick_eq]; simp [OnlyIn]) (by simp)
    ((s.linesAtTick_report l).trans h.report) (fun n hn => ?_)
  have hrest : (s.line n).atTick s.tb.mt = s.line n :=
    if_neg fun hp => absurd ((h.lines n hn).1.symm.trans hp.1) (by decide)
  rw [State.linesAtTick_line, hrest, ite_self]

theorem ringsAtTick : s.ringsAtTick.Quiet := by
  have hrings : ∀ mt, (List.range 9).foldl (fun r n => r.ringAtTick mt n) ReportUnit.reset = ReportUnit.reset := fun mt =>
    List.foldl_fixed' (fun n => rfl) _
  exact h.of_parts (ps := [.report]) (by simp [OnlyIn, State.ringsAtTick]) (by simp)
    (by rw [State.ringsAtTick_report, h.report, hrings]) (fun n _ => s.ringsAtTick_line n)

theorem tick (b : Bool) : (s.tick b).Quiet := by
  rw [State.tick_eq, State.midTick_alone h.step h.switch]
  have hadvance : (s.setTb s.tb.advance).Quiet := h.setTb h.step h.switch h.marks
  have hcount := hadvance.setTb (x := (s.setTb s.tb.advance).tb.newCount) h.step h.switch h.marks
  exact (hcount.linesAtTick _).ringsAtTick.offer

/-- Nothing arrives at a ring that is ABSENT. -/
theorem take (n : Nat) (x : Report) : (s.setReport (s.report.take n x)).Quiet := by
  refine ⟨h.store, h.disp, h.engine, h.regions, h.posting, ?_, h.lines, h.step, h.switch, h.marks⟩
  rw [State.setReport_report, h.report]
  rfl

end State.Quiet

theorem clockKeeps_quiet : ClockKeeps State.Quiet where
  countGap _ h := h.setTb h.step h.switch h.marks
  edge _ h := h.setTb h.step h.switch h.marks
  countEdge s h _ := h.setTb h.step (by simp [h.switch]) h.marks
  restart s h _ := h.setTb h.step (by simp [h.switch]) h.marks
  count _ h _ := h.setTb h.step h.switch h.marks
  tick _ b h := h.tick b
  fallBack s h _ :=
    have hfallback : (s.setTb (TimeBase.newCount { s.tb with source := .fallback })).Quiet := h.setTb h.step h.switch h.marks
    hfallback.take _ _

theorem ResetTo.quiet {s t : State} (h : ResetTo s t) : t.Quiet := by
  have htb : t.tb.pendingStep = none ∧ t.tb.pendingSwitch = none ∧ t.tb.marks = false := by
    rcases h.tb with e | e | e <;> rw [e]
    · exact ⟨rfl, rfl, rfl⟩
    · unfold TimeBase.mainLoss
      dsimp only
      split <;> exact ⟨rfl, rfl, rfl⟩
    · exact ⟨rfl, rfl, rfl⟩
  obtain ⟨hstep, hswitch, hmarks⟩ := htb
  refine ⟨h.store, h.disp, h.engine, h.regions, h.posting, h.report, fun n hn => ?_, hstep, hswitch, hmarks⟩
  rcases h.lines with e | e
  · rw [State.line_congr e, State.resetBlocks_line hn]
    exact ⟨rfl, rfl⟩
  · rw [State.line, e]
    exact ⟨rfl, rfl⟩

/-- While the controller is not enabled no command acts on a block in its reset state. -/
theorem exec_quiet {c : Instr} {s t : State} (h : s.Quiet) (hoff : s.window.enabled = false) (he : exec c s = .next t) :
    t.window.enabled = true ∨ t.Quiet := by
  have hend := h.afterReset
  have hoff' : s.afterReset.window.takesDoorbells = false := by
    rw [Window.takesDoorbells, State.afterReset_enabled, hoff, Bool.and_false]
  cases hc : requestOpcode c with
  | some op =>
    rcases exec_request hc s with ⟨r, w, hown, e⟩ | ⟨-, e⟩ <;> cases e.symm.trans he
    · have hnone := hown.1
      rw [h.posting] at hnone
      cases hnone
    · exact .inr hend
  | none =>
    by_cases hk : isClockCommand c = true
    · exact .inr (clockKeeps_quiet.exec hk hend he)
    by_cases hr : isResetCommand c = true
    · exact .inr ((exec_reset_cases hr he).elim (fun hf => h.of_onlyIn hf.1 (by simp)) (fun hreset => hreset.quiet))
    by_cases hp : ∀ p ∈ commandParts c, p ∈ [Part.window, .inputs, .mem]
    · exact .inr ((exec_frame he).elim (fun hf => h.of_onlyIn hf hp) (fun hf => hend.of_onlyIn hf hp))
    have hslot : ∀ i, s.engine.slot i = ActionSlot.reset := fun i => by rw [h.engine]; rfl
    cases c <;> simp [commandParts] at hp <;> simp [requestOpcode, isClockCommand, isResetCommand] at hc hk hr
    case intakeChoice =>
      have hchoice : s.choice = none := by
        cases hx : s.choice with
        | none => rfl
        | some n =>
          have hactive := State.choice_active hx
          rw [h.posting] at hactive
          cases hactive
      cases he
      rw [hchoice, h.posting]
      exact .inr hend
    case intakeReadAnswer a =>
      cases he
      simp only [h.posting, PostingUnit.reset]
      exact .inr hend
    case postingTailDoorbell n v =>
      cases he
      simp only [hoff']
      exact .inr hend
    case reportConsumerDoorbell n v =>
      cases he
      simp only [hoff']
      exact .inr hend
    case enable =>
      cases he
      split
      · split
        · exact .inl rfl
        · exact .inr (hend.of_onlyIn (State.setAdminFault_onlyIn _ _) (by simp))
      · exact .inr hend
    case intrPendingClear v =>
      cases he
      split
      · exact .inr (hend.of_parts (ps := [.report]) (by simp [OnlyIn]) (by simp)
          (by rw [State.setReport_report, hend.report]; simp [ReportUnit.reset]) (fun n _ => rfl))
      · exact .inr hend
    case alignEdge =>
      cases he
      have hmark : s.afterReset.timeMark false = s.afterReset := if_neg (by rw [hend.marks]; decide)
      simp only [hend.step, hmark, ite_self]
      exact .inr hend
    case dispatchWalk =>
      have hwalk : s.walkChoice = none := by rw [State.walkChoice, h.disp]; rfl
      cases he
      rw [hwalk]
      split
      · rename_i e
        cases e
      · exact .inr hend
    case dispatchClaim =>
      cases he
      simp only [h.disp, Dispatcher.reset]
      exact .inr hend
    case heldActionBegin i =>
      cases he
      rw [hslot]
      exact .inr hend
    case actionReadAnswer i a =>
      cases he
      rw [hslot]
      exact .inr hend
    case actionWriteAnswer i a =>
      cases he
      rw [hslot]
      exact .inr hend
    case lineRequest i =>
      cases he
      rw [hslot]
      exact .inr hend
    case lineAnswer i =>
      cases he
      rw [hslot]
      exact .inr hend
    case completionReturn =>
      cases he
      simp only [h.engine, ActionEngine.reset]
      exact .inr hend
    case reportWriteAnswer x a =>
      cases he
      have hnone : ∀ n, (s.report.ring n).inFlight = none := fun n => by rw [h.report]; rfl
      cases x with
      | ring n =>
        simp only [hnone]
        exact .inr hend
      | deleted k =>
        simp only [h.report, ReportUnit.reset, List.getElem?_nil]
        exact .inr hend
    case keepAliveSupplyLoss =>
      rcases exec_keepAliveSupplyLoss_cases he with ⟨hf, -⟩ | ⟨hf, -, htb, hlines⟩
      · exact .inr (h.of_onlyIn hf (by simp))
      · refine .inr ⟨(hf.store_eq (by simp)).trans h.store, (hf.disp_eq (by simp)).trans h.disp,
          (hf.engine_eq (by simp)).trans h.engine, (hf.regions_eq (by simp)).trans h.regions,
          (OnlyIn.posting_eq hf (by simp)).trans h.posting, (hf.report_eq (by simp)).trans h.report, fun n _ => ?_,
          by rw [htb]; rfl, by rw [htb]; rfl, by rw [htb]; rfl⟩
        rw [State.line, hlines]
        exact ⟨rfl, rfl⟩

/-- A command other than a reset or the enabling keeps the controller enabled or not. -/
theorem exec_keepsEnabled {c : Instr} {s t : State} (hon : s.window.enabled = true) (he : exec c s = .next t) :
    t.window.enabled = true ∨ ResetTo s t := by
  by_cases hr : isResetCommand c = true
  · exact (exec_reset_cases hr he).imp (fun hf => hf.2.trans hon) id
  refine .inl ?_
  by_cases hc : isControlCommand c = true
  · cases c <;> simp [isControlCommand] at hc <;> simp [isResetCommand] at hr
    case enable =>
      cases he
      rw [if_neg fun hoff => absurd ((State.afterReset_enabled.trans hon).symm.trans hoff.2) (by decide)]
      exact State.afterReset_enabled.trans hon
    case resetRelease =>
      cases he
      exact State.endReset_enabled.trans hon
    case abandonedAnswer i b l =>
      cases he
      split
      · exact State.afterReset_enabled.trans hon
      · rename_i op _
        have hland : (s.landOp op l).window.enabled = s.window.enabled := by
          unfold State.landOp
          split <;> rfl
        exact State.endReset_enabled.trans (hland.trans hon)
    case keepAliveSupplyLoss =>
      exact (exec_keepAliveSupplyLoss_cases he).elim (fun h => h.2.trans hon) (fun h => h.2.1.trans hon)
  · rcases exec_sameControl (Bool.eq_false_of_not_eq_true hc) he with h | h
    · exact h.enabled.trans hon
    · exact (h.enabled.trans State.afterReset_enabled).trans hon

/-- Settles O8: in their reset state the blocks have nothing for a command to act on, and an enabled controller is disabled by a
reset alone. -/
theorem stepsKeepDisabledBlocksInReset : Obligations.StepsKeepDisabledBlocksInReset := fun s t =>
  step_keeps (P := State.IdleLaw)
    (fun _ _ h => ⟨h.store, h.disp, h.engine, h.regions, h.posting, h.report, h.lines, h.deferred⟩)
    (fun s h => by
      rw [State.idleLaw_iff] at h ⊢
      intro hoff
      have hs : s.window.enabled = false := by
        rcases s.idle_framed.window_eq (by simp) with e | e
        · exact (congrArg Window.enabled e).symm.trans hoff
        · exact State.afterReset_enabled.symm.trans ((congrArg Window.enabled e).symm.trans hoff)
      exact clockKeeps_quiet.idle (h hs).afterReset (h hs))
    (fun c s t h he => by
      rw [State.idleLaw_iff] at h ⊢
      intro hoff
      cases hs : s.window.enabled with
      | false => exact (exec_quiet (h hs) hs he).resolve_left (by rw [hoff]; decide)
      | true => exact ((exec_keepsEnabled hs he).resolve_left (by rw [hoff]; decide)).quiet)

end Sys2Proof.Machine
end

section
/-!
SUPPORT. The capacity of the report rings: what each operation of the Report Unit keeps of it (R152, R155 to R159, R163, R167).
-/
namespace Sys2Proof.Machine

/-! ### A ring -/

/-- The distance from one index of a ring to another, without the modulus. -/
theorem ring_distance {N p c : Nat} (hp : p < N) (hc : c < N) : (p + N - c) % N = if c ≤ p then p - c else p + N - c := by
  split
  · rw [show p + N - c = p - c + N by omega, Nat.add_mod_right, Nat.mod_eq_of_lt (by omega)]
  · exact Nat.mod_eq_of_lt (by omega)

/-- A producer moved on by one leaves one more record written. -/
theorem ReportRing.written_advance {x : ReportRing} (hp : x.producer < x.size) (hc : x.consumer < x.size)
    (hroom : x.written + 2 ≤ x.size) : x.advance.producer < x.size ∧ x.advance.written = x.written + 1 := by
  have hproducer : x.advance.producer = (x.producer + 1) % x.size := rfl
  have hnext : (x.producer + 1) % x.size = if x.producer + 1 = x.size then 0 else x.producer + 1 := by
    split
    · next e => rw [e, Nat.mod_self]
    · exact Nat.mod_eq_of_lt (by omega)
  have hlt : x.advance.producer < x.size := by rw [hproducer]; exact Nat.mod_lt _ (by omega)
  refine ⟨hlt, ?_⟩
  have hwritten : x.advance.written = (x.advance.producer + x.size - x.consumer) % x.size := rfl
  rw [hwritten, ring_distance hlt hc, hproducer, hnext]
  rw [ReportRing.written, ring_distance hp hc] at hroom ⊢
  split_ifs at hroom ⊢ <;> omega

/-- A consumer moved within the written records leaves those it has not passed. -/
theorem ReportRing.written_consume {x : ReportRing} {v : Nat} (hp : x.producer < x.size) (hc : x.consumer < x.size)
    (hv : v < x.size) (hspan : x.releases v ≤ x.written) :
    ({ x with consumer := v } : ReportRing).written + x.releases v = x.written := by
  have hwritten : ({ x with consumer := v } : ReportRing).written = (x.producer + x.size - v) % x.size := rfl
  rw [ReportRing.releases, ReportRing.written, ring_distance hv hc, ring_distance hp hc] at hspan
  rw [hwritten, ReportRing.releases, ReportRing.written, ring_distance hv hc, ring_distance hp hc, ring_distance hp hv]
  split_ifs at hspan ⊢ <;> omega

/-- A ring's written, queued and reserved records are within its size; an ABSENT ring has none, a FAULTED one none queued. -/
structure ReportRing.Fits (x : ReportRing) : Prop where
  absent : x.state = .absent → x.queue = [] ∧ x.reserved = 0
  indexes : x.state ≠ .absent → 4 ≤ x.size ∧ x.producer < x.size ∧ x.consumer < x.size
  capacity : x.state ≠ .absent → x.written + x.queue.length + x.reserved + 1 ≤ x.size
  faulted : x.state = .faulted → x.queue = []

theorem ReportRing.state_of_running {x : ReportRing} (h : x.running = true) : x.state ≠ .absent ∧ x.state ≠ .faulted := by
  rcases (ReportRing.running_iff x).1 h with e | e <;> rw [e] <;> decide

/-- A running ring's records are within its size. -/
theorem ReportRing.Fits.of_running {x : ReportRing} (hrun : x.running = true)
    (hindexes : 4 ≤ x.size ∧ x.producer < x.size ∧ x.consumer < x.size)
    (hcapacity : x.written + x.queue.length + x.reserved + 1 ≤ x.size) : x.Fits :=
  ⟨fun e => absurd e (ReportRing.state_of_running hrun).1, fun _ => hindexes, fun _ => hcapacity,
    fun e => absurd e (ReportRing.state_of_running hrun).2⟩

theorem ReportRing.fits_reset : ReportRing.reset.Fits := ⟨fun _ => ⟨rfl, rfl⟩, fun e => absurd rfl e, fun e => absurd rfl e,
    fun _ => rfl⟩

/-- A ring newly ACTIVE has room for all but one of its records. -/
theorem ReportRing.fits_fresh (base : U64) {size : Nat} (h : 4 ≤ size) (b : Bool) (count time refs : Nat) :
    (ReportRing.fresh base size b count time refs).Fits := by
  refine .of_running rfl ⟨h, ?_, ?_⟩ ?_
  · show 0 < size
    omega
  · show 0 < size
    omega
  · have hwritten : (ReportRing.fresh base size b count time refs).written = 0 := by
      show (0 + size - 0) % size = 0
      simp
    rw [hwritten]
    show 0 + 0 + 0 + 1 ≤ size
    omega

/-- What a ring's capacity depends on. -/
theorem ReportRing.Fits.congr {x y : ReportRing} (h : x.Fits) (habsent : y.state = .absent ↔ x.state = .absent)
    (hfaulted : y.state = .faulted → x.state = .faulted) (hsize : y.size = x.size) (hproducer : y.producer = x.producer)
    (hconsumer : y.consumer = x.consumer) (hqueue : y.queue = x.queue) (hreserved : y.reserved = x.reserved) : y.Fits := by
  have hwritten : y.written = x.written := by rw [ReportRing.written, hsize, hproducer, hconsumer]; rfl
  refine ⟨fun e => ?_, fun e => ?_, fun e => ?_, fun e => ?_⟩
  · rw [hqueue, hreserved]; exact h.absent (habsent.1 e)
  · rw [hsize, hproducer, hconsumer]; exact h.indexes (mt habsent.2 e)
  · rw [hwritten, hsize, hqueue, hreserved]; exact h.capacity (mt habsent.2 e)
  · rw [hqueue]; exact h.faulted (hfaulted e)

/-- The free slots of a ring that is not ABSENT make up its size. -/
theorem ReportRing.Fits.free_add {x : ReportRing} (h : x.Fits) (hx : x.state ≠ .absent) :
    x.free + (x.written + x.queue.length + x.reserved + 1) = x.size := by
  have := h.capacity hx
  unfold ReportRing.free ReportRing.occupied
  omega

/-! ### The unit -/

/-- Every ring is within its capacity, the hold list within 32 entries, each for a running ring with no free space. -/
structure ReportUnit.Fits (r : ReportUnit) : Prop where
  ring : ∀ n, (r.ring n).Fits
  hold : r.hold.length ≤ 32
  held : ∀ e ∈ r.hold, (r.ring e.ring).running = true ∧ (r.ring e.ring).free = 0

theorem ReportUnit.fits_reset : ReportUnit.reset.Fits :=
  ⟨fun _ => ReportRing.fits_reset, Nat.zero_le _, fun e he => by cases he⟩

namespace ReportUnit.Fits
variable {r r' : ReportUnit} (h : r.Fits)
include h

/-- One ring changes, and of the hold list no more is left than before. -/
theorem of_ring {n : Nat} {x : ReportRing} (hring : ∀ k, r'.ring k = if k = n then x else r.ring k) (hx : x.Fits)
    (hhold : r'.hold.Sublist r.hold) (hheld : ∀ e ∈ r'.hold, e.ring = n → x.running = true ∧ x.free = 0) : r'.Fits := by
  refine ⟨fun k => ?_, hhold.length_le.trans h.hold, fun e he => ?_⟩
  · rw [hring]
    split
    · exact hx
    · exact h.ring k
  · rw [hring]
    split
    · next hn => exact hheld e he hn
    · exact h.held e (hhold.subset he)

/-- One ring is set to a record as free for held entries as before. -/
theorem setRing {n : Nat} {x : ReportRing} (hx : x.Fits)
    (hheld : (r.ring n).running = true → (r.ring n).free = 0 → x.running = true ∧ x.free = 0) : (r.setRing n x).Fits :=
  h.of_ring (fun k => ReportUnit.ring_setRing _ _ k _) hx (List.Sublist.refl _)
    (fun e he hn => by
      obtain ⟨hrun, hfree⟩ := h.held e he
      rw [hn] at hrun hfree
      exact hheld hrun hfree)

/-- The unit changes in its pending bits, its deleted rings' writes or its counts. -/
theorem congr (hring : ∀ k, ∃ refs unsignalled oldest, r'.ring k =
      { r.ring k with refs := refs, unsignalled := unsignalled, oldest := oldest }) (hhold : r'.hold = r.hold) : r'.Fits := by
  refine ⟨fun k => ?_, by rw [hhold]; exact h.hold, fun e he => ?_⟩
  · obtain ⟨a, b, c, hk⟩ := hring k
    rw [hk]
    exact (h.ring k).congr .rfl id rfl rfl rfl rfl rfl
  · obtain ⟨a, b, c, hk⟩ := hring e.ring
    rw [hk]
    exact h.held e (hhold ▸ he)

variable (n : Nat)

/-- An acknowledgment takes the place of its reservation (R156). -/
theorem handIn (x : Report) (hn : 1 ≤ (r.ring n).reserved) :
    (r.handIn n x).Fits ∧ ∀ k, ((r.handIn n x).ring k).reserved = (r.ring k).reserved - if k = n then 1 else 0 := by
  have hpresent : (r.ring n).state ≠ .absent := fun e => by
    have := ((h.ring n).absent e).2
    omega
  have hcapacity := (h.ring n).capacity hpresent
  constructor
  · have hindexes := (h.ring n).indexes hpresent
    unfold ReportUnit.handIn
    dsimp only
    split
    · rename_i hrun
      refine h.setRing (.of_running hrun hindexes ?_) (fun _ hfree => ⟨hrun, ?_⟩)
      · show (r.ring n).written + ((r.ring n).queue ++ [x]).length + ((r.ring n).reserved - 1) + 1 ≤ (r.ring n).size
        rw [List.length_append, List.length_singleton]
        omega
      · show (r.ring n).size - 1 - ((r.ring n).written + ((r.ring n).queue ++ [x]).length) - ((r.ring n).reserved - 1) = 0
        change (r.ring n).size - 1 - ((r.ring n).written + (r.ring n).queue.length) - (r.ring n).reserved = 0 at hfree
        rw [List.length_append, List.length_singleton]
        omega
    · rename_i hstopped
      split
      · rename_i hfaulted
        refine h.setRing ⟨fun e => absurd e hpresent, fun _ => hindexes, fun _ => ?_, fun _ => (h.ring n).faulted hfaulted⟩
          (fun hrun => absurd hrun hstopped)
        show (r.ring n).written + (r.ring n).queue.length + ((r.ring n).reserved - 1) + 1 ≤ (r.ring n).size
        omega
      · exact h
  · intro k
    rw [ReportUnit.handIn_ring]
    by_cases hk : k = n
    · simp [hk, hpresent]
    · simp [hk]

/-- A report arrives: it is queued in a free slot, held while there is none, or counted lost (R157, R160). -/
theorem take (x : Report) : (r.take n x).Fits ∧ ∀ k, ((r.take n x).ring k).reserved = (r.ring k).reserved := by
  have hsame : ∀ y : ReportRing, y.reserved = (r.ring n).reserved →
    ∀ k, ((r.setRing n y).ring k).reserved = (r.ring k).reserved := by
    intro y hy k
    rw [ReportUnit.ring_setRing]
    split
    · next e => rw [hy, e]
    · rfl
  unfold ReportUnit.take
  dsimp only
  split
  · exact ⟨h, fun _ => rfl⟩
  · exact ⟨h, fun _ => rfl⟩
  · rename_i hlossy
    refine ⟨h.setRing ((h.ring n).congr .rfl id rfl rfl rfl rfl rfl) fun hrun hfree => ⟨hrun, hfree⟩, hsame _ rfl⟩
  · rename_i hactive
    have hrun : (r.ring n).running = true := (ReportRing.running_iff _).2 (.inl hactive)
    have hpresent := (ReportRing.state_of_running hrun).1
    have hsum := (h.ring n).free_add hpresent
    split
    · rename_i hfree
      refine ⟨h.setRing (.of_running hrun ((h.ring n).indexes hpresent) ?_) (fun _ hnone => by omega), hsame _ rfl⟩
      show (r.ring n).written + ((r.ring n).queue ++ [x]).length + (r.ring n).reserved + 1 ≤ (r.ring n).size
      rw [List.length_append, List.length_singleton]
      omega
    · rename_i hfull
      split
      · rename_i hroom
        refine ⟨⟨h.ring, ?_, fun e he => ?_⟩, fun _ => rfl⟩
        · rw [List.length_append, List.length_singleton]
          exact hroom
        · rcases List.mem_append.1 he with he | he
          · exact h.held e he
          · rw [List.mem_singleton.1 he]
            refine ⟨hrun, ?_⟩
            by_contra hne
            have hnil : r.heldOf n ≠ [] := fun hnil => hfull ⟨Nat.one_le_iff_ne_zero.2 hne, hnil⟩
            rw [ne_eq, ReportUnit.heldOf_eq_nil_iff, Bool.not_eq_false, List.any_eq_true] at hnil
            obtain ⟨e', he', hring⟩ := hnil
            rw [decide_eq_true_eq] at hring
            exact hne (hring ▸ (h.held e' he').2)
      · refine ⟨h.setRing ((h.ring n).congr ?_ (fun e => nomatch e) rfl rfl rfl rfl rfl) fun _ hfree => ⟨rfl, hfree⟩, hsame _ rfl⟩
        exact ⟨fun e => (nomatch e), fun e => absurd e hpresent⟩

/-- A reservation granted takes a free slot (R155). -/
theorem reserve (hr : r.reserve n = some r') :
    r'.Fits ∧ ∀ k, (r'.ring k).reserved = (r.ring k).reserved + if k = n then 1 else 0 := by
  obtain ⟨hrun, hfree, rfl⟩ := ReportUnit.reserve_some r n hr
  have hpresent := (ReportRing.state_of_running hrun).1
  have hsum := (h.ring n).free_add hpresent
  refine ⟨h.setRing (.of_running hrun ((h.ring n).indexes hpresent) ?_) (fun _ hnone => by omega), fun k => ?_⟩
  · show (r.ring n).written + (r.ring n).queue.length + ((r.ring n).reserved + 1) + 1 ≤ (r.ring n).size
    omega
  · rw [ReportUnit.ring_setRing]
    split
    · next e => rw [e]
    · rfl

/-- A ring faults: its queue and its held entries are discarded (R163). -/
theorem faultRing (hrun : (r.ring n).running = true) :
    (r.faultRing n).Fits ∧ ∀ k, ((r.faultRing n).ring k).reserved = (r.ring k).reserved := by
  have hpresent := (ReportRing.state_of_running hrun).1
  have hring : ∀ k, (r.faultRing n).ring k = if k = n then { r.ring n with state := .faulted, queue := [] } else r.ring k :=
    fun k => ReportUnit.ring_setRing r n k { r.ring n with state := .faulted, queue := [] }
  refine ⟨h.of_ring hring ⟨fun e => (nomatch e), fun _ => (h.ring n).indexes hpresent, fun _ => ?_, fun _ => rfl⟩
    List.filter_sublist (fun e he hn => ?_), fun k => ?_⟩
  · have hcapacity := (h.ring n).capacity hpresent
    show (r.ring n).written + 0 + (r.ring n).reserved + 1 ≤ (r.ring n).size
    omega
  · exact absurd hn (of_decide_eq_true (List.mem_filter.1 he).2)
  · rw [hring]
    split
    · next e => rw [e]
    · rfl

/-- The oldest queued record is written (R151). -/
theorem written (mt : U64) (hq : (r.ring n).queue ≠ []) (hrun : (r.ring n).running = true) :
    (r.written n mt).Fits ∧ ∀ k, ((r.written n mt).ring k).reserved = (r.ring k).reserved := by
  have hpresent := (ReportRing.state_of_running hrun).1
  obtain ⟨hsize, hp, hc⟩ := (h.ring n).indexes hpresent
  have hcapacity := (h.ring n).capacity hpresent
  have hsum := (h.ring n).free_add hpresent
  have hlength : (r.ring n).queue.tail.length + 1 = (r.ring n).queue.length := by
    cases hcases : (r.ring n).queue with
    | nil => exact absurd hcases hq
    | cons a l => rfl
  generalize hx : ({ r.ring n with queue := (r.ring n).queue.tail } : ReportRing) = x
  have hadvance : x.advance.producer < (r.ring n).size ∧ x.advance.written = (r.ring n).written + 1 := by
    rw [← hx]
    exact ReportRing.written_advance (x := { r.ring n with queue := (r.ring n).queue.tail }) hp hc (by
      show (r.ring n).written + 2 ≤ (r.ring n).size
      omega)
  have hfits : x.advance.Fits := by
    refine .of_running (by rw [← hx]; exact hrun) (by rw [← hx] at hadvance ⊢; exact ⟨hsize, hadvance.1, hc⟩) ?_
    rw [hadvance.2, ← hx]
    show (r.ring n).written + 1 + (r.ring n).queue.tail.length + (r.ring n).reserved + 1 ≤ (r.ring n).size
    omega
  have hfree : x.advance.free = (r.ring n).free := by
    have hx' := hfits.free_add (by rw [← hx]; exact hpresent)
    rw [hadvance.2, ← hx] at hx'
    rw [← hx]
    change _ + ((r.ring n).written + 1 + (r.ring n).queue.tail.length + (r.ring n).reserved + 1) = (r.ring n).size at hx'
    omega
  have hset : ∀ y : ReportRing, (∃ a b, y = { x.advance with unsignalled := a, oldest := b }) →
      (r.setRing n y).Fits ∧ ∀ k, ((r.setRing n y).ring k).reserved = (r.ring k).reserved := by
    rintro y ⟨a, b, rfl⟩
    refine ⟨h.setRing (hfits.congr .rfl id rfl rfl rfl rfl rfl) fun _ hzero => ⟨by rw [← hx]; exact hrun, ?_⟩, fun k => ?_⟩
    · exact hfree.trans hzero
    · rw [ReportUnit.ring_setRing]
      split
      · next e => rw [e, ← hx]; rfl
      · rfl
  have hcount : ∃ a b, x.advance.countWritten mt = { x.advance with unsignalled := a, oldest := b } := by
    unfold ReportRing.countWritten
    split
    · exact ⟨_, _, rfl⟩
    · exact ⟨_, _, rfl⟩
  unfold ReportUnit.written
  rw [hx]
  dsimp only
  split
  · obtain ⟨a, b, e⟩ := hcount
    obtain ⟨hfit, hres⟩ := hset (x.advance.countWritten mt).signalled ⟨0, none, by rw [e]; rfl⟩
    exact ⟨⟨hfit.ring, hfit.hold, hfit.held⟩, hres⟩
  · exact hset _ hcount

/-- A ring deleted that nothing is promised to (R167). -/
theorem deleteRing (hn : (r.ring n).reserved = 0) :
    (r.deleteRing n).Fits ∧ ∀ k, ((r.deleteRing n).ring k).reserved = (r.ring k).reserved := by
  have hring : ∀ k, (r.deleteRing n).ring k = if k = n then ReportRing.reset else r.ring k :=
    fun k => ReportUnit.ring_setRing r n k ReportRing.reset
  refine ⟨h.of_ring hring ReportRing.fits_reset List.filter_sublist (fun e he hn => ?_), fun k => ?_⟩
  · exact absurd hn (of_decide_eq_true (List.mem_filter.1 he).2)
  · rw [hring]
    split
    · next e => rw [e, hn]; rfl
    · rfl

end ReportUnit.Fits

/-! ### The return of space -/

/-- As `Fits`, but that the held entries of ring `n` may find space. -/
structure ReportUnit.NearlyFits (n : Nat) (r : ReportUnit) : Prop where
  ring : ∀ k, (r.ring k).Fits
  hold : r.hold.length ≤ 32
  held : ∀ e ∈ r.hold, (r.ring e.ring).running = true ∧ (e.ring ≠ n → (r.ring e.ring).free = 0)

section Return
variable {r : ReportUnit} {n : Nat}

/-- Space found on one ring. -/
theorem ReportUnit.Fits.setSpace (h : r.Fits) {x : ReportRing} (hx : x.Fits)
    (hrun : (r.ring n).running = true → x.running = true) :
    (r.setRing n x).NearlyFits n := by
  refine ⟨fun k => ?_, h.hold, fun e he => ?_⟩
  · rw [ReportUnit.ring_setRing]
    split
    · exact hx
    · exact h.ring k
  · obtain ⟨hr, hf⟩ := h.held e he
    rw [ReportUnit.ring_setRing]
    split
    · next hn => exact ⟨hrun (hn ▸ hr), fun hne => absurd hn hne⟩
    · exact ⟨hr, fun _ => hf⟩

variable (h : r.NearlyFits n)
include h

/-- Held entries move into the free slots (R159). -/
theorem ReportUnit.NearlyFits.moveHeld (hrun : (r.ring n).running = true) : (r.moveHeld n).Fits := by
  have hpresent := (ReportRing.state_of_running hrun).1
  have hsum := (h.ring n).free_add hpresent
  refine ⟨fun k => ?_, (dropHeld_sublist n _ _).length_le.trans h.hold, fun e he => ?_⟩
  · rw [ReportUnit.moveHeld_ring]
    split
    · refine .of_running hrun ((h.ring n).indexes hpresent) ?_
      show (r.ring n).written + ((r.ring n).queue ++ _).length + (r.ring n).reserved + 1 ≤ (r.ring n).size
      rw [List.length_append, List.length_take]
      omega
    · exact h.ring k
  · rw [ReportUnit.moveHeld_ring]
    split
    · rename_i hring
      refine ⟨hrun, ?_⟩
      have hleft : (r.moveHeld n).heldOf n ≠ [] := by
        rw [ne_eq, ReportUnit.heldOf_eq_nil_iff, Bool.not_eq_false, List.any_eq_true]
        exact ⟨e, he, decide_eq_true hring⟩
      rw [ReportUnit.moveHeld_heldOf, if_pos rfl, ne_eq, List.drop_eq_nil_iff] at hleft
      show (r.ring n).size - 1 - ((r.ring n).written + ((r.ring n).queue ++ _).length) - (r.ring n).reserved = 0
      rw [List.length_append, List.length_take]
      omega
    · next hring =>
      obtain ⟨hr, hf⟩ := h.held e ((dropHeld_sublist n _ _).subset he)
      exact ⟨hr, hf hring⟩

/-- The return of space (R159, R161). -/
theorem ReportUnit.NearlyFits.returnSpace (mt : U64) :
    (r.returnSpace n mt).Fits ∧ ∀ k, ((r.returnSpace n mt).ring k).reserved = (r.ring k).reserved := by
  have hmoved : ∀ k, ((r.moveHeld n).ring k).reserved = (r.ring k).reserved := by
    intro k
    rw [ReportUnit.moveHeld_ring]
    split
    · next e => rw [e]
    · rfl
  unfold ReportUnit.returnSpace
  split
  · rename_i hrun
    have hfits := h.moveHeld hrun
    unfold ReportUnit.placeLoss
    dsimp only
    split
    · rename_i hloss
      obtain ⟨hlossy, -, hfree⟩ := hloss
      have hpresent : ((r.moveHeld n).ring n).state ≠ .absent := by rw [hlossy]; decide
      have hsum := (hfits.ring n).free_add hpresent
      refine ⟨hfits.setRing (.of_running rfl ((hfits.ring n).indexes hpresent) ?_) (fun _ hnone => by omega), fun k => ?_⟩
      · show ((r.moveHeld n).ring n).written + (((r.moveHeld n).ring n).queue ++ [_]).length +
          ((r.moveHeld n).ring n).reserved + 1 ≤ ((r.moveHeld n).ring n).size
        rw [List.length_append, List.length_singleton]
        omega
      · rw [ReportUnit.ring_setRing]
        split
        · next e => rw [← hmoved k, e]; rfl
        · exact hmoved k
    · exact ⟨hfits, hmoved⟩
  · rename_i hstopped
    refine ⟨⟨h.ring, h.hold, fun e he => ?_⟩, fun _ => rfl⟩
    obtain ⟨hr, hf⟩ := h.held e he
    exact ⟨hr, hf fun e => hstopped (e ▸ hr)⟩

end Return

namespace ReportUnit.Fits
variable {r : ReportUnit} (h : r.Fits) (n : Nat)
include h

/-- A reservation handed back frees its slot, and the space returns (R155). -/
theorem handBack (mt : U64) (hn : 1 ≤ (r.ring n).reserved) :
    (r.handBack n mt).Fits ∧ ∀ k, ((r.handBack n mt).ring k).reserved = (r.ring k).reserved - if k = n then 1 else 0 := by
  have hpresent : (r.ring n).state ≠ .absent := fun e => by
    have := ((h.ring n).absent e).2
    omega
  have hcapacity := (h.ring n).capacity hpresent
  have hspace : (r.setRing n { r.ring n with reserved := (r.ring n).reserved - 1 }).NearlyFits n := by
    refine h.setSpace ⟨fun e => absurd e hpresent, fun _ => (h.ring n).indexes hpresent, fun _ => ?_, (h.ring n).faulted⟩ id
    show (r.ring n).written + (r.ring n).queue.length + ((r.ring n).reserved - 1) + 1 ≤ (r.ring n).size
    omega
  refine ⟨(hspace.returnSpace mt).1, fun k => ((hspace.returnSpace mt).2 k).trans ?_⟩
  rw [ReportUnit.ring_setRing]
  split
  · next e => rw [e]
  · rfl

/-- An accepted consumer value releases written records (R153). -/
theorem consume {v : Nat} (hv : (r.ring n).acceptsConsumer v = true) :
    let x := { r.ring n with consumer := v }
    (r.setRing n x).NearlyFits n ∧ ((r.ring n).releases v = 0 → (r.setRing n x).Fits) ∧
      ∀ k, ((r.setRing n x).ring k).reserved = (r.ring k).reserved := by
  intro x
  simp only [ReportRing.acceptsConsumer, Bool.and_eq_true, decide_eq_true_eq] at hv
  obtain ⟨⟨hpresent, hlt⟩, hspan⟩ := hv
  obtain ⟨hsize, hp, hc⟩ := (h.ring n).indexes hpresent
  have hcapacity := (h.ring n).capacity hpresent
  have hwritten : x.written + (r.ring n).releases v = (r.ring n).written := ReportRing.written_consume hp hc hlt hspan
  have hx : x.Fits := by
    refine ⟨fun e => absurd e hpresent, fun _ => ⟨hsize, hp, hlt⟩, fun _ => ?_, (h.ring n).faulted⟩
    show x.written + (r.ring n).queue.length + (r.ring n).reserved + 1 ≤ (r.ring n).size
    omega
  refine ⟨h.setSpace hx id, fun hzero => h.setRing hx fun hrun hfree => ⟨hrun, ?_⟩, fun k => ?_⟩
  · have hsame : x.written = (r.ring n).written := by omega
    show (r.ring n).size - 1 - (x.written + (r.ring n).queue.length) - (r.ring n).reserved = 0
    rw [hsame]
    exact hfree
  · rw [ReportUnit.ring_setRing]
    split
    · next e => rw [e]
    · rfl

end ReportUnit.Fits

end Sys2Proof.Machine
end

section
/-!
SUPPORT. The law of the report rings' capacity over the state's operations: every reservation stays matched to the acknowledgment
it is for (R133, R140, R152, R155, R156).
-/
namespace Sys2Proof.Machine

/-! ### The acknowledgments promised -/

/-- One acknowledgment that may be owed to a ring. -/
def owes (o : Option Nat) (n : Nat) : Nat := if o = some n then 1 else 0

@[simp] theorem owes_none (n : Nat) : owes none n = 0 := rfl

@[simp] theorem owes_some (a n : Nat) : owes (some a) n = if a = n then 1 else 0 := by simp [owes]

/-- The ring that the record in progress, the pending step, the pending switch is acknowledged on. -/
def State.recordRing (s : State) : Option Nat := s.posting.inProgress.map IntakeRecord.bound
def TimeBase.stepRing (t : TimeBase) : Option Nat := t.pendingStep.map (fun p => p.ack.bound)
def TimeBase.switchRing (t : TimeBase) : Option Nat := t.pendingSwitch.map (fun p => p.ack.bound)

theorem State.promised_eq (s : State) (n : Nat) :
    s.promised n = owes s.recordRing n + owes s.tb.stepRing n + owes s.tb.switchRing n := by
  unfold State.promised State.recordRing TimeBase.stepRing TimeBase.switchRing oneIf
  cases s.posting.inProgress <;> cases s.tb.pendingStep <;> cases s.tb.pendingSwitch <;> simp [owes]

/-- Requests owned outside the Timer Store, and whatever is deferred, are acknowledged on report ring 0. -/
structure State.Owned (s : State) : Prop where
  ringZero : (s.posting.ring 0).bound = 0
  record : ∀ r, s.posting.inProgress = some r → r.ring = 0 → r.bound = 0
  owned : ∀ r w op, s.posting.inProgress = some r → r.stage = .atOwner → r.slot1 = some w →
    PostSlot.opcode w = some op → op.isTimer = false → r.ring = 0
  step : ∀ a, s.tb.stepRing = some a → a = 0
  switch : ∀ a, s.tb.switchRing = some a → a = 0

/-- The law in three parts. -/
theorem State.capacityLaw_iff {s : State} : s.CapacityLaw ↔ s.report.Fits ∧
    (∀ n, (s.report.ring n).reserved = owes s.recordRing n + owes s.tb.stepRing n + owes s.tb.switchRing n) ∧ s.Owned := by
  constructor
  · intro h
    refine ⟨⟨fun n => ⟨h.absent n, h.indexes n, h.capacity n, h.faulted n⟩, h.hold, h.held⟩,
      fun n => (h.promises n).trans (s.promised_eq n), h.ringZero, h.record, h.owned, fun a ha => ?_, fun a ha => ?_⟩
    · obtain ⟨p, hp, rfl⟩ := Option.map_eq_some_iff.1 ha
      exact h.step p hp
    · obtain ⟨p, hp, rfl⟩ := Option.map_eq_some_iff.1 ha
      exact h.switch p hp
  · rintro ⟨hfits, hpromises, howned⟩
    exact {
      promises := fun n => (hpromises n).trans (s.promised_eq n).symm
      absent := fun n => (hfits.ring n).absent
      indexes := fun n => (hfits.ring n).indexes
      capacity := fun n => (hfits.ring n).capacity
      faulted := fun n => (hfits.ring n).faulted
      hold := hfits.hold
      held := hfits.held
      ringZero := howned.ringZero
      record := howned.record
      owned := howned.owned
      step := fun p hp => howned.step _ (by rw [TimeBase.stepRing, hp]; rfl)
      switch := fun p hp => howned.switch _ (by rw [TimeBase.switchRing, hp]; rfl) }

namespace State.CapacityLaw
variable {s : State} (h : s.CapacityLaw)
include h

/-! ### The state's operations -/

theorem congr {t : State} (hreport : t.report = s.report) (hposting : t.posting = s.posting)
    (hstep : t.tb.stepRing = s.tb.stepRing) (hswitch : t.tb.switchRing = s.tb.switchRing) : t.CapacityLaw := by
  rw [State.capacityLaw_iff] at h ⊢
  obtain ⟨hfits, hpromises, howned⟩ := h
  refine ⟨by rw [hreport]; exact hfits, fun n => ?_, by rw [hposting]; exact howned.ringZero,
    by rw [hposting]; exact howned.record,
    by rw [hposting]; exact howned.owned, by rw [hstep]; exact howned.step, by rw [hswitch]; exact howned.switch⟩
  rw [hreport, hstep, hswitch, hpromises, State.recordRing, State.recordRing, hposting]

theorem of_onlyIn {ps : List Part} {t : State} (hf : OnlyIn ps s t) (hps : ∀ p ∈ [Part.tb, .report, .posting], p ∉ ps) :
    t.CapacityLaw := by
  have htb := hf.tb_eq (hps _ (by simp))
  exact h.congr (hf.report_eq (hps _ (by simp))) (OnlyIn.posting_eq hf (hps _ (by simp))) (by rw [htb]) (by rw [htb])

theorem setDisp (x : Dispatcher) : (s.setDisp x).CapacityLaw := h.congr rfl rfl rfl rfl
theorem setStore (x : TimerStore) : (s.setStore x).CapacityLaw := h.congr rfl rfl rfl rfl
theorem setEngine (x : ActionEngine) : (s.setEngine x).CapacityLaw := h.congr rfl rfl rfl rfl
theorem setWindow (x : Window) : (s.setWindow x).CapacityLaw := h.congr rfl rfl rfl rfl
theorem setMem (x : List Host.Cell) : (s.setMem x).CapacityLaw := h.congr rfl rfl rfl rfl
theorem setRegion (n : Nat) (x : Region) : (s.setRegion n x).CapacityLaw := h.congr rfl rfl rfl rfl
theorem setLine (n : Nat) (x : LineRec) : (s.setLine n x).CapacityLaw := h.congr rfl rfl rfl rfl
theorem offer : s.offer.CapacityLaw := h.setDisp _
theorem setTb {x : TimeBase} (hstep : x.stepRing = s.tb.stepRing) (hswitch : x.switchRing = s.tb.switchRing) :
    (s.setTb x).CapacityLaw := h.congr rfl rfl hstep hswitch
theorem afterReset : s.afterReset.CapacityLaw := h.of_onlyIn State.afterReset_onlyIn (by simp)

/-- The Report Unit changes and no reservation. -/
theorem setReport {x : ReportUnit} (hx : x.Fits) (hreserved : ∀ n, (x.ring n).reserved = (s.report.ring n).reserved) :
    (s.setReport x).CapacityLaw := by
  rw [State.capacityLaw_iff] at h ⊢
  obtain ⟨-, hpromises, howned⟩ := h
  exact ⟨hx, fun n => (hreserved n).trans (hpromises n), howned.ringZero, howned.record, howned.owned, howned.step, howned.switch⟩

theorem fits : s.report.Fits := (State.capacityLaw_iff.1 h).1

theorem take (n : Nat) (x : Report) : (s.setReport (s.report.take n x)).CapacityLaw :=
  h.setReport (h.fits.take n x).1 (h.fits.take n x).2

/-- The rings change in their reference counts. -/
theorem setRefs {x : ReportUnit} (hring : ∀ k, ∃ refs, x.ring k = { s.report.ring k with refs := refs })
    (hhold : x.hold = s.report.hold) : (s.setReport x).CapacityLaw := by
  refine h.setReport (h.fits.congr (fun k => ?_) hhold) (fun k => ?_)
  · obtain ⟨a, e⟩ := hring k
    exact ⟨a, _, _, e⟩
  · obtain ⟨a, e⟩ := hring k
    rw [e]

/-- The Posting Unit's rings change, ring 0's binding and the record in progress do not. -/
theorem setPosting {x : PostingUnit} (hzero : (x.ring 0).bound = (s.posting.ring 0).bound)
    (hrecord : x.inProgress = s.posting.inProgress) : (s.setPosting x).CapacityLaw := by
  rw [State.capacityLaw_iff] at h ⊢
  obtain ⟨hfits, hpromises, howned⟩ := h
  refine ⟨hfits, fun n => (hpromises n).trans ?_, hzero.trans howned.ringZero, fun r hr => howned.record r (hrecord ▸ hr),
    fun r w op hr => howned.owned r w op (hrecord ▸ hr), howned.step, howned.switch⟩
  show _ = owes (x.inProgress.map _) n + _ + _
  rw [hrecord]
  rfl

/-- A ring set to a record bound as it was. -/
theorem setPostRing {n : Nat} {x : PostRing} (hx : x.bound = (s.posting.ring n).bound ∨ n ≠ 0) :
    (s.setPosting (s.posting.setRing n x)).CapacityLaw := by
  refine h.setPosting ?_ rfl
  rw [PostingUnit.ring_setRing]
  split
  · next e =>
    subst e
    exact hx.resolve_right (fun hne => hne rfl)
  · rfl

/-- The record in progress changes in its stage and slots. -/
theorem setRecord {r r' : IntakeRecord} (hr : s.posting.inProgress = some r) (hring : r'.ring = r.ring)
    (hbound : r'.bound = r.bound)
    (howned : ∀ w op, r'.stage = .atOwner → r'.slot1 = some w → PostSlot.opcode w = some op → op.isTimer = false → r'.ring = 0) :
    (s.setPosting { s.posting with inProgress := some r' }).CapacityLaw := by
  rw [State.capacityLaw_iff] at h ⊢
  obtain ⟨hfits, hpromises, hown⟩ := h
  refine ⟨hfits, fun n => (hpromises n).trans ?_, hown.ringZero, fun r'' e hzero => ?_, fun r'' w op e => ?_, hown.step,
    hown.switch⟩
  · show owes (s.posting.inProgress.map _) n + _ + _ = owes (some r'.bound) n + _ + _
    rw [hr, hbound]
    rfl
  · cases e
    rw [hbound]
    exact hown.record r hr (hring ▸ hzero)
  · cases e
    exact howned w op

/-- The record in progress is acknowledged: its reservation becomes its acknowledgment (R140, R156). -/
theorem ackRecord {a : AckHead} (ha : s.recordRing = some a.bound) (st : Status) (res : AckResults) :
    ((s.handIn a st res).endRecord).CapacityLaw := by
  rw [State.capacityLaw_iff] at h ⊢
  obtain ⟨hfits, hpromises, hown⟩ := h
  have hone : 1 ≤ (s.report.ring a.bound).reserved := by
    rw [hpromises, ha, owes_some, if_pos rfl]
    omega
  obtain ⟨hfits', hreserved⟩ := hfits.handIn a.bound (.ack a st res) hone
  refine ⟨hfits', fun n => (hreserved n).trans ?_, hown.ringZero, fun _ e => (nomatch e), fun _ _ _ e => (nomatch e), hown.step,
    hown.switch⟩
  rw [hpromises, ha, owes_some]
  show _ = owes none n + owes s.tb.stepRing n + owes s.tb.switchRing n
  rw [owes_none]
  simp only [eq_comm (a := n)]
  omega

theorem answer {r : IntakeRecord} (hr : s.recordRing = some r.bound) (w : PostSlot) (st : Status) (res : AckResults) :
    (s.answer r w st res).CapacityLaw := h.ackRecord hr st res

/-- The acknowledgment of a pending step is handed in (R95, R96, R97). -/
theorem endStep {a : AckHead} (ha : s.tb.stepRing = some a.bound) {x : TimeBase} (hx : x.stepRing = none)
    (hswitch : x.switchRing = s.tb.switchRing) (st : Status) (res : AckResults) : ((s.setTb x).handIn a st res).CapacityLaw := by
  rw [State.capacityLaw_iff] at h ⊢
  obtain ⟨hfits, hpromises, hown⟩ := h
  have hone : 1 ≤ (s.report.ring a.bound).reserved := by
    rw [hpromises, ha, owes_some, if_pos rfl]
    omega
  obtain ⟨hfits', hreserved⟩ := hfits.handIn a.bound (.ack a st res) hone
  refine ⟨hfits', fun n => (hreserved n).trans ?_, hown.ringZero, hown.record, hown.owned, fun b e => ?_, fun b e => ?_⟩
  · rw [hpromises, ha, owes_some]
    show _ = owes s.recordRing n + owes x.stepRing n + owes x.switchRing n
    rw [hx, hswitch, owes_none]
    simp only [eq_comm (a := n)]
    omega
  · exact nomatch hx.symm.trans e
  · exact hown.switch b (hswitch.symm.trans e)

/-- The acknowledgment of a pending switch is handed in (R85, R86). -/
theorem endSwitch {a : AckHead} (ha : s.tb.switchRing = some a.bound) {x : TimeBase} (hx : x.switchRing = none)
    (hstep : x.stepRing = s.tb.stepRing) (st : Status) (res : AckResults) : ((s.setTb x).handIn a st res).CapacityLaw := by
  rw [State.capacityLaw_iff] at h ⊢
  obtain ⟨hfits, hpromises, hown⟩ := h
  have hone : 1 ≤ (s.report.ring a.bound).reserved := by
    rw [hpromises, ha, owes_some, if_pos rfl]
    omega
  obtain ⟨hfits', hreserved⟩ := hfits.handIn a.bound (.ack a st res) hone
  refine ⟨hfits', fun n => (hreserved n).trans ?_, hown.ringZero, hown.record, hown.owned, fun b e => ?_, fun b e => ?_⟩
  · rw [hpromises, ha, owes_some]
    show _ = owes s.recordRing n + owes x.stepRing n + owes x.switchRing n
    rw [hx, hstep, owes_none]
    simp only [eq_comm (a := n)]
    omega
  · exact hown.step b (hstep.symm.trans e)
  · exact nomatch hx.symm.trans e

/-- The acknowledgment of the record in progress is deferred with a step or a switch (R85, R94). -/
theorem defer (hrecord : s.recordRing = some 0) {x : TimeBase}
    (hx : (s.tb.stepRing = none ∧ x.stepRing = some 0 ∧ x.switchRing = s.tb.switchRing) ∨
      (s.tb.switchRing = none ∧ x.switchRing = some 0 ∧ x.stepRing = s.tb.stepRing)) :
    ((s.setTb x).endRecord).CapacityLaw := by
  rw [State.capacityLaw_iff] at h ⊢
  obtain ⟨hfits, hpromises, hown⟩ := h
  refine ⟨hfits, fun n => (hpromises n).trans ?_, hown.ringZero, fun _ e => (nomatch e), fun _ _ _ e => (nomatch e),
    fun b e => ?_,
    fun b e => ?_⟩
  · show _ = owes none n + owes x.stepRing n + owes x.switchRing n
    rw [hrecord]
    rcases hx with ⟨h1, h2, h3⟩ | ⟨h1, h2, h3⟩ <;> rw [h1, h2, h3, owes_none] <;> omega
  · change x.stepRing = some b at e
    rcases hx with ⟨h1, h2, h3⟩ | ⟨h1, h2, h3⟩
    · exact (Option.some.inj (h2.symm.trans e)).symm
    · exact hown.step b (h3.symm.trans e)
  · change x.switchRing = some b at e
    rcases hx with ⟨h1, h2, h3⟩ | ⟨h1, h2, h3⟩
    · exact hown.switch b (h3.symm.trans e)
    · exact (Option.some.inj (h2.symm.trans e)).symm

end State.CapacityLaw

end Sys2Proof.Machine
end

section
/-!
SUPPORT. O12: the law of the report rings' capacity over the commands.
-/
namespace Sys2Proof.Machine
/-- The arbiter's positions are no part of the record in progress. -/
theorem PostingUnit.noteTake_record (p : PostingUnit) (n : Nat) (b : Bool) : (p.noteTake n b).inProgress = p.inProgress := by
  unfold PostingUnit.noteTake
  split <;> rfl

namespace State.CapacityLaw
variable {s : State} (h : s.CapacityLaw)
include h

/-! ### Slots and their references -/

theorem addRefs (x : TimerSlot) : (s.addRefs x).CapacityLaw := by
  have hrefs := h.setRefs (x := (s.addRefs x).report) (fun k => ⟨_, s.addRefs_ring x k⟩) (s.addRefs_hold x)
  exact hrefs.congr rfl (s.addRefs_posting x) (by rw [State.addRefs_tb]; rfl) (by rw [State.addRefs_tb]; rfl)

theorem releaseRefs (x : TimerSlot) : (s.releaseRefs x).CapacityLaw := by
  have hrefs := h.setRefs (x := (s.releaseRefs x).report) (fun k => ⟨_, s.releaseRefs_ring x k⟩) (s.releaseRefs_hold x)
  exact hrefs.congr rfl (s.releaseRefs_posting x) (by rw [State.releaseRefs_tb]; rfl) (by rw [State.releaseRefs_tb]; rfl)

omit h in
theorem armSlot_posting (n : Nat) (x : TimerSlot) : (s.armSlot n x).posting = s.posting := by
  unfold State.armSlot State.removeArming
  rw [State.offer_posting, State.setStore_posting, State.addRefs_posting]
  split
  · rw [State.releaseRefs_posting, State.setStore_posting]
  · rfl

theorem freeSlot (n : Nat) : (s.freeSlot n).CapacityLaw := (h.setStore _).releaseRefs _

theorem armSlot (n : Nat) (x : TimerSlot) : (s.armSlot n x).CapacityLaw := by
  have hremoved : (s.removeArming n).CapacityLaw := by
    unfold State.removeArming
    split
    · exact (h.setStore _).releaseRefs _
    · exact h
  exact ((hremoved.addRefs x).setStore _).offer

theorem applyStep (mode : StepMode) (v : U64) : (s.applyStep mode v).CapacityLaw := by
  have htb : ∀ t : TimeBase, (t.stepped mode v).stepRing = t.stepRing ∧ (t.stepped mode v).switchRing = t.switchRing := by
    intro t
    cases mode <;> exact ⟨rfl, rfl⟩
  exact ((h.setTb (htb _).1 (htb _).2).setStore _).offer

theorem settleSlot (n : Nat) (x : TimerSlot) (o : ReturnOutcome) : (s.settleSlot n x o).CapacityLaw := by
  cases o with
  | ends b => exact (h.setStore _).releaseRefs _
  | nextPeriod d k => exact (h.setStore _).offer
  | followPhase d => exact (h.setStore _).offer

theorem takeReturn (c : Completion) : (s.takeReturn c).CapacityLaw := by
  unfold State.takeReturn
  refine settleSlot (s := s.handReport _ _) ?_ _ _ _
  unfold State.handReport
  split
  · exact h
  · split
    · exact h.take _ _
    · exact h

/-! ### Requests -/

/-- A request owned outside the Timer Store is acknowledged on report ring 0. -/
theorem record_zero {op : Opcode} {r : IntakeRecord} {w : PostSlot} (hown : AtOwner s op r w) (hop : op.isTimer = false) :
    s.recordRing = some 0 := by
  obtain ⟨hr, hstage, hslot, hopcode⟩ := hown
  have hbound := h.record r hr (h.owned r w op hr hstage hslot hopcode hop)
  rw [State.recordRing, hr, Option.map_some, hbound]

/-- While a request owned outside the Timer Store is taken, nothing is promised to a report ring from 1 to 8. -/
theorem unpromised (hr : s.recordRing = some 0) {n : Nat} (hn : n ≠ 0) : (s.report.ring n).reserved = 0 := by
  obtain ⟨-, hpromises, hown⟩ := State.capacityLaw_iff.1 h
  have hnone : ∀ o : Option Nat, (∀ a, o = some a → a = 0) → owes o n = 0 := by
    intro o ho
    cases o with
    | none => rfl
    | some a => rw [ho a rfl, owes_some, if_neg (Ne.symm hn)]
  rw [hpromises, hr, hnone _ hown.step, hnone _ hown.switch, hnone _ fun a e => (Option.some.inj e).symm]

/-- What a request's owner does keeps the law. -/
theorem takeRequest (hlawful : s.tb.Lawful) {op : Opcode} {r : IntakeRecord} {w : PostSlot} (hown : AtOwner s op r w) :
    (s.takeRequest op r w).CapacityLaw := by
  have hr : s.recordRing = some r.bound := by rw [State.recordRing, hown.1]; rfl
  have hzero := h.record_zero hown
  have hbound : op.isTimer = false → r.bound = 0 := fun hop => Option.some.inj (hr.symm.trans (hzero hop))
  have hanswer : ∀ {t : State}, t.CapacityLaw → t.recordRing = s.recordRing → ∀ st res, (t.answer r w st res).CapacityLaw :=
    fun ht e st res => ht.answer (e.trans hr) w st res
  have hrefused := fun st res => hanswer h rfl st res
  cases op
  case arm =>
    simp only [State.takeRequest, State.takeArm]
    split
    · refine hanswer (h.armSlot _ _) ?_ _ _
      rw [State.recordRing, armSlot_posting]
      rfl
    · exact hrefused _ _
  case cancel =>
    simp only [State.takeRequest, State.takeCancel]
    split
    · refine hanswer (h.freeSlot _) ?_ _ _
      rw [State.recordRing, State.freeSlot, State.releaseRefs_posting]
      rfl
    · exact hanswer (h.setStore _) (by rfl) _ _
    · exact hrefused _ _
  case retime =>
    simp only [State.takeRequest, State.takeRetime]
    split
    · exact hanswer (State.CapacityLaw.offer (h.setStore _)) (by rfl) _ _
    · exact hrefused _ _
  case query =>
    simp only [State.takeRequest, State.takeQuery]
    split <;> exact hrefused _ _
  case setRegion =>
    simp only [State.takeRequest, State.takeSetRegion]
    split
    · exact hanswer (h.setRegion _ _) (by rfl) _ _
    · exact hrefused _ _
  case clearRegion =>
    simp only [State.takeRequest, State.takeClearRegion]
    split
    · exact hanswer (h.setRegion _ _) (by rfl) _ _
    · exact hrefused _ _
  case configureTimebase =>
    simp only [State.takeRequest, State.takeConfigure]
    have hnone : s.tb.source ≠ .qualifying → s.tb.switchRing = none := fun hne => by
      have : s.tb.pendingSwitch = none := by
        rw [← Option.not_isSome_iff_eq_none]
        exact fun hsome => hne (hlawful.qualifying.2 hsome)
      rw [TimeBase.switchRing, this]
      rfl
    have hdefer : s.tb.source ≠ .qualifying →
        ((s.setTb ((s.tb.setDivisors (ConfigureRequest.read w)).beginQualifying
          (r.ackHead (PostSlot.byte w 0)))).endRecord).CapacityLaw :=
      fun hne => h.defer (hzero rfl) (.inr ⟨hnone hne, congrArg some (hbound rfl), rfl⟩)
    split
    · exact hrefused _ _
    · split
      · exact hanswer (h.setTb (by rfl) (by rfl)) (by rfl) _ _
      · exact hanswer (h.setTb (by rfl) (by rfl)) (by rfl) _ _
      · exact hdefer fun e => by simp_all [TimeBase.setDivisors]
      · exact hdefer fun e => by simp_all [TimeBase.setDivisors]
      · exact hanswer (h.setTb (by rfl) (by rfl)) (by rfl) _ _
  case setTrim =>
    simp only [State.takeRequest, State.takeSetTrim]
    split
    · exact hanswer (h.setTb (by rfl) (by rfl)) (by rfl) _ _
    · exact hrefused _ _
  case setTime =>
    simp only [State.takeRequest, State.takeSetTime]
    split
    · have hreplaced : s.endReplaced.CapacityLaw ∧ s.endReplaced.tb.stepRing = none ∧
        s.endReplaced.recordRing = s.recordRing := by
        unfold State.endReplaced
        split
        · next e => exact ⟨h, by rw [TimeBase.stepRing, e]; rfl, rfl⟩
        · next p e => exact ⟨h.endStep (by rw [TimeBase.stepRing, e]; rfl) (by rfl) (by rfl) _ _, rfl, rfl⟩
      obtain ⟨hcap, hstep, hrec⟩ := hreplaced
      unfold State.setTime
      split
      · exact hcap.defer (hrec.trans (hzero rfl)) (.inl ⟨hstep, congrArg some (hbound rfl), rfl⟩)
      · exact hanswer (hcap.applyStep _ _) hrec _ _
    · exact hrefused _ _
  case setMarks =>
    simp only [State.takeRequest, State.takeSetMarks]
    split
    · exact hanswer (h.setTb (by rfl) (by rfl)) (by rfl) _ _
    · exact hrefused _ _
  case readTime =>
    simp only [State.takeRequest, State.takeReadTime]
    split <;> exact hrefused _ _
  case setLineRest =>
    have hf := s.setRest_onlyIn (LineRestRequest.read w) lineNumbers
    simp only [State.takeRequest, State.takeSetLineRest]
    split
    · refine hanswer (h.of_onlyIn hf (by simp)) ?_ _ _
      rw [State.recordRing, OnlyIn.posting_eq hf (by simp)]
      rfl
    · exact hrefused _ _
  case createPostRing =>
    simp only [State.takeRequest, State.takeCreatePost]
    split
    · rename_i hok
      have hnumber : (CreatePostRequest.read w).number.toNat ≠ 0 := by
        unfold CreatePostRequest.check at hok
        split_ifs at hok with h1 h2
        have hnum := (not_or.1 h2).1
        rw [Bool.not_eq_true', Bool.not_eq_false, ringNumberOk_iff] at hnum
        omega
      have hcap := (h.setPostRing (x := (CreatePostRequest.read w).ring) (.inr hnumber)).setRefs
        (x := s.report.addRef (CreatePostRequest.read w).reportRing.toNat) (fun k => ⟨_, ReportUnit.addRef_ring _ _ k⟩) rfl
      exact hanswer hcap (by rfl) _ _
    · exact hrefused _ _
  case deletePostRing =>
    simp only [State.takeRequest, State.takeDeletePost]
    split
    · rename_i hok
      have hnumber : (PostSlot.number w).toNat ≠ 0 := by
        unfold State.deletePostCheck at hok
        split_ifs at hok with h1 h2
        rw [Bool.not_eq_true', Bool.not_eq_false, ringNumberOk_iff] at h2
        omega
      have hcap := (h.setPostRing (x := PostRing.reset) (.inr hnumber)).setRefs
        (x := s.report.releaseRef (s.posting.ring (PostSlot.number w).toNat).bound)
          (fun k => ⟨_, ReportUnit.releaseRef_ring _ _ k⟩) rfl
      exact hanswer hcap (by rfl) _ _
    · exact hrefused _ _
  case resumePostRing =>
    simp only [State.takeRequest, State.takeResumePost]
    split
    · exact hanswer (h.setPostRing (.inl (by rfl))) (by rfl) _ _
    · exact hrefused _ _
  case createReportRing =>
    simp only [State.takeRequest, State.takeCreateReport]
    split
    · rename_i hok
      have hchecks : 4 ≤ (CreateReportRequest.read w).size.toNat ∧
          (s.report.ring (CreateReportRequest.read w).number.toNat).state = .absent := by
        unfold CreateReportRequest.check at hok
        split_ifs at hok with h1 h2 h3
        simp only [not_or] at h2
        exact ⟨by omega, not_not.1 h3⟩
      have hreserved := ((h.fits.ring _).absent hchecks.2).2
      have hfits := h.fits.setRing (n := (CreateReportRequest.read w).number.toNat) (x := (CreateReportRequest.read w).ring)
        (ReportRing.fits_fresh _ hchecks.1 _ _ _ _) (fun hrun => absurd hchecks.2 (ReportRing.state_of_running hrun).1)
      refine hanswer (h.setReport hfits fun k => ?_) (by rfl) _ _
      rw [ReportUnit.ring_setRing]
      split
      · next e => rw [e, hreserved]; rfl
      · rfl
    · exact hrefused _ _
  case deleteReportRing =>
    simp only [State.takeRequest, State.takeDeleteReport]
    split
    · rename_i hok
      have hnumber : (PostSlot.number w).toNat ≠ 0 := by
        unfold State.deleteReportCheck at hok
        dsimp only at hok
        split_ifs at hok with h1 h2
        rw [Bool.not_eq_true', Bool.not_eq_false, ringNumberOk_iff] at h2
        omega
      have hnone := h.unpromised (hzero rfl) hnumber
      exact hanswer (h.setReport (h.fits.deleteRing _ hnone).1 (h.fits.deleteRing _ hnone).2) (by rfl) _ _
    · exact hrefused _ _
  case extension => exact h

/-! ### The clock -/

theorem linesAtTick (l : List Nat) : (s.linesAtTick l).CapacityLaw := by
  rw [State.linesAtTick_eq]
  exact h.congr rfl rfl rfl rfl

theorem switchAtTick : s.switchAtTick.CapacityLaw := by
  have hring : ∀ {p}, s.tb.pendingSwitch = some p → s.tb.switchRing = some p.ack.bound := fun e => by
    rw [TimeBase.switchRing, e]; rfl
  unfold State.switchAtTick
  split
  · exact h
  · rename_i p hp
    split
    · exact h.endSwitch (hring hp) (by rfl) (by rfl) _ _
    · split
      · exact h.endSwitch (hring hp) (by rfl) (by rfl) _ _
      · exact h.setTb (by rfl) (hring hp).symm

theorem alignAtTick : s.alignAtTick.CapacityLaw := by
  unfold State.alignAtTick
  split
  · exact h
  · rename_i p hp
    split
    · exact h.endStep (by rw [TimeBase.stepRing, hp]; rfl) (by rfl) (by rfl) _ _
    · exact h

theorem ringsAtTick : s.ringsAtTick.CapacityLaw := by
  have hring : ∀ mt (l : List Nat) (r : ReportUnit), ∀ k, ∃ a b c, (l.foldl (fun r n => r.ringAtTick mt n) r).ring k =
      { r.ring k with refs := a, unsignalled := b, oldest := c } := by
    intro mt l
    induction l with
    | nil => exact fun r k => ⟨_, _, _, rfl⟩
    | cons n l ih =>
      intro r k
      obtain ⟨a, b, c, e⟩ := ih (r.ringAtTick mt n) k
      rw [ReportUnit.ringAtTick_ring] at e
      refine ⟨a, b, c, e.trans ?_⟩
      split <;> rfl
  have hhold : ∀ mt (l : List Nat) (r : ReportUnit), (l.foldl (fun r n => r.ringAtTick mt n) r).hold = r.hold := by
    intro mt l
    induction l with
    | nil => exact fun r => rfl
    | cons n l ih => exact fun r => (ih _).trans (ReportUnit.ringAtTick_rest r mt n).1
  refine h.setReport (h.fits.congr (hring _ _ _) (hhold _ _ _)) fun k => ?_
  obtain ⟨a, b, c, e⟩ := hring s.tb.mt (List.range Config.numRings) s.report k
  rw [e]

theorem tick (b : Bool) : (s.tick b).CapacityLaw := by
  have hmid : (s.midTick b).CapacityLaw := by
    have hadvance : (s.setTb s.tb.advance).CapacityLaw := h.setTb rfl rfl
    cases b
    · exact hadvance.switchAtTick.alignAtTick
    · exact hadvance.alignAtTick.switchAtTick
  rw [State.tick_eq]
  have hcount := hmid.setTb (x := (s.midTick b).tb.newCount) rfl rfl
  exact (hcount.linesAtTick _).ringsAtTick.offer

theorem timeMark (b : Bool) : (s.timeMark b).CapacityLaw := by
  unfold State.timeMark
  split
  · exact h.take _ _
  · exact h

theorem applyPending {p : PendingStep} (hp : s.tb.pendingStep = some p) : (s.applyPending p).CapacityLaw := by
  have hring : s.tb.stepRing = some p.ack.bound := by rw [TimeBase.stepRing, hp]; rfl
  have hended := fun res => h.endStep hring (x := { s.tb with pendingStep := none }) rfl rfl .ok res
  have htb : ∀ t : TimeBase, (t.stepped p.mode p.value).stepRing = t.stepRing ∧
    (t.stepped p.mode p.value).switchRing = t.switchRing := by
    intro t
    cases p.mode <;> exact ⟨rfl, rfl⟩
  exact (hended _).congr rfl rfl (htb _).1 (htb _).2

/-! ### The intake -/

theorem beginTake (hr : s.posting.inProgress = none) {n : Nat} {x : ReportUnit}
    (hx : s.report.reserve (s.posting.ring n).bound = some x) : (s.beginTake n x).CapacityLaw := by
  rw [State.capacityLaw_iff] at h ⊢
  obtain ⟨hfits, hpromises, hown⟩ := h
  obtain ⟨hfits', hreserved⟩ := hfits.reserve _ hx
  refine ⟨hfits', fun k => (hreserved k).trans ?_, hown.ringZero, fun r e hzero => ?_, fun r w op e hstage => ?_, hown.step,
    hown.switch⟩
  · rw [hpromises, State.recordRing, hr]
    show _ = owes (some (s.posting.ring n).bound) k + owes s.tb.stepRing k + owes s.tb.switchRing k
    rw [Option.map_none, owes_none, owes_some]
    simp only [eq_comm (a := k)]
    omega
  · cases e
    change n = 0 at hzero
    show (s.posting.ring n).bound = 0
    rw [hzero]
    exact hown.ringZero
  · cases e
    cases hstage

theorem noteTake {n : Nat} {x : PostRing} (hx : x.bound = (s.posting.ring n).bound) (b : Bool) :
    (s.setPosting ((s.posting.setRing n x).noteTake n b)).CapacityLaw := by
  refine h.setPosting ?_ ?_
  · rw [PostingUnit.ring_noteTake, PostingUnit.ring_setRing]
    split
    · next e => rw [e, hx]
    · rfl
  · exact PostingUnit.noteTake_record _ _ _

omit h in
/-- A request that passes the intake's checks and is not a timer request was taken from ring 0 (R138). -/
theorem ring_zero_of_intakeCheck {ring : Nat} {w : PostSlot} {o : Option PostSlot} {op : Opcode}
    (hok : intakeCheck ring w o = .ok)
    (hop : PostSlot.opcode w = some op) (htimer : op.isTimer = false) : ring = 0 := by
  simp only [intakeCheck, hop] at hok
  split_ifs at hok with h1 h2 h3
  by_contra hne
  exact h3 ⟨by simp [Opcode.isAdministration, htimer, h1], hne⟩

theorem decodeRecord {r : IntakeRecord} (hr : s.posting.inProgress = some r) (w : PostSlot) (o : Option PostSlot) :
    (s.decodeRecord r w o).CapacityLaw := by
  have hnoted := h.noteTake (n := r.ring) (x := { s.posting.ring r.ring with
    head := ((s.posting.ring r.ring).head + if o.isSome then 2 else 1) % (s.posting.ring r.ring).size, headNeed := 1 }) rfl
    r.normalEligible
  unfold State.decodeRecord
  dsimp only
  split
  · rename_i hok
    refine hnoted.setRecord (r := r) ((PostingUnit.noteTake_record _ _ _).trans hr) rfl rfl fun w' op _ hw hop htimer => ?_
    cases hw
    exact ring_zero_of_intakeCheck hok hop htimer
  · refine hnoted.answer ?_ w _ _
    rw [State.recordRing, State.setPosting_posting, PostingUnit.noteTake_record]
    show s.posting.inProgress.map _ = _
    rw [hr]
    rfl

theorem withdraw {r : IntakeRecord} (hr : s.posting.inProgress = some r) : (s.withdraw r).CapacityLaw := by
  have hring := h.setPostRing (n := r.ring) (x := { s.posting.ring r.ring with headNeed := 2 }) (.inl rfl)
  have hrec : s.recordRing = some r.bound := by rw [State.recordRing, hr]; rfl
  rw [State.capacityLaw_iff] at h hring ⊢
  obtain ⟨hfits, hpromises, hown⟩ := h
  have hone : 1 ≤ (s.report.ring r.bound).reserved := by
    rw [hpromises, hrec, owes_some, if_pos rfl]
    omega
  obtain ⟨hfits', hreserved⟩ := hfits.handBack r.bound s.tb.mt hone
  refine ⟨hfits', fun n => (hreserved n).trans ?_, hring.2.2.ringZero, fun _ e => (nomatch e), fun _ _ _ e => (nomatch e),
    hown.step,
    hown.switch⟩
  rw [hpromises, hrec, owes_some]
  show _ = owes none n + owes s.tb.stepRing n + owes s.tb.switchRing n
  rw [owes_none]
  simp only [eq_comm (a := n)]
  omega

theorem fetchError {r : IntakeRecord} (hr : s.posting.inProgress = some r) : (s.fetchError r).CapacityLaw := by
  have hnoted := h.noteTake (n := r.ring) (x := { s.posting.ring r.ring with state := .stalled }) rfl r.normalEligible
  have hstall : (s.stallRing r).CapacityLaw := by
    refine hnoted.ackRecord ?_ _ _
    rw [State.recordRing, State.setPosting_posting, PostingUnit.noteTake_record]
    show s.posting.inProgress.map _ = _
    rw [hr]
    rfl
  rw [State.fetchError_eq]
  split
  · exact hstall.setWindow _
  · exact hstall

theorem firstSlotRead {r : IntakeRecord} (hr : s.posting.inProgress = some r) (hstage : r.stage = .fetching) (w : PostSlot) :
    (s.firstSlotRead r w).CapacityLaw := by
  unfold State.firstSlotRead
  split
  · exact h.decodeRecord hr w none
  · split
    · refine h.setRecord hr rfl rfl fun _ _ e => ?_
      exact absurd (hstage.symm.trans e) (by decide)
    · exact h.withdraw hr

/-! ### Doorbells and writes -/

theorem consumerDoorbell (n : BitVec 4) (v : BitVec 16) : (s.consumerDoorbell n v).CapacityLaw := by
  unfold State.consumerDoorbell
  dsimp only
  split
  · rename_i haccepts
    obtain ⟨hnearly, hfits, hreserved⟩ := h.fits.consume n.toNat haccepts
    split
    · rename_i hzero
      exact h.setReport (hfits hzero) hreserved
    · exact h.setReport (hnearly.returnSpace _).1 fun k => ((hnearly.returnSpace _).2 k).trans (hreserved k)
  · exact h.setWindow _

theorem ringWriteAnswered {n : Nat} {w : PortWrite} (hw : (s.report.ring n).inFlight = some w)
    (hrun : (s.report.ring n).running = true)
    (a : WriteAnswer) : (s.ringWriteAnswered n w a).CapacityLaw := by
  have hqueue : (s.report.ring n).queue ≠ [] := fun e => by simp [ReportRing.inFlight, e] at hw
  have hmem := h.setMem (Memory.settle w a s.mem)
  obtain ⟨hfault, hfaultReserved⟩ := h.fits.faultRing n hrun
  have hfaulted := hmem.setReport hfault hfaultReserved
  cases a with
  | ok => exact hmem.setReport (h.fits.written n _ hqueue hrun).1 (h.fits.written n _ hqueue hrun).2
  | error l =>
    show State.CapacityLaw (if n = 0 then _ else _)
    split
    · exact hfaulted.setWindow _
    · exact hfaulted.take _ _

end State.CapacityLaw

theorem clockKeeps_capacityLaw : ClockKeeps State.CapacityLaw where
  countGap _ h := h.setTb rfl rfl
  edge _ h := h.setTb rfl rfl
  countEdge s h _ := h.setTb rfl (by cases e : s.tb.pendingSwitch <;> simp [TimeBase.switchRing, e, PendingSwitch.countEdge])
  restart s h _ := h.setTb rfl (by cases e : s.tb.pendingSwitch <;> simp [TimeBase.switchRing, e, PendingSwitch.restart])
  count _ h _ := h.setTb rfl rfl
  tick _ b h := h.tick b
  fallBack s h _ :=
    have hfallback : (s.setTb (TimeBase.newCount { s.tb with source := .fallback })).CapacityLaw := h.setTb rfl rfl
    hfallback.take _ _

/-- Blocks in their reset state meet the law. -/
theorem State.Quiet.capacityLaw {s : State} (h : s.Quiet) : s.CapacityLaw := by
  have hstep : s.tb.stepRing = none := by rw [TimeBase.stepRing, h.step]; rfl
  have hswitch : s.tb.switchRing = none := by rw [TimeBase.switchRing, h.switch]; rfl
  rw [State.capacityLaw_iff]
  refine ⟨by rw [h.report]; exact ReportUnit.fits_reset, fun n => ?_, by rw [h.posting]; rfl, fun r hr => ?_, fun r w op hr => ?_,
    fun a e => (nomatch hstep.symm.trans e), fun a e => (nomatch hswitch.symm.trans e)⟩
  · rw [hstep, hswitch, State.recordRing, h.posting, h.report]
    rfl
  · rw [h.posting] at hr
    cases hr
  · rw [h.posting] at hr
    cases hr

/-- The enabling makes report ring 0 with all its space free. -/
theorem State.Quiet.capacityLaw_enabled {s : State} (h : s.Quiet) (hpasses : s.window.enablePasses = true) :
    s.enabled.CapacityLaw := by
  have hsize : 4 ≤ s.window.adminReportSize.toNat := by
    simp only [Window.enablePasses, Bool.and_eq_true, decide_eq_true_eq] at hpasses
    exact hpasses.1.2
  have hset := ((h.capacityLaw).setWindow { s.window with enabled := true, adminFault := s.window.faultAfterEnable }).setPostRing
    (n := 0) (x := s.window.postRing0) (.inl (by rw [State.setWindow_posting, h.posting]; rfl))
  refine hset.setReport ?_ fun k => ?_
  · refine h.capacityLaw.fits.setRing (ReportRing.fits_fresh _ hsize _ _ _ _) fun hrun => ?_
    rw [h.report] at hrun
    cases hrun
  · show ((s.report.setRing 0 s.window.reportRing0).ring k).reserved = (s.report.ring k).reserved
    rw [ReportUnit.ring_setRing, h.report]
    split <;> rfl

theorem exec_capacityLaw {c : Instr} {s t : State} (hlawful : s.tb.Lawful) (hwindow : s.WindowLaw) (hidle : s.IdleLaw)
    (h : s.CapacityLaw) (he : exec c s = .next t) : t.CapacityLaw := by
  have hend := h.afterReset
  rw [State.idleLaw_iff] at hidle
  have hite : ∀ {P : Prop} [Decidable P] {a b : State}, a.CapacityLaw → b.CapacityLaw →
    State.CapacityLaw (if P then a else b) := by
    intro P _ a b ha hb
    split
    · exact ha
    · exact hb
  cases hc : requestOpcode c with
  | some op =>
    rcases exec_request hc s with ⟨r, w, hown, e⟩ | ⟨-, e⟩ <;> cases e.symm.trans he
    · exact h.takeRequest hlawful hown
    · exact hend
  | none =>
    by_cases hk : isClockCommand c = true
    · exact clockKeeps_capacityLaw.exec hk hend he
    by_cases hr : isResetCommand c = true
    · exact (exec_reset_cases hr he).elim (fun hf => h.of_onlyIn hf.1 (by simp)) (fun hreset => hreset.quiet.capacityLaw)
    by_cases hp : ∀ p ∈ [Part.tb, .report, .posting], p ∉ commandParts c
    · exact (exec_frame he).elim (fun hf => h.of_onlyIn hf hp) (fun hf => hend.of_onlyIn hf hp)
    cases c <;> simp [commandParts] at hp <;> simp [requestOpcode, isClockCommand, isResetCommand] at hc hk hr
    case intakeChoice =>
      cases he
      split
      · split
        · exact h.beginTake ‹_› ‹_›
        · exact h
      · exact hend
    case intakeReadAnswer a =>
      cases he
      split
      · exact hend
      · rename_i r hr'
        split
        · exact h
        · rename_i hstage
          rw [ne_eq, not_not] at hstage
          cases a with
          | error => exact h.fetchError hr'
          | ok w =>
            cases hslot : r.slot1 with
            | none => exact h.firstSlotRead hr' hstage w
            | some v => exact h.decodeRecord hr' v (some w)
    case postingTailDoorbell n v =>
      cases he
      exact hite (hite (hend.setWindow _) (hite (hend.setPostRing (.inl rfl)) (hend.setWindow _))) hend
    case reportConsumerDoorbell n v =>
      cases he
      exact hite (hite (hend.setWindow _) (hend.consumerDoorbell n v)) hend
    case enable =>
      cases he
      split
      · rename_i hoff
        split
        · exact (hidle (State.afterReset_enabled.symm.trans hoff.2)).afterReset.capacityLaw_enabled ‹_›
        · exact hend.setWindow _
      · exact hend
    case intrPendingClear v =>
      cases he
      exact hite (hend.setReport ⟨hend.fits.ring, hend.fits.hold, hend.fits.held⟩ fun _ => rfl) hend
    case alignEdge =>
      cases he
      refine hite ?_ hend
      split
      · exact (hend.applyPending ‹_›).timeMark true
      · exact hend.timeMark false
    case completionReturn =>
      cases he
      split
      · exact hend
      · rename_i cs _
        have hpopped := h.setEngine { s.engine with returns := cs }
        exact hite (hpopped.takeReturn _) hpopped
    case reportWriteAnswer x a =>
      cases he
      cases x with
      | ring n =>
        dsimp only
        split
        · split
          · exact h.ringWriteAnswered ‹_› ‹_› a
          · exact h
        · exact hend
      | deleted k =>
        dsimp only
        split
        · exact (h.setMem _).setReport ⟨h.fits.ring, h.fits.hold, h.fits.held⟩ fun _ => rfl
        · exact hend
    case keepAliveSupplyLoss =>
      cases he
      split
      · exact hend.congr rfl rfl rfl rfl
      · rename_i hmain
        have hpower : s.inputs.mainSupply = false := by
          rw [← State.afterReset_inputs]
          exact Bool.eq_false_of_not_eq_true hmain
        have hoff : s.window.enabled = false := by
          by_contra hon
          exact absurd ((hwindow.enabled (Bool.eq_true_of_not_eq_false hon)).symm.trans (hwindow.unpowered hpower).1) (by decide)
        have hquiet := (hidle hoff).afterReset
        exact hend.congr rfl rfl (by rw [TimeBase.stepRing, TimeBase.stepRing, hquiet.step]; rfl)
          (by rw [TimeBase.switchRing, TimeBase.switchRing, hquiet.switch]; rfl)

/-- Settles O12: a reservation is granted in a free slot, and each is used by the acknowledgment it was promised to. -/
theorem stepsKeepReportRingsWithinCapacity : Obligations.StepsKeepReportRingsWithinCapacity := by
  intro s t hlawful hwindow hidle h hstep
  rcases step_cases hstep with ⟨-, rfl⟩ | ⟨c, rest, -, he⟩
  · exact clockKeeps_capacityLaw.idle h.afterReset h
  · exact exec_capacityLaw (s := s.setPending rest) hlawful
      ⟨hwindow.enabled, hwindow.unpowered, hwindow.powered, hwindow.cold, hwindow.awaited⟩
      ⟨hidle.store, hidle.disp, hidle.engine, hidle.regions, hidle.posting, hidle.report, hidle.lines, hidle.deferred⟩
      (h.congr rfl rfl rfl rfl) he

end Sys2Proof.Machine
end

section
/-!
SUPPORT. O1, O27 to O30, O32, O33: what the oscillator's periods and REFCLK's edges come to, as the statements say it.
-/
namespace Sys2Proof.Machine
variable {s t : State}

/-! ### The driving source -/

theorem State.oscillatorCounts_iff : s.oscillatorCounts = true ↔ OscillatorCounts s := by
  simp [State.oscillatorCounts, Inputs.domainPowered, Window.coldInProgress, imp_iff_not_or]

/-- The end of a reset stops no oscillator. -/
theorem State.afterReset_oscillatorCounts (h : OscillatorCounts s) : s.afterReset.oscillatorCounts = true := by
  obtain ⟨hpower, hcold⟩ := h
  by_cases he : ResetAboutToEnd s
  · rw [State.afterReset_ended he, State.oscillatorCounts_iff]
    exact ⟨hpower, fun hc => nomatch hc.1⟩
  · rw [State.afterReset_same he, State.oscillatorCounts_iff]
    exact ⟨hpower, hcold⟩

theorem State.tickDue_iff : s.tickDue = true ↔ TickIsDue s := by
  by_cases h : s.tb.source = .external <;> simp [State.tickDue, TickIsDue, h, State.oscillatorCounts_iff]

/-- A due tick is due once a reset about to end has ended. -/
theorem State.afterReset_tickDue (h : TickIsDue s) : s.afterReset.tickDue = true := by
  obtain ⟨hcount, hsource⟩ := h
  rw [State.tickDue, Bool.and_eq_true]
  refine ⟨by rw [State.afterReset_tb]; exact decide_eq_true hcount, ?_⟩
  rw [State.afterReset_tb]
  by_cases he : s.tb.source = .external
  · rw [if_pos he] at hsource ⊢
    rw [State.afterReset_inputs]
    exact hsource
  · rw [if_neg he] at hsource ⊢
    exact State.afterReset_oscillatorCounts hsource

/-- The controller, its reset ended, with the gap detector's count at `g`: where a tick begins. -/
def State.atGapCount (s : State) (g : Nat) : State := s.afterReset.setTb { s.tb with gapCount := g }

/-- The count that one more period makes of the gap detector's (R84). -/
theorem min_gapPeriods (g : Nat) : min (g + 1) Config.gapPeriods = if g < 64 then g + 1 else 64 := by
  rw [Config.gapPeriods]
  split <;> omega

/-- A due tick of the command that completes it: by an edge of REFCLK, or by a period, which may complete a gap too. -/
theorem State.completeTick_eq (h : TickIsDue s) (b : Bool) : s.afterReset.completeTick b =
    if s.tb.source = .external then (s.atGapCount 0).tick b
    else if s.tb.gapCount = 63 then ((s.atGapCount 64).tick b).gap
    else (s.atGapCount (min (s.tb.gapCount + 1) 64)).tick b := by
  have hdue : ∀ g, (s.atGapCount g).prescale b = (s.atGapCount g).tick b := fun g => State.prescale_ticks _ b h.1
  obtain ⟨-, hsource⟩ := h
  rw [State.completeTick, State.afterReset_tb]
  by_cases he : s.tb.source = .external
  · rw [if_pos he] at hsource
    have hedge : s.afterReset.setTb { s.afterReset.tb with gapCount := 0 } = s.atGapCount 0 := by
      rw [State.afterReset_tb]
      rfl
    have he0 : (s.atGapCount 0).tb.source = .external := he
    rw [if_pos he, if_pos he, ← hdue, State.refclkEdge, State.afterReset_inputs, if_pos hsource, hedge]
    simp only [he0]
  · rw [if_neg he] at hsource
    have hcount : s.afterReset.setTb s.afterReset.tb.countGap = s.atGapCount (min (s.tb.gapCount + 1) 64) := by
      rw [State.afterReset_tb]
      rfl
    rw [if_neg he, if_neg he, ← hdue, ← hdue, State.oscillatorPeriod, if_pos (State.afterReset_oscillatorCounts hsource), hcount]
    by_cases hg : s.tb.gapCount = 63
    · simp [hg, he, Config.gapPeriods]
    · simp [hg, he, Config.gapPeriods]

/-! ### A tick's effect -/

/-- A tick does what every tick does, whatever the gap detector's count and the pending switch before it. -/
theorem State.tick_ticked (g : Nat) (sw : Option PendingSwitch) (b : Bool) :
    Ticked s ((s.afterReset.setTb { s.tb with gapCount := g, pendingSwitch := sw }).tick b) := by
  have hline : ∀ n, (s.afterReset.setTb { s.tb with gapCount := g, pendingSwitch := sw }).line n = s.line n :=
    fun n => State.line_congr s.afterReset_lines n
  rw [Ticked, State.tick_tb]
  refine ⟨rfl, TimeBase.advance_pt { s.tb with gapCount := g, pendingSwitch := sw }, rfl, rfl, rfl, rfl, rfl, rfl, rfl,
    fun n => ?_,
    State.tick_reoffered _ b, ?_⟩
  · rw [State.tick_line, hline]
    rfl
  · rw [← State.afterReset_eq]
    exact ((s.afterReset.setTb_onlyIn _).mono (by simp)).trans (State.tick_onlyIn _ b)

theorem State.gap_line (t : State) (n : Nat) : t.gap.line n = t.line n :=
  State.line_congr (t.gap_onlyIn.lines_eq (by simp)) n

/-- A gap after a tick, on the same period, leaves what the tick did. -/
theorem Ticked.gap (h : Ticked s t) : Ticked s t.gap := by
  obtain ⟨hmt, hpt, hpos, hpre, hdiv, htrim, hmarks, hint, hext, hlines, hoffer, honly⟩ := h
  have hgap : t.gap.tb.mt = t.tb.mt ∧ t.gap.tb.offset = t.tb.offset ∧ t.gap.tb.windowPos = t.tb.windowPos ∧
      t.gap.tb.prescaler = 0 ∧
      t.gap.tb.divInUse = (if t.gap.tb.source = .external then s.tb.extDivisor else s.tb.intDivisor) ∧
      t.gap.tb.trim = t.tb.trim ∧ t.gap.tb.marks = t.tb.marks ∧ t.gap.tb.intDivisor = t.tb.intDivisor ∧
      t.gap.tb.extDivisor = t.tb.extDivisor := by
    unfold State.gap
    split
    · exact ⟨rfl, rfl, rfl, hpre, hdiv, rfl, rfl, rfl, rfl⟩
    · exact ⟨rfl, rfl, rfl, rfl, hint, rfl, rfl, rfl, rfl⟩
    · exact ⟨rfl, rfl, rfl, hpre, hdiv, rfl, rfl, rfl, rfl⟩
    · exact ⟨rfl, rfl, rfl, hpre, hdiv, rfl, rfl, rfl, rfl⟩
  obtain ⟨gmt, goffset, gpos, gpre, gdiv, gtrim, gmarks, gint, gext⟩ := hgap
  have gpt : t.gap.tb.pt = t.tb.pt := by rw [TimeBase.pt, TimeBase.pt, gmt, goffset]
  refine ⟨gmt.trans hmt, gpt.trans hpt, gpos.trans hpos, gpre, gdiv, gtrim.trans htrim, gmarks.trans hmarks,
    gint.trans hint, gext.trans hext, fun n => (t.gap_line n).trans (hlines n), ?_, honly.trans (t.gap_onlyIn.mono (by simp))⟩
  exact hoffer.congr (fun sc => TimeBase.now_congr gmt goffset sc) (t.gap_onlyIn.store_eq (by simp))
    (t.gap_onlyIn.regions_eq (by simp)) (t.gap_onlyIn.disp_eq (by simp))

/-- The command that completes a due tick does what every tick does. -/
theorem State.completeTick_ticked (h : TickIsDue s) (b : Bool) : Ticked s (s.afterReset.completeTick b) := by
  rw [State.completeTick_eq h]
  split
  · exact State.tick_ticked 0 _ b
  · split
    · exact (State.tick_ticked 64 _ b).gap
    · exact State.tick_ticked _ _ b

/-! ### What the middle of a tick leaves to the whole -/

theorem State.tick_source (b : Bool) : (s.tick b).tb.source = (s.midTick b).tb.source := by rw [State.tick_tb]
theorem State.tick_pendingStep (b : Bool) : (s.tick b).tb.pendingStep = (s.midTick b).tb.pendingStep := by rw [State.tick_tb]
theorem State.tick_pendingSwitch (b : Bool) : (s.tick b).tb.pendingSwitch = (s.midTick b).tb.pendingSwitch := by
  rw [State.tick_tb]
theorem State.tick_divInUse (b : Bool) : (s.tick b).tb.divInUse =
    if (s.midTick b).tb.source = .external then s.tb.extDivisor else s.tb.intDivisor := by rw [State.tick_tb]
theorem State.tick_pt (b : Bool) : (s.tick b).tb.pt = s.tb.advance.pt := by
  rw [State.tick_tb]
  rfl

/-- A Report Unit after the rings' part in a tick: only signals. -/
theorem State.tick_onlySignals (b : Bool) : OnlySignals (s.midTick b).report (s.tick b).report := by
  obtain ⟨hring, hhold, hdeleted, -⟩ := s.tick_report b
  refine ⟨fun k => ?_, hhold, hdeleted⟩
  rw [hring]
  split <;> rfl

/-- The tick's signals after an acknowledgment. -/
theorem AckAdded.atTick {n : Nat} {x : Report} {a b c : ReportUnit} (h : AckAdded n x a b) (hrefs : SameRingRefs a b)
    (hsignals : OnlySignals b c) : AckAddedAtTick n x a c := by
  obtain ⟨hring, hhold, hdeleted, -⟩ := h
  obtain ⟨sring, shold, sdeleted⟩ := hsignals
  refine ⟨fun k => ?_, shold.trans hhold, sdeleted.trans hdeleted⟩
  rw [sring, hring, hrefs]

/-- A state differs from another in the pending switch alone, and has none where that has none. -/
def SwitchOnly (t u : State) : Prop :=
  ∃ sw, u = t.setTb { t.tb with pendingSwitch := sw } ∧ (t.tb.pendingSwitch = none → sw = none)

namespace SwitchOnly

theorem refl (t : State) : SwitchOnly t t := ⟨t.tb.pendingSwitch, rfl, id⟩

variable {u : State} (h : SwitchOnly t u)
include h

theorem report : u.report = t.report := by
  obtain ⟨sw, rfl, -⟩ := h
  exact State.setTb_report _ _

theorem source : u.tb.source = t.tb.source := by
  obtain ⟨sw, rfl, -⟩ := h
  rw [State.setTb_tb]

theorem pendingStep : u.tb.pendingStep = t.tb.pendingStep := by
  obtain ⟨sw, rfl, -⟩ := h
  rw [State.setTb_tb]

theorem pt : u.tb.pt = t.tb.pt := by
  obtain ⟨sw, rfl, -⟩ := h
  rw [State.setTb_tb]
  rfl

theorem no_switch (hn : t.tb.pendingSwitch = none) : u.tb.pendingSwitch = none := by
  obtain ⟨sw, rfl, hsw⟩ := h
  rw [State.setTb_tb]
  exact hsw hn

end SwitchOnly

/-- A gap in a state that REFCLK does not drive reports nothing and keeps the source. -/
theorem State.gap_of_internal (h : t.tb.source ≠ .external) : SwitchOnly t t.gap := by
  unfold State.gap
  split
  · exact ⟨_, rfl, fun hn => by rw [hn, Option.map_none]⟩
  · exact absurd ‹_› h
  · exact SwitchOnly.refl t
  · exact SwitchOnly.refl t

/-- A due tick that leaves the source as it was: the gap that may fall on the same period restarts the switch's count of edges
and does no more. -/
theorem State.completeTick_kept (h : TickIsDue s) {b : Bool}
    (hkept : ∀ g, ((s.atGapCount g).midTick b).tb.source = s.tb.source) :
    ∃ g, SwitchOnly ((s.atGapCount g).tick b) (s.afterReset.completeTick b) := by
  rw [State.completeTick_eq h]
  split
  · exact ⟨0, SwitchOnly.refl _⟩
  · rename_i he
    split
    · have hne : ((s.atGapCount 64).tick b).tb.source ≠ .external := by
        rw [State.tick_source]
        exact fun e => he ((hkept 64).symm.trans e)
      exact ⟨64, State.gap_of_internal hne⟩
    · exact ⟨_, SwitchOnly.refl _⟩

end Sys2Proof.Machine
end

section
/-!
SUPPORT. O1, O27 to O33: the clock's commands.
-/
namespace Sys2Proof.Machine
variable {s t : State}

/-! ### The middle of a tick, by what is pending -/

/-- With no step expiring, the middle of a tick is the pending switch's part. -/
theorem State.midTick_stepWaits (h : StepWaits s) : s.midTick false = (s.setTb s.tb.advance).switchAtTick := by
  simp only [State.midTick, Bool.false_eq_true, if_false]
  refine State.alignAtTick_waits _ fun p hp => ?_
  rw [State.switchAtTick_eq] at hp ⊢
  exact h p hp

/-- An acknowledgment handed in by the middle of a tick. -/
theorem State.tick_acked {m : State} {b : Bool} {a : AckHead} {st : Status} {res : AckResults}
    (hmid : s.midTick b = m.handIn a st res) {r : ReportUnit} (hm : m.report = r) :
    AckAddedAtTick a.bound (.ack a st res) r (s.tick b).report := by
  have hsignals := s.tick_onlySignals b
  rw [hmid, State.handIn, State.setReport_report, hm] at hsignals
  obtain ⟨hadded, hrefs⟩ := r.handIn_added (n := a.bound) (.ack a st res)
  exact hadded.atTick hrefs hsignals

/-- A pending switch that waits at a tick reports nothing. -/
theorem State.switchAtTick_waits (h : SwitchWaits s) : SwitchOnly s s.switchAtTick := by
  cases hp : s.tb.pendingSwitch with
  | none =>
    rw [s.switchAtTick_none hp]
    exact SwitchOnly.refl s
  | some p =>
    obtain ⟨hedges, hticks⟩ := h p hp
    rw [s.switchAtTick_counted hp hedges hticks]
    exact ⟨_, rfl, fun hn => nomatch hn.symm.trans hp⟩

/-- With nothing pending, a tick's command reports only signals and leaves nothing pending. -/
theorem State.completeTick_alone (h : TickIsDue s) (hstep : s.tb.pendingStep = none) (hswitch : s.tb.pendingSwitch = none)
    (b : Bool) :
    ∃ g, (s.atGapCount g).midTick b = (s.atGapCount g).setTb (s.atGapCount g).tb.advance ∧
      (s.afterReset.completeTick b).report = ((s.atGapCount g).tick b).report ∧
      (s.afterReset.completeTick b).tb.source = s.tb.source ∧ (s.afterReset.completeTick b).tb.pendingStep = none ∧
      (s.afterReset.completeTick b).tb.pendingSwitch = none := by
  have hmid : ∀ g, (s.atGapCount g).midTick b = (s.atGapCount g).setTb (s.atGapCount g).tb.advance :=
    fun g => State.midTick_alone (s := s.atGapCount g) hstep hswitch b
  obtain ⟨g, honly⟩ := State.completeTick_kept (b := b) h fun g => by
    rw [hmid]
    rfl
  refine ⟨g, hmid g, honly.report, ?_, ?_, honly.no_switch ?_⟩
  · rw [honly.source, State.tick_source, hmid, State.setTb_tb, TimeBase.advance_source]
    rfl
  · rw [honly.pendingStep, State.tick_pendingStep, hmid, State.setTb_tb, TimeBase.advance_pendingStep]
    exact hstep
  · rw [State.tick_pendingSwitch, hmid, State.setTb_tb, TimeBase.advance_pendingSwitch]
    exact hswitch

/-! ### The ticks -/

theorem exec_tick_due (h : TickIsDue s) : exec .tick s = .next (s.afterReset.completeTick false) :=
  congrArg Host.Outcome.next (if_pos (State.afterReset_tickDue h))

/-- Settles O27: the command of a due tick is a period or edge that ticks; with nothing pending its report is only signals. -/
theorem tickAdvancesMonotonicTimeByOne : Obligations.TickAdvancesMonotonicTimeByOne := by
  refine ⟨fun s h => ⟨_, exec_tick_due h, State.completeTick_ticked h false, fun hstep hswitch => ?_⟩, fun s hcold hend he => ?_⟩
  · obtain ⟨g, hmid, hreport, hkept⟩ := State.completeTick_alone h hstep hswitch false
    have hsignals := (s.atGapCount g).tick_onlySignals false
    rw [hmid, State.setTb_report, State.atGapCount, State.setTb_report, State.afterReset_report] at hsignals
    rw [hreport]
    exact ⟨hsignals, hkept⟩
  · have hno : s.tickDue = false := Bool.eq_false_iff.2 fun hdue => by
      obtain ⟨-, hcounts⟩ := State.tickDue_iff.1 hdue
      rw [if_neg he] at hcounts
      exact hcounts.2 hcold
    change Host.Outcome.next (if s.afterReset.tickDue then _ else _) = _
    rw [State.afterReset_same hend, hno, if_neg Bool.false_ne_true]

/-- A due tick of a qualifying source on whose period no gap falls is one tick. -/
theorem State.completeTick_qualifying (h : TickIsDue s) (hq : s.tb.source = .qualifying) (hg : s.tb.gapCount ≠ 63) (b : Bool) :
    ∃ g, s.afterReset.completeTick b = (s.atGapCount g).tick b := by
  rw [State.completeTick_eq h, if_neg (by rw [hq]; decide), if_neg hg]
  exact ⟨_, rfl⟩

/-- Settles O29: the middle of the tick is the pending switch's part, which makes it or ends it. -/
theorem switchIsMadeOrTimesOutAtATick : Obligations.SwitchIsMadeOrTimesOutAtATick := by
  intro s p hdue hwaits hq hgap hp
  obtain ⟨g, htick⟩ := State.completeTick_qualifying hdue hq hgap false
  have hticked := State.completeTick_ticked hdue false
  have hmid := State.midTick_stepWaits (s := s.atGapCount g) hwaits
  have hp' : ((s.atGapCount g).setTb (s.atGapCount g).tb.advance).tb.pendingSwitch = some p := hp
  have hpending : s.afterReset.tb.pendingSwitch = some p := by rw [State.afterReset_tb]; exact hp
  have hreport : (s.atGapCount g).report = s.report := s.afterReset_report
  rw [htick] at hticked
  refine ⟨fun hedges => ?_, fun hedges hticks => ?_⟩
  · rw [State.switchAtTick_made _ hp' (Nat.le_of_eq hedges.symm)] at hmid
    have hnext : s.afterReset.switchesNext = true := by
      rw [State.switchesNext, hpending]
      exact decide_eq_true (Nat.le_of_eq hedges.symm)
    refine ⟨_, congrArg Host.Outcome.next (if_pos ⟨State.afterReset_tickDue hdue, hnext⟩), ?_⟩
    rw [htick]
    refine ⟨hticked, by rw [State.tick_source, hmid]; rfl, by rw [State.tick_pendingSwitch, hmid]; rfl,
      by rw [State.tick_divInUse, hmid]; rfl, ?_⟩
    exact State.tick_acked hmid hreport
  · rw [State.switchAtTick_timedOut _ hp' hedges (by omega)] at hmid
    have hnext : s.afterReset.timesOutNext = true := by
      rw [State.timesOutNext, hpending]
      exact Bool.and_eq_true_iff.2 ⟨decide_eq_true hedges, decide_eq_true (Nat.le_of_eq (by rw [hticks]))⟩
    refine ⟨_, congrArg Host.Outcome.next (if_pos ⟨State.afterReset_tickDue hdue, hnext⟩), ?_⟩
    rw [htick]
    have hsource : ((s.atGapCount g).tick false).tb.source = p.returnState := by rw [State.tick_source, hmid]; rfl
    refine ⟨hticked, hsource, by rw [State.tick_pendingSwitch, hmid]; rfl, ?_⟩
    rw [hsource]
    exact State.tick_acked hmid hreport

/-- Settles O32: the middle of the tick ends the step, and the pending switch waits. -/
theorem pendingStepTimesOutAtItsExpiry : Obligations.PendingStepTimesOutAtItsExpiry := by
  intro s p hdue hwaits hp hexpiry
  have hpending : s.afterReset.tb.pendingStep = some p := by rw [State.afterReset_tb]; exact hp
  have hnext : s.afterReset.alignExpiresNext = true := by
    rw [State.alignExpiresNext, hpending]
    exact decide_eq_true (by rw [State.afterReset_tb, hexpiry])
  refine ⟨_, congrArg Host.Outcome.next (if_pos ⟨State.afterReset_tickDue hdue, hnext⟩), State.completeTick_ticked hdue true, ?_⟩
  have hmid : ∀ g, ∃ sw, (s.atGapCount g).midTick true =
      (((s.atGapCount g).setTb { (s.atGapCount g).tb.advance with pendingStep := none, pendingSwitch := sw }).handIn
        p.ack .alignTimeout (.step (s.atGapCount g).tb.advance.pt (s.atGapCount g).tb.advance.pt)) := by
    intro g
    have hp' : ((s.atGapCount g).setTb (s.atGapCount g).tb.advance).tb.pendingStep = some p := hp
    simp only [State.midTick, if_true]
    rw [State.alignAtTick_expired _ hp' hexpiry.symm]
    obtain ⟨sw, heq, -⟩ := State.switchAtTick_waits (s := (((s.atGapCount g).setTb (s.atGapCount g).tb.advance).setTb
      { (s.atGapCount g).tb.advance with pendingStep := none }).handIn p.ack .alignTimeout
        (.step (s.atGapCount g).tb.advance.pt (s.atGapCount g).tb.advance.pt)) hwaits
    exact ⟨sw, heq⟩
  obtain ⟨g, honly⟩ := State.completeTick_kept (b := true) hdue fun g => by
    obtain ⟨sw, h⟩ := hmid g
    rw [h]
    rfl
  obtain ⟨sw, hg⟩ := hmid g
  have hreport : (s.atGapCount g).report = s.report := s.afterReset_report
  refine ⟨by rw [honly.pendingStep, State.tick_pendingStep, hg]; rfl, ?_⟩
  rw [honly.report, honly.pt, State.tick_pt]
  exact State.tick_acked hg hreport

/-! ### Pulses and coalesce times -/

/-- A ring's coalesce time as the statements spell it (R170). -/
theorem ReportRing.timeReached_iff {x : ReportRing} {mt : U64} : x.timeReached mt = true ↔
    x.coalesceTime ≠ 0 ∧ 0 < x.unsignalled ∧ ∃ o, x.oldest = some o ∧ x.coalesceTime ≤ (mt - o).toNat := by
  unfold ReportRing.timeReached
  cases x.oldest <;> simp [and_assoc]

/-- Settles O33: each command is a whole tick, whose parts for lines and report rings are the laws of a tick. -/
theorem pulsesAndCoalesceTimesEndAtTheirTick : Obligations.PulsesAndCoalesceTimesEndAtTheirTick := by
  refine ⟨fun s n hn hdue hstate hend => ?_, fun s n hn hdue hstep hswitch => ?_⟩
  · have hline : s.afterReset.line n = s.line n := State.line_congr s.afterReset_lines n
    have hnext : s.afterReset.pulseEndsNext n = true := by
      rw [State.pulseEndsNext, hline, hstate, hend, State.afterReset_tb]
      simp [hn, Config.numLines]
    have hticked := State.completeTick_ticked hdue false
    refine ⟨_, congrArg Host.Outcome.next (if_pos ⟨State.afterReset_tickDue hdue, hnext⟩), hticked, ?_⟩
    obtain ⟨-, -, -, -, -, -, -, -, -, hlines, -⟩ := hticked
    rw [hlines, if_pos ⟨hn, hstate, hend⟩]
  · intro reached hreached
    have hiff : ∀ k, reached k ↔
        k < 9 ∧ (s.report.ring k).intEnable = true ∧ (s.report.ring k).timeReached (s.tb.mt + 1) = true := by
      intro k
      rw [ReportRing.timeReached_iff]
    have hnext : s.afterReset.coalescesNext n = true := by
      obtain ⟨-, henable, htime⟩ := (hiff n).1 hreached
      rw [State.coalescesNext, State.afterReset_report, State.afterReset_tb, henable, htime, Bool.and_true, Bool.and_true]
      exact decide_eq_true hn
    obtain ⟨g, hmid, hreport, -⟩ := State.completeTick_alone hdue hstep hswitch false
    have hmidReport : ((s.atGapCount g).midTick false).report = s.report := by rw [hmid]; exact s.afterReset_report
    obtain ⟨hring, hhold, hdeleted, hbits⟩ := (s.atGapCount g).tick_report false
    rw [hmidReport] at hring hhold hdeleted hbits
    have hmt : (s.atGapCount g).tb.mt = s.tb.mt := rfl
    rw [hmt] at hring hbits
    refine ⟨_, congrArg Host.Outcome.next (if_pos ⟨State.afterReset_tickDue hdue, hnext⟩),
      State.completeTick_ticked hdue false, ?_⟩
    rw [hreport]
    refine ⟨fun k hk => ?_, fun k hk => ?_, hhold, hdeleted⟩
    · have hk' := (hiff k).1 hk
      rw [hring, if_pos hk', hbits k hk'.1, decide_eq_true hk'.2, Bool.or_true]
      exact ⟨rfl, rfl⟩
    · have hk' := fun h => hk ((hiff k).2 h)
      rw [hring, if_neg hk']
      refine ⟨rfl, ?_⟩
      by_cases h9 : k < 9
      · rw [hbits k h9, decide_eq_false (fun h => hk' ⟨h9, h⟩), Bool.or_false]
      · rw [BitVec.getLsbD_of_ge _ _ (Nat.not_lt.1 h9), BitVec.getLsbD_of_ge _ _ (Nat.not_lt.1 h9)]

end Sys2Proof.Machine
end

section
/-!
SUPPORT. O28, O30, O31 and O1: edges of REFCLK and ALIGN, gaps, and the step of an empty queue.
-/
namespace Sys2Proof.Machine
variable {s t : State}

/-! ### Edges of REFCLK -/

theorem min_qualifyEdges (n : Nat) : min (n + 1) Config.qualifyEdges = if n < 1024 then n + 1 else 1024 := by
  rw [Config.qualifyEdges]
  split <;> omega

theorem PendingSwitch.countEdge_eq : PendingSwitch.countEdge =
    fun p => { p with edges := if p.edges < 1024 then p.edges + 1 else 1024 } := by
  funext p
  rw [PendingSwitch.countEdge, min_qualifyEdges]

/-- An edge, by the state of the source (R83 to R85). -/
theorem State.refclkEdge_eq (hmain : s.inputs.mainSupply = true) (b : Bool) : s.afterReset.refclkEdge b =
    match s.tb.source with
    | .qualifying => (s.atGapCount 0).setTb
        { (s.atGapCount 0).tb with pendingSwitch := s.tb.pendingSwitch.map PendingSwitch.countEdge }
    | .external => (s.atGapCount 0).prescale b
    | .internal | .fallback => s.atGapCount 0 := by
  have hedge : s.afterReset.setTb { s.afterReset.tb with gapCount := 0 } = s.atGapCount 0 := by
    rw [State.afterReset_tb]
    rfl
  rw [State.refclkEdge, State.afterReset_inputs, if_pos hmain, hedge]
  rfl

/-- A state of the clock's counts differs from that with the reset ended in the Time Base alone. -/
theorem State.setTb_onlyIn_ended (tb : TimeBase) : OnlyIn [.tb] (Ended s) (s.afterReset.setTb tb) := by
  rw [← State.afterReset_eq]
  exact State.setTb_onlyIn _ _

/-- An edge of REFCLK in QUALIFYING is counted, up to the 1024th (R85). -/
theorem State.refclkEdge_qualifying (hmain : s.inputs.mainSupply = true) (hq : s.tb.source = .qualifying) (b : Bool) :
    s.afterReset.refclkEdge b = s.afterReset.setTb { s.tb with
      gapCount := 0, pendingSwitch := s.tb.pendingSwitch.map PendingSwitch.countEdge } := by
  rw [State.refclkEdge_eq hmain, hq]
  rfl

/-- A tick leaves the gap detector's count. -/
theorem State.tick_gapCount (b : Bool) : (s.tick b).tb.gapCount = s.tb.gapCount := by
  rw [State.tick_tb]
  rfl

/-- Settles O28: by the state of the source; SOURCE_QUALIFIED is the edge after the 1023rd. -/
theorem refclkEdgesCountByTheSourceState : Obligations.RefclkEdgesCountByTheSourceState := by
  refine ⟨fun s hmain => ⟨s.afterReset.refclkEdge false, rfl, fun hidle => ?_, fun hq => ?_, fun he hcount => ?_,
    fun he hdue => ?_⟩,
    fun s p hmain hq hp hedges => ?_⟩
  · have heq : s.afterReset.refclkEdge false = s.atGapCount 0 := by
      rw [State.refclkEdge_eq hmain]
      obtain hsource | hsource := hidle <;> rw [hsource]
    rw [heq]
    exact ⟨rfl, State.setTb_onlyIn_ended _⟩
  · rw [State.refclkEdge_qualifying hmain hq, PendingSwitch.countEdge_eq]
    exact ⟨rfl, State.setTb_onlyIn_ended _⟩
  · rw [State.refclkEdge_eq hmain, he]
    change (State.prescale (s.atGapCount 0) false).tb = _ ∧ OnlyIn [.tb] (Ended s) (State.prescale (s.atGapCount 0) false)
    rw [(s.atGapCount 0).prescale_counts false hcount]
    exact ⟨rfl, State.setTb_onlyIn_ended _⟩
  · rw [State.refclkEdge_eq hmain, he]
    change Ticked s (State.prescale (s.atGapCount 0) false) ∧ (State.prescale (s.atGapCount 0) false).tb.gapCount = 0
    rw [(s.atGapCount 0).prescale_ticks false hdue, State.tick_gapCount]
    exact ⟨State.tick_ticked 0 _ false, rfl⟩
  · have hnext : s.afterReset.qualifiesNext = true := by
      rw [State.qualifiesNext, State.afterReset_tb, hq, hp]
      simp [hedges, Config.qualifyEdges]
    refine ⟨_, congrArg Host.Outcome.next (if_pos hnext), ?_⟩
    have hcounted : p.countEdge = { p with edges := 1024 } := by rw [PendingSwitch.countEdge, min_qualifyEdges, hedges]; rfl
    rw [State.refclkEdge_qualifying hmain hq, hp, Option.map_some, hcounted]
    exact ⟨State.setTb_onlyIn_ended _, rfl⟩

/-! ### Gaps -/

/-- The 64th period without an edge: the gap comes before the prescaler takes the period (log entry 6). -/
theorem State.oscillatorPeriod_gap (hcounts : OscillatorCounts s) (hgap : s.tb.gapCount = 63) (b : Bool) :
    s.afterReset.oscillatorPeriod false b =
      if s.tb.source = .external then (s.atGapCount 64).gap else (s.atGapCount 64).gap.prescale b := by
  have hcount : s.afterReset.setTb s.afterReset.tb.countGap = s.atGapCount 64 := by
    have hmin : s.tb.countGap = { s.tb with gapCount := 64 } := by rw [TimeBase.countGap, hgap, Config.gapPeriods]; rfl
    rw [State.afterReset_tb, hmin]
    rfl
  rw [State.oscillatorPeriod, if_pos (State.afterReset_oscillatorCounts hcounts), hcount, State.afterReset_tb]
  by_cases he : s.tb.source = .external <;> simp [he, hgap, Config.gapPeriods]

/-- The controller, its reset ended, after a gap in QUALIFYING: the count of edges begins again (R85). -/
def State.atGap (s : State) : State :=
  s.afterReset.setTb { s.tb with gapCount := 64, pendingSwitch := s.tb.pendingSwitch.map PendingSwitch.restart }

theorem State.gap_qualifying (hq : s.tb.source = .qualifying) : (s.atGapCount 64).gap = s.atGap := by
  have hrestarts : ∀ t : State, t.tb.source = .qualifying →
      t.gap = t.setTb { t.tb with pendingSwitch := t.tb.pendingSwitch.map PendingSwitch.restart } := by
    intro t ht
    unfold State.gap
    split
    · rfl
    · exact absurd (ht.symm.trans ‹_›) (by decide)
    · exact absurd (ht.symm.trans ‹_›) (by decide)
    · exact absurd (ht.symm.trans ‹_›) (by decide)
  exact hrestarts _ hq

/-- A tick on the period of a gap in QUALIFYING, its switch and step waiting: the switch's tick is counted. -/
theorem State.midTick_atGap {p : PendingSwitch} (hwaits : StepWaits s) (hp : s.tb.pendingSwitch = some p)
    (hticks : p.ticks + 1 < 65536) : s.atGap.midTick false =
      (s.atGap.setTb s.atGap.tb.advance).setTb
        { s.atGap.tb.advance with pendingSwitch := some { p with edges := 0, ticks := p.ticks + 1 } } := by
  have hswitch : (s.atGap.setTb s.atGap.tb.advance).tb.pendingSwitch = some p.restart :=
    congrArg (Option.map PendingSwitch.restart) hp
  rw [State.midTick_stepWaits (s := s.atGap) hwaits, State.switchAtTick_counted _ hswitch (Nat.zero_lt_succ _) hticks]
  rfl

/-- REFCLK_GAP on the 64th period in a state where the detector acts is that period (R84). -/
theorem exec_refclkGap (hgap : s.tb.gapCount = 63) (hacts : s.tb.source = .qualifying ∨ s.tb.source = .external) :
    exec .refclkGap s = .next (s.afterReset.oscillatorPeriod false false) := by
  have hnext : s.afterReset.gapNext = true := by
    rw [State.gapNext, State.afterReset_tb, hgap]
    simp [Config.gapPeriods, hacts]
  exact congrArg Host.Outcome.next (if_pos hnext)

/-- Settles O30: the gap, then the period's count or tick. -/
theorem gapFallsBackOrRestartsQualification : Obligations.GapFallsBackOrRestartsQualification := by
  intro s hcounts hgap
  have hperiod := State.oscillatorPeriod_gap hcounts hgap false
  refine ⟨fun he => ?_, fun hq hcount => ?_, fun p hq hdue hwaits hp hticks => ?_⟩
  · have hfall : s.afterReset.oscillatorPeriod false false = (s.atGapCount 64).fallBack := by
      have he' : (s.atGapCount 64).tb.source = .external := he
      rw [hperiod, if_pos he, State.gap]
      simp only [he']
    refine ⟨_, exec_refclkGap hgap (.inr he), ?_⟩
    rw [hfall]
    refine ⟨rfl, ?_, ?_⟩
    · rw [State.fallBack, State.setReport_report, State.atGapCount, State.setTb_report, State.afterReset_report]
      exact s.report.take_arrived 0 _
    · exact ((State.setTb_onlyIn_ended _).mono (by simp)).trans (State.fallBack_onlyIn _)
  · refine ⟨_, exec_refclkGap hgap (.inl hq), ?_⟩
    rw [hperiod, if_neg (by rw [hq]; decide), State.gap_qualifying hq, s.atGap.prescale_counts false hcount]
    exact ⟨rfl, State.setTb_onlyIn_ended _⟩
  · refine ⟨_, exec_refclkGap hgap (.inl hq), ?_⟩
    rw [hperiod, if_neg (by rw [hq]; decide), State.gap_qualifying hq, s.atGap.prescale_ticks false hdue]
    have hmid := State.midTick_atGap hwaits hp hticks
    have hsignals := s.atGap.tick_onlySignals false
    have hreport : s.atGap.report = s.report := s.afterReset_report
    rw [hmid, State.setTb_report, State.setTb_report, hreport] at hsignals
    refine ⟨State.tick_ticked 64 _ false, s.atGap.tick_gapCount false, ?_, ?_, hsignals⟩
    · rw [State.tick_source, hmid]
      exact hq
    · rw [State.tick_pendingSwitch, hmid]
      rfl

/-! ### Edges of ALIGN -/

/-- A report taken or an acknowledgment handed in after a step leaves what the step did. -/
theorem SteppedTo.setReport {p1 : U64} (h : SteppedTo p1 s t) (r : ReportUnit) : SteppedTo p1 s (t.setReport r) := by
  obtain ⟨htb, hpt, hslot, hqueue, hseq, hoffer⟩ := h
  exact ⟨htb, hpt, hslot, hqueue, hseq, hoffer.congr (fun _ => rfl) rfl rfl rfl⟩

/-- PT after a pending step, by its mode (R92). -/
theorem TimeBase.stepped_pendingPt (tb : TimeBase) (p : PendingStep) : (tb.stepped p.mode p.value).pt =
    match p.mode with
    | .absolute => p.value
    | .relative => tb.pt + p.value :=
  (TimeBase.stepped_pt tb p.mode p.value).trans (by cases p.mode <;> rfl)

/-- A pending step applied by an edge, and the mark after it (R95, R98). -/
theorem State.alignEdge_pending {v : State} (htb : v.tb = s.tb) (hstore : v.store = s.store) (hreport : v.report = s.report)
    {p : PendingStep} {p1 : U64} (hp1 : ({ s.tb with pendingStep := none }.stepped p.mode p.value : TimeBase).pt = p1) :
    SteppedTo p1 s ((v.applyPending p).timeMark true) ∧
      OnlyIn [.tb, .store, .disp, .report] v ((v.applyPending p).timeMark true) ∧
      ∃ mid, AckAdded p.ack.bound (.ack p.ack .ok (.step s.tb.pt p1)) s.report mid ∧ SameRingRefs s.report mid ∧
        (s.tb.marks = true → Arrived 0 (.event (.timeMark true s.tb.mt p1)) mid ((v.applyPending p).timeMark true).report) ∧
        (s.tb.marks = false → ((v.applyPending p).timeMark true).report = mid) := by
  have htb0 : (v.setTb { v.tb with pendingStep := none }).tb = { s.tb with pendingStep := none } := by rw [htb]; rfl
  have hpt : ((v.setTb { v.tb with pendingStep := none }).tb.stepped p.mode p.value).pt = p1 := by rw [htb0, hp1]
  have hstepped : SteppedTo p1 s (v.applyPending p) := (State.applyStep_steppedTo htb0 hstore hpt).setReport _
  have hacked : (v.applyPending p).report = s.report.handIn p.ack.bound (.ack p.ack .ok (.step s.tb.pt p1)) := by
    rw [State.applyPending, State.handIn, State.setReport_report, State.applyStep_report, State.applyStep_tb, hpt, htb,
      State.setTb_report, hreport]
  obtain ⟨htb1, hpt1, -⟩ := id hstepped
  have hmt : (v.applyPending p).tb.mt = s.tb.mt := by rw [htb1]
  have hmarks : (v.applyPending p).tb.marks = s.tb.marks := by rw [htb1]
  obtain ⟨hadded, hrefs⟩ := s.report.handIn_added (n := p.ack.bound) (.ack p.ack .ok (.step s.tb.pt p1))
  refine ⟨?_, (v.applyPending_onlyIn p).trans ((State.timeMark_onlyIn _ true).mono (by simp)), _, hadded, hrefs,
    fun hm => ?_, fun hm => ?_⟩
  · unfold State.timeMark
    split
    · exact hstepped.setReport _
    · exact hstepped
  · rw [State.timeMark, hmarks, if_pos hm, State.setReport_report, hacked, hmt, hpt1]
    exact ReportUnit.take_arrived _ 0 _
  · rw [State.timeMark, hmarks, if_neg (by rw [hm]; decide), hacked]

/-- Settles O31: the step if one is pending, its acknowledgment, then the mark if marks are enabled. -/
theorem alignEdgeAppliesTheStepThenMarks : Obligations.AlignEdgeAppliesTheStepThenMarks := by
  intro s hmain
  have hmain' : s.afterReset.inputs.mainSupply = true := by rw [State.afterReset_inputs]; exact hmain
  have hreport := s.afterReset_report
  have htb := s.afterReset_tb
  refine ⟨_, congrArg Host.Outcome.next (if_pos hmain'), ?_⟩
  rw [← State.afterReset_eq]
  cases hp : s.tb.pendingStep with
  | none =>
    have hp' : s.afterReset.tb.pendingStep = none := by rw [htb]; exact hp
    simp only [hp']
    refine ⟨fun _ hmarks => ?_, fun _ hmarks => ?_, fun p e => nomatch e⟩
    · exact if_neg (by rw [htb, hmarks]; decide)
    · rw [State.timeMark, if_pos (by rw [htb]; exact hmarks), State.setReport_report, hreport, htb]
      exact ⟨s.report.take_arrived 0 _, State.setReport_onlyIn _ _⟩
  | some p =>
    have hp' : s.afterReset.tb.pendingStep = some p := by rw [htb]; exact hp
    simp only [hp']
    refine ⟨fun e => (nomatch e), fun e => (nomatch e), fun q e => ?_⟩
    obtain rfl := Option.some.inj e
    exact State.alignEdge_pending htb s.afterReset_store hreport (TimeBase.stepped_pendingPt _ p)

/-! ### The step of an empty queue -/

theorem step_idle (hqueue : s.pending = []) : step s = .next s.idle := by
  rw [step, hqueue]

/-- In INTERNAL and FALLBACK a gap is not acted on (R84). -/
theorem State.gap_idle (h : ¬(s.tb.source = .qualifying ∨ s.tb.source = .external)) : s.gap = s := by
  unfold State.gap
  split
  · exact absurd (.inl ‹_›) h
  · exact absurd (.inr ‹_›) h
  · rfl
  · rfl

/-- Without a pending switch a tick keeps the source. -/
theorem State.midTick_source (h : s.tb.pendingSwitch = none) (b : Bool) : (s.midTick b).tb.source = s.tb.source := by
  have hnone : (s.setTb s.tb.advance).tb.pendingSwitch = none := h
  cases b
  · simp only [State.midTick, Bool.false_eq_true, if_false]
    rw [State.switchAtTick_none _ hnone, State.alignAtTick_eq]
    rfl
  · have hnone' : (s.setTb s.tb.advance).alignAtTick.tb.pendingSwitch = none := by rw [State.alignAtTick_eq]; exact h
    simp only [State.midTick, if_true]
    rw [State.switchAtTick_none _ hnone', State.alignAtTick_eq]
    rfl

theorem State.prescale_source (h : s.tb.pendingSwitch = none) (b : Bool) : (s.prescale b).tb.source = s.tb.source := by
  unfold State.prescale
  split
  · rw [State.tick_source, State.midTick_source h]
  · rfl

/-- A counting period, a gap on it first (log entry 6). -/
theorem State.oscillatorPeriod_eq (hcounts : s.oscillatorCounts = true) (b : Bool) : s.oscillatorPeriod false b =
    let u := if s.tb.gapCount = 63 then (s.setTb s.tb.countGap).gap else s.setTb s.tb.countGap
    if s.tb.source = .external then u else u.prescale b := by
  have hiff : (s.tb.gapCount + 1 = Config.gapPeriods) ↔ s.tb.gapCount = 63 := Nat.succ_inj
  rw [State.oscillatorPeriod, if_pos hcounts]
  by_cases he : s.tb.source = .external <;> simp [he, hiff]

/-- A period that drives ticks is the same whichever of gap and tick comes first, where no gap falls on it or none is acted on. -/
theorem State.oscillatorPeriod_order (h : s.tb.gapCount ≠ 63 ∨
      (¬(s.tb.source = .qualifying ∨ s.tb.source = .external) ∧ s.tb.pendingSwitch = none)) (b : Bool) :
    s.oscillatorPeriod true b = s.oscillatorPeriod false b := by
  have hiff : (s.tb.gapCount + 1 = Config.gapPeriods) ↔ s.tb.gapCount = 63 := Nat.succ_inj
  unfold State.oscillatorPeriod
  obtain hgap | ⟨hidle, hswitch⟩ := h
  · simp [hiff, hgap]
  · have hidle' : (s.setTb s.tb.countGap).gap = s.setTb s.tb.countGap := State.gap_idle (s := s.setTb s.tb.countGap) hidle
    have hsource := State.prescale_source (s := s.setTb s.tb.countGap) hswitch b
    have hidle'' : ((s.setTb s.tb.countGap).prescale b).gap = (s.setTb s.tb.countGap).prescale b :=
      State.gap_idle (by rw [hsource]; exact hidle)
    have hdrives : s.tb.source ≠ .external := fun e => hidle (.inr e)
    simp [hdrives, hidle', hidle'']

/-- Settles O1: the idle step, by whether its period counts, completes a gap, ticks or only counts. -/
theorem stepRunsTheFrontCommandOrOneOscillatorPeriod : Obligations.StepRunsTheFrontCommandOrOneOscillatorPeriod := by
  refine ⟨fun s c rest hqueue => by rw [step, hqueue], fun s hqueue hend => ?_, fun s hqueue hend => ?_⟩
  · rw [step_idle hqueue, State.idle, if_pos (State.resetEndsNext_iff.2 hend), State.endReset, if_pos hend.2]
  intro acts
  have hidle : s.idle = s.oscillatorPeriod false false := if_neg (mt State.resetEndsNext_iff.1 hend)
  have hreset := State.afterReset_same hend
  rw [step_idle hqueue, hidle]
  refine ⟨fun hcounts => ?stopped, fun hcounts hgap hacts => ?gap, fun hcounts horder hsource hdue => ?tick,
    fun hcounts hgap hcount => ?counted⟩
  case stopped => rw [State.oscillatorPeriod, if_neg (mt State.oscillatorCounts_iff.1 hcounts)]
  case gap => rw [exec_refclkGap hgap hacts, hreset]
  case tick =>
    have htick : TickIsDue s := ⟨hdue, by rw [if_neg hsource]; exact hcounts⟩
    rw [exec_tick_due htick, hreset, State.completeTick, if_neg hsource, State.oscillatorPeriod_order horder]
  case counted =>
    have hgapped : (if s.tb.gapCount = 63 then (s.setTb s.tb.countGap).gap else s.setTb s.tb.countGap) =
      s.setTb s.tb.countGap := by
      split
      · rename_i h63
        exact State.gap_idle (s := s.setTb s.tb.countGap) (hgap.resolve_left fun h => h h63)
      · rfl
    refine ⟨_, rfl, ?_⟩
    rw [State.oscillatorPeriod_eq (State.oscillatorCounts_iff.2 hcounts), hgapped, ← min_gapPeriods]
    by_cases he : s.tb.source = .external
    · simp only [if_pos he]
      exact ⟨s.setTb_onlyIn _, rfl⟩
    · simp only [if_neg he]
      rw [(s.setTb s.tb.countGap).prescale_counts false (hcount.resolve_left he)]
      exact ⟨(s.setTb_onlyIn _).trans (State.setTb_onlyIn _ _), rfl⟩

end Sys2Proof.Machine
end

section
/-!
SUPPORT. O4, O22, O25 and O44.
-/
namespace Sys2Proof.Machine
variable {s t : State}

/-! ### The reset state -/

theorem State.reset_quiet : State.reset.Quiet where
  store := rfl
  disp := rfl
  engine := rfl
  regions := rfl
  posting := rfl
  report := rfl
  lines := fun _ _ => ⟨rfl, rfl⟩
  step := rfl
  switch := rfl
  marks := rfl

theorem State.reset_windowLaw : State.reset.WindowLaw where
  enabled := fun h => nomatch h
  unpowered := fun h => nomatch h
  powered := fun _ => rfl
  cold := fun h => nomatch h
  awaited := fun _ => rfl

theorem State.reset_firingLaw : State.reset.FiringLaw where
  firing := fun _ => ⟨fun h => (nomatch h), fun h => (nomatch h)⟩
  once := List.nodup_nil

/-- Settles O4: law by law. -/
theorem resetMeetsEveryLaw : Obligations.ResetMeetsEveryLaw :=
  ⟨rfl, .cold, State.reset_windowLaw, State.idleLaw_iff.2 fun _ => State.reset_quiet, .reset, .reset, State.reset_firingLaw,
    State.reset_quiet.capacityLaw, .reset rfl rfl, .reset rfl rfl rfl⟩

/-! ### Requests at their owner -/

/-- A request at its owner is taken by it. -/
theorem AtOwner.exec_request {c : Instr} {op : Opcode} {r : IntakeRecord} {w : PostSlot} (hown : AtOwner s op r w)
    (hc : requestOpcode c = some op) : exec c s = .next (s.takeRequest op r w) := by
  obtain ⟨r', w', hown', he⟩ | ⟨hnone, -⟩ := Machine.exec_request hc s
  · obtain ⟨rfl, rfl⟩ := Prod.mk.inj (Option.some.inj (hown'.eq.symm.trans hown.eq))
    exact he
  · exact nomatch hnone.symm.trans hown.eq

/-! ### SET_LINE_REST -/

/-- The bit of one line in the byte of rest levels, the lines of a list taken in turn. -/
theorem getLsbD_foldl_restLevels (p : Nat → Prop) [DecidablePred p] (l : List Nat) (b : BitVec 8) {k : Nat} (hk : k < 8) :
    (l.foldl (fun b n => if p n then b ||| BitVec.ofNat 8 (2 ^ n) else b) b).getLsbD k =
      (b.getLsbD k || decide (k ∈ l ∧ p k)) := by
  induction l generalizing b with
  | nil => simp
  | cons n l ih =>
    rw [List.foldl_cons, ih]
    by_cases hn : p n
    · rw [if_pos hn, BitVec.getLsbD_or, BitVec.getLsbD_ofNat, Nat.testBit_two_pow]
      by_cases hkn : n = k
      · subst hkn
        simp [hk, hn]
      · simp [hkn, Ne.symm hkn]
    · rw [if_neg hn]
      by_cases hkn : k = n
      · subst hkn
        simp [hn]
      · simp [hkn]

theorem State.restLevels_bit {n : Nat} (hn : n < 8) : s.restLevels.getLsbD n = decide ((s.line n).rest = .high) := by
  rw [State.restLevels, getLsbD_foldl_restLevels (fun n => (s.line n).rest = .high) _ _ hn]
  simp [lineNumbers, Config.numLines, hn]

/-- The rest levels set, line by line of a list. -/
theorem State.setRest_line (q : LineRestRequest) (l : List Nat) (k : Nat) : (s.setRest q l).line k =
    { s.line k with rest := if k ∈ l ∧ q.mask.getLsbD k = true then levelOf (q.levels.getLsbD k) else (s.line k).rest } := by
  induction l generalizing s with
  | nil => simp [State.setRest]
  | cons n l ih =>
    rw [State.setRest, ih]
    by_cases hk : k = n
    · subst hk
      by_cases hm : q.mask.getLsbD k = true <;> simp [State.line_setLine, hm]
    · have hother : (if q.mask.getLsbD n = true then s.setLine n { s.line n with rest := levelOf (q.levels.getLsbD n) }
        else s).line k =
          s.line k := by
        split <;> simp [State.line_setLine, hk]
      rw [hother]
      simp [hk]

theorem State.lineBusy_iff {mask : Byte} :
    s.lineBusy mask = true ↔ ∃ n < 8, mask.getLsbD n = true ∧ (s.line n).state ≠ .rest := by
  simp [State.lineBusy, lineNumbers, Config.numLines]

/-- Settles O22: the checks in their order, the rest levels line by line. -/
theorem setLineRestSetsMaskedRestLevels : Obligations.SetLineRestSetsMaskedRestLevels := by
  intro s r w hown mask levels busy
  have hbusy : s.lineBusy (LineRestRequest.read w).mask = true ↔ busy := State.lineBusy_iff
  obtain ⟨after, hafter, honly, hrefused, haccepted⟩ : ∃ after : State,
      s.takeRequest .setLineRest r w = after.answer r w (s.lineRestCheck w) (.lines s.restLevels after.restLevels s.lineStates) ∧
      OnlyIn [.lines] s after ∧ (s.lineRestCheck w ≠ .ok → after = s) ∧
      (s.lineRestCheck w = .ok → after = s.setRest (LineRestRequest.read w) lineNumbers) := by
    refine ⟨_, rfl, ?_, fun h => if_neg h, fun h => if_pos h⟩
    split
    · exact s.setRest_onlyIn _ _
    · exact OnlyIn.refl _ _
  have hanswered := after.answer_answered r w (s.lineRestCheck w) (.lines s.restLevels after.restLevels s.lineStates)
  rw [Answered, honly.report_eq (by simp), OnlyIn.posting_eq honly (by simp)] at hanswered
  refine ⟨_, s.lineRestCheck w, s.restLevels, after.restLevels, s.lineStates, hown.exec_request rfl, ?_⟩
  rw [hafter]
  refine ⟨(honly.mono (by simp)).trans ((State.answer_onlyIn _ r w _ _).mono (by simp)), hanswered,
    fun n hn => ⟨State.restLevels_bit hn, State.restLevels_bit hn⟩, rfl, fun hbad => ?_, fun hgood hb => ?_,
    fun hgood hb => ?_, fun hst => ?_, fun hst n => ?_⟩
  · rw [State.lineRestCheck, hbad]
    rfl
  · rw [State.lineRestCheck, hgood, hbusy.2 hb]
    rfl
  · rw [State.lineRestCheck, hgood, Bool.eq_false_iff.2 (mt hbusy.1 hb)]
    rfl
  · rw [State.answer_lines, hrefused hst]
  · rw [State.answer_line, haccepted hst, State.setRest_line]
    simp only [lineNumbers, Config.numLines, List.mem_range]
    rfl

/-! ### Doorbells that name nothing -/

/-- While READY is 0 or the controller is not enabled no doorbell is taken. -/
theorem Window.takesDoorbells_off {x : Window} (h : x.ready = false ∨ x.enabled = false) : x.takesDoorbells = false := by
  rw [Window.takesDoorbells]
  obtain h | h := h <;> rw [h]
  · rfl
  · exact Bool.and_false _

/-- Settles O44: recorded as any doorbell error; cleared alone; no doorbell taken while not enabled. -/
theorem doorbellsNamingNothingAreRecorded : Obligations.DoorbellsNamingNothingAreRecorded := by
  refine ⟨fun s ring kind value hnames hready henabled => ?_, fun s value hbit hready => ?_,
    fun s ring kind value hoff hend => ?_⟩
  · have hkind : 1 < kind.toNat → kind ≠ kindPostingTail ∧ kind ≠ kindReportConsumer := by
      intro h
      constructor <;> rintro rfl <;> exact absurd h (by decide)
    have htakes : s.window.takesDoorbells = true := by rw [Window.takesDoorbells, hready, henabled]; rfl
    refine ⟨s.doorbellError ring kind, ?_, s.doorbellError_onlyIn ring kind, s.doorbellError_recorded ring kind⟩
    change execDoorbellNoRing ring kind value s = _
    rw [execDoorbellNoRing, State.afterReset_ready hready, if_pos ⟨htakes, hnames.imp id hkind⟩]
  · refine ⟨_, ?_, s.setWindow_onlyIn { s.window with doorbellError := none }, rfl⟩
    change execDoorbellErrorClear value s = _
    rw [execDoorbellErrorClear, State.afterReset_ready hready, if_pos ⟨hready, hbit⟩]
  · have hnone := Window.takesDoorbells_off hoff
    have hsame := State.afterReset_same hend
    refine ⟨?_, ?_, ?_⟩
    · change execPostingTailDoorbell ring value s = _
      rw [execPostingTailDoorbell, hsame, hnone, if_neg Bool.false_ne_true]
    · change execReportConsumerDoorbell ring value s = _
      rw [execReportConsumerDoorbell, hsame, hnone, if_neg Bool.false_ne_true]
    · change execDoorbellNoRing ring kind value s = _
      rw [execDoorbellNoRing, hsame, hnone, if_neg (fun h => Bool.false_ne_true h.1)]

end Sys2Proof.Machine
end

section
/-!
SUPPORT. O25: the trim over one whole window.
-/
namespace Sys2Proof.Machine

/-! ### The adjusted positions -/

/-- The positions that are one of the first `n` multiples of a spacing. -/
theorem position_iff {S n pos : Nat} (hS : 0 < S) : (pos % S = 0 ∧ pos / S < n) ↔ ∃ i < n, pos = i * S := by
  constructor
  · rintro ⟨hmod, hdiv⟩
    exact ⟨pos / S, hdiv, (Nat.div_mul_cancel (Nat.dvd_of_mod_eq_zero hmod)).symm⟩
  · rintro ⟨i, hi, rfl⟩
    rw [Nat.mul_mod_left, Nat.mul_div_cancel _ hS]
    exact ⟨rfl, hi⟩

/-- A window has as many adjusted positions as the trim has units (R90). -/
theorem card_positions {N n : Nat} (hn : 0 < n) (hN : n ≤ N) :
    ((Finset.range N).filter fun pos => ∃ i < n, pos = i * (N / n)).card = n := by
  have hS : 0 < N / n := Nat.div_pos hN hn
  have himage : ((Finset.range N).filter fun pos => ∃ i < n, pos = i * (N / n)) =
      (Finset.range n).image (fun i => i * (N / n)) := by
    ext pos
    simp only [Finset.mem_filter, Finset.mem_range, Finset.mem_image]
    constructor
    · rintro ⟨-, i, hi, rfl⟩
      exact ⟨i, hi, rfl⟩
    · rintro ⟨i, hi, rfl⟩
      refine ⟨?_, i, hi, rfl⟩
      calc i * (N / n) < n * (N / n) := Nat.mul_lt_mul_of_pos_right hi hS
        _ ≤ N := Nat.mul_div_le N n
  rw [himage, Finset.card_image_of_injective _ fun i j hij => Nat.eq_of_mul_eq_mul_right hS hij, Finset.card_range]

theorem adjustedTick_iff {T : Int} (hT : T.natAbs ≤ 1023) {pos : Nat} :
    adjustedTick T pos = true ↔ T ≠ 0 ∧ ∃ i < T.natAbs, pos = i * (1048576 / T.natAbs) := by
  by_cases hzero : T = 0
  · subst hzero
    simp [adjustedTick]
  · have hpos : 0 < T.natAbs := Int.natAbs_pos.2 hzero
    have hS : 0 < 1048576 / T.natAbs := Nat.div_pos (by omega) hpos
    rw [← position_iff hS]
    simp [adjustedTick, Config.trimWindow, hzero]

/-! ### The sum over a window -/

/-- A sum over one whole period does not depend on where it begins. -/
theorem sum_shifted {M : Type} [AddCommGroup M] (f : Nat → M) (N k : Nat) :
    ∑ j ∈ Finset.range N, f ((k + j) % N) = ∑ j ∈ Finset.range N, f j := by
  induction k with
  | zero =>
    refine Finset.sum_congr rfl fun j hj => ?_
    rw [Nat.zero_add, Nat.mod_eq_of_lt (Finset.mem_range.1 hj)]
  | succ k ih =>
    have hlast := Finset.sum_range_succ (fun j => f ((k + j) % N)) N
    have hfirst := Finset.sum_range_succ' (fun j => f ((k + j) % N)) N
    rw [Nat.add_mod_right] at hlast
    rw [← ih]
    refine add_right_cancel ((Eq.trans ?_ hfirst.symm).trans hlast)
    refine congrArg (· + f ((k + 0) % N)) (Finset.sum_congr rfl fun j _ => ?_)
    rw [Nat.add_assoc k 1 j, Nat.add_comm 1 j]

/-- What the adjusted ticks of a window add up to: the trim (R90). -/
theorem sum_trimStep {T : Int} (hT : T.natAbs ≤ 1023) {N : Nat} (hN : N = 1048576) :
    ∑ pos ∈ Finset.range N, trimStep T pos = BitVec.ofInt 64 T := by
  by_cases hzero : T = 0
  · subst hzero
    exact Finset.sum_eq_zero fun pos _ => by simp [trimStep, adjustedTick]
  · have hpos : 0 < T.natAbs := Int.natAbs_pos.2 hzero
    have hcard := card_positions hpos (show T.natAbs ≤ N by omega)
    have hstep : ∀ pos, trimStep T pos =
        if ∃ i < T.natAbs, pos = i * (N / T.natAbs) then (if 0 < T then 1 else -1) else 0 := by
      intro pos
      have hiff := adjustedTick_iff hT (pos := pos)
      rw [← hN] at hiff
      rw [trimStep]
      exact if_congr (hiff.trans (and_iff_right hzero)) rfl rfl
    rw [Finset.sum_congr rfl fun pos _ => hstep pos, ← Finset.sum_filter, Finset.sum_const, hcard]
    obtain ⟨n, rfl | rfl⟩ := T.eq_nat_or_neg
    · rw [if_pos (by omega), Int.natAbs_natCast, nsmul_one, BitVec.ofInt_natCast]
      rfl
    · rw [if_neg (by omega), Int.natAbs_neg, Int.natAbs_natCast, smul_neg, nsmul_one, BitVec.ofInt_neg, BitVec.ofInt_natCast]
      rfl

/-! ### Ticks in a row -/

/-- What `k` ticks in a row make of MT, PT and the window position. -/
theorem TimeBase.advance_iterate (t : TimeBase) (hpos : t.windowPos < 1048576) (k : Nat) :
    (TimeBase.advance^[k] t).mt = t.mt + (k : BitVec 64) ∧ (TimeBase.advance^[k] t).trim = t.trim ∧
      (TimeBase.advance^[k] t).windowPos = (t.windowPos + k) % 1048576 ∧
      (TimeBase.advance^[k] t).pt =
        t.pt + (k : BitVec 64) + ∑ j ∈ Finset.range k, trimStep t.trim ((t.windowPos + j) % 1048576) := by
  induction k with
  | zero => simp [Nat.mod_eq_of_lt hpos]
  | succ k ih =>
    obtain ⟨hmt, htrim, hwindow, hpt⟩ := ih
    rw [Function.iterate_succ_apply', TimeBase.advance_mt, TimeBase.advance_trim, TimeBase.advance_windowPos,
      TimeBase.advance_pt, hmt, htrim, hwindow, hpt, Finset.sum_range_succ, Nat.cast_succ]
    refine ⟨by ring, rfl, ?_, by ring⟩
    rw [Nat.mod_add_mod, Nat.add_assoc]

/-- Settles O25: each position by its multiple, and the sum over the window from any position. -/
theorem trimAdjustsEachWindowByExactlyT : Obligations.TrimAdjustsEachWindowByExactlyT := by
  refine ⟨fun T pos hlow hhigh _ => ⟨adjustedTick_iff (by omega), rfl⟩, fun t h => ?_⟩
  obtain ⟨hlow, hhigh⟩ := h.trim
  obtain ⟨hmt, -, hwindow, hpt⟩ := t.advance_iterate h.windowPos 1048576
  have hsum := sum_shifted (trimStep t.trim) 1048576 t.windowPos
  rw [sum_trimStep (by omega) rfl] at hsum
  rw [hsum] at hpt
  rw [Nat.add_mod_right, Nat.mod_eq_of_lt h.windowPos] at hwindow
  exact ⟨hmt, hpt, hwindow⟩

end Sys2Proof.Machine
end

section
/-!
SUPPORT. O34, O35 and O37: the requests that make and end rings.
-/
namespace Sys2Proof.Machine
variable (s : State) (r : IntakeRecord) (w : PostSlot)

/-! ### Checks in the words of the statements -/

theorem ringNumberOk_eq_false_iff (b : Byte) : ringNumberOk b = false ↔ b.toNat < 1 ∨ 8 < b.toNat := by
  rw [← Bool.not_eq_true, ringNumberOk_iff, not_not]

theorem RingClass.ofCode_isNone_iff (b : Byte) : (RingClass.ofCode b).isNone = true ↔ b ∉ [1, 2] := by
  unfold RingClass.ofCode
  split
  · simp_all
  · split <;> simp_all

theorem ReportRing.running_eq_false_iff (x : ReportRing) : x.running = false ↔ x.state = .absent ∨ x.state = .faulted := by
  rw [ReportRing.running]
  cases x.state <;> simp

/-- The checks of R143 in the words of its table. -/
theorem CreatePostRequest.check_read : (CreatePostRequest.read w).check w s =
    if PostSlot.reservedZero w (requestFields .createPostRing) = false ∨ PostSlot.byte w 3 ∉ [1, 2] then .badFormat
    else if (PostSlot.byte w 2).toNat < 1 ∨ 8 < (PostSlot.byte w 2).toNat ∨ (PostSlot.u64 w 8).toNat % 64 ≠ 0 ∨
        (PostSlot.u32 w 16).toNat < 4 ∨ 4096 < (PostSlot.u32 w 16).toNat ∨
        2 ^ 64 < (PostSlot.u64 w 8).toNat + 64 * (PostSlot.u32 w 16).toNat ∨ (PostSlot.byte w 4).toNat < 1 ∨
        8 < (PostSlot.byte w 4).toNat then .badRingParams
    else if (s.posting.ring (PostSlot.byte w 2).toNat).state ≠ .absent then .ringExists
    else if (s.report.ring (PostSlot.byte w 4).toNat).state = .absent ∨
        (s.report.ring (PostSlot.byte w 4).toNat).state = .faulted then .noRing
    else .ok := by
  simp only [CreatePostRequest.check, CreatePostRequest.read, RingClass.ofCode_isNone_iff, Bool.not_eq_true',
    ringNumberOk_eq_false_iff, ReportRing.running_eq_false_iff, or_assoc]
  rfl

/-- The ring that a request makes (R143). -/
theorem CreatePostRequest.ring_read : (CreatePostRequest.read w).ring =
    ⟨.active, PostSlot.u64 w 8, (PostSlot.u32 w 16).toNat, 0, 0, 1, if PostSlot.byte w 3 = 1 then .high else .normal,
      (PostSlot.byte w 4).toNat⟩ := by
  have hclass : (RingClass.ofCode (PostSlot.byte w 3)).getD .normal = if PostSlot.byte w 3 = 1 then .high else .normal := by
    unfold RingClass.ofCode
    split
    · rfl
    · split <;> rfl
  simp only [CreatePostRequest.ring, CreatePostRequest.read, hclass]

theorem State.deletePostCheck_eq : s.deletePostCheck w =
    if PostSlot.reservedZero w (requestFields .deletePostRing) = false then .badFormat
    else if (PostSlot.byte w 2).toNat < 1 ∨ 8 < (PostSlot.byte w 2).toNat then .badRingParams
    else if (s.posting.ring (PostSlot.byte w 2).toNat).state = .absent then .noRing
    else .ok := by
  simp only [State.deletePostCheck, PostSlot.number, Bool.not_eq_true', ringNumberOk_eq_false_iff]
  rfl

theorem State.resumePostCheck_eq : s.resumePostCheck w =
    if PostSlot.reservedZero w (requestFields .resumePostRing) = false then .badFormat
    else if (PostSlot.byte w 2).toNat < 1 ∨ 8 < (PostSlot.byte w 2).toNat then .badRingParams
    else if (s.posting.ring (PostSlot.byte w 2).toNat).state = .absent then .noRing
    else if (s.posting.ring (PostSlot.byte w 2).toNat).state = .active then .notStalled
    else .ok := by
  simp only [State.resumePostCheck, PostSlot.number, Bool.not_eq_true', ringNumberOk_eq_false_iff]
  rfl

theorem State.deleteReportCheck_eq : s.deleteReportCheck w =
    if PostSlot.reservedZero w (requestFields .deleteReportRing) = false then .badFormat
    else if (PostSlot.byte w 2).toNat < 1 ∨ 8 < (PostSlot.byte w 2).toNat then .badRingParams
    else if (s.report.ring (PostSlot.byte w 2).toNat).state = .absent then .noRing
    else if (s.report.ring (PostSlot.byte w 2).toNat).refs ≠ 0 then .inUse
    else .ok := by
  simp only [State.deleteReportCheck, PostSlot.number, Bool.not_eq_true', ringNumberOk_eq_false_iff]
  rfl

/-- The results of a posting ring request (R146). -/
theorem PostRing.results_eq (x : PostRing) (number : Byte) (d : Nat) : x.results number d =
    if number.toNat < 1 ∨ 8 < number.toNat ∨ x.state = .absent then .postRing number .absent 0 0 0
    else .postRing number x.state x.head x.tail d := by
  by_cases hn : number.toNat < 1 ∨ 8 < number.toNat
  · rw [PostRing.results, if_neg (mt (ringNumberOk_iff number).1 (not_not.2 hn)), if_pos (hn.imp id .inl)]
  · rw [PostRing.results, if_pos ((ringNumberOk_iff number).2 hn)]
    exact if_congr ⟨fun h => .inr (.inr h), fun h => (or_assoc.2 h).resolve_left hn⟩ rfl rfl

/-- The results of a report ring request (R168). -/
theorem ReportRing.results_eq (x : ReportRing) (number : Byte) (d : Nat) : x.results number d =
    if number.toNat < 1 ∨ 8 < number.toNat then .reportRing number .absent 0 0 0 0 0
    else .reportRing number x.state x.producer x.consumer x.refs x.lost d := by
  simp only [ReportRing.results, ringNumberOk_iff, ite_not]

/-! ### Posting rings -/

/-- An acknowledgment's results may be spelled otherwise. -/
theorem AckAdded.of_results {n : Nat} {h : AckHead} {st : Status} {x y : AckResults} {a b : ReportUnit}
    (hadded : AckAdded n (.ack h st x) a b) (e : x = y) : AckAdded n (.ack h st y) a b := e ▸ hadded

/-- The arbiter's positions of two Posting Units are the same. -/
def PostingUnit.SamePositions (a b : PostingUnit) : Prop :=
  b.lastHigh = a.lastHigh ∧ b.lastNormal = a.lastNormal ∧ b.highRun = a.highRun

/-- A request answered once one posting ring, and reference counts, have changed (R140). -/
theorem State.answer_relinked (n : Nat) (x : PostRing) {rep : ReportUnit}
    (hring : ∀ k, rep.ring k = { s.report.ring k with refs := (rep.ring k).refs }) (hhold : rep.hold = s.report.hold)
    (hdeleted : rep.deletedWrites = s.report.deletedWrites) (hintr : rep.intrPending = s.report.intrPending)
    (st : Status) (res : AckResults) :
    let t := ((s.setPosting (s.posting.setRing n x)).setReport rep).answer r w st res
    OnlyIn [.report, .posting] s t ∧ t.posting.inProgress = none ∧ s.posting.SamePositions t.posting ∧
      (∀ k, t.posting.ring k = if k = n then x else s.posting.ring k) ∧ SameRingRefs rep t.report ∧
      AckAdded r.bound (.ack (ackOf r w) st res) s.report t.report := by
  obtain ⟨-, hrefs⟩ := rep.handIn_added (n := r.bound) (.ack (ackOf r w) st res)
  exact ⟨(((s.setPosting_onlyIn _).mono (by simp)).trans ((State.setReport_onlyIn _ _).mono (by simp))).trans
      (State.answer_onlyIn _ r w st res), rfl, ⟨rfl, rfl, rfl⟩, fun k => PostingUnit.ring_setRing s.posting n k x, hrefs,
    AckAdded.of_refs r.bound _ hring hhold hdeleted hintr⟩

/-- A request of the Posting Unit refused: answered alone. -/
theorem State.answer_refused (st : Status) (res : AckResults) :
    let t := s.answer r w st res
    OnlyIn [.report, .posting] s t ∧ t.posting.inProgress = none ∧ s.posting.SamePositions t.posting ∧
      (∀ k, t.posting.ring k = s.posting.ring k) ∧ SameRingRefs s.report t.report ∧
      AckAdded r.bound (.ack (ackOf r w) st res) s.report t.report := by
  obtain ⟨hadded, hrefs, -⟩ := s.answer_answered r w st res
  exact ⟨s.answer_onlyIn r w st res, rfl, ⟨rfl, rfl, rfl⟩, fun _ => rfl, hrefs, hadded⟩

/-- Settles O34: refused, the request is answered alone; accepted, its ring is made and referenced first. -/
theorem createPostRingMakesTheRingActive : Obligations.CreatePostRingMakesTheRingActive := by
  intro s r w hown number n b base size cls st
  have hst : (CreatePostRequest.read w).check w s = st := CreatePostRequest.check_read s w
  refine ⟨_, hown.exec_request rfl, ?_⟩
  by_cases hok : st = .ok
  · have hring : (CreatePostRequest.read w).ring = ⟨.active, base, size, 0, 0, 1, cls, b⟩ :=
      CreatePostRequest.ring_read w
    have htake : s.takeRequest .createPostRing r w =
        ((s.setPosting (s.posting.setRing n ⟨.active, base, size, 0, 0, 1, cls, b⟩)).setReport (s.report.addRef b)).answer r w
          .ok ((PostRing.mk .active base size 0 0 1 cls b).results number 0) := by
      rw [State.takeRequest, State.takeCreatePost, hst, if_pos hok, hring, hok]
      refine congrArg (State.answer _ r w .ok) (congrArg (fun x : PostRing => x.results number 0) ?_)
      exact (PostingUnit.ring_setRing s.posting n n _).trans (if_pos rfl)
    obtain ⟨honly, hnone, ⟨hhigh, hnormal, hrun⟩, hrings, hrefs, hadded⟩ :=
      s.answer_relinked r w n ⟨.active, base, size, 0, 0, 1, cls, b⟩ (rep := s.report.addRef b)
        (fun k => by rw [ReportUnit.addRef_ring]) rfl rfl rfl .ok ((PostRing.mk .active base size 0 0 1 cls b).results number 0)
    rw [htake]
    refine ⟨honly, hnone, hhigh, hnormal, hrun, fun k => ?_, fun k => ?_, ?_⟩
    · rw [hrings]
      exact if_congr (and_iff_right hok).symm rfl rfl
    · rw [hrefs, ReportUnit.addRef_ring]
      exact congrArg (_ + ·) (if_congr (and_iff_right hok).symm rfl rfl)
    · rw [hrings, if_pos rfl, hok]
      exact hadded.of_results (PostRing.results_eq _ number 0)
  · have htake : s.takeRequest .createPostRing r w = s.answer r w st ((s.posting.ring n).results number 0) := by
      rw [State.takeRequest, State.takeCreatePost, hst, if_neg hok]
      rfl
    obtain ⟨honly, hnone, ⟨hhigh, hnormal, hrun⟩, hrings, hrefs, hadded⟩ :=
      s.answer_refused r w st ((s.posting.ring n).results number 0)
    rw [htake]
    refine ⟨honly, hnone, hhigh, hnormal, hrun, fun k => ?_, fun k => ?_, ?_⟩
    · rw [hrings, if_neg fun h => hok h.1]
    · rw [hrefs, if_neg fun h => hok h.1, Nat.add_zero]
    · rw [hrings]
      exact hadded.of_results (PostRing.results_eq _ number 0)

/-- DELETE_POST_RING, by its status. -/
theorem deletePostRing_discards (hown : AtOwner s .deletePostRing r w) :
    let number := PostSlot.byte w 2
    let n := number.toNat
    let x := s.posting.ring n
    ∃ t, exec .deletePostRing s = .next t ∧ OnlyIn [.report, .posting] s t ∧ t.posting.inProgress = none ∧
      s.posting.SamePositions t.posting ∧
      (∀ k, k ≠ n ∨ s.deletePostCheck w ≠ .ok → t.posting.ring k = s.posting.ring k) ∧
      (s.deletePostCheck w = .ok → (t.posting.ring n).state = .absent) ∧
      (∀ k, (t.report.ring k).refs = (s.report.ring k).refs - (if s.deletePostCheck w = .ok ∧ k = x.bound then 1 else 0)) ∧
      AckAdded r.bound (.ack (ackOf r w) (s.deletePostCheck w)
        (x.results number (if s.deletePostCheck w = .ok then x.present else 0))) s.report t.report := by
  intro number n x
  refine ⟨_, hown.exec_request rfl, ?_⟩
  by_cases hok : s.deletePostCheck w = .ok
  · have htake : s.takeRequest .deletePostRing r w = ((s.setPosting (s.posting.setRing n PostRing.reset)).setReport
        (s.report.releaseRef x.bound)).answer r w .ok (x.results number x.present) := by
      rw [State.takeRequest, State.takeDeletePost, if_pos hok, hok]
      rfl
    obtain ⟨honly, hnone, hpositions, hrings, hrefs, hadded⟩ :=
      s.answer_relinked r w n PostRing.reset (rep := s.report.releaseRef x.bound)
        (fun k => by rw [ReportUnit.releaseRef_ring]) rfl rfl rfl .ok (x.results number x.present)
    rw [htake]
    refine ⟨honly, hnone, hpositions, fun k hk => ?_, fun _ => ?_, fun k => ?_, ?_⟩
    · rw [hrings, if_neg (hk.resolve_right (not_not.2 hok))]
    · rw [hrings, if_pos rfl]
      rfl
    · rw [hrefs, ReportUnit.releaseRef_ring]
      exact congrArg (_ - ·) (if_congr (and_iff_right hok).symm rfl rfl)
    · rw [hok, if_pos rfl]
      exact hadded
  · have htake : s.takeRequest .deletePostRing r w = s.answer r w (s.deletePostCheck w) (x.results number 0) := by
      rw [State.takeRequest, State.takeDeletePost, if_neg hok]
      rfl
    obtain ⟨honly, hnone, hpositions, hrings, hrefs, hadded⟩ :=
      s.answer_refused r w (s.deletePostCheck w) (x.results number 0)
    rw [htake]
    refine ⟨honly, hnone, hpositions, fun k _ => hrings k, fun h => absurd h hok, fun k => ?_, ?_⟩
    · rw [hrefs, if_neg fun h => hok h.1, Nat.sub_zero]
    · rw [if_neg hok]
      exact hadded

/-- RESUME_POST_RING, by its status. -/
theorem resumePostRing_reactivates (hown : AtOwner s .resumePostRing r w) :
    let number := PostSlot.byte w 2
    let n := number.toNat
    let x := s.posting.ring n
    ∃ t, exec .resumePostRing s = .next t ∧ OnlyIn [.report, .posting] s t ∧ t.posting.inProgress = none ∧
      s.posting.SamePositions t.posting ∧
      (∀ k, t.posting.ring k =
        if s.resumePostCheck w = .ok ∧ k = n then { x with state := .active, headNeed := 1 } else s.posting.ring k) ∧
      SameRingRefs s.report t.report ∧
      AckAdded r.bound (.ack (ackOf r w) (s.resumePostCheck w) ((t.posting.ring n).results number 0)) s.report t.report := by
  intro number n x
  refine ⟨_, hown.exec_request rfl, ?_⟩
  by_cases hok : s.resumePostCheck w = .ok
  · have htake : s.takeRequest .resumePostRing r w =
        ((s.setPosting (s.posting.setRing n { x with state := .active, headNeed := 1 })).setReport s.report).answer r w .ok
          (PostRing.results { x with state := .active, headNeed := 1 } number 0) := by
      rw [State.takeRequest, State.takeResumePost, if_pos hok, hok]
      refine congrArg (State.answer _ r w .ok) (congrArg (fun x : PostRing => x.results number 0) ?_)
      exact (PostingUnit.ring_setRing s.posting n n _).trans (if_pos rfl)
    obtain ⟨honly, hnone, hpositions, hrings, hrefs, hadded⟩ :=
      s.answer_relinked r w n { x with state := .active, headNeed := 1 } (rep := s.report) (fun _ => rfl) rfl rfl rfl .ok
        (PostRing.results { x with state := .active, headNeed := 1 } number 0)
    rw [htake]
    refine ⟨honly, hnone, hpositions, fun k => ?_, hrefs, ?_⟩
    · rw [hrings]
      exact if_congr (and_iff_right hok).symm rfl rfl
    · rw [hrings, if_pos rfl, hok]
      exact hadded
  · have htake : s.takeRequest .resumePostRing r w = s.answer r w (s.resumePostCheck w) (x.results number 0) := by
      rw [State.takeRequest, State.takeResumePost, if_neg hok]
      rfl
    obtain ⟨honly, hnone, hpositions, hrings, hrefs, hadded⟩ :=
      s.answer_refused r w (s.resumePostCheck w) (x.results number 0)
    rw [htake]
    refine ⟨honly, hnone, hpositions, fun k => ?_, hrefs, ?_⟩
    · rw [hrings, if_neg fun h => hok h.1]
    · rw [hrings]
      exact hadded

/-- Settles O35: each request by its status, its results spelled out. -/
theorem postRingsAreDeletedAndResumed : Obligations.PostRingsAreDeletedAndResumed := by
  refine ⟨fun s r w hown => ?_, fun s r w hown => ?_⟩
  · obtain ⟨t, he, honly, hnone, ⟨hhigh, hnormal, hrun⟩, hrings, habsent, hrefs, hadded⟩ := deletePostRing_discards s r w hown
    rw [PostRing.results_eq] at hadded
    simp only [State.deletePostCheck_eq] at hrings habsent hrefs hadded
    exact ⟨t, he, honly, hnone, hhigh, hnormal, hrun, hrings, habsent, hrefs, hadded⟩
  · obtain ⟨t, he, honly, hnone, ⟨hhigh, hnormal, hrun⟩, hrings, hrefs, hadded⟩ := resumePostRing_reactivates s r w hown
    have hhead : (t.posting.ring (PostSlot.byte w 2).toNat).head = (s.posting.ring (PostSlot.byte w 2).toNat).head ∧
        (t.posting.ring (PostSlot.byte w 2).toNat).tail = (s.posting.ring (PostSlot.byte w 2).toNat).tail := by
      rw [hrings]
      split <;> exact ⟨rfl, rfl⟩
    rw [PostRing.results_eq, hhead.1, hhead.2] at hadded
    simp only [State.resumePostCheck_eq] at hrings hadded
    exact ⟨t, he, honly, hnone, hhigh, hnormal, hrun, hrings, hrefs, hadded⟩

/-! ### Report rings -/

/-- Settles O37: the request is answered from the Report Unit with the ring deleted, or as it is. -/
theorem deleteReportRingDiscardsWhatIsNotIssued : Obligations.DeleteReportRingDiscardsWhatIsNotIssued := by
  intro s r w hown number n x st
  have hst : s.deleteReportCheck w = st := s.deleteReportCheck_eq w
  refine ⟨_, if st = .ok then s.report.deleteRing n else s.report, hown.exec_request rfl, ?_⟩
  have htake : s.takeRequest .deleteReportRing r w =
      (s.setReport (if st = .ok then s.report.deleteRing n else s.report)).answer r w st
        (x.results number (if st = .ok then s.report.discarded n else 0)) := by
    rw [State.takeRequest, State.takeDeleteReport, hst]
    by_cases hok : st = .ok
    · simp only [if_pos hok]
      rfl
    · simp only [if_neg hok]
      rfl
  have hdiscarded : s.report.discarded n =
      (s.report.hold.filter (fun e => decide (e.ring = n))).length + (x.queue.length - 1) := by
    rw [ReportUnit.discarded, ReportUnit.heldOf, List.length_map]
  obtain ⟨honly, hposting, hadded, hrefs⟩ := s.answer_afterReport r w (if st = .ok then s.report.deleteRing n else s.report) st
    (x.results number (if st = .ok then s.report.discarded n else 0))
  rw [htake]
  refine ⟨honly, hposting, fun h => if_neg h, fun hok => ?_, ?_, hrefs⟩
  · rw [if_pos hok]
    refine ⟨fun k => ReportUnit.ring_setRing s.report n k ReportRing.reset, rfl, rfl, fun hq => ?_, fun y ys hq => ?_⟩
    · have hnone : (s.report.ring n).inFlight = none := by
        change x.inFlight = none
        rw [ReportRing.inFlight, hq]
      rw [ReportUnit.deleteRing, hnone]
      exact List.append_nil _
    · have hsome : (s.report.ring n).inFlight = some ⟨x.base + BitVec.ofNat 64 (32 * x.producer), 32,
        Report.encode x.phase y⟩ := by
        change x.inFlight = _
        rw [ReportRing.inFlight, hq]
        rfl
      rw [ReportUnit.deleteRing, hsome]
      rfl
  · rw [← hdiscarded]
    exact hadded.of_results (ReportRing.results_eq x number _)

end Sys2Proof.Machine
end

section
/-!
SUPPORT. O38, O39 and O41: the arbiter's choice, a record read whole, a take withdrawn.
-/
namespace Sys2Proof.Machine
variable {s : State}

/-! ### Eligibility and the search -/

theorem State.eligible_iff {n : Nat} : s.eligible n = true ↔ RingEligible s n := by
  simp only [State.eligible, RingEligible, Bool.and_eq_true, Bool.or_eq_true, decide_eq_true_eq, ReportRing.running_iff,
    Option.isNone_iff_eq_none, and_assoc, imp_iff_not_or, ne_eq]
  exact Iff.rfl

theorem State.eligibleOf_iff {c : RingClass} {n : Nat} (h1 : 1 ≤ n) (h8 : n ≤ 8) :
    s.eligibleOf c n = true ↔ ClassEligible s c n := by
  simp [State.eligibleOf, State.eligible_iff, ClassEligible, h1, h8]

theorem State.normalEligible_iff : s.normalEligible = true ↔ NormalEligible s := by
  rw [State.normalEligible, List.any_eq_true]
  constructor
  · rintro ⟨n, hn, he⟩
    have hrange : 1 ≤ n ∧ n ≤ 8 := by simp at hn; omega
    exact ⟨n, (State.eligibleOf_iff hrange.1 hrange.2).1 he⟩
  · rintro ⟨n, h⟩
    obtain ⟨h1, h8, -⟩ := id h
    exact ⟨n, by simp; omega, (State.eligibleOf_iff h1 h8).2 h⟩

/-- The ring `k` places along the search after `last` (R134). -/
def searchRing (last : Option Nat) (k : Nat) : Nat := (last.getD 8 + k) % 8 + 1

theorem searchDistance_searchRing (last : Option Nat) {k : Nat} (hk : k < 8) : searchDistance last (searchRing last k) = k := by
  simp only [searchDistance, searchRing]
  omega

/-- A ring number is the one at its distance along the search. -/
theorem searchRing_searchDistance (last : Option Nat) {n : Nat} (h1 : 1 ≤ n) (h8 : n ≤ 8) :
    searchRing last (searchDistance last n) = n := by
  simp only [searchDistance, searchRing]
  omega

theorem searchDistance_lt (last : Option Nat) (n : Nat) : searchDistance last n < 8 := Nat.mod_lt _ (by decide)

theorem searchRing_range (last : Option Nat) (k : Nat) : 1 ≤ searchRing last k ∧ searchRing last k ≤ 8 :=
  ⟨Nat.le_add_left 1 _, Nat.succ_le_of_lt (Nat.mod_lt _ (by decide))⟩

variable {c : RingClass} {last : Option Nat} {n : Nat}

/-- What a search finds is the first in its order (R134). -/
theorem State.search_eq_some (h : s.search c last = some n) : FirstInSearch s c last n := by
  rw [State.search, searchOrder, List.find?_map, Option.map_eq_some_iff] at h
  obtain ⟨k, hfind, rfl⟩ := h
  rw [List.find?_range_eq_some] at hfind
  obtain ⟨hk, hmem, hbefore⟩ := hfind
  obtain ⟨h1, h8⟩ := searchRing_range last k
  refine ⟨(State.eligibleOf_iff h1 h8).1 hk, fun m hm => ?_⟩
  obtain ⟨hm1, hm8, -⟩ := id hm
  have hdist : searchDistance last (searchRing last k) = k := searchDistance_searchRing last (List.mem_range.1 hmem)
  change searchDistance last (searchRing last k) ≤ _
  rw [hdist]
  refine Nat.le_of_not_lt fun hlt => ?_
  have hno := hbefore _ hlt
  change (!s.eligibleOf c (searchRing last (searchDistance last m))) = true at hno
  rw [searchRing_searchDistance last hm1 hm8, (State.eligibleOf_iff hm1 hm8).2 hm] at hno
  exact absurd hno (by decide)

theorem State.search_eq_none (h : s.search c last = none) : ∀ m, ¬ClassEligible s c m := by
  intro m hm
  obtain ⟨hm1, hm8, -⟩ := id hm
  rw [State.search, searchOrder, List.find?_eq_none] at h
  refine h m (List.mem_map.2 ⟨searchDistance last m, List.mem_range.2 (searchDistance_lt last m), ?_⟩)
    ((State.eligibleOf_iff hm1 hm8).2 hm)
  exact searchRing_searchDistance last hm1 hm8

/-- The first ring in the order is what the search finds. -/
theorem State.search_of_first (h : FirstInSearch s c last n) : s.search c last = some n := by
  obtain ⟨helig, hfirst⟩ := h
  cases hfound : s.search c last with
  | none => exact absurd helig (State.search_eq_none hfound n)
  | some m =>
    obtain ⟨helig', hfirst'⟩ := State.search_eq_some hfound
    have hdist := Nat.le_antisymm (hfirst m helig') (hfirst' n helig)
    obtain ⟨h1, h8, -⟩ := helig
    obtain ⟨h1', h8', -⟩ := helig'
    rw [← searchRing_searchDistance last h1 h8, hdist, searchRing_searchDistance last h1' h8']

/-- The arbiter's order gives its choice (R134, R135). -/
theorem State.choice_of_takes (h : ArbiterTakes s n) : s.choice = some n := by
  have hzero := s.eligible_iff (n := 0)
  have hnormal := s.normalEligible_iff
  have hnoHigh : (∀ m, ¬ClassEligible s .high m) → s.search .high s.posting.lastHigh = none := by
    intro hnone
    cases hfound : s.search .high s.posting.lastHigh with
    | none => rfl
    | some m => exact absurd (State.search_eq_some hfound).1 (hnone m)
  have hchoice : ¬RingEligible s 0 → s.choice =
      if Config.maxHighRun ≤ s.posting.highRun ∧ s.normalEligible = true then s.search .normal s.posting.lastNormal
      else (s.search .high s.posting.lastHigh).or (s.search .normal s.posting.lastNormal) := by
    intro h0
    rw [State.choice, if_neg (mt hzero.1 h0)]
    refine if_congr Iff.rfl rfl ?_
    cases s.search .high s.posting.lastHigh <;> rfl
  have hzeroChoice : RingEligible s 0 → s.choice = some 0 := fun h0 => if_pos (hzero.2 h0)
  unfold ArbiterTakes at h
  split at h
  · rename_i hrun
    obtain ⟨h0, rfl⟩ | ⟨h0, hsome, hfirst⟩ | ⟨h0, hnone, hfirst⟩ := h
    · exact hzeroChoice h0
    · rw [hchoice h0, if_pos ⟨hrun, hnormal.2 hsome⟩, State.search_of_first hfirst]
    · rw [hchoice h0, if_neg fun h => hnone (hnormal.1 h.2), State.search_of_first hfirst]
      rfl
  · rename_i hrun
    obtain ⟨h0, rfl⟩ | ⟨h0, hfirst⟩ | ⟨h0, hnone, hfirst⟩ := h
    · exact hzeroChoice h0
    · rw [hchoice h0, if_neg fun h => hrun h.1, State.search_of_first hfirst]
      rfl
    · rw [hchoice h0, if_neg fun h => hrun h.1, hnoHigh hnone, State.search_of_first hfirst]
      rfl

/-- The arbiter chooses a ring from 0 to 8. -/
theorem State.choice_le (h : s.choice = some n) : n ≤ 8 := by
  have hsearch : ∀ {c last}, s.search c last = some n → n ≤ 8 := fun h => (State.search_eq_some h).1.2.1
  unfold State.choice at h
  split at h
  · exact (Option.some.inj h) ▸ Nat.zero_le 8
  · split at h
    · exact hsearch h
    · split at h
      · rename_i hfound
        exact hsearch (hfound.trans h)
      · exact hsearch h

/-- Settles O38: the choice is the arbiter's order, its reservation granted because it is eligible. -/
theorem intakeChoiceTakesTheRingFirstInOrder : Obligations.IntakeChoiceTakesTheRingFirstInOrder := by
  intro s hnone
  refine ⟨_, rfl, fun n htakes => ?_, fun hno => ?_⟩
  · have hchoice := State.choice_of_takes htakes
    obtain ⟨-, -, hbound, hfree, -⟩ := State.eligible_iff.1 (State.choice_eligible hchoice)
    have hreserve := ReportUnit.reserve_granted s.report (s.posting.ring n).bound ((ReportRing.running_iff _).2 hbound) hfree
    simp only [hnone, hchoice, hreserve]
    exact ⟨_, rfl, rfl, rfl, rfl, rfl, rfl, rfl, State.normalEligible_iff, RingBecomes.of_setRing _ _ _, rfl,
      ((s.setReport_onlyIn _).mono (by simp)).trans ((State.setPosting_onlyIn _ _).mono (by simp))⟩
  · have hchoice : s.choice = none := by
      cases hfound : s.choice with
      | none => rfl
      | some n => exact absurd (State.eligible_iff.1 (State.choice_eligible hfound)) (hno n (State.choice_le hfound))
    simp only [hnone, hchoice]
    exact State.afterReset_eq

/-! ### A record read -/

theorem Opcode.ofCode_eq_some_arm : ∀ b : Byte, Opcode.ofCode b = some .arm ↔ b = 0x01 := by decide

theorem Opcode.ofCode_eq_some_extension : ∀ b : Byte, Opcode.ofCode b = some .extension ↔ b = 0x7F := by decide

/-- A record is two slots long exactly when it is an ARM with the FOLLOW bit (R130). -/
theorem PostSlot.length_eq_one_iff (w : PostSlot) :
    PostSlot.length w = 1 ↔ ¬(PostSlot.byte w 0 = 0x01 ∧ PostSlot.bit w 1 4 = true) := by
  have hlen : (PostSlot.opcode w = some .arm ∧ PostSlot.followBit w = true) ↔
      (PostSlot.byte w 0 = 0x01 ∧ PostSlot.bit w 1 4 = true) := and_congr_left fun _ => Opcode.ofCode_eq_some_arm _
  rw [PostSlot.length, ← hlen]
  split <;> simp_all

theorem Opcode.isAdministration_iff (op : Opcode) (h : op ≠ .extension) :
    op.isAdministration = true ↔ op ∉ [.arm, .cancel, .retime, .query] := by
  cases op <;> simp_all [Opcode.isAdministration, Opcode.isTimer]

/-- The intake's checks are those of R138. -/
theorem intakeCheck_eq (ring : Nat) (w : PostSlot) (second : Option PostSlot) :
    intakeCheck ring w second = intakeStatus ring w second := by
  have hsecond : (second.isSome ∧ PostSlot.opcode (second.getD 0) ≠ some .extension) ↔
      second.any (fun x => decide (PostSlot.byte x 0 ≠ 0x7F)) = true := by
    cases second with
    | none => simp
    | some x => simp [PostSlot.opcode, Opcode.ofCode_eq_some_extension]
  unfold intakeCheck intakeStatus
  cases hop : PostSlot.opcode w with
  | none => rfl
  | some op =>
    by_cases hext : op = .extension
    · subst hext
      rfl
    · simp only [if_neg hext]
      refine Eq.trans (if_congr hsecond rfl (if_congr (and_comm.trans (and_congr_right fun _ => op.isAdministration_iff hext))
        rfl rfl)) ?_
      cases op <;> rfl

variable {r : IntakeRecord}

/-- A record read whole goes to its owner where it passes the intake's checks, and is answered where it fails (R137 to R140). -/
theorem State.decodeRecord_routes (w : PostSlot) (second : Option PostSlot) {len : Nat}
    (hlen : (if second.isSome then 2 else 1) = len) :
    let p := s.posting.ring r.ring
    let head := (p.head + len) % p.size
    let t := s.decodeRecord r w second
    (∀ k, t.posting.ring k = if k = r.ring then { p with head := head, headNeed := 1 } else s.posting.ring k) ∧
      PositionsFollow r.ring r.normalEligible s.posting t.posting ∧
      (intakeStatus r.ring w second = .ok → OnlyIn [.posting] s t ∧ ∃ rec, t.posting.inProgress = some rec ∧
        rec.stage = .atOwner ∧ rec.ring = r.ring ∧ rec.bound = r.bound ∧ rec.first = r.first ∧ rec.newHead = head ∧
        rec.slot1 = some w ∧ rec.slot2 = second ∧ rec.length = some len) ∧
      (intakeStatus r.ring w second ≠ .ok → OnlyIn [.posting, .report] s t ∧ t.posting.inProgress = none ∧
        SameRingRefs s.report t.report ∧
        AckAdded r.bound (.ack ⟨r.ring, r.bound, PostSlot.byte w 0, r.first, head⟩ (intakeStatus r.ring w second) .none)
          s.report t.report) := by
  subst hlen
  intro p head t
  refine ⟨s.decodeRecord_ring r w second, ?_⟩
  have hpositions := PostingUnit.noteTake_positions s.posting r.ring { p with head := head, headNeed := 1 } r.normalEligible rfl
  have hsplit : t = s.decodeRecord r w second := rfl
  unfold State.decodeRecord at hsplit
  dsimp only at hsplit
  rw [intakeCheck_eq] at hsplit
  by_cases hok : intakeStatus r.ring w second = .ok
  · rw [if_pos hok] at hsplit
    rw [hsplit]
    refine ⟨hpositions, fun _ => ⟨?_, _, rfl, rfl, rfl, rfl, rfl, rfl, rfl, rfl, rfl⟩, fun h => absurd hok h⟩
    exact (s.setPosting_onlyIn _).trans (State.setPosting_onlyIn _ _)
  · rw [if_neg hok] at hsplit
    rw [hsplit]
    obtain ⟨hadded, hrefs⟩ := s.report.handIn_added (n := r.bound)
      (.ack ⟨r.ring, r.bound, PostSlot.byte w 0, r.first, head⟩ (intakeStatus r.ring w second) .none)
    refine ⟨hpositions, fun h => absurd h hok, fun _ => ⟨?_, rfl, hrefs, hadded⟩⟩
    exact ((s.setPosting_onlyIn _).mono (by simp)).trans ((State.answer_onlyIn _ _ w _ _).mono (by simp))

/-- A first slot read OK (R137). -/
theorem exec_intakeReadAnswer_first (hr : s.posting.inProgress = some r) (hstage : r.stage = .fetching) (hslot : r.slot1 = none)
    (w : PostSlot) : exec (.intakeReadAnswer (.ok w)) s = .next (s.firstSlotRead r w) := by
  show execIntakeReadAnswer (.ok w) s = _
  simp [execIntakeReadAnswer, hr, hstage, hslot]

/-- A second slot read OK (R137). -/
theorem exec_intakeReadAnswer_second (hr : s.posting.inProgress = some r) (hstage : r.stage = .fetching) {w : PostSlot}
    (hslot : r.slot1 = some w) (w2 : PostSlot) :
    exec (.intakeReadAnswer (.ok w2)) s = .next (s.decodeRecord r w (some w2)) := by
  show execIntakeReadAnswer (.ok w2) s = _
  simp [execIntakeReadAnswer, hr, hstage, hslot]

/-- Settles O39: the last read decodes the record; a first slot whose second is present waits for it. -/
theorem intakeAdvancesTheHeadAndRoutes : Obligations.IntakeAdvancesTheHeadAndRoutes := by
  intro s r w hr hstage p two last
  refine ⟨fun hslot hone => ?_, fun w2 hslot => ?_, fun hslot htwo hpresent => ?_⟩
  · refine ⟨_, (exec_intakeReadAnswer_first hr hstage hslot w).trans ?_, State.decodeRecord_routes w none rfl⟩
    rw [State.firstSlotRead, if_pos ((PostSlot.length_eq_one_iff w).2 hone)]
  · exact ⟨_, exec_intakeReadAnswer_second hr hstage hslot w2, State.decodeRecord_routes w (some w2) rfl⟩
  · rw [exec_intakeReadAnswer_first hr hstage hslot w, State.firstSlotRead,
      if_neg fun h => (PostSlot.length_eq_one_iff w).1 h htwo, if_pos (show 2 ≤ (s.posting.ring r.ring).present from hpresent)]

/-- Settles O41: the withdrawal hands the reservation back, and space returns to a ring that runs. -/
theorem twoSlotRecordWithOneSlotIsWithdrawn : Obligations.TwoSlotRecordWithOneSlotIsWithdrawn := by
  intro s r w hr hstage hslot harm hfollow p x hpresent
  have hlen : ¬PostSlot.length w = 1 := fun h => (PostSlot.length_eq_one_iff w).1 h ⟨harm, hfollow⟩
  have he : exec (.intakeReadAnswer (.ok w)) s = .next (s.withdraw r) := by
    rw [exec_intakeReadAnswer_first hr hstage hslot w, State.firstSlotRead, if_neg hlen,
      if_neg (Nat.not_le.2 (show (s.posting.ring r.ring).present < 2 from hpresent))]
  have hstate : ((s.report.setRing r.bound { x with reserved := x.reserved - 1 }).ring r.bound).state = x.state := by
    rw [ReportUnit.ring_setRing, if_pos rfl]
  refine ⟨s.withdraw r, s.report.setRing r.bound { x with reserved := x.reserved - 1 }, he, ?_,
    fun k => PostingUnit.ring_setRing s.posting r.ring k _, rfl, rfl, rfl, rfl, RingBecomes.of_setRing _ _ _, rfl,
    fun hrun => ?_, fun hstopped => ?_⟩
  · simp [OnlyIn, State.withdraw, State.endRecord]
  · exact ReportUnit.returnSpace_returned _ r.bound s.tb.mt (by rwa [hstate])
  · refine ReportUnit.returnSpace_stopped _ r.bound s.tb.mt ?_
    rw [ReportRing.running_eq_false_iff, hstate]
    exact hstopped

end Sys2Proof.Machine
end

section
/-!
SUPPORT. O46 and O47: writes to the registers, and what the window returns.
-/
namespace Sys2Proof.Machine
variable {s : State}

/-! ### Writes to the window -/

/-- A write taken while a condition on the window holds, and ignored otherwise, changes the window alone. -/
theorem exec_windowWrite {c : Instr} {taken : Bool} {f : Window}
    (he : exec c s = .next (if taken = true then s.afterReset.setWindow f else s.afterReset)) :
    ∃ t, exec c s = .next t ∧ OnlyIn [.window] s t ∧ (taken = true → t.window = f) ∧
      (taken = false → ¬ResetAboutToEnd s → t = s) := by
  refine ⟨_, he, ?_, fun h => by rw [if_pos h, State.setWindow_window], fun h hend => ?_⟩
  · split
    · exact State.afterReset_onlyIn.trans (State.setWindow_onlyIn _ _)
    · exact State.afterReset_onlyIn
  · rw [h, if_neg Bool.false_ne_true, State.afterReset_same hend]

theorem Window.adminWritable_of (hready : s.window.ready = true) (hoff : s.window.enabled = false) :
    s.afterReset.window.adminWritable = true := by
  rw [State.afterReset_ready hready, Window.adminWritable, hready, hoff]
  rfl

theorem Window.not_adminWritable_of (hend : ¬ResetAboutToEnd s) (h : s.window.ready = false ∨ s.window.enabled = true) :
    s.afterReset.window.adminWritable = false := by
  rw [State.afterReset_same hend, Window.adminWritable]
  obtain h | h := h <;> rw [h]
  · rfl
  · exact Bool.and_false _

/-- The INT output, pending bit by pending bit (R171). -/
theorem State.intOutput_iff (hmain : s.inputs.mainSupply = true) : s.intOutput = some true ↔
    ∃ n < 9, s.report.intrPending.getLsbD n = true ∧ s.window.intrMask.getLsbD n = false := by
  have hzero : ∀ n, (0 : BitVec 9).getLsbD n = false := fun _ => BitVec.getLsbD_zero
  rw [State.intOutput, if_pos hmain, Option.some.injEq, decide_eq_true_iff, ne_eq, BitVec.eq_of_getLsbD_eq_iff]
  simp only [BitVec.getLsbD_and, BitVec.getLsbD_not, hzero, not_forall, Bool.not_eq_false, Bool.and_eq_true,
    decide_eq_true_eq, Bool.not_eq_true']
  constructor
  · rintro ⟨n, hn, hpending, -, hmask⟩
    exact ⟨n, hn, hpending, hmask⟩
  · rintro ⟨n, hn, hpending, hmask⟩
    exact ⟨n, hn, hpending, hn, hmask⟩

/-- Settles O46: each write is taken or ignored by READY and enabled; INT by the pending bits and the mask. -/
theorem adminAndInterruptRegistersTakeTheirWrites : Obligations.AdminAndInterruptRegistersTakeTheirWrites := by
  refine ⟨fun s v => ?admin, fun s v => ?interrupt⟩
  case admin =>
    obtain ⟨a, ha, hoa, hta, hia⟩ := exec_windowWrite (s := s) (c := .adminPostBaseWrite v) (by rfl)
    obtain ⟨b, hb, hob, htb, hib⟩ := exec_windowWrite (s := s) (c := .adminReportBaseWrite v) (by rfl)
    obtain ⟨c, hc, hoc, htc, hic⟩ := exec_windowWrite (s := s) (c := .adminSizesWrite v) (by rfl)
    refine ⟨a, b, c, ha, hb, hc, hoa, hob, hoc, fun hready hoff => ?_, fun hend h => ?_⟩
    · have hwritable := Window.adminWritable_of hready hoff
      have hsame := State.afterReset_ready hready
      rw [hta hwritable, htb hwritable, htc hwritable, hsame]
      refine ⟨rfl, rfl, rfl, ?_, ?_⟩
      · rw [BitVec.extractLsb'_toNat, Nat.shiftRight_zero]
      · rw [BitVec.extractLsb'_toNat, Nat.shiftRight_eq_div_pow]
    · have hnot := Window.not_adminWritable_of hend h
      exact ⟨hia hnot hend, hib hnot hend, hic hnot hend⟩
  case interrupt =>
    obtain ⟨b, hb, hob, htb, hib⟩ := exec_windowWrite (s := s) (c := .intrMaskWrite v) (by rfl)
    refine ⟨_, b, rfl, hb, ?_, hob, fun hready => ?_, fun hoff hend => ?_, State.intOutput_iff⟩
    · rw [← State.afterReset_eq]
      split
      · exact State.setReport_onlyIn _ _
      · exact OnlyIn.refl _ _
    · have hsame := State.afterReset_ready hready
      rw [hsame, if_pos hready, htb (by rw [hsame]; exact hready), hsame]
      refine ⟨fun n hn => ?_, rfl, fun n hn => ?_, rfl⟩
      · rw [State.setReport_report, BitVec.getLsbD_and, BitVec.getLsbD_not, BitVec.getLsbD_setWidth]
        simp [hn]
      · rw [BitVec.getLsbD_setWidth]
        simp [hn]
    · have hsame := State.afterReset_same hend
      rw [hsame, if_neg (by rw [hoff]; decide)]
      exact ⟨rfl, hib (by rw [hsame]; exact hoff) hend⟩

/-! ### Other accesses -/

/-- The bytes of a register that a read addresses, as numbers. -/
theorem toNat_bytesOf (x : U64) {r size : Nat} (h : r + size ≤ 8) :
    ((x >>> (8 * r)) &&& BitVec.ofNat 64 (2 ^ (8 * size) - 1)).toNat = x.toNat / 256 ^ r % 256 ^ size := by
  have hpow : ∀ k : Nat, (256 : Nat) ^ k = 2 ^ (8 * k) := fun k => by rw [Nat.pow_mul]
  have hle : (2 : Nat) ^ (8 * size) ≤ 2 ^ 64 := Nat.pow_le_pow_right (by decide) (by omega)
  have hpos : 0 < (2 : Nat) ^ (8 * size) := Nat.two_pow_pos _
  rw [BitVec.toNat_and, BitVec.toNat_ushiftRight, BitVec.toNat_ofNat, Nat.mod_eq_of_lt (by omega),
    Nat.and_two_pow_sub_one_eq_mod, Nat.shiftRight_eq_div_pow, hpow, hpow]

/-- Settles O47: a write that is no register's is the command that is ignored; a read is the register's bytes. -/
theorem otherWindowAccessesChangeNothing : Obligations.OtherWindowAccessesChangeNothing := by
  refine ⟨fun s o size v => congrArg Host.Outcome.next State.afterReset_eq, fun o size v h => ?write, fun s offset size => ?read⟩
  case write =>
    by_cases hsize : size = 8
    · have hne : ∀ k : BitVec 7, k ≠ 0 → k.toNat < 0x48 → k.toNat % 8 = 0 → o ≠ k := by
        rintro k hk hlow hmul rfl
        obtain h | h | h | h := h
        · exact h hsize
        · exact hk h
        · omega
        · exact h hmul
      rw [decodeWindowWrite, if_neg (not_not.2 hsize), if_neg (hne _ (by decide) (by decide) (by decide)),
        if_neg (hne _ (by decide) (by decide) (by decide)), if_neg (hne _ (by decide) (by decide) (by decide)),
        if_neg (hne _ (by decide) (by decide) (by decide)), if_neg (hne _ (by decide) (by decide) (by decide)),
        if_neg (hne _ (by decide) (by decide) (by decide)), if_neg (hne _ (by decide) (by decide) (by decide)),
        if_neg (hne _ (by decide) (by decide) (by decide))]
    · rw [decodeWindowWrite, if_pos hsize]
  case read =>
    refine ⟨fun hmain => ?_, fun hmain => ?_⟩
    · rw [State.readRegister, if_neg (by rw [hmain]; decide)]
    · have hsizes : size ∈ [1, 2, 4, 8] ↔ (size = 1 ∨ size = 2 ∨ size = 4 ∨ size = 8) := by simp
      rw [State.readRegister, if_pos hmain]
      by_cases hsize : size = 1 ∨ size = 2 ∨ size = 4 ∨ size = 8
      · rw [if_pos hsize]
        by_cases hwithin : offset % 8 + size ≤ 8
        · rw [if_pos hwithin, if_pos ⟨hsizes.2 hsize, hwithin⟩, ← State.registerAt_toNat, ← toNat_bytesOf _ hwithin,
            BitVec.ofNat_toNat, BitVec.setWidth_eq]
        · rw [if_neg hwithin, if_neg fun h => hwithin h.2]
          rfl
      · rw [if_neg hsize, if_neg fun h => hsize (hsizes.1 h.1)]
        rfl

end Sys2Proof.Machine
end

section
/-!
SUPPORT. O48 to O51: the taking of resets, the supplies.
-/
namespace Sys2Proof.Machine
variable {s t : State}

/-! ### What is outstanding -/

/-- The intake's read, where one is outstanding (R137). -/
theorem State.mem_intakeRead {op : PortOp} : op ∈ s.intakeRead ↔ ∃ r, s.posting.inProgress = some r ∧ r.stage = .fetching ∧
    op = .read ((s.posting.ring r.ring).slotAddr
      (if r.slot1 = none then r.first else (r.first + 1) % (s.posting.ring r.ring).size)) 64 := by
  unfold State.intakeRead
  cases hr : s.posting.inProgress with
  | none => exact ⟨fun h => (nomatch h), fun ⟨_, h, _⟩ => (nomatch h)⟩
  | some r =>
    have hread : (∃ r', some r = some r' ∧ r'.stage = .fetching ∧ op = .read ((s.posting.ring r'.ring).slotAddr
        (if r'.slot1 = none then r'.first else (r'.first + 1) % (s.posting.ring r'.ring).size)) 64) ↔
        r.stage = .fetching ∧ op = .read ((s.posting.ring r.ring).slotAddr
          (if r.slot1 = none then r.first else (r.first + 1) % (s.posting.ring r.ring).size)) 64 :=
      ⟨fun ⟨_, e, h⟩ => Option.some.inj e ▸ h, fun h => ⟨r, rfl, h⟩⟩
    rw [hread]
    by_cases hstage : r.stage = .fetching
    · cases hslot : r.slot1 with
      | none => simp [hstage, hslot]
      | some w => simp [hstage, hslot]
    · simp [hstage]

/-- The operation of an action slot (R173). -/
theorem ActionSlot.outstanding_eq_some {x : ActionSlot} {op : PortOp} : x.outstanding = some op ↔
    (x.stage = .reading ∧ op = .read x.addr x.action.width) ∨ (x.stage = .writing ∧ op = .write x.portWrite) := by
  unfold ActionSlot.outstanding
  cases x.stage <;> simp [eq_comm]

/-- The operations abandoned by a reset are those the statements name (R173). -/
theorem State.mem_outstanding {op : PortOp} : op ∈ s.outstanding ↔ IsOutstanding s op := by
  have hrings : op ∈ (s.ringWrites ++ s.report.deletedWrites).map PortOp.write ↔
      (∃ n w, n < 9 ∧ (s.report.ring n).inFlight = some w ∧ op = .write w) ∨ ∃ w, w ∈ s.report.deletedWrites ∧ op = .write w := by
    rw [List.map_append, List.mem_append]
    simp only [List.mem_map, State.ringWrites, List.mem_filterMap, List.mem_range, Config.numRings, eq_comm (a := op)]
    refine or_congr ⟨?_, ?_⟩ Iff.rfl
    · rintro ⟨w, ⟨n, hn, hw⟩, hop⟩
      exact ⟨n, w, hn, hw, hop⟩
    · rintro ⟨n, w, hn, hw, hop⟩
      exact ⟨w, ⟨n, hn, hw⟩, hop⟩
  have hactions : op ∈ s.actionOps ↔ (∃ i, i < 4 ∧ (s.engine.slot i).stage = .reading ∧
      op = .read (s.engine.slot i).addr (s.engine.slot i).action.width) ∨
      ∃ i, i < 4 ∧ (s.engine.slot i).stage = .writing ∧ op = .write (s.engine.slot i).portWrite := by
    simp only [State.actionOps, List.mem_filterMap, ActionSlot.outstanding_eq_some, actionSlotNumbers, List.mem_range,
      Config.numActionSlots, and_or_left, exists_or]
  rw [State.outstanding, List.mem_append, List.mem_append, State.mem_intakeRead, hrings, hactions, IsOutstanding, or_assoc,
    or_assoc]

/-- The writes that may land at the loss of the main supply are those outstanding or awaited (R75, R172). -/
theorem State.mem_abandonedWrites {w : PortWrite} : w ∈ (s.window.awaited ++ s.outstanding).filterMap PortOp.asWrite ↔
    PortOp.write w ∈ s.window.awaited ∨ IsOutstanding s (.write w) := by
  have hwrite : ∀ op : PortOp, op.asWrite = some w ↔ op = .write w := by
    intro op
    cases op <;> simp [PortOp.asWrite]
  simp only [List.mem_filterMap, hwrite, exists_eq_right, List.mem_append, State.mem_outstanding]

/-- A byte outside every write that may land is as it was. -/
theorem State.read_landAll_abandoned (landed : List (BitVec 32)) {a : Nat}
    (h : ∀ w, PortOp.write w ∈ s.window.awaited ∨ IsOutstanding s (.write w) → ¬w.covers a) :
    Memory.read (Memory.landAll ((s.window.awaited ++ s.outstanding).filterMap PortOp.asWrite) landed s.mem) a =
      Memory.read s.mem a :=
  Memory.read_landAll_outside _ _ _ fun w hw i hi e => h w (State.mem_abandonedWrites.1 hw) ⟨i, hi, e⟩

/-! ### Blocks reset -/

/-- A state whose blocks are those of `resetBlocks`. -/
theorem BlocksReset.of_reset (hstore : t.store = TimerStore.reset) (hdisp : t.disp = Dispatcher.reset)
    (hengine : t.engine = ActionEngine.reset) (hregions : t.regions = []) (hposting : t.posting = PostingUnit.reset)
    (hreport : t.report = ReportUnit.reset) (hlines : t.lines = s.resetBlocks.lines) : BlocksReset s t := by
  refine ⟨hstore, hdisp, hengine, fun n => ?_, hposting, hreport, fun n hn => ?_⟩
  · rw [State.region, hregions]
    rfl
  · rw [State.line_congr hlines, State.resetBlocks_line hn]

theorem TimeBase.functionReset_eq (tb : TimeBase) : tb.functionReset = { tb with
    source := (match tb.pendingSwitch with
      | none => tb.source
      | some p => if p.toFallback then .fallback else .internal),
    pendingStep := none, pendingSwitch := none, marks := false } := by
  unfold TimeBase.functionReset
  cases tb.pendingSwitch <;> rfl

/-- The taking of a function reset, from a state that may differ in the inputs (R173). -/
theorem ResetTaken.of_takeReset {c : ResetCause} : ResetTaken c s.window s (s.takeReset c) := by
  rw [State.takeReset_eq]
  refine ⟨.of_reset (by simp) (by simp) (by simp) (by simp) (by simp) (by simp) (by simp), ?_, fun op => ?_, rfl, rfl, rfl,
    rfl, rfl, rfl,
    rfl, rfl, rfl, rfl, rfl⟩
  · exact TimeBase.functionReset_eq s.tb
  · rw [State.setWindow_window, ← State.mem_outstanding]
    exact List.mem_append

/-- Where the inputs and the window alone differ first, the same blocks are reset and the same operations awaited. -/
theorem ResetTaken.after {u : State} {c : ResetCause} {w : Window} (hf : OnlyIn [.window, .inputs] s u) (h : ResetTaken c w u t) :
    ResetTaken c w s t := by
  have hreport := hf.report_eq (by simp)
  have hposting := OnlyIn.posting_eq hf (by simp)
  have hengine := hf.engine_eq (by simp)
  have hlines := hf.lines_eq (by simp)
  have htb := hf.tb_eq (by simp)
  unfold ResetTaken BlocksReset TimeBaseReset IsOutstanding at *
  simp only [hreport, hposting, hengine, htb, State.line_congr hlines] at h
  exact h

theorem State.takeReset_inputs (c : ResetCause) : (s.takeReset c).inputs = s.inputs := by simp [State.takeReset_eq]
theorem State.takeReset_mem (c : ResetCause) : (s.takeReset c).mem = s.mem := by simp [State.takeReset_eq]

/-- Settles O48: each command that takes a reset is its taking. -/
theorem functionResetIsTakenInOneStep : Obligations.FunctionResetIsTakenInOneStep := by
  refine ⟨fun s e hready => ?_, fun s e hoff hend => ?_, fun s hmain hpin hcold => ?_⟩
  · refine ⟨s.takeReset .control, ?_, .of_takeReset, State.takeReset_inputs _, State.takeReset_mem _, State.takeReset_pending _ _⟩
    change execFunctionReset e s = _
    rw [execFunctionReset, State.afterReset_ready hready, if_pos hready]
  · change execFunctionReset e s = _
    rw [execFunctionReset, State.afterReset_same hend, if_neg (by rw [hoff]; decide)]
  · have hnotCold : s.window.coldInProgress = false := by
      rw [Window.coldInProgress]
      obtain h | h := hcold
      · rw [h]
        rfl
      · rw [decide_eq_false h, Bool.and_false]
    refine ⟨(s.setPin true).takeReset .pin, ?_,
      ResetTaken.after (u := s.setPin true) ((s.setInputs_onlyIn _).mono (by simp)) .of_takeReset,
      State.takeReset_inputs _, State.takeReset_mem _, State.takeReset_pending _ _⟩
    change execResetAssert s = _
    rw [execResetAssert, if_neg (by rw [hpin]; decide), if_pos ⟨hmain, hnotCold⟩]

/-! ### The loss of the main supply -/

/-- The state without the main supply: the blocks reset, the window unpowered, the writes settled (R103, R123). -/
def State.unpowered (s : State) (landed : List (BitVec 32)) : State :=
  (((s.resetBlocks.setTb s.tb.mainLoss).setWindow Window.unpowered).setMem
    (Memory.landAll ((s.window.awaited ++ s.outstanding).filterMap PortOp.asWrite) landed s.mem)).setInputs
      { s.inputs with mainSupply := false }

theorem exec_mainSupplyLoss (hmain : s.inputs.mainSupply = true) (landed : List (BitVec 32)) : exec (.mainSupplyLoss landed) s =
    .next (if s.inputs.keepAliveSupply = true then s.unpowered landed else (s.unpowered landed).loseKeepAlive) := by
  have hinputs : (s.unpowered landed).inputs.keepAliveSupply = s.inputs.keepAliveSupply := rfl
  change execMainSupplyLoss landed s = _
  rw [execMainSupplyLoss, if_pos hmain, ← hinputs]
  rfl

/-- The Time Base at the loss of the main supply (R103). -/
theorem TimeBase.mainLoss_eq (tb : TimeBase) : tb.mainLoss =
    if tb.functionReset.source = .external then
      { tb.functionReset with source := .fallback, prescaler := 0, divInUse := tb.intDivisor }
    else tb.functionReset := rfl

theorem TimeBase.functionReset_source_none {tb : TimeBase} (h : tb.pendingSwitch = none) :
    tb.functionReset.source = tb.source := by
  rw [TimeBase.functionReset_eq, h]

theorem TimeBase.functionReset_source_some {tb : TimeBase} {p : PendingSwitch} (h : tb.pendingSwitch = some p) :
    tb.functionReset.source = if p.toFallback then .fallback else .internal := by
  rw [TimeBase.functionReset_eq, h]

/-- Settles O50: the state without the main supply, the keep-alive domain kept or lost. -/
theorem mainSupplyLossKeepsTheKeepAliveDomain : Obligations.MainSupplyLossKeepsTheKeepAliveDomain := by
  refine ⟨fun s landed hmain hkeep => ?_, fun s landed hmain hkeep => ?_⟩
  · refine ⟨_, exec_mainSupplyLoss hmain landed, ?_⟩
    rw [if_neg (by rw [hkeep]; decide)]
    refine ⟨⟨by simp [State.loseKeepAlive, State.unpowered]; rfl, by simp [State.loseKeepAlive, State.unpowered]; rfl,
      by simp [State.loseKeepAlive, State.unpowered]; rfl, fun n => ?_, by simp [State.loseKeepAlive, State.unpowered]; rfl,
      by simp [State.loseKeepAlive, State.unpowered]; rfl, fun n _ => rfl⟩, rfl, rfl, rfl, rfl, rfl, ?_, rfl, fun n => rfl,
      fun a h => State.read_landAll_abandoned landed h⟩
    · rw [State.region]
      simp [State.loseKeepAlive, State.unpowered]
      rfl
    · simp [State.loseKeepAlive, State.unpowered]
  · refine ⟨_, exec_mainSupplyLoss hmain landed, ?_⟩
    rw [if_pos hkeep]
    have hkept : ∀ tb : TimeBase, tb.mainLoss.mt = tb.mt ∧ tb.mainLoss.offset = tb.offset ∧ tb.mainLoss.trim = tb.trim ∧
        tb.mainLoss.windowPos = tb.windowPos ∧ tb.mainLoss.intDivisor = tb.intDivisor ∧
        tb.mainLoss.extDivisor = tb.extDivisor ∧ tb.mainLoss.pendingStep = none ∧ tb.mainLoss.pendingSwitch = none ∧
        tb.mainLoss.marks = false := by
      intro tb
      rw [TimeBase.mainLoss_eq]
      split <;> exact ⟨rfl, rfl, rfl, rfl, rfl, rfl, rfl, rfl, rfl⟩
    obtain ⟨h1, h2, h3, h4, h5, h6, h7, h8, h9⟩ := hkept s.tb
    refine ⟨.of_reset (by simp [State.unpowered]) (by simp [State.unpowered]) (by simp [State.unpowered])
      (by simp [State.unpowered]) (by simp [State.unpowered]) (by simp [State.unpowered]) (by simp [State.unpowered]),
      rfl, rfl, rfl, rfl, rfl, by simp [State.unpowered], h1, h2, h3, h4, h5, h6, h7, h8, h9, fun hnone he => ?_,
        fun hnone he => ?_,
      fun p hp => ?_, fun a h => State.read_landAll_abandoned landed h⟩
    · change s.tb.mainLoss.source = _ ∧ s.tb.mainLoss.prescaler = _ ∧ s.tb.mainLoss.divInUse = _
      rw [TimeBase.mainLoss_eq, TimeBase.functionReset_source_none hnone, if_pos he]
      exact ⟨rfl, rfl, rfl⟩
    · change s.tb.mainLoss.source = _ ∧ s.tb.mainLoss.prescaler = _ ∧ s.tb.mainLoss.divInUse = _
      rw [TimeBase.mainLoss_eq, TimeBase.functionReset_source_none hnone, if_neg he]
      exact ⟨TimeBase.functionReset_source_none hnone, rfl, rfl⟩
    · change s.tb.mainLoss.source = _
      have hsource := TimeBase.functionReset_source_some hp
      have hne : s.tb.functionReset.source ≠ .external := by
        rw [hsource]
        split <;> decide
      rw [TimeBase.mainLoss_eq, if_neg hne, hsource]

/-! ### The return of supplies -/

/-- Settles O51: each return by the reset it is, the loss of the keep-alive supply by whether the main supply is present. -/
theorem supplyReturnsAreResets : Obligations.SupplyReturnsAreResets := by
  refine ⟨fun s hmain hkeep => ?_, fun s hmain => ?_, fun s hmain => ?_, fun s keepAlive hmain hkeep => ?_⟩
  · have hu : OnlyIn [.window, .inputs] s ((s.setInputs { s.inputs with mainSupply := true }).setWindow Window.unpowered) := by
      simp [OnlyIn]
    refine ⟨_, congrArg Host.Outcome.next (if_pos ⟨hmain, hkeep⟩), .after hu .of_takeReset, rfl, rfl, rfl, rfl, ?_, ?_, ?_⟩
    · exact State.takeReset_inputs _
    · exact State.takeReset_mem _
    · exact State.takeReset_pending _ _
  · refine ⟨_, rfl, ?_⟩
    rw [← State.afterReset_eq, State.afterReset_inputs, if_pos hmain]
    exact ⟨State.setInputs_onlyIn _ _, by rw [State.setInputs_inputs]⟩
  · refine ⟨_, rfl, ?_⟩
    rw [← State.afterReset_eq, State.afterReset_inputs, if_neg (by rw [hmain]; decide)]
    exact ⟨by simp [OnlyIn, State.loseKeepAlive], by simp [State.loseKeepAlive]⟩
  · have hpin : s.resetBlocks.loseKeepAlive.inputs.resetPin = s.inputs.resetPin := by simp [State.loseKeepAlive]
    refine ⟨_, congrArg Host.Outcome.next (if_pos ⟨hmain, hkeep⟩), ?_⟩
    rw [State.endReset_eq]
    refine ⟨by simp [State.loseKeepAlive]; rfl, by simp [State.loseKeepAlive]; rfl, by simp [State.loseKeepAlive]; rfl,
      by simp [State.loseKeepAlive]; rfl, rfl, by simp [State.loseKeepAlive]; rfl, by simp [State.loseKeepAlive]; rfl, rfl,
        ?_, rfl,
      by simp [State.loseKeepAlive], by simp [State.loseKeepAlive]⟩
    rw [State.setWindow_window, State.setInputs_window, State.setWindow_window, State.setInputs_inputs, hpin]
    cases s.inputs.resetPin <;> rfl

end Sys2Proof.Machine
end

section
/-!
SUPPORT. O49: the end of a reset, and the command that takes it.
-/
namespace Sys2Proof.Machine
variable {s : State}

/-! ### Commands in a controller just reset -/

/-- The commands that act on a record, an offer, an action, a completion or a report write: in a controller just reset there is
none. -/
def actsOnBlocks : Instr → Bool
  | .intakeChoice | .intakeReadAnswer _ | .dispatchWalk | .dispatchClaim | .heldActionBegin _ | .actionReadAnswer _ _
  | .actionWriteAnswer _ _ | .lineRequest _ | .lineAnswer _ | .completionReturn | .reportWriteAnswer _ _ => true
  | c => (requestOpcode c).isSome

/-- With the blocks in their reset state such a command does nothing but let a reset about to end end. -/
theorem exec_actsOnBlocks {c : Instr} (h : s.Quiet) (hc : actsOnBlocks c = true) : exec c s = .next s.afterReset := by
  have hslot : ∀ i, s.engine.slot i = ActionSlot.reset := fun i => by rw [h.engine]; rfl
  cases hop : requestOpcode c with
  | some op =>
    obtain ⟨r, w, ⟨hr, -⟩, -⟩ | ⟨-, he⟩ := exec_request hop s
    · rw [h.posting] at hr
      exact nomatch hr
    · exact he
  | none =>
    cases c <;> simp [actsOnBlocks, requestOpcode] at hc hop
    case intakeChoice =>
      have hchoice : s.choice = none := by
        cases hx : s.choice with
        | none => rfl
        | some n =>
          have hactive := State.choice_active hx
          rw [h.posting] at hactive
          exact nomatch hactive
      simp only [exec, execIntakeChoice, hchoice, h.posting, PostingUnit.reset]
    case intakeReadAnswer a => simp only [exec, execIntakeReadAnswer, h.posting, PostingUnit.reset]
    case dispatchWalk =>
      have hwalk : s.walkChoice = none := by rw [State.walkChoice, h.disp]; rfl
      change Host.Outcome.next _ = _
      rw [hwalk]
      split
      · rename_i e
        exact nomatch e
      · rfl
    case dispatchClaim => simp only [exec, execDispatchClaim, h.disp, Dispatcher.reset]
    case heldActionBegin i =>
      simp only [exec, execHeldActionBegin, hslot]
      rfl
    case actionReadAnswer i a =>
      simp only [exec, execActionReadAnswer, hslot]
      rfl
    case actionWriteAnswer i a =>
      simp only [exec, execActionWriteAnswer, hslot]
      rfl
    case lineRequest i =>
      simp only [exec, execLineRequest, hslot]
      rfl
    case lineAnswer i =>
      simp only [exec, execLineAnswer, hslot]
      rfl
    case completionReturn => simp only [exec, execCompletionReturn, h.engine, ActionEngine.reset]
    case reportWriteAnswer x a =>
      have hnone : ∀ n, (s.report.ring n).inFlight = none := fun n => by rw [h.report]; rfl
      cases x with
      | ring n => simp only [exec, execReportWriteAnswer, hnone]
      | deleted k => simp only [exec, execReportWriteAnswer, h.report, ReportUnit.reset, List.getElem?_nil]

/-! ### The command after the taking of a reset -/

theorem State.not_unpowered (hmain : s.inputs.mainSupply = true) {b : Bool} :
    ¬(s.inputs.mainSupply = false ∧ s.inputs.keepAliveSupply = b) := fun h => absurd (hmain.symm.trans h.1) (by decide)

/-- A reset about to end is a function reset's, with the main supply present. -/
theorem ResetAboutToEnd.powered (hend : ResetAboutToEnd s) (hw : s.WindowLaw) :
    s.inputs.mainSupply = true ∧ s.window.enabled = false ∧ s.window.coldInProgress = false := by
  obtain ⟨hready, hprogress, -, hpin⟩ := hend
  refine ⟨hw.mainSupply_of_inProgress hprogress, ?_, ?_⟩
  · exact Bool.eq_false_iff.2 fun hon => absurd ((hw.enabled hon).symm.trans hready) (by decide)
  · rw [Window.coldInProgress, hprogress, Bool.true_and]
    exact decide_eq_false fun hcold => absurd ((hw.cold hprogress hcold).1.symm.trans hpin) (by decide)

/-- The taking of a reset discards whether one was about to end (R173). -/
theorem State.takeReset_ended (hend : ResetAboutToEnd s) (c : ResetCause) :
    (s.afterReset.setPin true).takeReset c = (s.setPin true).takeReset c := by
  rw [State.afterReset_ended hend]
  rfl

/-- What a command other than one of the blocks makes of a state is what it makes of the state with the reset ended. -/
theorem exec_afterReset {c : Instr} (hc : actsOnBlocks c = false) (hend : ResetAboutToEnd s) (hw : s.WindowLaw) :
    exec c s.afterReset = exec c s := by
  obtain ⟨hmain, -, hcold⟩ := hend.powered hw
  obtain ⟨-, hprogress, hawaited, hpin⟩ := id hend
  have hended := State.afterReset_ended hend
  have hmain' : s.afterReset.inputs.mainSupply = true := by rw [State.afterReset_inputs]; exact hmain
  cases c <;> simp only [actsOnBlocks, requestOpcode, Option.isSome_some, Option.isSome_none, reduceCtorEq] at hc
  case resetAssert =>
    have hpin' : s.afterReset.inputs.resetPin = false := by rw [State.afterReset_inputs]; exact hpin
    have hcold' : s.afterReset.window.coldInProgress = false := by rw [hended]; rfl
    change execResetAssert s.afterReset = execResetAssert s
    rw [execResetAssert, execResetAssert, if_neg (by rw [hpin']; decide), if_pos ⟨hmain', hcold'⟩,
      if_neg (by rw [hpin]; decide), if_pos ⟨hmain, hcold⟩, State.takeReset_ended hend]
  case resetRelease =>
    change execResetRelease s.afterReset = execResetRelease s
    have hfrom : (s.setPin false).endReset =
        (s.setPin false).setWindow { s.window with ready := true, resetInProgress := false } := by
      rw [State.endReset, if_pos ⟨hprogress, hawaited, rfl⟩]
      rfl
    have hto : (s.afterReset.setPin false).endReset = s.afterReset.setPin false := by
      rw [State.endReset, if_neg]
      rw [hended]
      exact fun h => nomatch h.1
    rw [execResetRelease, execResetRelease, hfrom, hto, hended]
    rfl
  case abandonedAnswer k ok landed =>
    change execAbandonedAnswer k ok landed s.afterReset = execAbandonedAnswer k ok landed s
    have hnone : s.window.awaited[k]? = none := by rw [hawaited]; rfl
    have hnone' : s.afterReset.window.awaited[k]? = none := by rw [hended]; exact hnone
    simp only [execAbandonedAnswer, hnone, hnone', State.afterReset_twice]
  case mainSupplyLoss landed =>
    rw [exec_mainSupplyLoss hmain, exec_mainSupplyLoss hmain', hended]
    rfl
  case mainSupplyReturn =>
    change execMainSupplyReturn s.afterReset = execMainSupplyReturn s
    rw [execMainSupplyReturn, execMainSupplyReturn, if_neg (State.not_unpowered hmain'), if_neg (State.not_unpowered hmain),
      State.afterReset_twice]
  case coldReset k =>
    change execColdReset k s.afterReset = execColdReset k s
    rw [execColdReset, execColdReset, if_neg (State.not_unpowered hmain'), if_neg (State.not_unpowered hmain),
      State.afterReset_twice]
  all_goals
    simp only [exec, execPostingTailDoorbell, execReportConsumerDoorbell, execDoorbellNoRing, execEnable, execFunctionReset,
      execAdminPostBaseWrite, execAdminReportBaseWrite, execAdminSizesWrite, execDoorbellErrorClear, execIntrPendingClear,
      execIntrMaskWrite, execRegisterWriteOther, execTick, execSourceQualified, execSourceSwitch, execQualificationTimeout,
      execRefclkGap, execAlignEdge, execAlignTimeout, execPulseEnd, execCoalesceTimeExpiry, execRefclkEdge,
      execKeepAliveSupplyLoss, State.afterReset_twice]

/-- Every command but a reset and the loss of the main supply leaves READY 1 where it is 1 and the controller waits for
nothing. -/
theorem exec_keepsReady {c : Instr} {s t : State} (hready : s.window.ready = true) (hmain : s.inputs.mainSupply = true)
    (hawaited : s.window.awaited = []) (hreset : ∀ e, c ≠ .functionReset e) (hassert : c ≠ .resetAssert)
    (hloss : ∀ landed, c ≠ .mainSupplyLoss landed) (he : exec c s = .next t) : t.window.ready = true := by
  have hsame := State.afterReset_ready hready
  by_cases hc : isControlCommand c = false
  · have hkept : SameControl s t := by
      obtain h | h := exec_sameControl hc he
      · exact h
      · exact hsame ▸ h
    exact hkept.ready.trans hready
  · cases c <;> simp [isControlCommand] at hc hreset hassert hloss
    case enable =>
      cases he
      rw [hsame]
      split
      · split <;> exact hready
      · exact hready
    case resetRelease =>
      cases he
      rw [State.endReset_eq, State.setWindow_window]
      dsimp only
      split
      · rfl
      · exact hready
    case abandonedAnswer k ok landed =>
      cases he
      rw [hawaited, hsame]
      exact hready
    case mainSupplyReturn =>
      cases he
      rw [if_neg (State.not_unpowered hmain), hsame]
      exact hready
    case coldReset k =>
      cases he
      rw [if_neg (State.not_unpowered hmain), hsame]
      exact hready
    case keepAliveSupplyLoss =>
      cases he
      rw [hsame]
      dsimp only
      split <;> exact hready

/-! ### The answers awaited -/

theorem List.eraseIdx_eq_nil_iff {α : Type} {l : List α} {k : Nat} (h : k < l.length) : l.eraseIdx k = [] ↔ l.length = 1 := by
  rw [← List.length_eq_zero_iff, List.length_eraseIdx_of_lt h]
  omega

/-- The answer to an awaited operation (R174). -/
theorem exec_abandonedAnswer {k : Nat} {op : PortOp} (hop : s.window.awaited[k]? = some op) (ok : Bool) (landed : BitVec 32) :
    exec (.abandonedAnswer k ok landed) s =
      .next ((s.landOp op landed).setWindow { s.window with awaited := s.window.awaited.eraseIdx k }).endReset := by
  have hwindow := (s.landOp_onlyIn op landed).window_eq (by simp)
  show execAbandonedAnswer k ok landed s = _
  simp only [execAbandonedAnswer, hop, hwindow]

/-- Settles O49: the answer, the release, and the end taken by whatever comes next. -/
theorem resetEndsWithTheLastAnswerAndTheRelease : Obligations.ResetEndsWithTheLastAnswerAndTheRelease := by
  refine ⟨fun s k op ok landed hop hprogress => ?answer, fun s => ?release, fun s v e hend => ?next,
    fun s c hend hw hidle => ?command⟩
  case answer =>
    obtain ⟨hk, -⟩ := List.getElem?_eq_some_iff.1 hop
    have hland := s.landOp_onlyIn op landed
    have hinputs := hland.inputs_eq (by simp)
    refine ⟨_, exec_abandonedAnswer hop ok landed, ?_⟩
    rw [State.endReset_eq]
    refine ⟨?_, ?_, fun addr len hread => ?_, fun w hwrite hlen => ?_⟩
    · exact ((hland.mono (by simp)).trans ((State.setWindow_onlyIn _ _).mono (by simp))).trans
        ((State.setWindow_onlyIn _ _).mono (by simp))
    · simp only [State.setWindow_window, State.setWindow_inputs, hprogress, true_and, List.eraseIdx_eq_nil_iff hk, hinputs]
      by_cases hlast : s.window.awaited.length = 1 ∧ s.inputs.resetPin = false
      · simp [hlast]
      · simp [hlast]
    · subst hread
      rfl
    · subst hwrite
      refine ⟨fun a ha => ?_, fun j hj => ?_⟩
      · exact Memory.read_landUpTo_outside w landed w.len s.mem fun i hi e => ha ⟨i, hi, e⟩
      · exact Memory.read_landUpTo_inside w landed s.mem hj hlen
  case release =>
    refine ⟨_, rfl, ?_⟩
    rw [State.endReset_eq]
    refine ⟨((s.setInputs_onlyIn _).mono (by simp)).trans ((State.setWindow_onlyIn _ _).mono (by simp)), rfl, ?_⟩
    change ({ s.window with ready := if _ ∧ s.window.awaited = [] ∧ false = false then _ else _,
                            resetInProgress := if _ ∧ s.window.awaited = [] ∧ false = false then _ else _ } : Window) = _
    by_cases h : s.window.resetInProgress = true ∧ s.window.awaited = []
    · simp [h, State.setPin]
    · simp [h, State.setPin]
  case next =>
    intro t
    have hended : s.afterReset = t := State.afterReset_ended hend
    refine ⟨fun hqueue => ?_, fun c hc => ?_⟩
    · rw [step_idle hqueue, State.idle, if_pos (State.resetEndsNext_iff.2 hend), State.endReset, if_pos hend.2]
    · rw [← hended]
      simp only [List.mem_cons, List.not_mem_nil, or_false] at hc
      rcases hc with rfl | rfl | rfl | rfl | rfl | rfl <;>
        simp only [exec, execEnable, execFunctionReset, execAdminPostBaseWrite, execAdminReportBaseWrite, execAdminSizesWrite,
          execIntrMaskWrite, State.afterReset_twice]
  case command =>
    obtain ⟨hmain, hoff, -⟩ := hend.powered hw
    have hquiet := State.idleLaw_iff.1 hidle hoff
    have heq : exec c s = exec c (Ended s) := by
      rw [← State.afterReset_eq]
      by_cases hc : actsOnBlocks c = true
      · rw [exec_actsOnBlocks hquiet hc, exec_actsOnBlocks hquiet.afterReset hc, State.afterReset_twice]
      · exact (exec_afterReset (Bool.eq_false_iff.2 hc) hend hw).symm
    refine ⟨heq, fun hreset hassert hloss => ?_⟩
    obtain ⟨t, he, -⟩ := everyCommandAnswersAndKeepsTheQueue c s
    have hended := State.afterReset_ended hend
    refine ⟨t, he, exec_keepsReady (s := Ended s) ?_ ?_ ?_ hreset hassert hloss (heq.symm.trans he)⟩
    · rw [← State.afterReset_eq, hended]
      rfl
    · rw [← State.afterReset_eq, hended]
      exact hmain
    · rw [← State.afterReset_eq, hended]
      exact hend.2.2.1

end Sys2Proof.Machine
end

section
/-!
SUPPORT. O52, O54 to O57: the walk, actions begun and completed, lines.
-/
namespace Sys2Proof.Machine
variable {s : State}

/-! ### The walk -/

/-- An entry that does not stand before another, clause by clause (R53). -/
theorem Offer.not_ranksBefore {tb : TimeBase} {p o : Offer} (h : p.ranksBefore tb o = false) :
    p.lateness tb ≤ o.lateness tb ∧ (p.lateness tb = o.lateness tb → p.scale = .pt → o.scale = .pt) ∧
      (p.lateness tb = o.lateness tb → p.scale = o.scale → o.seq ≤ p.seq) := by
  rw [← Bool.not_eq_true, Offer.ranksBefore_iff, not_or] at h
  obtain ⟨hlate, hsame⟩ := h
  refine ⟨BitVec.not_lt.1 hlate, fun heq hpt => ?_, fun heq hscale => ?_⟩
  · cases ho : o.scale with
    | pt => rfl
    | mt => exact absurd ⟨heq, .inl ⟨hpt, ho⟩⟩ hsame
  · exact Nat.le_of_not_lt fun hlt => hsame ⟨heq, .inr ⟨hscale, hlt⟩⟩

/-- Settles O52: the walk's choice is the first ranked of the entries that pass. -/
theorem walkClaimsTheLatestFreeTarget : Obligations.WalkClaimsTheLatestFreeTarget := by
  intro s ⟨i, hi, hempty⟩ hclaim passes late
  obtain ⟨j, hj⟩ := s.engine.emptySlot_isSome i hi hempty
  have hmem : ∀ o, o ∈ s.disp.offered.filter (fun o => s.engine.passes o.target) ↔ passes o := by
    intro o
    rw [List.mem_filter, ActionEngine.passes_iff]
  refine ⟨_, rfl, fun hnone => ?_, fun ⟨o, ho⟩ => ?_⟩
  · have hchoice : s.walkChoice = none :=
      firstRanked_eq_none.2 (List.eq_nil_iff_forall_not_mem.2 fun o ho => hnone o ((hmem o).1 ho))
    simp only [hj, hclaim, hchoice]
    exact State.afterReset_eq
  · cases hchoice : s.walkChoice with
    | none => exact absurd ((hmem o).2 ho) (by rw [firstRanked_eq_none.1 hchoice]; exact List.not_mem_nil)
    | some q =>
      simp only [hj, hclaim]
      refine ⟨q, (hmem q).1 (firstRanked_mem hchoice), rfl, fun p hp => ?_⟩
      exact Offer.not_ranksBefore (firstRanked_first hchoice p ((hmem p).2 hp))

/-! ### HELD actions -/

theorem dispatchedBefore_append {before after : List Nat} {i : Nat} (h : i ∉ before) :
    dispatchedBefore i (before ++ i :: after) = before := by
  have hall : before.takeWhile (fun j => decide (j ≠ i)) = before :=
    List.takeWhile_eq_self_iff.2 fun j hj => decide_eq_true fun e => h (e ▸ hj)
  rw [dispatchedBefore, List.takeWhile_append, if_pos (by rw [hall]), List.takeWhile_cons_of_neg (by simp), List.append_nil]

/-- A slot stands once in the order of dispatch, so what was dispatched before it is what stands before it. -/
theorem ActionEngine.dispatchedBefore_eq {e : ActionEngine} {i : Nat} {before after : List Nat} (h : e.OrderLaw)
    (horder : e.order = before ++ i :: after) : dispatchedBefore i e.order = before := by
  have hnodup := h.once
  rw [horder, List.nodup_append] at hnodup
  obtain ⟨-, -, hapart⟩ := hnodup
  rw [horder, dispatchedBefore_append fun hi => hapart i hi i (List.mem_cons_self ..) rfl]

/-- A HELD action may begin when no action dispatched before it holds its target (R57). -/
theorem ActionEngine.mayBegin_iff {e : ActionEngine} {i : Nat} {before after : List Nat} (h : e.OrderLaw)
    (horder : e.order = before ++ i :: after) :
    e.mayBegin i = true ↔ ¬∃ j ∈ before, (e.slot i).target ≠ none ∧ (e.slot j).target = (e.slot i).target := by
  have hbefore := ActionEngine.dispatchedBefore_eq h horder
  have hoccupied : ∀ j ∈ before, (e.slot j).stage ≠ .empty := fun j hj =>
    (h.occupied j).1 (by rw [horder]; exact List.mem_append_left _ hj)
  unfold ActionEngine.mayBegin
  cases ht : (e.slot i).target with
  | none => simp
  | some t =>
    have hholds := e.holdsTarget_iff before t
    simp only [hbefore, Bool.not_eq_true']
    rw [← Bool.not_eq_true, hholds]
    refine not_congr ⟨fun ⟨j, hj, _, e⟩ => ⟨j, hj, by simp, e⟩, fun ⟨j, hj, _, e⟩ => ⟨j, hj, hoccupied j hj, e⟩⟩

/-- Settles O54: what stands before a slot in the order of dispatch decides whether it begins. -/
theorem heldActionBeginsInDispatchOrder : Obligations.HeldActionBeginsInDispatchOrder := by
  intro s i hlaw hheld x earlier
  obtain ⟨before, after, horder⟩ := List.append_of_mem ((hlaw.occupied i).2 (by rw [hheld]; decide))
  have hmay := ActionEngine.mayBegin_iff hlaw horder
  have hearlier : earlier ↔ ∃ j ∈ before, x.target ≠ none ∧ (s.engine.slot j).target = x.target := by
    constructor
    · rintro ⟨before', after', j, horder', hj, htarget, heq⟩
      have hsame : before' = before :=
        (ActionEngine.dispatchedBefore_eq hlaw horder').symm.trans (ActionEngine.dispatchedBefore_eq hlaw horder)
      exact ⟨j, hsame ▸ hj, htarget, heq⟩
    · rintro ⟨j, hj, htarget, heq⟩
      exact ⟨before, after, j, horder, hj, htarget, heq⟩
  refine ⟨_, congrArg Host.Outcome.next (if_pos hheld), ?_⟩
  by_cases hbegins : s.engine.mayBegin i = true
  · rw [if_pos hbegins]
    have hno : ¬earlier := fun h => hmay.1 hbegins (hearlier.1 h)
    refine ⟨s.setEngine_onlyIn _, fun k hk => ?_, fun h => absurd h hno, fun _ hkind => ?_⟩
    · by_cases hkind : x.action.kind = .note
      · rw [State.setEngine_engine, ActionEngine.begin_note _ _ _ hkind, ActionEngine.complete_slot, if_neg hk]
      · rw [State.setEngine_engine, ActionEngine.begin_other _ _ _ hkind, ActionEngine.slot_setSlot, if_neg hk]
    · rw [State.setEngine_engine, ActionEngine.begin_other _ _ _ hkind, ActionEngine.slot_setSlot, if_pos rfl]
      exact ⟨rfl, rfl, rfl⟩
  · rw [if_neg hbegins]
    have hyes : earlier := not_not.1 fun h => hbegins (hmay.2 fun h' => h (hearlier.2 h'))
    exact ⟨OnlyIn.refl _ _, fun _ _ => rfl, fun _ => rfl, fun h => absurd hyes h⟩

/-! ### Answers to reads -/

theorem toWidth_toWidth (w : Nat) (v : U64) : toWidth w (toWidth w v) = toWidth w v := by
  rw [toWidth, toWidth, BitVec.and_assoc, BitVec.and_self]

/-- The result of a kind that reads, from the value read in its width (R63 to R67). -/
theorem Action.resultOf_read {a : Action} (v : U64) (h : a.kind ∈ [.load, .setBits, .clearBits, .swapIfEqual, .countDown]) :
    a.resultOf (toWidth a.width v) =
      if a.kind = .countDown ∧ toWidth a.width v ≠ 0 then toWidth a.width v - 1 else toWidth a.width v := by
  unfold Action.resultOf
  rw [toWidth_toWidth]
  cases hk : a.kind <;> simp [hk] at h ⊢
  split <;> simp_all

/-- ZERO tells of a result that is 0, for every kind but the line kinds (R63 to R67, R71). -/
theorem Action.zeroOf_memory {a : Action} (v : U64) (h : ¬(a.kind = .linePulse ∨ a.kind = .lineSet)) :
    a.zeroOf v = decide (a.resultOf v = 0) := by
  unfold Action.zeroOf
  split
  · next e => exact absurd (.inl e) h
  · next e => exact absurd (.inr e) h
  · rfl

/-- A kind that reads issues no write exactly where it completes on its read (R63, R66, R67). -/
theorem Action.writesAfter_read {a : Action} (v : U64) (h : a.kind ∈ [.load, .setBits, .clearBits, .swapIfEqual, .countDown]) :
    a.writesAfter (toWidth a.width v) = true ↔ ¬(a.kind = .load ∨
      (a.kind = .swapIfEqual ∧ toWidth a.width v ≠ toWidth a.width a.opA) ∨ (a.kind = .countDown ∧ toWidth a.width v = 0)) := by
  unfold Action.writesAfter
  rw [toWidth_toWidth]
  cases hk : a.kind <;> simp [hk] at h ⊢

/-- MATCH is set only by a SWAP_IF_EQUAL that goes on to write (R66). -/
theorem Action.matchOf_read {a : Action} (v : U64) (h : a.kind ∈ [.load, .setBits, .clearBits, .swapIfEqual, .countDown]) :
    a.matchOf (toWidth a.width v) = (decide (a.kind = .swapIfEqual) && a.writesAfter (toWidth a.width v)) := by
  unfold Action.matchOf Action.writesAfter
  cases hk : a.kind <;> simp [hk] at h ⊢

/-- Settles O55: the value read writes or completes by its kind; an ERROR completes. -/
theorem readAnswerCompletesOrIssuesTheWrite : Obligations.ReadAnswerCompletesOrIssuesTheWrite := by
  intro s i v hreading x mask old a k hk completes result
  have hresult : x.action.resultOf old = result := Action.resultOf_read v hk
  have hzero : x.action.zeroOf old = decide (result = 0) := by
    rw [Action.zeroOf_memory _ (by rintro (e | e) <;> simp [k, e] at hk), hresult]
  have hwrites : x.action.writesAfter old = true ↔ ¬completes := Action.writesAfter_read v hk
  have hmatch : x.action.matchOf old = (decide (k = .swapIfEqual) && x.action.writesAfter old) := Action.matchOf_read v hk
  have hread : s.engine.readOk i v = if x.action.writesAfter old = true then
      s.engine.setSlot i { { x.computed old with old := some old } with stage := .writing }
      else s.engine.complete i { x.computed old with old := some old } := rfl
  refine ⟨s.setEngine (s.engine.readOk i v), s.setEngine (s.engine.readFailed i), congrArg Host.Outcome.next (if_pos hreading),
    congrArg Host.Outcome.next (if_pos hreading), s.setEngine_onlyIn _, s.setEngine_onlyIn _, fun j hj => ⟨?_, ?_⟩,
    fun hc => ?_, fun hc => ?_, ?_, rfl, rfl⟩
  · rw [State.setEngine_engine, hread]
    split
    · rw [ActionEngine.slot_setSlot, if_neg hj]
    · rw [ActionEngine.complete_slot, if_neg hj]
  · rw [State.setEngine_engine, ActionEngine.readFailed, ActionEngine.complete_slot, if_neg hj]
  · have hno := mt hwrites.1 (not_not.2 hc)
    rw [Bool.eq_false_iff.2 hno, Bool.and_false] at hmatch
    rw [State.setEngine_engine, hread, if_neg hno]
    refine ⟨by rw [ActionEngine.complete_slot, if_pos rfl], rfl, ?_⟩
    rw [ActionEngine.complete_returns, ← hzero, ← hresult, ← hmatch]
    rfl
  · have hyes := hwrites.2 hc
    rw [hyes, Bool.and_true] at hmatch
    rw [State.setEngine_engine, hread, if_pos hyes, ActionEngine.slot_setSlot, if_pos rfl, ← hzero, ← hresult, ← hmatch]
    exact ⟨rfl, rfl, rfl⟩
  · rw [State.setEngine_engine, ActionEngine.readFailed, ActionEngine.complete_slot, if_pos rfl]

/-! ### Answers to writes -/

/-- A bit of a value taken to a width. -/
theorem getLsbD_toWidth (w : Nat) (v : U64) (k : Nat) : (toWidth w v).getLsbD k = (v.getLsbD k && decide (k < 8 * w)) := by
  rw [toWidth, BitVec.getLsbD_and, BitVec.getLsbD_ofNat, Nat.testBit_two_pow_sub_one]
  by_cases hk : k < 64
  · rw [decide_eq_true hk, Bool.true_and]
  · rw [BitVec.getLsbD_of_ge _ _ (Nat.not_lt.1 hk), Bool.false_and, Bool.false_and]

/-- The bytes of a write depend on its value in its width alone. -/
theorem byte_of_toWidth {w j : Nat} (hw : w ≤ 8) (hj : j < w) {u v : U64} (h : toWidth w u = toWidth w v) :
    (u.setWidth 256).extractLsb' (8 * j) 8 = v.extractLsb' (8 * j) 8 := by
  refine BitVec.eq_of_getLsbD_eq fun k hk => ?_
  have hbit : u.getLsbD (8 * j + k) = v.getLsbD (8 * j + k) := by
    have h' := congrArg (fun x : U64 => x.getLsbD (8 * j + k)) h
    simpa only [getLsbD_toWidth, decide_eq_true (show 8 * j + k < 8 * w by omega), Bool.and_true] using h'
  rw [BitVec.getLsbD_extractLsb', BitVec.getLsbD_extractLsb', BitVec.getLsbD_setWidth, hbit,
    decide_eq_true (show 8 * j + k < 256 by omega), Bool.true_and]

/-- A write answered OK has all its bytes in memory. -/
theorem Memory.read_settle_ok (w : PortWrite) (m : List Host.Cell) {j : Nat} (hj : j < w.len) (h32 : w.len ≤ 32) :
    Memory.read (Memory.settle w .ok m) (w.addrOf j) = some (w.byte j) := by
  have h := Memory.read_landUpTo_inside w (BitVec.allOnes 32) m hj h32
  rwa [BitVec.getLsbD_allOnes, decide_eq_true (show j < 32 by omega), if_pos rfl] at h

/-- The value that an action of a kind writes, from the old value in its width (R64 to R67). -/
def Action.storeValue (a : Action) (old : U64) : U64 :=
  match a.kind with
  | .store => a.opA
  | .setBits => old ||| a.opA
  | .clearBits => old &&& ~~~a.opA
  | .swapIfEqual => a.opB
  | _ => old - 1

theorem Action.valueWritten_toWidth {a : Action} (v : U64)
    (h : a.kind ∈ [.store, .setBits, .clearBits, .swapIfEqual, .countDown]) :
    toWidth a.width (a.valueWritten v) = toWidth a.width (a.storeValue (toWidth a.width v)) := by
  unfold Action.valueWritten Action.storeValue
  cases hk : a.kind <;> simp only [hk, List.mem_cons, List.not_mem_nil, reduceCtorEq, or_false, or_self] at h ⊢
  case store => exact toWidth_toWidth _ _
  case swapIfEqual => exact toWidth_toWidth _ _
  case setBits =>
    rw [toWidth_toWidth]
    refine BitVec.eq_of_getLsbD_eq fun k _ => ?_
    simp only [getLsbD_toWidth, BitVec.getLsbD_or]
    cases v.getLsbD k <;> cases a.opA.getLsbD k <;> cases decide (k < 8 * a.width) <;> rfl
  case clearBits =>
    rw [toWidth_toWidth]
    refine BitVec.eq_of_getLsbD_eq fun k _ => ?_
    simp only [getLsbD_toWidth, BitVec.getLsbD_and]
    cases v.getLsbD k <;> cases (~~~a.opA).getLsbD k <;> cases decide (k < 8 * a.width) <;> rfl

theorem toNat_toWidth {w : Nat} (hw : w ≤ 8) (v : U64) : (toWidth w v).toNat = v.toNat % 2 ^ (8 * w) := by
  have hpow : 2 ^ (8 * w) ≤ 2 ^ 64 := Nat.pow_le_pow_right (by decide) (by omega)
  have hpos : 0 < 2 ^ (8 * w) := Nat.two_pow_pos _
  rw [toWidth, BitVec.toNat_and, BitVec.toNat_ofNat, Nat.mod_eq_of_lt (by omega), Nat.and_two_pow_sub_one_eq_mod]

/-- A value in a width that is not 0, less one, is in that width. -/
theorem toWidth_sub_one {w : Nat} (hw : w ≤ 8) {v : U64} (h : toWidth w v ≠ 0) :
    toWidth w (toWidth w v - 1) = toWidth w v - 1 := by
  have hlt : (toWidth w v).toNat < 2 ^ (8 * w) := by
    rw [toNat_toWidth hw]
    exact Nat.mod_lt _ (Nat.two_pow_pos _)
  have hpos : 1 ≤ (toWidth w v).toNat := Nat.one_le_iff_ne_zero.2 fun h0 => h (BitVec.eq_of_toNat_eq h0)
  have hsub : (toWidth w v - 1).toNat = (toWidth w v).toNat - 1 := BitVec.toNat_sub_of_le hpos
  apply BitVec.eq_of_toNat_eq
  rw [toNat_toWidth hw, hsub, Nat.mod_eq_of_lt (by omega)]

/-- The result of a kind that writes (R64 to R67). -/
theorem Action.resultOf_write {a : Action} (v : U64) (hw : a.width ≤ 8)
    (h : a.kind ∈ [.store, .setBits, .clearBits, .swapIfEqual, .countDown])
    (hcount : a.kind = .countDown → toWidth a.width v ≠ 0) :
    a.resultOf v = if a.kind = .store ∨ a.kind = .countDown then toWidth a.width (a.storeValue (toWidth a.width v))
      else toWidth a.width v := by
  unfold Action.resultOf Action.storeValue
  cases hk : a.kind <;> simp only [hk, List.mem_cons, List.not_mem_nil, reduceCtorEq, or_false, or_self] at h ⊢
  case countDown =>
    have hne := hcount hk
    rw [if_neg hne, if_pos (Or.inr trivial), toWidth_sub_one hw hne]
  all_goals rfl

/-- Settles O56: the write lands its bytes, and the action completes. -/
theorem writeAnswerStoresExactlyTheTargetBytes : Obligations.WriteAnswerStoresExactlyTheTargetBytes := by
  intro s i answer hwriting x w mask old k hw hk hcount hswap v result landed
  have hle : w ≤ 8 := by
    simp only [List.mem_cons, List.not_mem_nil, or_false] at hw
    omega
  have hresult : x.action.resultOf (x.old.getD 0) = result := Action.resultOf_write _ hle hk hcount
  have hzero : x.action.zeroOf (x.old.getD 0) = decide (result = 0) := by
    rw [← hresult]
    exact Action.zeroOf_memory _ (by rintro (e | e) <;> simp [k, e] at hk)
  have hmatch : x.action.matchOf (x.old.getD 0) = decide (k = .swapIfEqual) := by
    unfold Action.matchOf
    cases hkind : x.action.kind
    case swapIfEqual => exact (decide_eq_true (hswap hkind)).trans (decide_eq_true hkind).symm
    all_goals exact (decide_eq_false (by rw [show k = x.action.kind from rfl, hkind]; decide)).symm
  have hstatus : statusOfWrite answer = if answer = .ok then .ok else .writeError := by
    cases answer <;> rfl
  refine ⟨_, congrArg Host.Outcome.next (if_pos hwriting), ?_, fun addr h => ?_, fun j hj => ?_, fun j hj => ?_, ?_, rfl, ?_⟩
  · exact ((s.setMem_onlyIn _).mono (by simp)).trans ((State.setEngine_onlyIn _ _).mono (by simp))
  · exact Memory.read_settle_outside x.portWrite answer s.mem h
  · have hbyte : x.portWrite.byte j = v.extractLsb' (8 * j) 8 :=
      byte_of_toWidth hle hj (Action.valueWritten_toWidth _ hk)
    have h32 : w ≤ 32 := by omega
    rw [← hbyte]
    cases answer with
    | ok => exact Memory.read_settle_ok x.portWrite s.mem hj h32
    | error l => exact Memory.read_landUpTo_inside x.portWrite l s.mem hj h32
  · rw [State.setEngine_engine, ActionEngine.writeAnswered, ActionEngine.complete_slot, if_neg hj]
  · rw [State.setEngine_engine, ActionEngine.writeAnswered, ActionEngine.complete_slot, if_pos rfl]
  · rw [State.setEngine_engine, ActionEngine.writeAnswered, ActionEngine.complete_returns, ← hstatus, ← hzero, ← hresult,
      ← hmatch]
    rfl

/-! ### Lines -/

/-- A line request keeps the rest level (R115). -/
theorem LineRec.request_rest (l : LineRec) (a : Action) (mt : U64) : (l.request a mt).rest = l.rest := by
  unfold LineRec.request
  split
  · unfold LineRec.pulse
    split <;> rfl
  · split
    · unfold LineRec.setTo
      split <;> rfl
    · rfl
  · rfl

/-- A LINE_PULSE request is the pulse of operand A (R117). -/
theorem LineRec.request_linePulse {a : Action} (l : LineRec) (mt : U64) (h : a.kind = .linePulse) :
    l.request a mt = l.pulse mt a.opA := by
  rw [LineRec.request, h]

/-- A LINE_SET request is the setting that operand A names (R118). -/
theorem LineRec.request_lineSet {a : Action} {v : LineValue} (l : LineRec) (mt : U64) (h : a.kind = .lineSet)
    (hv : LineValue.ofOperand a.opA = some v) : l.request a mt = l.setTo v := by
  simp only [LineRec.request, h, hv]

/-- A pulse asked of a PULSING line ends at the later of the two ends (R117). -/
theorem LineRec.pulse_pulsing {l : LineRec} {p : U64} (mt w : U64) (hstate : l.state = .pulsing) (hend : l.pulseEnd = some p) :
    l.pulse mt w = ⟨.pulsing, some (if p - mt < w then mt + w else p), l.rest⟩ := by
  obtain ⟨state, pulseEnd, rest⟩ := l
  cases hstate
  cases hend
  have hback : mt + (p - mt) = p := by rw [BitVec.add_comm, BitVec.sub_add_cancel]
  simp only [LineRec.pulse, Option.getD_some, apply_ite (mt + ·), hback]

theorem LineRec.pulse_rest {l : LineRec} (mt w : U64) (hstate : l.state = .rest) :
    l.pulse mt w = ⟨.pulsing, some (mt + w), l.rest⟩ := by
  simp only [LineRec.pulse, hstate]

theorem LineRec.pulse_held {l : LineRec} (mt w : U64) (hstate : l.state = .held) : l.pulse mt w = l := by
  simp only [LineRec.pulse, hstate]

/-- Settles O57: the request changes its own line, and the answer completes the action. -/
theorem lineActionsChangeTheirLineAlone : Obligations.LineActionsChangeTheirLineAlone := by
  refine ⟨fun s i hline hanswer => ?_, fun s i st hline hanswer => ?_, fun s n => ⟨fun h => ?_, fun h => ?_⟩⟩
  · intro x n l a
    have hn : ((s.setLine n (l.request x.action s.tb.mt)).setEngine
        (s.engine.setSlot i { x with answer := some (l.request x.action s.tb.mt).state })).line n =
          l.request x.action s.tb.mt := (s.line_setLine n n _).trans (if_pos rfl)
    refine ⟨_, congrArg Host.Outcome.next (if_pos ⟨hline, hanswer⟩), ?_, fun k hk => ?_, ?_, fun hk hs => ?_,
      fun hk p hs hp => ?_,
      fun hk hs => ?_, fun hk ha => ?_, fun hk ha => ?_, fun hk ha => ?_, fun j hj => ?_, ?_, rfl, rfl⟩
    · exact ((s.setLines_onlyIn _).mono (by simp)).trans ((State.setEngine_onlyIn _ _).mono (by simp))
    · exact (s.line_setLine n k _).trans (if_neg hk)
    · rw [hn, LineRec.request_rest]
    · rw [hn, LineRec.request_linePulse l _ hk, LineRec.pulse_rest _ _ hs]
    · rw [hn, LineRec.request_linePulse l _ hk, LineRec.pulse_pulsing _ _ hs hp]
    · rw [hn, LineRec.request_linePulse l _ hk, LineRec.pulse_held _ _ hs]
    · exact hn.trans (LineRec.request_lineSet (v := .active) l _ hk (by rw [show x.action.opA = 1 from ha]; rfl))
    · exact hn.trans (LineRec.request_lineSet (v := .rest) l _ hk (by rw [show x.action.opA = 2 from ha]; rfl))
    · exact hn.trans (LineRec.request_lineSet (v := .toggle) l _ hk (by rw [show x.action.opA = 3 from ha]; rfl))
    · exact (s.engine.slot_setSlot i j _).trans (if_neg hj)
    · rw [hn]
      exact (s.engine.slot_setSlot i i _).trans (if_pos rfl)
  · intro x code
    have hcode : BitVec.ofNat 64 st.code = code := by cases st <;> rfl
    have hexec : exec (.lineAnswer i) s = .next (s.setEngine (s.engine.complete i
        { x with result := BitVec.ofNat 64 st.code, matchFlag := false, zeroFlag := false })) := by
      show execLineAnswer i s = _
      simp only [execLineAnswer, hline, hanswer, x]
    refine ⟨_, hexec, s.setEngine_onlyIn _, fun j hj => ?_, ?_, rfl, ?_⟩
    · rw [State.setEngine_engine, ActionEngine.complete_slot, if_neg hj]
    · rw [State.setEngine_engine, ActionEngine.complete_slot, if_pos rfl]
    · rw [State.setEngine_engine, ActionEngine.complete_returns, hcode]
  · exact if_neg (Bool.eq_false_iff.1 h)
  · rw [State.outputLevel, h]
    refine congrArg some ?_
    rw [LineRec.level]
    cases (s.line n).state <;> cases (s.line n).rest <;> rfl

end Sys2Proof.Machine
end

section
/-!
SUPPORT. O59 and O60: the answers to report writes.
-/
namespace Sys2Proof.Machine
variable {s : State}

/-- The write of a record at a ring's producer under its phase (R151). -/
def ReportRing.writeOf (x : ReportRing) (y : Report) : PortWrite := ⟨x.slotAddr x.producer, 32, y.encode x.phase⟩

theorem ReportRing.writeOf_byte (x : ReportRing) (y : Report) (j : Nat) :
    (x.writeOf y).byte j = (y.encode x.phase).extractLsb' (8 * j) 8 := rfl

/-- The write in flight of a ring is the oldest record of its queue, at its producer (R151). -/
theorem ReportRing.inFlight_cons {x : ReportRing} {y : Report} {ys : List Report} (h : x.queue = y :: ys) :
    x.inFlight = some (x.writeOf y) := by
  simp only [ReportRing.inFlight, h, ReportRing.writeOf]

/-- The answer to the write in flight of a ring that is ACTIVE or LOSSY is the ring's own. -/
theorem exec_ringWriteAnswered {n : Nat} {y : Report} {ys : List Report} (answer : WriteAnswer)
    (hstate : (s.report.ring n).state = .active ∨ (s.report.ring n).state = .lossy)
    (hqueue : (s.report.ring n).queue = y :: ys) :
    exec (.reportWriteAnswer (.ring n) answer) s =
      .next (s.ringWriteAnswered n ((s.report.ring n).writeOf y) answer) := by
  show execReportWriteAnswer (.ring n) answer s = _
  simp only [execReportWriteAnswer, ReportRing.inFlight_cons hqueue, if_pos ((ReportRing.running_iff _).2 hstate)]

theorem State.ringWriteAnswered_ok (n : Nat) (w : PortWrite) : s.ringWriteAnswered n w .ok =
    (s.setMem (Memory.settle w .ok s.mem)).setReport (s.report.written n s.tb.mt) := rfl

/-- The codes of the records and registers stand as the tables of chapter 10 list them. -/
theorem codesAsListed : CodesAsListed := by
  refine ⟨by decide, rfl, rfl, rfl, rfl, rfl, rfl, rfl, rfl, rfl, rfl⟩

/-- The ring after its record is written, before its bit is raised. -/
def ReportRing.afterWrite (x : ReportRing) (mt : U64) : ReportRing :=
  ({ x with queue := x.queue.tail }.advance).countWritten mt

/-- What a written record changes in its ring, but for the count toward the interrupt (R151). -/
theorem ReportRing.afterWrite_eq (x : ReportRing) (mt : U64) : x.afterWrite mt = { x with
    queue := x.queue.tail, producer := (x.producer + 1) % x.size,
    phase := if (x.producer + 1) % x.size = 0 then !x.phase else x.phase,
    unsignalled := if x.intEnable = true then x.unsignalled + 1 else x.unsignalled,
    oldest := if x.intEnable = true then (if x.unsignalled = 0 then some mt else x.oldest) else x.oldest } := by
  unfold ReportRing.afterWrite ReportRing.advance ReportRing.countWritten
  cases h : x.intEnable <;> simp

/-- A written record raises its ring's bit by count or by time (R169, R170). -/
theorem ReportRing.mustSignal_afterWrite {x : ReportRing} {mt : U64} : (x.afterWrite mt).mustSignal mt = true ↔
    x.intEnable = true ∧ (x.coalesceCount ≤ x.unsignalled + 1 ∨ (x.coalesceTime ≠ 0 ∧
      ∃ o, (if x.unsignalled = 0 then some mt else x.oldest) = some o ∧ x.coalesceTime ≤ (mt - o).toNat)) := by
  rw [ReportRing.mustSignal, Bool.and_eq_true, Bool.or_eq_true, decide_eq_true_iff, ReportRing.timeReached_iff,
    ReportRing.afterWrite_eq]
  refine and_congr_right fun h => ?_
  have h : x.intEnable = true := h
  simp only [if_pos h, Nat.succ_pos, true_and]

/-- The Report Unit after a ring's write, as the ring's bit is raised or not (R169, R170). -/
theorem ReportUnit.written_eq (r : ReportUnit) (n : Nat) (mt : U64) :
    r.written n mt = if ((r.ring n).afterWrite mt).mustSignal mt = true
      then (r.setRing n ((r.ring n).afterWrite mt).signalled).raise n else r.setRing n ((r.ring n).afterWrite mt) := rfl

/-- Settles O59: the record's bytes land, its ring advances, and the count signals or goes on. -/
theorem writtenRecordAdvancesTheProducer : Obligations.WrittenRecordAdvancesTheProducer := by
  refine ⟨codesAsListed, fun s n y ys => ?_⟩
  intro x hstate hqueue addr p count since signal
  have hsignal : (x.afterWrite s.tb.mt).mustSignal s.tb.mt = true ↔ signal := ReportRing.mustSignal_afterWrite
  have hafter := x.afterWrite_eq s.tb.mt
  rw [hqueue, List.tail_cons] at hafter
  refine ⟨_, (exec_ringWriteAnswered .ok hstate hqueue).trans (congrArg _ (State.ringWriteAnswered_ok n (x.writeOf y))), ?_,
    fun j hj => ?_, fun a ha => ?_, ?_⟩
  · exact ((s.setMem_onlyIn _).mono (by simp)).trans ((State.setReport_onlyIn _ _).mono (by simp))
  · rw [State.setReport_mem, State.setMem_mem, ← y.encode_byte x.phase hj, ← x.writeOf_byte]
    exact Memory.read_settle_ok (x.writeOf y) s.mem hj (Nat.le_refl 32)
  · rw [State.setReport_mem, State.setMem_mem]
    exact Memory.read_settle_outside (x.writeOf y) .ok s.mem ha
  · rw [State.setReport_report, ReportUnit.written_eq]
    by_cases h : signal
    · rw [if_pos (hsignal.2 h)]
      have hring : ∀ k, ((s.report.setRing n (x.afterWrite s.tb.mt).signalled).raise n).ring k =
          if k = n then (x.afterWrite s.tb.mt).signalled else s.report.ring k := fun k => s.report.ring_setRing n k _
      have hn := (hring n).trans (if_pos rfl)
      refine ⟨fun k hk => (hring k).trans (if_neg hk), ?_, fun _ => ?_, fun hno => absurd h hno, fun hoff => ?_,
        fun k hk => ?_, rfl, rfl⟩
      · rw [hn, hafter]
        rfl
      · rw [hn]
        exact ⟨rfl, rfl⟩
      · exact absurd (hoff.symm.trans h.1) (by decide)
      · rw [ReportUnit.raise_bit _ _ hk, Bool.or_eq_true, decide_eq_true_iff]
        exact or_congr_right (and_iff_left h).symm
    · rw [if_neg (mt hsignal.1 h)]
      have hring : ∀ k, (s.report.setRing n (x.afterWrite s.tb.mt)).ring k =
          if k = n then x.afterWrite s.tb.mt else s.report.ring k := fun k => s.report.ring_setRing n k _
      have hn := (hring n).trans (if_pos rfl)
      refine ⟨fun k hk => (hring k).trans (if_neg hk), ?_, fun hyes => absurd hyes h, fun _ hon => ?_, fun hoff => ?_,
        fun k _ => (or_iff_left fun hk => h hk.2).symm, rfl, rfl⟩
      · rw [hn, hafter]
      · rw [hn, hafter, if_pos hon, if_pos hon]
        exact ⟨rfl, rfl⟩
      · have hoff : ¬x.intEnable = true := Bool.eq_false_iff.1 hoff
        rw [hn, hafter, if_neg hoff, if_neg hoff]
        exact ⟨rfl, rfl⟩

/-- A byte outside those let through is left as it was (R163, log entry 9). -/
theorem Memory.read_landUpTo_notLanded (w : PortWrite) (landed : BitVec 32) (n : Nat) (m : List Host.Cell) {a : Nat}
    (h : ∀ j < n, landed.getLsbD j = true → a ≠ w.addrOf j) :
    Memory.read (Memory.landUpTo w landed n m) a = Memory.read m a := by
  induction n with
  | zero => rfl
  | succ n ih =>
    have ih := ih fun j hj => h j (Nat.lt_succ_of_lt hj)
    simp only [Memory.landUpTo]
    split
    · next hbit => rw [Memory.read_write_ne _ _ (h n (Nat.lt_succ_self n) hbit), ih]
    · exact ih

/-- Settles O60: a failed write faults its ring and tells of it; a deleted ring's write touches memory alone. -/
theorem failedReportWriteFaultsTheRing : Obligations.FailedReportWriteFaultsTheRing := by
  refine ⟨fun s n y ys landed => ?_, fun s k w answer hk => ?_⟩
  · intro x hstate hqueue addr
    have hmem : (s.ringWriteAnswered n (x.writeOf y) (.error landed)).mem =
        Memory.settle (x.writeOf y) (.error landed) s.mem := by
      rw [State.ringWriteAnswered, (State.ringFault_onlyIn _ n).mem_eq (by simp)]
      rfl
    refine ⟨_, s.report.faultRing n, exec_ringWriteAnswered (.error landed) hstate hqueue,
      (s.ringWriteAnswered_onlyIn n _ _).mono (by simp),
      ⟨fun k => s.report.ring_setRing n k { x with state := .faulted, queue := [] }, rfl, rfl⟩, rfl, fun hn => ?_, fun hn => ?_,
      fun j hj hbit => ?_, fun a ha => ?_⟩
    · rw [State.ringWriteAnswered, State.ringFault, if_neg hn]
      exact ⟨ReportUnit.take_arrived _ 0 _, rfl⟩
    · rw [State.ringWriteAnswered, State.ringFault, if_pos hn]
      exact ⟨rfl, State.setAdminFault_window_fault _ _⟩
    · rw [hmem]
      exact (Memory.read_landUpTo_inside (x.writeOf y) landed s.mem hj (Nat.le_refl 32)).trans (if_pos hbit)
    · rw [hmem]
      exact Memory.read_landUpTo_notLanded (x.writeOf y) landed 32 s.mem ha
  · refine ⟨s.deletedWriteAnswered k w answer, ?_, ?_, rfl, fun a ha => ?_⟩
    · show execReportWriteAnswer (.deleted k) answer s = _
      simp only [execReportWriteAnswer, hk]
    · exact ((s.setMem_onlyIn _).mono (by simp)).trans ((State.setReport_onlyIn _ _).mono (by simp))
    · exact Memory.read_settle_outside w answer s.mem fun i hi h => ha ⟨i, hi, h⟩

end Sys2Proof.Machine
end
